-- ==== Sys2Proof/Word.lean ====
section
/-!
DEFINITION. The words and data formats the OB-2460 works with: bytes of the port, the ranges of its numbered things,
dates, and the stored form of a schedule record's content and of a trigger rule's fields.
-/

namespace Sys2Proof

/-- One character of the port text (R170). -/
abbrev Byte := BitVec 8

/-- A run of port text: a line, a field, a response. -/
abbrev Text := List Byte

/-- Record numbers 0 to 95 (R19). -/
abbrev RecNo := Fin 96

/-- Channel numbers 0 to 23 (00 section 1.5). -/
abbrev Chan := Fin 24

/-- Driver pins 0 to 31 (R123). -/
abbrev Pin := Fin 32

/-- Generator numbers 0 to 5 (R143). -/
abbrev GenNo := Fin 6

/-- Input numbers 0 to 7 (R103). -/
abbrev InputNo := Fin 8

/-- Trigger rule numbers 0 to 15 (R111). -/
abbrev RuleNo := Fin 16

/-- A calendar date; `year` counts from 2000, 0 to 99 (Table 1-6). -/
structure Date where
  year : Nat
  month : Nat
  day : Nat
deriving DecidableEq, Repr

/-- A blink: period and on-time in units of 10 ms (Table 1-3, R20). -/
structure Blink where
  period : BitVec 8
  onTime : BitVec 8
deriving DecidableEq, Repr

/-- A season's bounds, each four BCD digits mmdd (Table 2-3). -/
structure Season where
  fromDay : BitVec 16
  untilDay : BitVec 16
deriving DecidableEq, Repr

/-- The ninth field of a record's content: a weekday set (bit w - 1 for weekday w) or a date of six BCD digits ddmmyy (R20, R28). -/
inductive DayField where
  | days (set : BitVec 7)
  | date (ddmmyy : BitVec 24)
deriving DecidableEq, Repr

/-- A record's content as the stored image holds it (R20, 08 section 8.1): each field in its port form, so that a disturbed
value outside the ranges of Table 2-1 can be held and returned as it stands (R34). DESIGN CHOICE, unsafe: log 9. -/
structure Content where
  kind : BitVec 4
  channels : List (BitVec 8)
  level : BitVec 8
  blink : Option Blink
  priority : BitVec 4
  start : BitVec 16
  stop : BitVec 16
  day : DayField
  season : Option Season
deriving DecidableEq, Repr

/-- A trigger rule's stored fields (Table 5-2), in their port forms as for `Content`. DESIGN CHOICE, unsafe: log 9. -/
structure RuleFields where
  input : BitVec 4
  event : BitVec 4
  action : BitVec 4
  channels : List (BitVec 8)
  priority : BitVec 4
  level : Option (BitVec 8)
  blink : Option Blink
  hold : Option (BitVec 16)
deriving DecidableEq, Repr

/-- Item `i` of a fixed row of things. -/
def nth {α : Type} {n : Nat} (v : Vector α n) (i : Fin n) : α := v[i.val]

/-- The row with item `i` replaced. -/
def upd {α : Type} {n : Nat} (v : Vector α n) (i : Fin n) (x : α) : Vector α n := v.set i.val x

/-- The row whose item `i` is `f i`. -/
def tabulate {α : Type} {n : Nat} (f : Fin n → α) : Vector α n := ⟨⟨(List.finRange n).map f⟩, by simp⟩

@[simp] theorem nth_upd_same {α : Type} {n : Nat} (v : Vector α n) (i : Fin n) (x : α) : nth (upd v i x) i = x := by
  simp [nth, upd]

@[simp] theorem nth_upd_other {α : Type} {n : Nat} (v : Vector α n) {i j : Fin n} (x : α) (h : j ≠ i) :
    nth (upd v i x) j = nth v j := by
  have : i.val ≠ j.val := fun e => h (Fin.ext e.symm)
  simp [nth, upd, this]

@[simp] theorem nth_tabulate {α : Type} {n : Nat} (f : Fin n → α) (i : Fin n) : nth (tabulate f) i = f i := by
  simp [nth, tabulate]

theorem nth_upd {α : Type} {n : Nat} (v : Vector α n) (i j : Fin n) (x : α) :
    nth (upd v i x) j = if j = i then x else nth v j := by
  by_cases h : j = i
  · subst h; simp
  · simp [h]

/-- Replacing an item by itself changes nothing. -/
theorem upd_self {α : Type} {n : Nat} (v : Vector α n) (i : Fin n) : upd v i (nth v i) = v := by
  ext j hj
  show nth (upd v i _) ⟨j, hj⟩ = nth v ⟨j, hj⟩
  rw [nth_upd]
  split
  · simp_all
  · rfl

/-- The later of two replacements of an item stands. -/
theorem upd_upd {α : Type} {n : Nat} (v : Vector α n) (i : Fin n) (a b : α) : upd (upd v i a) i b = upd v i b := by
  ext j hj
  show nth (upd (upd v i a) i b) ⟨j, hj⟩ = nth (upd v i b) ⟨j, hj⟩
  rw [nth_upd, nth_upd, nth_upd]
  split <;> rfl

end Sys2Proof
end

