-- ==== Sys2Proof/Config.lean ====
section
/-!
DEFINITION. What is fixed for the part, and the free values: constants without a body for what the manual leaves open.
-/

namespace Sys2Proof.Config

/-- The claim pool holds 48 entries (R73). -/
def poolSize : Nat := 48

/-- The line buffer takes 79 characters and a carriage return (R171). -/
def lineMax : Nat := 79

/-- The gap timer's 250 ms (R171). -/
def gapMs : Nat := 250

/-- The settle timer's 20 ms (R164). -/
def settleMs : Nat := 20

/-- The qualification interval of 100 ms (R9). -/
def qualifyMs : Nat := 100

/-- A PUSH input held for 120 second ticks is stuck (R108). -/
def stuckTicks : Nat := 120

/-- A millisecond is 1,000 microseconds, the length of an idle step (log 4). -/
def microsPerMs : Nat := 1000

/-- The positions within a PWM period, of which a microsecond passes as many as the dimming frequency has hertz (R144, R145; log 27). -/
def pwmUnits : Nat := 1000000

/-- The microseconds in one 10 ms unit of a blink (R144). -/
def blinkUnit : Nat := 10000

/-- The RFND response names at most 24 records (R45). -/
def findPage : Nat := 24

/-- The CLST response returns at most 12 claims (R98). -/
def claimPage : Nat := 12

/-- RNXT looks 8 days, 11,520 minutes, ahead (R71). -/
def nextSpan : Nat := 11520

/-- FREE VALUE (DESIGN CHOICE log 10, safe): the window that a content whose stored window fields lie outside the ranges of
Table 2-1 is taken to have on a date, as minutes since 2000-01-01 00:00. The manual forms windows of contents in range only. -/
opaque freeWindow : Content → Date → Option (Nat × Nat)

/-- FREE VALUE (DESIGN CHOICE log 10, safe): whether a content whose stored kind is neither WEEKLY nor DATED counts as DATED. -/
opaque freeDated : Content → Bool

/-- FREE VALUE (DESIGN CHOICE log 10, safe): the digit RGET shows as days per week of a content that counts as WEEKLY and stores a
date in place of a weekday set. -/
opaque freeDaysPerWeek : Content → BitVec 4

end Sys2Proof.Config
end

