-- ==== Sys2Proof/Syntax.lean ====
section
/-!
DEFINITION. The commands of the OB-2460: one constructor of `Instr` for each row of spec/opcode_table.json.
A line command carries the text of the line's fields, so that every check of R178 is made on what the host wrote. A command that
makes a main reset carries `visits`, the visits of its re-evaluation made before the next command (log 6).
-/

namespace Sys2Proof

/-- One piece of the work a second tick causes (R4): the arbiter's hold countdown (R86), the input monitor's held counts (R108),
the scrub step (R159), the steady feedback comparison of one channel (R165). -/
inductive TickWork where
  | holds
  | held
  | scrub
  | compare (c : Chan)
deriving DecidableEq, Repr

/-- How one second tick reaches its consumers, among whom the manual sets no order (R4, R5, R60, R160, R165): the work named in
`first` is done first and in that order, the work named in `later` is left for a command that comes later, and the rest is done after
`first`. `resumed` says that the tick has been delivered before: the command goes on with the work that is due, and the calendar stands.
DESIGN CHOICE, safe: log 5. -/
structure TickOrder where
  resumed : Bool
  first : List TickWork
  later : List TickWork
deriving DecidableEq, Repr

/-- A tick whose work is all done in one step, in the model's own order. -/
def TickOrder.plain : TickOrder := ⟨false, [], []⟩

/-- A driver pin held at an electrical level from outside, so that its readback shows that level (08 section 8.5; log 12). `late` says
that a fault the comparison finds on it reaches the pool after what the queue holds before the fault is taken (R154; log 35). -/
structure PinHold where
  pin : Pin
  high : Bool
  late : Bool
deriving DecidableEq, Repr

/-- The level pin A reads back at the end of a settle timer (log 12). `late` says that a fault the comparison finds reaches the pool after what
the queue holds before the fault is taken; without it the command also takes a fault that was left before (R154; log 35). -/
structure Readback where
  high : Bool
  late : Bool
deriving DecidableEq, Repr

/-- What a storage disturbance changes (R157): part of the stored image of a record or rule, or its stored check code (log 11). -/
inductive Disturbance where
  | recordContent (n : RecNo) (c : Content)
  | recordDraft (n : RecNo) (c : Content)
  | recordProtected (n : RecNo) (p : Bool)
  | recordCode (n : RecNo) (code : BitVec 8)
  | ruleFields (r : RuleNo) (f : RuleFields)
  | ruleCode (r : RuleNo) (code : BitVec 8)
deriving DecidableEq, Repr

/-- The commands, in the order of spec/opcode_table.json. -/
inductive Instr where
  -- calendar clock
  | tset (fields : List Text)
  | tadj (fields : List Text)
  | tget (fields : List Text)
  -- schedule table
  | rwrt (fields : List Text)
  | rget (fields : List Text)
  | rdrp (fields : List Text)
  | rsus (fields : List Text)
  | rres (fields : List Text)
  | rfre (fields : List Text)
  | rclr (fields : List Text)
  | rprt (fields : List Text)
  | rfnd (fields : List Text)
  -- window evaluator's query
  | rnxt (fields : List Text)
  -- claim arbiter
  | cset (fields : List Text)
  | crel (fields : List Text)
  | gscl (fields : List Text)
  | clst (fields : List Text)
  -- input monitor
  | icfg (fields : List Text)
  | iget (fields : List Text)
  | trwr (fields : List Text)
  | trgt (fields : List Text)
  -- load channels
  | ccfg (fields : List Text)
  | cget (fields : List Text)
  | cclr (fields : List Text)
  | frzk (fields : List Text)
  -- generator pool
  | dfrq (fields : List Text)
  | gget (fields : List Text)
  -- integrity monitor
  | cflt (fields : List Text)
  -- command port and notice table
  | nget (fields : List Text)
  | nmsk (fields : List Text)
  | rstr (fields : List Text) (visits : Nat)
  | unknownCommand (line : Text)
  | lineTooLong (line : Text)
  | portWrite (sel : Bool) (byte : Byte)
  | portRead (sel : Bool)
  | gapTimerEnd
  -- timebase
  | secondTick (held : List PinHold) (order : TickOrder)
  | qualificationComplete
  | qualificationRestart
  | oscillatorLoss
  -- window evaluator and claim arbiter
  | boundaryPass (visits : Nat)
  | reevaluationPass (visits : Nat)
  | holdExpiry
  -- input monitor
  | inputPinChange (i : InputNo) (high : Bool)
  | changeTaken (i : InputNo)
  | thresholdReached (i : InputNo)
  | inputStuck
  | inputEvent (i : InputNo) (steps : Nat)
  -- load channels, generators, feedback
  | pulseCompletion (c : Chan)
  | periodEnd (g : GenNo)
  | settleTimerEnd (c : Chan) (readback : Readback)
  -- resets, supplies, storage
  | resetInput (visits : Nat)
  | mainPowerLoss
  | powerReturn (visits : Nat)
  | coldStart
  | storageDisturbance (d : Disturbance)
deriving DecidableEq, Repr

end Sys2Proof
end

