-- ==== Sys2Proof/WellFormed.lean ====
section
/-!
DEFINITION. Which commands can reach the part: a line's text must be text a host can write as one line (R171, R177), and a
disturbance must fit the slots of a stored image (Table 2-1, Table 5-2). The machine's meanings are total on every command;
these are the terms that stand for something a host or the storage can do.
-/

namespace Sys2Proof

/-- A carriage return. -/
def cr : Byte := 0x0D

/-- A line feed. -/
def lf : Byte := 0x0A

/-- A space. -/
def sp : Byte := 0x20

/-- A text without the characters that end a line or vanish from it (R171). -/
def Text.plain (t : Text) : Bool := t.all fun b => b != cr && b != lf

/-- A field holds no space, carriage return or line feed: the port splits a line at every space (R177). -/
def Text.fieldOk (t : Text) : Bool := t.plain && t.all fun b => b != sp

/-- The fields of a line, each preceded by one space (R177). -/
def Text.fieldsText (fields : List Text) : Text := fields.flatMap fun f => sp :: f

/-- The fields can stand on one line behind a four-letter command word: 79 characters at most (R171, R177). -/
def Instr.fieldsOk (fields : List Text) : Bool :=
  fields.all Text.fieldOk && decide (4 + (Text.fieldsText fields).length ≤ Config.lineMax)

/-- A stored channel list has four slots (Table 2-1). -/
def Content.fits (c : Content) : Bool := decide (c.channels.length ≤ 4)

/-- A stored channel list has four slots (Table 5-2). -/
def RuleFields.fits (f : RuleFields) : Bool := decide (f.channels.length ≤ 4)

/-- The disturbed image fits its slots. -/
def Disturbance.wf : Disturbance → Bool
  | .recordContent _ c => c.fits
  | .recordDraft _ c => c.fits
  | .recordProtected _ _ => true
  | .recordCode _ _ => true
  | .ruleFields _ f => f.fits
  | .ruleCode _ _ => true

/-- A tick's order names no piece of work twice, be it to be done first or left for later. -/
def TickOrder.wf (o : TickOrder) : Bool := decide (o.first ++ o.later).Nodup

/-- One held level for each pin. -/
def PinHold.wf (l : List PinHold) : Bool := decide ((l.map PinHold.pin).Nodup)

/-- Whether a command is one that can reach the part. -/
def Instr.wf : Instr → Bool
  | .tset f => fieldsOk f
  | .tadj f => fieldsOk f
  | .tget f => fieldsOk f
  | .rwrt f => fieldsOk f
  | .rget f => fieldsOk f
  | .rdrp f => fieldsOk f
  | .rsus f => fieldsOk f
  | .rres f => fieldsOk f
  | .rfre f => fieldsOk f
  | .rclr f => fieldsOk f
  | .rprt f => fieldsOk f
  | .rfnd f => fieldsOk f
  | .rnxt f => fieldsOk f
  | .cset f => fieldsOk f
  | .crel f => fieldsOk f
  | .gscl f => fieldsOk f
  | .clst f => fieldsOk f
  | .icfg f => fieldsOk f
  | .iget f => fieldsOk f
  | .trwr f => fieldsOk f
  | .trgt f => fieldsOk f
  | .ccfg f => fieldsOk f
  | .cget f => fieldsOk f
  | .cclr f => fieldsOk f
  | .frzk f => fieldsOk f
  | .dfrq f => fieldsOk f
  | .gget f => fieldsOk f
  | .cflt f => fieldsOk f
  | .nget f => fieldsOk f
  | .nmsk f => fieldsOk f
  | .rstr f _ => fieldsOk f
  | .unknownCommand line => line.plain && decide (line.length ≤ Config.lineMax)
  | .lineTooLong line => line.plain && decide (Config.lineMax < line.length)
  | .portWrite _ _ => true
  | .portRead _ => true
  | .gapTimerEnd => true
  | .secondTick held order => PinHold.wf held && order.wf
  | .qualificationComplete => true
  | .qualificationRestart => true
  | .oscillatorLoss => true
  | .boundaryPass _ => true
  | .reevaluationPass _ => true
  | .holdExpiry => true
  | .inputPinChange _ _ => true
  | .changeTaken _ => true
  | .thresholdReached _ => true
  | .inputStuck => true
  | .inputEvent _ _ => true
  | .pulseCompletion _ => true
  | .periodEnd _ => true
  | .settleTimerEnd _ _ => true
  | .resetInput _ => true
  | .mainPowerLoss => true
  | .powerReturn _ => true
  | .coldStart => true
  | .storageDisturbance d => d.wf

end Sys2Proof
end

