-- ==== Sys2Proof/Machine/State.lean ====
section
/-!
DEFINITION. The state of the OB-2460: every item that spec/ gives the part, block by block, as plain data; the queue of
commands; the state right after reset (a cold start, R18, R48, R121, R142, R156, R169, R182).
-/

namespace Sys2Proof.Machine

/-! ### Calendar clock and timebase monitor (spec/01) -/

/-- R2. -/
inductive CalState where
  | stopped | running | halted
deriving DecidableEq, Repr

/-- Table 1-7. -/
inductive OscStatus where
  | starting | steady | lost
deriving DecidableEq, Repr

/-- Table 1-6. The weekday is a function of the date (R1) and is computed. `qualify` is what remains, in ms, of the 100 ms
qualification interval of R9, when one is due (DESIGN CHOICE log 20). -/
structure Calendar where
  state : CalState
  date : Date
  hours : Nat
  minutes : Nat
  seconds : Nat
  phase : Nat
  osc : OscStatus
  qualify : Option Nat
deriving DecidableEq, Repr

/-- A present minute with the weekday of its date, as minute boundaries and time steps carry it (R6, R8). -/
structure Moment where
  date : Date
  hours : Nat
  minutes : Nat
  weekday : Nat
deriving DecidableEq, Repr

/-- The cause of a time step (R8). -/
inductive StepCause where
  | tset | rollover
deriving DecidableEq, Repr

/-! ### Schedule table (spec/02) -/

/-- Table 2-2. -/
inductive RecState where
  | free | armed | opened | waiting | suspended | spent | quarantined
deriving DecidableEq, Repr

/-- One schedule record (Table 2-1); `prot` is the protected flag, `count` the four-digit occurrence count. -/
structure Record where
  state : RecState
  content : Option Content
  draft : Option Content
  prot : Bool
  count : Fin 10000
  wrap : Bool
  code : BitVec 8
deriving DecidableEq, Repr

/-- A FREE record as RFRE and cold start leave it (R40, R48, R157). -/
def Record.blank : Record := ⟨.free, none, none, false, 0, false, 0⟩

/-! ### Window evaluator (spec/03) -/

/-- A calendar event received and not yet taken (R52). -/
inductive TimeEvent where
  | boundary (m : Moment)
  | step (m : Moment) (cause : StepCause)
deriving DecidableEq, Repr

/-- The kind of a pass (R52). -/
inductive PassKind where
  | boundary | reevaluation
deriving DecidableEq, Repr

/-- A pass in progress and the next record it will visit (R52). -/
structure Pass where
  kind : PassKind
  next : RecNo
deriving DecidableEq, Repr

/-- The evaluator's three items (R52). -/
structure Evaluator where
  pending : List TimeEvent
  minute : Option Moment
  pass : Option Pass
deriving DecidableEq, Repr

/-! ### Claim arbiter (spec/04) -/

/-- The origin of a claim (R74, R75). -/
inductive Source where
  | record (n : RecNo)
  | input (i : InputNo)
  | port
deriving DecidableEq, Repr

/-- One claim (Table 4-1); its channel is the list it stands on. -/
structure Claim where
  source : Source
  priority : Fin 4
  level : BitVec 8
  blink : Option Blink
  hold : Option (BitVec 16)
deriving DecidableEq, Repr

/-- A demand: a level and an optional blink (R78). Two demands are equal as R78 says exactly when they are equal data. -/
structure Demand where
  level : BitVec 8
  blink : Option Blink
deriving DecidableEq, Repr

/-! ### Input monitor (spec/05) -/

/-- Table 5-1. -/
inductive InputKind where
  | off | push | level
deriving DecidableEq, Repr

/-- Table 5-1; `activeLow` is polarity 1; `debounce` in ms, `long` in units of 100 ms. -/
structure InputConfig where
  kind : InputKind
  activeLow : Bool
  debounce : Option Nat
  long : Option Nat
deriving DecidableEq, Repr

/-- R105, R109; `none` is the absence of a state of an OFF input. -/
inductive InputState where
  | none | released | pressed | longHeld | stuck | inactive | active
deriving DecidableEq, Repr

/-- A debounce interval: the level that must hold, and the ms that remain (R104). -/
structure Interval where
  level : Bool
  left : Nat
deriving DecidableEq, Repr

/-- One input's working state (R104, R105, R109, R120). -/
structure Input where
  state : InputState
  pressTime : Option Nat
  heldCount : Option Nat
  firstPending : Option Bool
  debounced : Option Bool
  interval : Option Interval
deriving DecidableEq, Repr

/-- An OFF input holds no state (R103). -/
def Input.blank : Input := ⟨.none, none, none, none, none, none⟩

/-- R110. -/
inductive EventKind where
  | short | long | longRelease | activate | deactivate
deriving DecidableEq, Repr

/-- An input event (R110). -/
structure InputEvent where
  input : InputNo
  kind : EventKind
deriving DecidableEq, Repr

/-- Table 5-2. -/
inductive RuleState where
  | unused | active | faulted
deriving DecidableEq, Repr

/-- One trigger rule (Table 5-2). -/
structure Rule where
  state : RuleState
  fields : Option RuleFields
  code : BitVec 8
deriving DecidableEq, Repr

/-- An UNUSED rule as a clearing TRWR and cold start leave it (R116, R121, R157). -/
def Rule.blank : Rule := ⟨.unused, none, 0⟩

/-- A TOGGLE between its reading and its request: the rule as it was visited, and the level the reading decided (R114). -/
structure ToggleRead where
  rule : RuleNo
  fields : RuleFields
  level : BitVec 8
deriving DecidableEq, Repr

/-- An event whose rules are being applied, and the next rule to visit (R110, R112). -/
structure Applying where
  event : InputEvent
  next : RuleNo
  toggle : Option ToggleRead
deriving DecidableEq, Repr

/-! ### Load channels (spec/06) and feedback (spec/08) -/

/-- Table 6-1. -/
inductive ChanKind where
  | switched | dimmed | pulsed
deriving DecidableEq, Repr

/-- Table 6-1; `activeLow` is polarity 1; `pulseLength` in units of 10 ms. -/
structure ChannelConfig where
  kind : ChanKind
  rest : BitVec 8
  drivePriority : Fin 4
  activeLow : Bool
  pinA : Pin
  pinB : Option Pin
  pulseLength : BitVec 8
deriving DecidableEq, Repr

/-- Table 6-2. -/
inductive Condition where
  | normal | faulted
deriving DecidableEq, Repr

/-- Table 6-2. -/
inductive Drive where
  | inactive | active | generator
deriving DecidableEq, Repr

/-- Table 6-2: the generator link; `waiting` also sets the DEGRADED flag. -/
inductive Link where
  | none
  | holding (g : GenNo)
  | waiting
deriving DecidableEq, Repr

/-- R131; `pulsing on` is PULSING_ON or PULSING_OFF. -/
inductive PulseState where
  | unknown | atOff | atOn
  | pulsing (on : Bool)
deriving DecidableEq, Repr

/-- R164: the feedback state with the commanded level (`high`) and the settle timer in ms. -/
inductive Feedback where
  | unsupervised
  | settling (high : Bool) (timer : Nat)
  | watched (high : Bool)
deriving DecidableEq, Repr

/-- One channel's working state (Table 6-2, R164). `pulse` is absent on a channel that is not PULSED; `pulseCounts` says
whether the running pulse may count when it completes (R134, R136). -/
structure Channel where
  present : Demand
  condition : Condition
  drive : Drive
  link : Link
  pulse : Option PulseState
  pending : Option Bool
  pulseTimer : Option Nat
  pulseCounts : Bool
  feedback : Feedback
deriving DecidableEq, Repr

/-- A switch counter with its wrap flag (R136). -/
structure SwitchCounter where
  count : Fin 10000
  wrap : Bool
deriving DecidableEq, Repr

/-- The FRZK sequence: its step, and the sequence mask in steps 1 and 2 (R138). -/
inductive FreezeSeq where
  | idle
  | one (mask : BitVec 24)
  | two (mask : BitVec 24)
deriving DecidableEq, Repr

/-! ### Generator pool (spec/07) -/

/-- Generator parameters: a duty and an optional blink (Table 7-1). -/
structure Params where
  duty : BitVec 8
  blink : Option Blink
deriving DecidableEq, Repr

/-- What a RUNNING or RELEASING generator holds (Table 7-1). The staged flag is set exactly while `staged` is present.
`pwmPhase` is in millionths of a PWM period, `envPhase` in microseconds (DESIGN CHOICE log 27). -/
structure GenRun where
  releasing : Bool
  channel : Chan
  active : Params
  staged : Option Params
  pwmPhase : Nat
  envPhase : Option Nat
deriving DecidableEq, Repr

/-- R143. -/
inductive Generator where
  | free
  | busy (run : GenRun)
deriving DecidableEq, Repr

/-! ### Command port and notice table (spec/09) -/

/-- R170. -/
inductive PortState where
  | accepting | executing | answering
deriving DecidableEq, Repr

/-- The line in execution: its text, its overlength mark, and the overrun flag as it stood when it was taken (R171, R176). -/
structure Taken where
  text : Text
  overlong : Bool
  mark : Bool
deriving DecidableEq, Repr

/-- The command port (R170). `taken` is the line in execution (R173); `busOut` the byte last put on D0 to D7 (log 24); `reinit` the
transfers still to come that meet the port while a main reset is re-initialising it (R182; log 21). -/
structure Port where
  state : PortState
  line : Text
  response : Text
  readPos : Nat
  overrun : Bool
  dropped : Bool
  overlength : Bool
  gapTimer : Option Nat
  taken : Option Taken
  busOut : Option Byte
  reinit : Nat
deriving DecidableEq, Repr

/-- The port as a main reset leaves it once it is re-initialised (R182). -/
def Port.blank : Port := ⟨.accepting, [], [], 0, false, false, false, none, none, none, 0⟩

/-- Table 9-6, in the order of the kind codes. -/
inductive NoticeKind where
  | start | missedWindow | claimWait | poolShort | genShort | recordFault | ruleFault | outputFault | inputStuck
  | clockFault | recordWrap | switchWrap
deriving DecidableEq, Repr

/-- One notice entry (R179). -/
structure Notice where
  count : BitVec 8
  first : Option Nat
deriving DecidableEq, Repr

/-- An entry with nothing raised. -/
def Notice.blank : Notice := ⟨0, none⟩

/-! ### The whole part -/

/-- The state of the part and of the supplies and pins that drive it from outside. -/
structure State where
  -- backup domain
  calendar : Calendar
  records : Vector Record 96
  rules : Vector Rule 16
  inputConfigs : Vector InputConfig 8
  channelConfigs : Vector ChannelConfig 24
  switches : Vector SwitchCounter 24
  dimFreq : Nat
  -- supplies and pins
  mainPower : Bool
  inputPins : Vector Bool 8
  -- main domain: evaluator and arbiter
  evaluator : Evaluator
  claims : Vector (List Claim) 24
  waiting : List RecNo
  holdsDue : Nat
  -- main domain: inputs
  inputs : Vector Input 8
  events : List InputEvent
  applying : Option Applying
  heldDue : Nat
  -- main domain: channels, generators, monitor
  channels : Vector Channel 24
  freezeMask : BitVec 24
  freezeSeq : FreezeSeq
  generators : Vector Generator 6
  scrub : Fin 112
  scrubDue : Nat
  compareDue : Vector Bool 24
  faultsDue : Vector Bool 24
  -- main domain: port, notices, timebase
  port : Port
  notices : Vector Notice 12
  mask : BitVec 12
  msTime : Nat
  -- the model's own: microseconds since the last whole millisecond (log 4), free orders (log 8), free lengths of re-initialisations
  -- (log 21) and the queue of commands
  micros : Nat
  publishOrders : List (List Chan)
  reinits : List Nat
  pending : List Instr
deriving DecidableEq, Repr

/-- Why the machine would stop with a fault. The manual names nothing that stops the part, so there is no constructor and no
command answers one (safe). -/
inductive Fault where
deriving DecidableEq, Repr

/-- Why a command would have no meaning. -/
inductive Refusal where
  /-- Raised by `exec` alone, for a command that has no meaning yet (safe); no arm raises it now. -/
  | notModelled (mnemonic : String)
deriving DecidableEq, Repr

/-- The calendar as a cold start leaves it (R18). -/
def Calendar.cold : Calendar := ⟨.stopped, ⟨0, 1, 1⟩, 0, 0, 0, 0, .starting, some Config.qualifyMs⟩

/-- An input configuration as a cold start leaves it (R121). -/
def InputConfig.cold : InputConfig := ⟨.off, false, none, none⟩

/-- Channel n's configuration as a cold start leaves it: pin n (R142). -/
def ChannelConfig.cold (n : Chan) : ChannelConfig := ⟨.switched, 0, 0, false, ⟨n.val, by omega⟩, none, 10⟩

/-- A switch counter as a cold start leaves it (R142). -/
def SwitchCounter.blank : SwitchCounter := ⟨0, false⟩

/-- The evaluator as a main reset leaves it (R52). -/
def Evaluator.blank : Evaluator := ⟨[], none, none⟩

/-- The machine right after reset: a cold start, which sets the backup domain to its defaults and performs a main reset
(R18, R48, R52, R101, R121, R138, R142, R156, R169, R182). Every channel has rest level 0, so its pin A has just been commanded
low and settles; START stands with subject 1. `inputPins` low: DESIGN CHOICE, unsafe, log 13. `busOut`, `msTime`: log 24. The ticks due: log 5. `micros`: log 4.
`publishOrders`: log 8. `faultsDue`: log 35. `reinits`: log 21. -/
def State.reset : State where
  calendar := .cold
  records := Vector.replicate 96 .blank
  rules := Vector.replicate 16 .blank
  inputConfigs := Vector.replicate 8 .cold
  channelConfigs := tabulate .cold
  switches := Vector.replicate 24 .blank
  dimFreq := 200
  mainPower := true
  inputPins := Vector.replicate 8 false
  evaluator := .blank
  claims := Vector.replicate 24 []
  waiting := []
  holdsDue := 0
  inputs := Vector.replicate 8 .blank
  events := []
  applying := none
  heldDue := 0
  channels := Vector.replicate 24
    ⟨⟨0, none⟩, .normal, .inactive, .none, none, none, none, false, .settling false Config.settleMs⟩
  freezeMask := 0
  freezeSeq := .idle
  generators := Vector.replicate 6 .free
  scrub := 0
  scrubDue := 0
  compareDue := Vector.replicate 24 false
  faultsDue := Vector.replicate 24 false
  port := .blank
  notices := upd (Vector.replicate 12 .blank) 0 ⟨1, some 1⟩
  mask := 0xFFF
  msTime := 0
  micros := 0
  publishOrders := []
  reinits := []
  pending := []

end Sys2Proof.Machine
end

