-- ==== Sys2Proof/Machine/Ops.lean ====
section
/-!
DEFINITION. The named operations over the registers of the part: one reader and one writer for each row of things, and the
check codes of the stored images (R157, R158).
-/

namespace Sys2Proof.Machine

/-- What a command answers: every command of the table has an effect or none, and none stops the part. -/
abbrev Result := Host.Outcome State Fault Refusal

namespace State

/-- Record `n`. -/
def record (s : State) (n : RecNo) : Record := nth s.records n

/-- Store record `n` whole (R46). -/
def setRecord (s : State) (n : RecNo) (r : Record) : State := { s with records := upd s.records n r }

/-- Trigger rule `n`. -/
def rule (s : State) (n : RuleNo) : Rule := nth s.rules n

/-- Store trigger rule `n`. -/
def setRule (s : State) (n : RuleNo) (r : Rule) : State := { s with rules := upd s.rules n r }

/-- The configuration of input `i`. -/
def inputConfig (s : State) (i : InputNo) : InputConfig := nth s.inputConfigs i

/-- Store the configuration of input `i` whole (R103). -/
def setInputConfig (s : State) (i : InputNo) (k : InputConfig) : State := { s with inputConfigs := upd s.inputConfigs i k }

/-- The working state of input `i`. -/
def input (s : State) (i : InputNo) : Input := nth s.inputs i

/-- Set the working state of input `i`. -/
def setInput (s : State) (i : InputNo) (x : Input) : State := { s with inputs := upd s.inputs i x }

/-- The configuration of channel `c`. -/
def config (s : State) (c : Chan) : ChannelConfig := nth s.channelConfigs c

/-- Store the configuration of channel `c` whole (R124). -/
def setConfig (s : State) (c : Chan) (k : ChannelConfig) : State := { s with channelConfigs := upd s.channelConfigs c k }

/-- The working state of channel `c`. -/
def channel (s : State) (c : Chan) : Channel := nth s.channels c

/-- Set the working state of channel `c`. -/
def setChannel (s : State) (c : Chan) (x : Channel) : State := { s with channels := upd s.channels c x }

/-- Generator `g`. -/
def generator (s : State) (g : GenNo) : Generator := nth s.generators g

/-- Set generator `g`. -/
def setGenerator (s : State) (g : GenNo) (x : Generator) : State := { s with generators := upd s.generators g x }

/-- The switch counter of channel `c`. -/
def switch (s : State) (c : Chan) : SwitchCounter := nth s.switches c

/-- Set the switch counter of channel `c`. -/
def setSwitch (s : State) (c : Chan) (x : SwitchCounter) : State := { s with switches := upd s.switches c x }

/-- The claim list of channel `c`. -/
def claimList (s : State) (c : Chan) : List Claim := nth s.claims c

/-- Set the claim list of channel `c`. -/
def setClaimList (s : State) (c : Chan) (l : List Claim) : State := { s with claims := upd s.claims c l }

/-- Channel `c` is in the freeze mask (R139). -/
def frozen (s : State) (c : Chan) : Bool := s.freezeMask.getLsbD c.val

/-- The freeze is in effect: a made freeze holds at least one channel (R138, R139). -/
def freezeInEffect (s : State) : Bool := s.freezeMask != 0

end State

/-! ### Stored images, check codes and ranges (R20, R111, R157, R158) -/

/-- The number of one-valued bits among the low `w` bits of `n` (R157). -/
def ones : Nat → Nat → Nat
  | 0, _ => 0
  | w + 1, n => n % 2 + ones w (n / 2)

/-- The one-valued bits of a list of stored channel numbers. -/
def onesChannels (l : List (BitVec 8)) : Nat := (l.map fun c => ones 8 c.toNat).sum

/-- The one-valued bits of a stored blink, absent or present. -/
def onesBlink : Option Blink → Nat
  | none => 0
  | some b => ones 8 b.period.toNat + ones 8 b.onTime.toNat

/-- The one-valued bits of the ninth field. -/
def onesDay : DayField → Nat
  | .days d => ones 7 d.toNat
  | .date d => ones 24 d.toNat

/-- The one-valued bits of a season, absent or present. -/
def onesSeason : Option Season → Nat
  | none => 0
  | some x => ones 16 x.fromDay.toNat + ones 16 x.untilDay.toNat

/-- The one-valued bits of a stored content (R157); the layout is log 9's. -/
def onesContent (c : Content) : Nat :=
  ones 4 c.kind.toNat + onesChannels c.channels + ones 8 c.level.toNat + onesBlink c.blink + ones 4 c.priority.toNat
    + ones 16 c.start.toNat + ones 16 c.stop.toNat + onesDay c.day + onesSeason c.season

/-- The one-valued bits of a record's stored image: content, draft when present, protected flag (R26). -/
def onesRecord (r : Record) : Nat :=
  (r.content.elim 0 onesContent) + (r.draft.elim 0 onesContent) + r.prot.toNat

/-- The check code of a record's image (R157). -/
def codeOf (r : Record) : BitVec 8 := BitVec.ofNat 8 (onesRecord r)

/-- The record with its check code computed from its image as it stands (R26, R157). -/
def Record.sealed (r : Record) : Record := { r with code := codeOf r }

/-- The one-valued bits of a rule's stored fields (R111, R157). -/
def onesRule (f : RuleFields) : Nat :=
  ones 4 f.input.toNat + ones 4 f.event.toNat + ones 4 f.action.toNat + onesChannels f.channels + ones 4 f.priority.toNat
    + (f.level.elim 0 fun l => ones 8 l.toNat) + onesBlink f.blink + (f.hold.elim 0 fun h => ones 16 h.toNat)

/-- The check code of a rule's image (R157). -/
def ruleCodeOf (f : RuleFields) : BitVec 8 := BitVec.ofNat 8 (onesRule f)

/-- The channel a stored number names, when it names one. -/
def toChan (b : BitVec 8) : Option Chan := if h : b.toNat < 24 then some ⟨b.toNat, h⟩ else none

/-- The channels a stored list names. -/
def toChans (l : List (BitVec 8)) : List Chan := l.filterMap toChan

/-- A channel list in range: 1 to 4 distinct channel numbers 0 to 23 (Table 2-1, Table 5-2). -/
def channelsInRange (l : List (BitVec 8)) : Bool :=
  decide (1 ≤ l.length) && decide (l.length ≤ 4) && decide l.Nodup && l.all fun c => decide (c.toNat < 24)

/-- A blink in range, or absent: period 2 to 255, on-time 1 to period - 1 (Table 2-1). -/
def blinkInRange : Option Blink → Bool
  | none => true
  | some b => decide (2 ≤ b.period.toNat) && decide (1 ≤ b.onTime.toNat) && decide (b.onTime.toNat < b.period.toNat)

/-- The number two BCD digits stand for, when both are digits. -/
def bcd2 (n : Nat) : Option Nat := if n / 16 ≤ 9 ∧ n % 16 ≤ 9 ∧ n < 256 then some (n / 16 * 10 + n % 16) else none

/-- The minute of the day a stored time hhmm stands for, when it is one (Table 2-1). -/
def timeOf (t : BitVec 16) : Option Nat :=
  match bcd2 (t.toNat / 256), bcd2 (t.toNat % 256) with
  | some h, some m => if h ≤ 23 ∧ m ≤ 59 then some (h * 60 + m) else none
  | _, _ => none

/-- A year is a leap year when it is divisible by 4 (R3). -/
def leap (year : Nat) : Bool := year % 4 == 0

/-- The length of a month (R3). -/
def monthLength (year month : Nat) : Nat :=
  if month = 2 then (if leap year then 29 else 28)
  else if month = 4 ∨ month = 6 ∨ month = 9 ∨ month = 11 then 30
  else 31

/-- R3: the year 2000 to 2099, the month 01 to 12, the day 01 to the length of that month. -/
def validDate (d : Date) : Bool :=
  decide (d.year ≤ 99) && decide (1 ≤ d.month) && decide (d.month ≤ 12) && decide (1 ≤ d.day)
    && decide (d.day ≤ monthLength d.year d.month)

/-- The date six BCD digits ddmmyy stand for, when they stand for a valid one (R3). -/
def dateOf (t : BitVec 24) : Option Date :=
  match bcd2 (t.toNat / 65536), bcd2 (t.toNat / 256 % 256), bcd2 (t.toNat % 256) with
  | some d, some m, some y => if validDate ⟨y, m, d⟩ then some ⟨y, m, d⟩ else none
  | _, _, _ => none

/-- The month and day a stored month-day mmdd stands for, February taken with 29 days (R29). -/
def monthDayOf (t : BitVec 16) : Option (Nat × Nat) :=
  match bcd2 (t.toNat / 256), bcd2 (t.toNat % 256) with
  | some m, some d => if 1 ≤ m ∧ m ≤ 12 ∧ 1 ≤ d ∧ d ≤ monthLength 0 m then some (m, d) else none
  | _, _ => none

/-- A season in range, or absent (Table 2-1). -/
def seasonInRange : Option Season → Bool
  | none => true
  | some x => (monthDayOf x.fromDay).isSome && (monthDayOf x.untilDay).isSome

/-- The ninth field and the season suit the kind (Table 2-1, R28). -/
def dayInRange (kind : BitVec 4) (day : DayField) (season : Option Season) : Bool :=
  match day with
  | .days set => kind == 0 && set != 0 && seasonInRange season
  | .date d => kind == 1 && (dateOf d).isSome && season.isNone

/-- Start and end are times and differ (Table 2-1). -/
def timesInRange (start stop : BitVec 16) : Bool := (timeOf start).isSome && (timeOf stop).isSome && start != stop

/-- Every value of a stored content lies within the ranges of Table 2-1 (R158). -/
def contentInRange (c : Content) : Bool :=
  dayInRange c.kind c.day c.season && channelsInRange c.channels && blinkInRange c.blink && decide (c.priority.toNat ≤ 3)
    && timesInRange c.start c.stop

/-- The check of a record that is not FREE (R158): code and image agree, and every value is in range, the draft's too. -/
def recordSound (r : Record) : Bool :=
  r.code == codeOf r && (r.content.elim false contentInRange) && (r.draft.elim true contentInRange)

/-- The level, blink and hold suit the action: 0 ASSERT, 1 TOGGLE, 2 RELEASE (Table 5-2). -/
def actionInRange (f : RuleFields) : Bool :=
  if f.action = 0 then f.level.isSome && blinkInRange f.blink && f.hold != some 0
  else if f.action = 1 then f.level.isSome && f.level != some 0 && blinkInRange f.blink && f.hold != some 0
  else f.action == 2 && f.level.isNone && f.blink.isNone && f.hold.isNone

/-- Every value of a rule's stored fields lies within the ranges of Table 5-2 (R158). -/
def ruleInRange (f : RuleFields) : Bool :=
  decide (f.input.toNat ≤ 7) && decide (f.event.toNat ≤ 4) && channelsInRange f.channels && decide (f.priority.toNat ≤ 3)
    && actionInRange f

/-- The check of a rule that is not UNUSED (R158). -/
def ruleSound (r : Rule) : Bool := r.fields.elim false fun f => r.code == ruleCodeOf f && ruleInRange f

/-- A stored priority, as a claim carries it. -/
def toPriority (p : BitVec 4) : Fin 4 := ⟨p.toNat % 4, Nat.mod_lt _ (by decide)⟩

end Sys2Proof.Machine
end

