-- ==== Sys2Proof/Machine/Flags.lean ====
section
/-!
DEFINITION. The flags and counters that every block raises or counts: the notice table and the attention output (R179, R181),
the port status byte (R175), the four-digit counters with their wrap flags (R24, R136), the status codes (Table 9-4).
-/

namespace Sys2Proof.Machine

/-- The kind code of Table 9-6. -/
def NoticeKind.code : NoticeKind → Fin 12
  | .start => 0
  | .missedWindow => 1
  | .claimWait => 2
  | .poolShort => 3
  | .genShort => 4
  | .recordFault => 5
  | .ruleFault => 6
  | .outputFault => 7
  | .inputStuck => 8
  | .clockFault => 9
  | .recordWrap => 10
  | .switchWrap => 11

/-- One raise on an entry: the count goes up by one and stays at 255; the first subject is set when the count was 0 (R179). -/
def Notice.raised (e : Notice) (subject : Nat) : Notice :=
  { count := if e.count = 255 then 255 else e.count + 1, first := if e.count = 0 then some subject else e.first }

namespace State

/-- The entry of a kind. -/
def notice (s : State) (k : NoticeKind) : Notice := nth s.notices k.code

/-- Raise a notice. A raise made while main power is absent finds no notice table and is not counted (R179). -/
def raise (s : State) (k : NoticeKind) (subject : Nat) : State :=
  if s.mainPower then { s with notices := upd s.notices k.code ((s.notice k).raised subject) } else s

/-- ATN is active while an entry whose kind is in the mask has a count above 0 (R181). -/
def attention (s : State) : Bool :=
  (List.finRange 12).any fun k => s.mask.getLsbD k.val && (nth s.notices k).count != 0

end State

/-- A flag as a bit of value `v`. -/
def bitOf (b : Bool) (v : BitVec 8) : BitVec 8 := if b then v else 0

/-- The port status byte (Table 9-1). -/
def statusByte (s : State) : Byte :=
  0x80 ||| bitOf (!s.port.line.isEmpty || s.port.overlength) 0x20 ||| bitOf s.attention 0x10 ||| bitOf s.port.dropped 0x08
    ||| bitOf s.port.overrun 0x04 ||| bitOf (s.port.state == .executing) 0x01

/-- Increment a record's occurrence count: 9999 gives 0000, sets the wrap flag and raises RECORD_WRAP (R24). -/
def countRecord (n : RecNo) (s : State) : State :=
  let r := s.record n
  if r.count = 9999 then (s.setRecord n { r with count := 0, wrap := true }).raise .recordWrap n.val
  else s.setRecord n { r with count := r.count + 1 }

/-- Increment a channel's switch counter: 9999 gives 0000, sets the wrap flag and raises SWITCH_WRAP (R136). -/
def countSwitch (c : Chan) (s : State) : State :=
  let x := s.switch c
  if x.count = 9999 then (s.setSwitch c { count := 0, wrap := true }).raise .switchWrap c.val
  else s.setSwitch c { x with count := x.count + 1 }

/-- Status names of Table 9-4. -/
inductive Status where
  | ok | unknownCommand | badDigit | fieldCount | range | lineTooLong | wrongState | draftPresent | poolFull | frozen
  | pinInUse | sequenceError | clockNotSet | busy | clockFault
deriving DecidableEq, Repr

/-- The codes of Table 9-4. -/
def Status.code : Status → Nat
  | .ok => 0x00
  | .unknownCommand => 0x01
  | .badDigit => 0x02
  | .fieldCount => 0x03
  | .range => 0x04
  | .lineTooLong => 0x05
  | .wrongState => 0x06
  | .draftPresent => 0x07
  | .poolFull => 0x08
  | .frozen => 0x09
  | .pinInUse => 0x0A
  | .sequenceError => 0x0B
  | .clockNotSet => 0x0C
  | .busy => 0x0D
  | .clockFault => 0x0E

/-- The record state codes of Table 2-2. -/
def RecState.code : RecState → Nat
  | .free => 0
  | .armed => 1
  | .opened => 2
  | .waiting => 3
  | .suspended => 4
  | .spent => 5
  | .quarantined => 6

end Sys2Proof.Machine
end

