-- ==== Sys2Proof/Machine/Operands.lean ====
section
/-!
DEFINITION. Every operand form of a command line and of a response (R177, Table 9-2, Table 9-3): how a field is read and how
a value is written.
-/

namespace Sys2Proof.Machine

/-- The port text of a string of ASCII characters (R170). -/
def text (t : String) : Text := t.toList.map fun c => BitVec.ofNat 8 c.toNat

/-- The hyphen of an absent optional field (Table 9-2). -/
def dash : Text := [0x2D]

/-- The comma of a channel list. -/
def comma : Byte := 0x2C

/-! ### Reading -/

/-- The value of a hexadecimal digit 0 to 9 or A to F. -/
def hexVal (b : Byte) : Option Nat :=
  if 0x30 ≤ b.toNat ∧ b.toNat ≤ 0x39 then some (b.toNat - 0x30)
  else if 0x41 ≤ b.toNat ∧ b.toNat ≤ 0x46 then some (b.toNat - 0x37)
  else none

/-- A character 0 to 9 or A to F. -/
def isHex (b : Byte) : Bool := (hexVal b).isSome

/-- The number a run of hexadecimal digits writes, given what stands before it. -/
def hexRun : Nat → Text → Option Nat
  | acc, [] => some acc
  | acc, b :: rest => (hexVal b).bind fun v => hexRun (acc * 16 + v) rest

/-- The Number form, 1 to 8 hexadecimal digits, with a value up to `max` (Table 9-2). -/
def number (max : Nat) (f : Text) : Option Nat :=
  if 1 ≤ f.length ∧ f.length ≤ 8 then (hexRun 0 f).filter fun v => decide (v ≤ max) else none

/-- A Number form of a fixed width. -/
def fixedNumber (width max : Nat) (f : Text) : Option Nat := if f.length = width then number max f else none

/-- A number "as two digits" with a value up to `max` (DEDUCED, unsafe: log 14). -/
def twoDigits (max : Nat) (f : Text) : Option Nat := fixedNumber 2 max f

/-- A record number 00 to 5F (R19). -/
def recordNumber (f : Text) : Option RecNo := (number 95 f).map fun n => ⟨n % 96, Nat.mod_lt _ (by decide)⟩

/-- A channel "as two digits", 00 to 17. -/
def channelNumber (f : Text) : Option Chan := (twoDigits 23 f).map fun n => ⟨n % 24, Nat.mod_lt _ (by decide)⟩

/-- A priority, 0 to 3. -/
def priorityField (f : Text) : Option (Fin 4) := (number 3 f).map fun n => ⟨n % 4, Nat.mod_lt _ (by decide)⟩

/-- A level, 00 to FF. -/
def levelField (f : Text) : Option (BitVec 8) := (number 255 f).map (BitVec.ofNat 8)

/-- A hold of 1 to FFFF seconds, or absent. -/
def holdField (f : Text) : Option (Option (BitVec 16)) :=
  if f = dash then some none
  else (number 0xFFFF f).bind fun n => if n = 0 then none else some (some (BitVec.ofNat 16 n))

/-- Exactly four hexadecimal digits. -/
def word16 (f : Text) : Option (BitVec 16) := (fixedNumber 4 0xFFFF f).map (BitVec.ofNat 16)

/-- A blink of four digits, period then on-time, in range; or absent (Table 2-3). -/
def blinkField (f : Text) : Option (Option Blink) :=
  if f = dash then some none
  else (word16 f).bind fun w =>
    let b : Blink := ⟨BitVec.ofNat 8 (w.toNat / 256), BitVec.ofNat 8 (w.toNat % 256)⟩
    if blinkInRange (some b) then some (some b) else none

/-- A time hhmm (Table 9-2), kept as written. -/
def timeField (f : Text) : Option (BitVec 16) := (word16 f).filter fun w => (timeOf w).isSome

/-- A date ddmmyy (Table 9-2), kept as written. -/
def dateField (f : Text) : Option (BitVec 24) :=
  ((fixedNumber 6 0xFFFFFF f).map (BitVec.ofNat 24)).filter fun w => (dateOf w).isSome

/-- A month-day mmdd (Table 9-2), kept as written. -/
def monthDayField (f : Text) : Option (BitVec 16) := (word16 f).filter fun w => (monthDayOf w).isSome

/-- The weekdays of a run of distinct digits 1 to 7, in any order, as a set (R28). -/
def weekdayRun : BitVec 7 → Text → Option (BitVec 7)
  | acc, [] => some acc
  | acc, b :: rest =>
    if 0x31 ≤ b.toNat ∧ b.toNat ≤ 0x37 ∧ acc.getLsbD (b.toNat - 0x31) = false then
      weekdayRun (acc ||| BitVec.ofNat 7 (2 ^ (b.toNat - 0x31))) rest
    else none

/-- A weekday set of 1 to 7 distinct digits 1 to 7 (Table 9-2). -/
def weekdayField (f : Text) : Option (BitVec 7) := if f = [] then none else weekdayRun 0 f

/-- Split a text at every occurrence of a character. -/
def splitAt (c : Byte) : Text → List Text
  | [] => [[]]
  | b :: rest =>
    if b = c then [] :: splitAt c rest
    else match splitAt c rest with
      | [] => [[b]]
      | w :: ws => (b :: w) :: ws

/-- Every element of a list, or none. -/
def allSome {α : Type} : List (Option α) → Option (List α)
  | [] => some []
  | none :: _ => none
  | some a :: rest => (allSome rest).map (a :: ·)

/-- A channel list: 1 to 4 distinct two-digit numbers 00 to 17 joined by commas, in the order written (Table 9-2). -/
def channelListField (f : Text) : Option (List (BitVec 8)) :=
  ((allSome ((splitAt comma f).map (twoDigits 23))).map fun l => l.map (BitVec.ofNat 8)).filter channelsInRange

/-- A channel set: exactly six hexadecimal digits, most significant first (Table 9-3). -/
def channelSetField (f : Text) : Option (BitVec 24) := (fixedNumber 6 0xFFFFFF f).map (BitVec.ofNat 24)

/-- The channels of a set, ascending. -/
def chansOf (m : BitVec 24) : List Chan := (List.finRange 24).filter fun c => m.getLsbD c.val

/-- Which characters a field at a position may hold beside the digits (R178 order 3). `commaAt` is the position of the channel
list, `dashAt` the positions that may be written "-", `wordAt` the position that is a word and is not checked. Positions count from 0. -/
structure DigitRule where
  commaAt : Option Nat
  dashAt : List Nat
  wordAt : Option Nat
deriving DecidableEq, Repr

/-- The fields a line of 79 characters can carry behind its command word (R171, R177). -/
def everyField : Nat := 75

/-- No field may hold anything but 0 to 9 and A to F. -/
def DigitRule.strict : DigitRule := ⟨none, [], none⟩

/-- Every field may be written "-" up to position `n`. -/
def DigitRule.dashes (commaAt : Option Nat) (n : Nat) : DigitRule := ⟨commaAt, List.range n, none⟩

/-- A field at position `i` passes the digit check. -/
def DigitRule.fieldOk (r : DigitRule) (i : Nat) (f : Text) : Bool :=
  r.wordAt == some i || (r.dashAt.contains i && f == dash) || f.all fun b => isHex b || (r.commaAt == some i && b == comma)

/-- A field of the line fails the digit check: BAD_DIGIT (R178 order 3). -/
def DigitRule.bad (r : DigitRule) (fields : List Text) : Bool := fields.zipIdx.any fun p => !r.fieldOk p.2 p.1

/-! ### Writing -/

/-- The character of a hexadecimal digit. -/
def hexDigit (n : Nat) : Byte := BitVec.ofNat 8 (if n % 16 < 10 then 0x30 + n % 16 else 0x37 + n % 16)

/-- `w` hexadecimal digits. -/
def hexText : Nat → Nat → Text
  | 0, _ => []
  | w + 1, n => hexText w (n / 16) ++ [hexDigit n]

/-- `w` decimal digits. -/
def decText : Nat → Nat → Text
  | 0, _ => []
  | w + 1, n => decText w (n / 10) ++ [hexDigit (n % 10)]

/-- One digit. -/
def digit (n : Nat) : Text := hexText 1 n

/-- Two hexadecimal digits. -/
def hex2 (n : Nat) : Text := hexText 2 n

/-- An optional value, "-" when absent. -/
def orDash {α : Type} (f : α → Text) : Option α → Text
  | none => dash
  | some a => f a

/-- A blink as four digits, or "-". -/
def blinkText : Option Blink → Text := orDash fun b => hex2 b.period.toNat ++ hex2 b.onTime.toNat

/-- A channel list: two-digit numbers joined by commas. -/
def channelListText : List (BitVec 8) → Text
  | [] => []
  | [c] => hex2 c.toNat
  | c :: rest => hex2 c.toNat ++ comma :: channelListText rest

/-- A weekday set in ascending digit order (Table 2-4). -/
def weekdayText (d : BitVec 7) : Text := ((List.range 7).filter fun k => d.getLsbD k).flatMap fun k => digit (k + 1)

/-- The ninth field: a weekday set or a date. -/
def dayText : DayField → Text
  | .days d => weekdayText d
  | .date d => hexText 6 d.toNat

/-- A content as the RWRT fields 2 to 11 (Table 2-4). -/
def contentText (c : Content) : List Text :=
  [digit c.kind.toNat, channelListText c.channels, hex2 c.level.toNat, blinkText c.blink, digit c.priority.toNat,
    hexText 4 c.start.toNat, hexText 4 c.stop.toNat, dayText c.day, orDash (fun x => hexText 4 x.fromDay.toNat) c.season,
    orDash (fun x => hexText 4 x.untilDay.toNat) c.season]

/-- A rule's fields as the TRWR fields 2 to 9 (R117); the hold as four digits, DEDUCED, unsafe: log 16. -/
def ruleText (f : RuleFields) : List Text :=
  [digit f.input.toNat, digit f.event.toNat, digit f.action.toNat, channelListText f.channels, digit f.priority.toNat,
    orDash (fun l => hex2 l.toNat) f.level, blinkText f.blink, orDash (fun h => hexText 4 h.toNat) f.hold]

/-- A flag as a digit. -/
def flagText (b : Bool) : Text := digit b.toNat

/-- The code of a claim's source (R75). -/
def sourceCode : Source → Nat
  | .record n => n.val
  | .input i => 0x60 + i.val
  | .port => 0x70

/-- A line or response without its carriage return: a first word, then each field behind one space (R177). -/
def lineText (word : Text) (fields : List Text) : Text := word ++ Text.fieldsText fields

/-- A response line: the status field, with the overrun mark when the line was taken under it (R176), the fields, a carriage
return (R177). -/
def responseText (st : Status) (mark : Bool) (fields : List Text) : Text :=
  lineText (hex2 (st.code + if mark then 0x80 else 0)) fields ++ [cr]

/-- A command line's word and fields: the text before the first space, and what stands between spaces (R177, R178). -/
def splitLine (t : Text) : Text × List Text :=
  match splitAt sp t with
  | [] => ([], [])
  | w :: fields => (w, fields)

end Sys2Proof.Machine
end

