-- ==== Sys2Proof/Machine/Channels.lean ====
section
/-!
DEFINITION. Load channels, generators and the feedback state they report to: how a demand becomes drive (R127 to R136), the
generator pool (R143 to R153), the faulted channel (R164 to R166), the levels at the driver pins (R123, R144).
-/

namespace Sys2Proof.Machine

/-! ### Demand and steady drive -/

/-- The on/off value of a demand (R131), and the steady level of Table 6-3 for a demand that needs no generator. -/
def Demand.on (d : Demand) : Bool := d.level != 0

/-- The generator parameters a channel of a kind needs for a demand, when it needs a generator (Table 6-3). -/
def needs (k : ChanKind) (d : Demand) : Option Params :=
  match k with
  | .switched => if d.on then d.blink.map fun b => ⟨255, some b⟩ else none
  | .dimmed =>
    if d.on then
      match d.blink with
      | some b => some ⟨d.level, some b⟩
      | none => if d.level = 255 then none else some ⟨d.level, none⟩
    else none
  | .pulsed => none

/-- The degraded steady level of a waiting channel (R130). -/
def degradedOn (k : ChanKind) (d : Demand) : Bool :=
  match k with
  | .dimmed => decide (128 ≤ d.level.toNat)
  | .switched => true
  | .pulsed => false

/-- The electrical level of an active or inactive pin under a polarity: high for active under polarity 0 (R123). -/
def level (k : ChannelConfig) (active : Bool) : Bool := active != k.activeLow

/-- The feedback state after pin A is commanded to a steady level: a level that differs from the one commanded before, or a channel
that becomes supervised, settles for 20 ms (R164). -/
def Feedback.report (f : Feedback) (high : Bool) : Feedback :=
  match f with
  | .unsupervised => .settling high Config.settleMs
  | .settling h t => if h = high then .settling h t else .settling high Config.settleMs
  | .watched h => if h = high then .watched h else .settling high Config.settleMs

/-- Drive pin A steadily and report its commanded level to the monitor (R127, R164). -/
def driveSteady (c : Chan) (active : Bool) (s : State) : State :=
  let x := s.channel c
  s.setChannel c { x with drive := if active then .active else .inactive, feedback := x.feedback.report (level (s.config c) active) }

/-- Set the generator link of a channel; the DEGRADED flag follows it (Table 6-2). -/
def setLink (c : Chan) (l : Link) (s : State) : State := s.setChannel c { s.channel c with link := l }

/-- A channel's DEGRADED flag, set while it waits (Table 6-2). -/
def degraded (s : State) (c : Chan) : Bool := (s.channel c).link == .waiting

/-! ### The generator pool -/

/-- The lowest-numbered FREE generator (R146). -/
def freeGenerator (s : State) : Option GenNo := (List.finRange 6).find? fun g => s.generator g == .free

/-- The wait set in grant order: drive priority highest first, then channel number lowest first (R147). -/
def waiters (s : State) : List Chan :=
  [3, 2, 1, 0].flatMap fun p => (List.finRange 24).filter fun c => degraded s c && (s.config c).drivePriority == p

/-- A generator starts for a channel: RUNNING, the parameters active, a new PWM period, and a new envelope period with a blink; the
channel's link and drive follow, and its pin A is no longer supervised (R146, R147, R164). A comparison that a grant to a waiting channel
precedes therefore does not take place (R165). A fault that a comparison before the grant has found returns the generator, when it is taken
after the grant (R154, `takeFault`). -/
def startGenerator (g : GenNo) (c : Chan) (p : Params) (s : State) : State :=
  let s1 := s.setGenerator g (.busy ⟨false, c, p, none, 0, p.blink.map fun _ => 0⟩)
  s1.setChannel c { s1.channel c with link := .holding g, drive := .generator, feedback := .unsupervised }

/-- A generator that has become FREE is granted at once to the first waiter, which hands it the parameters of its present demand
(R147). -/
def grantNext (g : GenNo) (s : State) : State :=
  match waiters s with
  | [] => s
  | w :: _ =>
    match needs (s.config w).kind (s.channel w).present with
    | some p => startGenerator g w p s
    | none => s

/-- A channel requests a generator: the lowest FREE one, or the wait set with GEN_SHORT and the degraded level (R130, R146). -/
def requestGenerator (c : Chan) (p : Params) (s : State) : State :=
  match freeGenerator s with
  | some g => startGenerator g c p s
  | none =>
    let s1 := setLink c .waiting s
    (driveSteady c (degradedOn (s1.config c).kind (s1.channel c).present) s1).raise .genShort c.val

/-- New parameters for a held generator are staged; a RELEASING one returns to RUNNING with them (R149, R152). -/
def stage (g : GenNo) (p : Params) (s : State) : State :=
  match s.generator g with
  | .free => s
  | .busy r => s.setGenerator g (.busy { r with releasing := false, staged := some p })

/-- A held generator is released: RELEASING, its staged parameters discarded (R151). -/
def release (g : GenNo) (s : State) : State :=
  match s.generator g with
  | .free => s
  | .busy r => s.setGenerator g (.busy { r with releasing := true, staged := none })

/-- A channel gives up what it has at the pool at once: a held generator becomes FREE without completing its period and is granted
to the first waiter (R153); a place in the wait set is left without a grant (R148). -/
def leavePool (c : Chan) (s : State) : State :=
  match (s.channel c).link with
  | .none => s
  | .waiting => setLink c .none s
  | .holding g => grantNext g ((setLink c .none s).setGenerator g .free)

/-! ### Deriving the drive -/

/-- The drive of a SWITCHED or DIMMED channel from its present demand, by what it holds at the pool (R128, R129, R130). -/
def deriveSteady (c : Chan) (s : State) : State :=
  let x := s.channel c
  let k := (s.config c).kind
  match needs k x.present, x.link with
  | some p, .none => requestGenerator c p s
  | some p, .holding g => stage g p s
  | some _, .waiting => driveSteady c (degradedOn k x.present) s
  | none, .none => driveSteady c x.present.on s
  | none, .holding g => release g s
  | none, .waiting => driveSteady c x.present.on (setLink c .none s)

/-- Start a pulse to ON or OFF: the pin is made active, the pulse timer starts at the pulse length (R132). -/
def startPulse (c : Chan) (on counts : Bool) (s : State) : State :=
  s.setChannel c { s.channel c with
    pulse := some (.pulsing on), pending := none, pulseCounts := counts,
    pulseTimer := some ((s.config c).pulseLength.toNat * 10) }

/-- A PULSED channel takes its present demand: it starts a pulse, sets or clears the pending target, or does nothing (R132, R133).
`derivation` says that the drive is derived at a CCFG, a main reset or a CFLT, whose pulse does not count (R134, R136). -/
def derivePulse (c : Chan) (derivation : Bool) (s : State) : State :=
  let x := s.channel c
  match x.pulse with
  | none => s
  | some .unknown => startPulse c x.present.on (!derivation) s
  | some .atOff => if x.present.on then startPulse c true (!derivation) s else s
  | some .atOn => if x.present.on then s else startPulse c false (!derivation) s
  | some (.pulsing t) => s.setChannel c { x with pending := if x.present.on = t then none else some x.present.on }

/-- A NORMAL channel derives its drive from its present demand (R127). -/
def deriveDrive (c : Chan) (derivation : Bool) (s : State) : State :=
  match (s.config c).kind with
  | .pulsed => derivePulse c derivation s
  | .switched => deriveSteady c s
  | .dimmed => deriveSteady c s

/-- A channel counts a demand that rises from level 0 while it is NORMAL and not PULSED (R136). -/
def countsRise (k : ChanKind) (x : Channel) (d : Demand) : Bool :=
  x.condition == .normal && k != .pulsed && !x.present.on && d.on

/-- The published demand becomes the present demand, and is counted when it rises from 0 (R127, R136). -/
def takePresent (c : Chan) (d : Demand) (s : State) : State :=
  let x := s.channel c
  let s1 := s.setChannel c { x with present := d }
  if countsRise (s.config c).kind x d then countSwitch c s1 else s1

/-- A channel takes a published demand whole: a NORMAL one derives its drive at once, a FAULTED one does not (R127, R167). -/
def takeDemand (c : Chan) (d : Demand) (s : State) : State :=
  let s1 := takePresent c d s
  if (s.channel c).condition = .normal then deriveDrive c false s1 else s1

/-! ### Pulse completion, period end, faults -/

/-- A counted pulse to ON completes (R134, R136). -/
def countPulse (c : Chan) (counted : Bool) (s : State) : State := if counted then countSwitch c s else s

/-- The pulse timer reaches the pulse length: the channel settles, a counted pulse to ON counts, and a pending pulse starts (R134).
A channel that runs no pulse has nothing to complete (log 3). -/
def completePulse (c : Chan) (s : State) : State :=
  let x := s.channel c
  match x.pulse with
  | some (.pulsing t) =>
    let s1 := s.setChannel c { x with
      pulse := some (if t then .atOn else .atOff), pending := none, pulseTimer := none, pulseCounts := false }
    let s2 := countPulse c (t && x.pulseCounts) s1
    match x.pending with
    | some p => startPulse c p true s2
    | none => s2
  | _ => s

/-- The current period of a generator begins again with given active parameters and nothing staged (R150). -/
def GenRun.restart (r : GenRun) (p : Params) : GenRun :=
  { r with active := p, staged := none, pwmPhase := 0, envPhase := p.blink.map fun _ => 0 }

/-- The end of a release: the generator becomes FREE, the channel takes the steady level of its present demand, and the generator is
granted to the first waiter (R151). -/
def endRelease (g : GenNo) (c : Chan) (s : State) : State :=
  let s1 := setLink c .none (s.setGenerator g .free)
  grantNext g (driveSteady c (s1.channel c).present.on s1)

/-- The current period of a generator ends (R150, R151). A FREE generator has no period (log 3). -/
def endPeriod (g : GenNo) (s : State) : State :=
  match s.generator g with
  | .free => s
  | .busy r =>
    if r.releasing then endRelease g r.channel s
    else s.setGenerator g (.busy (r.restart (r.staged.getD r.active)))

/-- A mismatch: the channel becomes FAULTED and unsupervised, its pins inactive, what it has at the pool is given up, and OUTPUT_FAULT
is raised (R166). -/
def faultChannel (c : Chan) (s : State) : State :=
  let s1 := s.setChannel c { s.channel c with condition := .faulted, feedback := .unsupervised, drive := .inactive }
  (leavePool c s1).raise .outputFault c.val

/-- The fault of a channel is taken: by the channel, and by the pool, to which it is one operation among the others (R154, R166). -/
def takeFault (c : Chan) (s : State) : State := faultChannel c { s with faultsDue := upd s.faultsDue c false }

/-- The fault of a channel is found by a comparison and left, to meet the operations of the pool that come before it is taken (R154).
DESIGN CHOICE, safe: log 35. -/
def leaveFault (c : Chan) (s : State) : State := { s with faultsDue := upd s.faultsDue c true }

/-- An accepted CCFG counts as taken before a comparison of its channel whose fault has been left: that comparison does not take place, and
there is no fault (R165). DESIGN CHOICE, safe: log 35. -/
def dropFault (c : Chan) (s : State) : State := { s with faultsDue := upd s.faultsDue c false }

/-- A mismatch faults its channel, at once or when the fault is taken (R154, R165). -/
def mismatch (late : Bool) (c : Chan) (s : State) : State := if late then leaveFault c s else takeFault c s

/-- The settle comparison of a channel in SETTLING (R165). -/
def settleCompare (c : Chan) (readback late : Bool) (s : State) : State :=
  match (s.channel c).feedback with
  | .settling h _ =>
    if readback = h then s.setChannel c { s.channel c with feedback := .watched h } else mismatch late c s
  | _ => s

/-- The end of a settle timer, or of the operation of a comparison whose fault has been left (R154, R165). -/
def endSettle (c : Chan) (readback late : Bool) (s : State) : State :=
  if nth s.faultsDue c then (if late then s else takeFault c s) else settleCompare c readback late s

/-! ### Driver pins -/

/-- The PWM output: active for duty/255 of each period (R144). -/
def pwmActive (r : GenRun) : Bool := decide (r.pwmPhase * 255 < r.active.duty.toNat * Config.pwmUnits)

/-- The envelope: active for the on-time of each envelope period; always active without a blink (R144). -/
def envelopeActive (r : GenRun) : Bool :=
  match r.active.blink, r.envPhase with
  | some b, some e => decide (e < b.onTime.toNat * Config.blinkUnit)
  | _, _ => true

/-- A generator's output: PWM gated by the envelope (R144). -/
def Generator.output : Generator → Bool
  | .free => false
  | .busy r => pwmActive r && envelopeActive r

/-- Pin A of a channel is active (R123, R129, R131, R144). -/
def pinAActive (s : State) (c : Chan) : Bool :=
  let x := s.channel c
  match x.pulse with
  | some p => p == .pulsing true
  | none =>
    match x.drive, x.link with
    | .active, _ => true
    | .inactive, _ => false
    | .generator, .holding g => (s.generator g).output
    | .generator, _ => false

/-- Pin B of a PULSED channel is active during a pulse to OFF (R131). -/
def pinBActive (s : State) (c : Chan) : Bool := (s.channel c).pulse == some (.pulsing false)

/-- A channel's configuration names a pin: pin A of every channel, pin B of a PULSED one (R123). -/
def ChannelConfig.namesPin (k : ChannelConfig) (p : Pin) : Bool := k.pinA == p || (k.kind == .pulsed && k.pinB == some p)

/-- The pin map: the channel a pin is assigned to (R123). -/
def pinOwner (s : State) (p : Pin) : Option Chan := (List.finRange 24).find? fun c => (s.config c).namesPin p

/-- The level the part drives on a pin; nothing is driven while main power is absent (R123, R135). -/
def pinHigh (s : State) (p : Pin) : Option Bool :=
  if s.mainPower then
    match pinOwner s p with
    | none => some false
    | some c => some (level (s.config c) (if (s.config c).pinA = p then pinAActive s c else pinBActive s c))
  else none

/-- The readback of a pin: the level it is held at from outside, or the level it is driven at (08 section 8.5; log 12). -/
def readback (held : List PinHold) (s : State) (p : Pin) : Bool :=
  match held.find? fun h => h.pin == p with
  | some h => h.high
  | none => (pinHigh s p).getD false

/-- A fault found on a pin held from outside is left (log 35). -/
def lateOn (held : List PinHold) (p : Pin) : Bool := (held.find? fun h => h.pin == p).elim false PinHold.late

/-- The steady comparison of one channel at a second tick (R165). -/
def steadyCompare (held : List PinHold) (c : Chan) (s : State) : State :=
  match (s.channel c).feedback with
  | .watched h => if readback held s (s.config c).pinA = h then s else mismatch (lateOn held (s.config c).pinA) c s
  | _ => s

end Sys2Proof.Machine
end

