-- ==== Sys2Proof/Machine/Arbiter.lean ====
section
/-!
DEFINITION. The claim arbiter: pool, claim lists and demand (R73 to R78), requests (R80 to R82), withdrawals, selective removals,
the hold countdown (R84 to R86), the waiting list and its service (R88 to R91); and the quarantine of a record, which withdraws
its claims (R158, R161).
-/

namespace Sys2Proof.Machine

/-! ### Pool, lists, demand -/

/-- The claims on all 24 lists (R73). -/
def claimTotal (s : State) : Nat := ((List.finRange 24).map fun c => (s.claimList c).length).sum

/-- The free count: the pool's 48 entries less the claims (R73). -/
def freeCount (s : State) : Nat := Config.poolSize - claimTotal s

/-- A channel's demand: that of the first claim on its list, or the rest level without blink (R78). -/
def demandOf (s : State) (c : Chan) : Demand :=
  match s.claimList c with
  | [] => ⟨(s.config c).rest, none⟩
  | cl :: _ => ⟨cl.level, cl.blink⟩

/-- A claim's place: after every claim of a higher priority, before every claim of its own and of lower ones (R76). -/
def insertClaim (cl : Claim) : List Claim → List Claim
  | [] => [cl]
  | x :: xs => if x.priority ≤ cl.priority then cl :: x :: xs else x :: insertClaim cl xs

/-- A claim created, or put in the place of the one its source held on the list (R76, R77). -/
def putClaim (cl : Claim) (l : List Claim) : List Claim := insertClaim cl (l.filter fun x => x.source != cl.source)

/-- A list holds a claim of a source. -/
def hasSource (l : List Claim) (src : Source) : Bool := l.any fun x => x.source == src

/-! ### Publication -/

/-- The whole of a channel order: the channels of a list first, each once, then the rest ascending. -/
def channelOrder (l : List Chan) : List Chan := l.eraseDups ++ (List.finRange 24).filter fun c => !l.contains c

/-- The order in which the channels take what reaches them together, which the manual leaves open (07 section 7.11, R156): the next
of the free orders (log 8). -/
def takeOrder (s : State) : List Chan × State :=
  match s.publishOrders with
  | [] => (List.finRange 24, s)
  | o :: rest => (channelOrder o, { s with publishOrders := rest })

/-- Publish one channel's demand when it differs from the one last published, which is the channel's present demand (R78). -/
def publishOne (s : State) (c : Chan) : State :=
  if demandOf s c = (s.channel c).present then s else takeDemand c (demandOf s c) s

/-- The publications of an operation, once for each channel, after it is complete (R78, R79). -/
def publish (s : State) : State := (takeOrder s).1.foldl publishOne (takeOrder s).2

/-! ### Requests -/

/-- A claim request (R80): one source, the channels with the level for each, and what every claim carries. -/
structure Request where
  source : Source
  targets : List (Chan × BitVec 8)
  priority : Fin 4
  blink : Option Blink
  hold : Option (BitVec 16)
deriving DecidableEq, Repr

/-- The entries a request needs: one for each channel whose list holds no claim of its source (R80). -/
def needed (q : Request) (s : State) : Nat := (q.targets.filter fun t => !hasSource (s.claimList t.1) q.source).length

/-- The claim a request makes on a channel with a level. -/
def Request.claim (q : Request) (lv : BitVec 8) : Claim := ⟨q.source, q.priority, lv, q.blink, q.hold⟩

/-- Create or replace the claim of one target (R76, R77, R81). -/
def placeOne (q : Request) (s : State) (t : Chan × BitVec 8) : State :=
  s.setClaimList t.1 (putClaim (q.claim t.2) (s.claimList t.1))

/-- Create or replace every claim of a granted request (R81). -/
def place (q : Request) (s : State) : State := q.targets.foldl (placeOne q) s

/-- A request of a trigger rule or the port: granted whole when the free count covers its need, else refused whole (R81, R82). -/
def request (q : Request) (s : State) : Option State :=
  if needed q s ≤ freeCount s then some (publish (place q s)) else none

/-- The request of a record with its current content (R21, R55, R90). -/
def recordRequest (n : RecNo) (c : Content) : Request :=
  ⟨.record n, (toChans c.channels).map fun ch => (ch, c.level), toPriority c.priority, c.blink, none⟩

/-- A record's need: the length of its current channel list (R80, R88). -/
def Record.need (r : Record) : Nat := r.content.elim 0 fun c => c.channels.length

/-- The claims a granted record request makes (R81, R83). -/
def placeRecord (n : RecNo) (s : State) : State :=
  match (s.record n).content with
  | none => s
  | some c => place (recordRequest n c) s

/-- Set a record's state. -/
def setRecState (n : RecNo) (st : RecState) (s : State) : State := s.setRecord n { s.record n with state := st }

/-! ### The waiting list and its service -/

/-- The end of a quarantine: a draft is discarded, the code recomputed over what remains, the record is QUARANTINED and RECORD_FAULT
is raised (R161). -/
def markQuarantined (n : RecNo) (s : State) : State :=
  let r := s.record n
  (s.setRecord n ({ r with draft := none, state := .quarantined } : Record).sealed).raise .recordFault n.val

/-- Serve the waiting list from its head: a head that fails its check is quarantined and taken off, a head whose need fits is granted
and becomes OPEN, the first head that does not fit stops the service (R90). -/
def serve : List RecNo → State → State
  | [], s => s
  | n :: rest, s =>
    if recordSound (s.record n) then
      if (s.record n).need ≤ freeCount s then serve rest (setRecState n .opened (placeRecord n { s with waiting := rest }))
      else s
    else serve rest (markQuarantined n { s with waiting := rest })

/-- The service an operation causes (R91). -/
def serveWaiting (s : State) : State := serve s.waiting s

/-- Keep on every list the claims that pass a test. -/
def keepClaims (keep : Chan → Claim → Bool) (s : State) : State :=
  { s with claims := tabulate fun c => (s.claimList c).filter (keep c) }

/-- A withdrawal of record `n`'s claims, with the service and the publications it causes (R84). -/
def withdraw (n : RecNo) (s : State) : State :=
  publish (serveWaiting (keepClaims (fun _ cl => cl.source != .record n) s))

/-- The removal of a record from the waiting list; when it was the head, the list is served (R89, R91). -/
def removeWaiting (n : RecNo) (s : State) : State :=
  let s1 := { s with waiting := s.waiting.filter fun m => m != n }
  if s.waiting.head? = some n then publish (serveWaiting s1) else s1

/-- A selective removal: the claims on the channels of a set that meet a condition are removed; when any was, the list is served and
the changed demands published (R85). -/
def selectiveRemoval (chans : List Chan) (cond : Claim → Bool) (s : State) : State :=
  let s1 := keepClaims (fun c cl => !(chans.contains c && cond cl)) s
  if claimTotal s1 = claimTotal s then s else publish (serveWaiting s1)

/-- A claim after one second tick's countdown: none when its hold reaches 0 (R86). -/
def countDown (cl : Claim) : Option Claim :=
  match cl.hold with
  | none => some cl
  | some h => if h.toNat ≤ 1 then none else some { cl with hold := some (h - 1) }

/-- The hold countdown of one second tick, with the service and the publications it causes when a hold reaches 0 (R86). -/
def holdCountdown (s : State) : State :=
  let s1 := { s with claims := tabulate fun c => (s.claimList c).filterMap countDown }
  if claimTotal s1 = claimTotal s then s1 else publish (serveWaiting s1)

/-! ### Checks of records -/

/-- Quarantine a record whose check has failed, by the state in which the check finds it (R161). -/
def quarantine (n : RecNo) (s : State) : State :=
  match (s.record n).state with
  | .opened => markQuarantined n (withdraw n s)
  | .waiting => markQuarantined n (removeWaiting n s)
  | .armed => markQuarantined n s
  | .suspended => markQuarantined n s
  | .spent => markQuarantined n s
  | .free => s
  | .quarantined => s

/-- A check of a record, with the quarantine it causes; a FREE record is not checked, and a check of a QUARANTINED one changes nothing
(R158, R159, R161). -/
def checkRecord (n : RecNo) (s : State) : State := if recordSound (s.record n) then s else quarantine n s

/-- A check of a trigger rule, with the fault it causes on an ACTIVE one (R158, R163). -/
def checkRule (n : RuleNo) (s : State) : State :=
  if (s.rule n).state = .active ∧ ruleSound (s.rule n) = false then
    (s.setRule n { s.rule n with state := .faulted }).raise .ruleFault n.val
  else s

end Sys2Proof.Machine
end

