-- ==== Sys2Proof/Machine/Dates.lean ====
section
/-!
DEFINITION. Date arithmetic of the calendar (R1, R3, R5) and the present minute (Table 1-6, R6).
-/

namespace Sys2Proof.Machine

/-- Days of the months of a year before a month. -/
def daysBefore (year : Nat) : Nat → Nat
  | 0 => 0
  | 1 => 0
  | m + 2 => daysBefore year (m + 1) + monthLength year (m + 1)

/-- The days from 2000-01-01 up to a date, 2000-01-01 itself being day 0 (R1). -/
def dayIndex (d : Date) : Nat := d.year * 365 + (d.year + 3) / 4 + daysBefore d.year d.month + (d.day - 1)

/-- The weekday of a date: its day number plus 5, the remainder on division by 7, plus 1 (R1). -/
def weekdayOf (d : Date) : Nat := (dayIndex d + 5) % 7 + 1

/-- The day after a date; the day after 2099-12-31 lies outside the calendar (R3, R50). -/
def nextDate (d : Date) : Option Date :=
  if d.day < monthLength d.year d.month then some { d with day := d.day + 1 }
  else if d.month < 12 then some ⟨d.year, d.month + 1, 1⟩
  else if d.year < 99 then some ⟨d.year + 1, 1, 1⟩
  else none

/-- The day before a date; the day before 2000-01-01 lies outside the calendar (R50, R51). -/
def prevDate (d : Date) : Option Date :=
  if 1 < d.day then some { d with day := d.day - 1 }
  else if 1 < d.month then some ⟨d.year, d.month - 1, monthLength d.year (d.month - 1)⟩
  else if 0 < d.year then some ⟨d.year - 1, 12, 31⟩
  else none

/-- The date `k` days after a date, while it lies in the calendar. -/
def plusDays (d : Date) : Nat → Option Date
  | 0 => some d
  | k + 1 => (plusDays d k).bind nextDate

/-- The dates from `d` on, at most `k` of them, that lie in the calendar. -/
def datesFrom (d : Date) : Nat → List Date
  | 0 => []
  | k + 1 => d :: (nextDate d).elim [] fun e => datesFrom e k

/-- Minutes since 2000-01-01 00:00. -/
def minuteIndex (d : Date) (hours minutes : Nat) : Nat := dayIndex d * 1440 + hours * 60 + minutes

/-- The minute a moment carries. -/
def Moment.index (m : Moment) : Nat := minuteIndex m.date m.hours m.minutes

/-- The last minute of the calendar, 2099-12-31 23:59 (R50, R71). -/
def lastMinute : Nat := minuteIndex ⟨99, 12, 31⟩ 23 59

namespace Calendar

/-- The weekday the calendar shows, a function of its date (R1). -/
def weekday (k : Calendar) : Nat := weekdayOf k.date

/-- The present minute with its weekday (Table 1-6, R6). -/
def now (k : Calendar) : Moment := ⟨k.date, k.hours, k.minutes, weekdayOf k.date⟩

/-- The start of a new minute carries minutes, hours and the day (R3); `none` is the year rollover of R7. -/
def nextMinute (k : Calendar) : Option Calendar :=
  if k.minutes < 59 then some { k with seconds := 0, minutes := k.minutes + 1 }
  else if k.hours < 23 then some { k with seconds := 0, minutes := 0, hours := k.hours + 1 }
  else (nextDate k.date).map fun d => { k with seconds := 0, minutes := 0, hours := 0, date := d }

/-- The calendar after the year rollover: 2000-01-01 00:00:00, state and phase as they are (R7). -/
def rolledOver (k : Calendar) : Calendar := { k with date := ⟨0, 1, 1⟩, hours := 0, minutes := 0, seconds := 0 }

/-- One second tick's advance and the event it produces for the window evaluator (R5, R6, R7). -/
def tick (k : Calendar) : Calendar × Option TimeEvent :=
  if k.state = .running then
    if k.seconds < 59 then ({ k with seconds := k.seconds + 1 }, none)
    else match k.nextMinute with
      | some k1 => (k1, some (.boundary k1.now))
      | none => (k.rolledOver, some (.step k.rolledOver.now .rollover))
  else (k, none)

/-- An accepted TSET (R12). -/
def set (k : Calendar) (d : Date) (hours minutes : Nat) : Calendar :=
  { k with state := .running, date := d, hours := hours, minutes := minutes, seconds := 0, phase := 0 }

/-- The declaration of a loss: phase 0, HALTED with the time last counted (R10). -/
def lose (k : Calendar) : Calendar :=
  { k with state := .halted, phase := 0, osc := .lost, qualify := some Config.qualifyMs }

end Calendar

/-- An event of the calendar becomes a pending event of the window evaluator; the evaluator takes none while main power is
absent (R8, R15, R52). -/
def State.deliver (s : State) (e : TimeEvent) : State :=
  if s.mainPower then { s with evaluator := { s.evaluator with pending := s.evaluator.pending ++ [e] } } else s

end Sys2Proof.Machine
end

