-- ==== Sys2Proof/Machine/Windows.lean ====
section
/-!
DEFINITION. Windows formed from a record's content (R22, R49, R50, R51, R57) and the events RNXT looks for (R71).
-/

namespace Sys2Proof.Machine

/-- A content is DATED by its kind; a stored kind that is neither WEEKLY nor DATED leaves it free (log 10). -/
def contentDated (c : Content) : Bool :=
  if c.kind = 0 then false else if c.kind = 1 then true else Config.freeDated c

/-- Month-days compared by month and then by day (R22). -/
def monthDayKey (md : Nat × Nat) : Nat := md.1 * 32 + md.2

/-- A month-day lies in a season, which may wrap the year end (R22). -/
def inSeason (lo hi md : Nat × Nat) : Bool :=
  if monthDayKey lo ≤ monthDayKey hi then
    decide (monthDayKey lo ≤ monthDayKey md) && decide (monthDayKey md ≤ monthDayKey hi)
  else decide (monthDayKey lo ≤ monthDayKey md) || decide (monthDayKey md ≤ monthDayKey hi)

/-- The season admits a date; `none` when a stored bound is no month-day. -/
def seasonAdmits (x : Option Season) (d : Date) : Option Bool :=
  match x with
  | none => some true
  | some y =>
    match monthDayOf y.fromDay, monthDayOf y.untilDay with
    | some lo, some hi => some (inSeason lo hi (d.month, d.day))
    | _, _ => none

/-- The ninth field and the season name a date as a day on which a window begins (R22, R49, R50); `none` when the stored values
do not say. -/
def namesDay (c : Content) (d : Date) : Option Bool :=
  match c.day with
  | .days set =>
    if c.kind = 0 ∧ set ≠ 0 then (seasonAdmits c.season d).map fun b => b && set.getLsbD (weekdayOf d - 1) else none
  | .date w => if c.kind = 1 then (dateOf w).map fun e => decide (e = d) else none

/-- The start and end times, when they are times and differ. -/
def startStop (c : Content) : Option (Nat × Nat) :=
  match timeOf c.start, timeOf c.stop with
  | some a, some b => if a = b then none else some (a, b)
  | _, _ => none

/-- The window of a content that begins on a date, as start and end minutes: the end is on the same day when it is later than the
start, and on the following day when it is earlier (R22, R49, R50). Stored window fields out of range leave it free (log 10). -/
def windowOn (c : Content) (d : Date) : Option (Nat × Nat) :=
  match startStop c, namesDay c d with
  | some (a, b), some named =>
    if named then
      some (dayIndex d * 1440 + a, if a < b then dayIndex d * 1440 + b else (dayIndex d + 1) * 1440 + b)
    else none
  | _, _ => Config.freeWindow c d

/-- Minute `p` lies in a window, start inclusive and end exclusive (R22). -/
def holdsMinute (p : Nat) (w : Option (Nat × Nat)) : Bool := w.elim false fun x => decide (x.1 ≤ p) && decide (p < x.2)

/-- R51: minute `m` lies inside a content when it lies in a window that began on the date of `m` or on the day before. -/
def inside (c : Content) (m : Moment) : Bool :=
  holdsMinute m.index (windowOn c m.date)
    || (prevDate m.date).elim false fun d => holdsMinute m.index (windowOn c d)

/-- Minute `m` is the start minute of one of the content's windows (R57). -/
def startsAt (c : Content) (m : Moment) : Bool := (windowOn c m.date).elim false fun w => w.1 == m.index

/-- The date a DATED content names, when its stored value is one. -/
def datedOn (c : Content) : Option Date :=
  match c.day with
  | .days _ => none
  | .date w => dateOf w

/-- A DATED content's one window ends at or before minute `m` (R57, R61). A stored date out of range leaves the window free (log 10). -/
def datedOver (c : Content) (m : Moment) : Bool :=
  contentDated c && (windowOn c ((datedOn c).getD m.date)).elim false fun w => decide (w.2 ≤ m.index)

/-- The events of one window after minute `p`: its opening and closing when it begins after `p`; its closing when the record stands
in it (R71). `true` is OPEN. -/
def windowEvents (standing : Bool) (p : Nat) (w : Nat × Nat) : List (Nat × Bool) :=
  if p < w.1 then [(w.1, true), (w.2, false)]
  else if standing && decide (p < w.2) then [(w.2, false)]
  else []

/-- An event in the span of R71. -/
def inSpan (p : Nat) (e : Nat × Bool) : Bool :=
  decide (p < e.1) && decide (e.1 ≤ p + Config.nextSpan) && decide (e.1 ≤ lastMinute)

/-- The dates whose windows can give an event in the span: the day before the present date, to the eighth day after it. -/
def spanDates (d : Date) : List Date := (prevDate d).toList ++ datesFrom d 9

/-- A record takes part in RNXT (R71). -/
def RecState.planned : RecState → Bool
  | .armed => true
  | .opened => true
  | .waiting => true
  | .free => false
  | .suspended => false
  | .spent => false
  | .quarantined => false

/-- The events of one record in the span (R71). -/
def recordEvents (r : Record) (m : Moment) : List (Nat × Bool) :=
  match r.content with
  | none => []
  | some c =>
    (((spanDates m.date).filterMap (windowOn c)).flatMap (windowEvents (r.state != .armed) m.index)).filter (inSpan m.index)

/-- The earlier of two events; the first when they fall at the same minute. -/
def earlier {α : Type} (a : Option (Nat × α)) (b : Nat × α) : Option (Nat × α) :=
  match a with
  | none => some b
  | some x => if b.1 < x.1 then some b else some x

/-- The earliest event of a list. -/
def earliest {α : Type} (l : List (Nat × α)) : Option (Nat × α) := l.foldl earlier none

/-- A record's current channel list holds a channel. -/
def Record.names (r : Record) (c : Chan) : Bool := (r.content.elim [] Content.channels).any fun b => b.toNat == c.val

/-- The next event of the schedule table for a channel, or for all: minute, record and whether it is an opening. Among events at
one minute the lowest-numbered record's is taken (R71). -/
def nextEvent (s : State) (ch : Option Chan) : Option (Nat × RecNo × Bool) :=
  earliest ((List.finRange 96).filterMap fun n =>
    let r := s.record n
    if r.state.planned && ch.elim true r.names then
      (earliest (recordEvents r s.calendar.now)).map fun e => (e.1, n, e.2)
    else none)

end Sys2Proof.Machine
end

