-- ==== Sys2Proof/Machine/Evaluator.lean ====
section
/-!
DEFINITION. The window evaluator: opening and closing a record (R55, R56), the two passes (R53, R57, R61), single-record evaluation
(R68).
-/

namespace Sys2Proof.Machine

/-- Apply a record's draft when one is present: it replaces the content whole, becomes absent, and the check code is recomputed
(R25, R26). -/
def Record.applyDraft (r : Record) : Record :=
  match r.draft with
  | none => r
  | some d => ({ r with content := some d, draft := none } : Record).sealed

/-- Discard a record's draft when one is present, with the check code recomputed (R25, R26). -/
def Record.dropDraft (r : Record) : Record :=
  match r.draft with
  | none => r
  | some _ => ({ r with draft := none } : Record).sealed

/-- A record's content is DATED. -/
def Record.dated (r : Record) : Bool := r.content.elim false contentDated

/-- The request of an opening record: granted when the waiting list is empty and the free count covers its need (R81); else it joins the
list at the tail, becomes WAITING, and CLAIM_WAIT is raised (R55, R82). -/
def requestOpening (n : RecNo) (s : State) : State :=
  if s.waiting = [] ∧ (s.record n).need ≤ freeCount s then
    publish (setRecState n .opened (placeRecord n s))
  else
    (setRecState n .waiting { s with waiting := s.waiting ++ [n] }).raise .claimWait n.val

/-- The opening of an ARMED record: check, count, request (R55). -/
def openRecord (n : RecNo) (s : State) : State :=
  if recordSound (s.record n) then requestOpening n (countRecord n s) else quarantine n s

/-- A record gives up its claims or its place on the waiting list (R56 step 1 without its notice, R32, R37, R40). -/
def leaveWindow (n : RecNo) (s : State) : State :=
  match (s.record n).state with
  | .opened => withdraw n s
  | .waiting => removeWaiting n s
  | _ => s

/-- The close of an OPEN or WAITING record (R56). -/
def closeRecord (n : RecNo) (s : State) : State :=
  let s1 := leaveWindow n s
  let s2 := if (s.record n).state = .waiting then s1.raise .missedWindow n.val else s1
  let r := (s2.record n).applyDraft
  s2.setRecord n { r with state := if r.dated then .spent else .armed }

/-- A record stands in a window. -/
def RecState.standing : RecState → Bool
  | .opened => true
  | .waiting => true
  | .free => false
  | .armed => false
  | .suspended => false
  | .spent => false
  | .quarantined => false

/-- A DATED record whose window is over becomes SPENT, and MISSED_WINDOW is raised (R57, R61, R68). -/
def spendRecord (n : RecNo) (s : State) : State := (setRecState n .spent s).raise .missedWindow n.val

/-- An OPEN or WAITING record that minute `m` does not find inside its current content is closed (R57 step 1, R61). -/
def closeIfOutside (m : Moment) (n : RecNo) (s : State) : State :=
  let r := s.record n
  if r.state.standing && !(r.content.elim false fun c => inside c m) then closeRecord n s else s

/-- The test of an ARMED record: opened when `opens` holds of its content, SPENT when it is DATED and its window is over, else left
(R57 step 2, R61, R68). -/
def testArmed (opens : Content → Moment → Bool) (m : Moment) (n : RecNo) (s : State) : State :=
  let r := s.record n
  match r.content with
  | none => s
  | some c =>
    if r.state = .armed then
      if opens c m then openRecord n s
      else if datedOver c m then spendRecord n s
      else s
    else s

/-- One visit of a pass: close, then test for opening; a boundary pass opens at a window's start, a re-evaluation anywhere inside
(R57, R61). -/
def visit (k : PassKind) (m : Moment) (n : RecNo) (s : State) : State :=
  testArmed (match k with | .boundary => startsAt | .reevaluation => inside) m n (closeIfOutside m n s)

/-- The pass after a visit: the next record, or none after record 95 (R52, R53). -/
def Pass.advance (p : Pass) : Option Pass :=
  if h : p.next.val + 1 < 96 then some { p with next := ⟨p.next.val + 1, h⟩ } else none

/-- The next visit of the pass in progress, when there is one. -/
def passStep (s : State) : State :=
  match s.evaluator.pass, s.evaluator.minute with
  | some p, some m =>
    let s1 := visit p.kind m p.next s
    { s1 with evaluator := { s1.evaluator with pass := p.advance } }
  | _, _ => s

/-- At most `k` further visits of the pass in progress (R53; log 6). -/
def runPass : Nat → State → State
  | 0, s => s
  | k + 1, s => runPass k (passStep s)

/-- Begin a pass: the evaluation minute is set, and record 0 is next (R52). -/
def beginPass (k : PassKind) (m : Moment) (s : State) : State :=
  { s with evaluator := { s.evaluator with minute := some m, pass := some ⟨k, 0⟩ } }

/-- When no pass is in progress, take the oldest pending event if it calls for a pass of this kind, and begin that pass (R52). An event that
was produced in RUNNING and is still pending when a loss halts the calendar is taken all the same, and its pass made in HALTED: R52 takes any
pending event, R54 has windows open and close in RUNNING only, and of a pass not yet begun neither says more. DESIGN CHOICE, unsafe: log 34. -/
def takeEvent (k : PassKind) (s : State) : State :=
  match s.evaluator.pass, s.evaluator.pending, k with
  | none, .boundary m :: rest, .boundary => beginPass k m { s with evaluator := { s.evaluator with pending := rest } }
  | none, .step m _ :: rest, .reevaluation => beginPass k m { s with evaluator := { s.evaluator with pending := rest } }
  | _, _, _ => s

/-- The pass in progress is of this kind. -/
def passOf (k : PassKind) (s : State) : Bool := s.evaluator.pass.elim false fun p => p.kind == k

/-- A step of a pass of one kind: begin it if it is due, then at most `visits` visits. Nothing happens when the pass in progress, or the
oldest pending event, is of the other kind, or when nothing is due (R52; logs 3, 6). -/
def passCommand (k : PassKind) (visits : Nat) (s : State) : State :=
  let s1 := takeEvent k s
  if passOf k s1 then runPass visits s1 else s

/-- The single-record evaluation, when the calendar is RUNNING and the evaluation minute is present (R68). -/
def evaluateRecord (n : RecNo) (s : State) : State :=
  match s.evaluator.minute with
  | some m => if s.calendar.state = .running then testArmed inside m n s else s
  | none => s

end Sys2Proof.Machine
end

