-- ==== Sys2Proof/Machine/Inputs.lean ====
section
/-!
DEFINITION. The input monitor: pins and debouncing (R104), the PUSH and LEVEL state machines (R105 to R109), input events (R110) and
the application of trigger rules (R112 to R115), with the meanings of INPUT_PIN_CHANGE, CHANGE_TAKEN, THRESHOLD_REACHED, INPUT_STUCK
and INPUT_EVENT.
-/

namespace Sys2Proof.Machine

/-- The input is asserted at its pin, after polarity, not debounced (R103, R119). -/
def asserted (s : State) (i : InputNo) : Bool := nth s.inputPins i != (s.inputConfig i).activeLow

/-- A debounce interval of the configured debounce time towards a level (R104). -/
def startInterval (k : InputConfig) (lv : Bool) : Option Interval := k.debounce.map fun ms => ⟨lv, ms⟩

/-- What the debouncer does when the pin has come to a level: it starts a fresh interval when the level differs from the debounced one or
when there is none yet, and discards the interval when it does not differ (R104, R120). -/
def Input.watch (x : Input) (k : InputConfig) (lv : Bool) : Input :=
  match k.kind with
  | .off => x
  | _ => { x with interval := if x.debounced = some lv then none else startInterval k lv }

/-- The pin of an input changes to a level; the debouncer watches it while the main domain is powered (R104). -/
def pinChange (i : InputNo) (high : Bool) (s : State) : State :=
  if nth s.inputPins i = high then s
  else
    let s1 := { s with inputPins := upd s.inputPins i high }
    if s.mainPower then s1.setInput i ((s.input i).watch (s.inputConfig i) (asserted s1 i)) else s1

/-- An input event is produced and waits to be taken (R110). -/
def produce (i : InputNo) (k : EventKind) (s : State) : State := { s with events := s.events ++ [⟨i, k⟩] }

/-- The debounced level becomes the level that held, and the interval is over (R104). -/
def Input.taken (x : Input) (lv : Bool) : Input := { x with debounced := some lv, interval := none }

/-- The first sample after a main reset: a PUSH input found asserted is STUCK, a LEVEL input found asserted is ACTIVE (R120). -/
def firstSample (i : InputNo) (lv : Bool) (s : State) : State :=
  let x := { (s.input i).taken lv with firstPending := some false }
  match (s.inputConfig i).kind with
  | .off => s
  | .push =>
    if lv then (s.setInput i { x with state := .stuck }).raise .inputStuck i.val else s.setInput i { x with state := .released }
  | .level =>
    if lv then produce i .activate (s.setInput i { x with state := .active }) else s.setInput i { x with state := .inactive }

/-- A debounced press or assertion is taken (R105, R109). -/
def pressTaken (i : InputNo) (s : State) : State :=
  let x := (s.input i).taken true
  match x.state with
  | .released => s.setInput i { x with state := .pressed, pressTime := some s.msTime, heldCount := some 0 }
  | .inactive => produce i .activate (s.setInput i { x with state := .active })
  | _ => s.setInput i x

/-- A debounced release or deassertion is taken (R106, R107, R108, R109). -/
def releaseTaken (i : InputNo) (s : State) : State :=
  let x := (s.input i).taken false
  let up := { x with state := .released, pressTime := none, heldCount := none }
  match x.state with
  | .pressed => produce i .short (s.setInput i up)
  | .longHeld => produce i .longRelease (s.setInput i up)
  | .stuck => s.setInput i up
  | .active => produce i .deactivate (s.setInput i { x with state := .inactive })
  | _ => s.setInput i x

/-- The debounce interval of an input ends with the pin still at its new level: the change is taken (R104, R120). Without an interval
there is no change to take (log 3). -/
def takeChange (i : InputNo) (s : State) : State :=
  match (s.input i).interval with
  | none => s
  | some iv =>
    if (s.input i).firstPending = some true then firstSample i iv.level s
    else if iv.level then pressTaken i s
    else releaseTaken i s

/-- The long threshold passes with the input still PRESSED: LONG, and LONG_HELD with the held count going on (R106). -/
def reachThreshold (i : InputNo) (s : State) : State :=
  let x := s.input i
  if x.state = .pressed then produce i .long (s.setInput i { x with state := .longHeld, pressTime := none }) else s

/-- One second tick counted by one input: at 120 it is STUCK and INPUT_STUCK is raised (R108). -/
def countHeld (s : State) (i : InputNo) : State :=
  let x := s.input i
  if x.state = .pressed ∨ x.state = .longHeld then
    let n := x.heldCount.getD 0 + 1
    if Config.stuckTicks ≤ n then
      (s.setInput i { x with state := .stuck, pressTime := none, heldCount := none }).raise .inputStuck i.val
    else s.setInput i { x with heldCount := some n }
  else s

/-- One second tick taken by the input monitor: every input counts it (R108). The manual gives the inputs no order, which decides the first
subject of INPUT_STUCK when several reach 120 at one tick; the model counts them from input 0 to input 7. DESIGN CHOICE, unsafe: log 37. -/
def heldTick (s : State) : State := (List.finRange 8).foldl countHeld s

/-- The input monitor takes the oldest second tick delivered to it and not yet taken (R108; log 5). -/
def takeHeldTick (s : State) : State := if s.heldDue = 0 then s else heldTick { s with heldDue := s.heldDue - 1 }

/-! ### Trigger rules -/

/-- The codes of TRWR field 3 (R116). -/
def EventKind.code : EventKind → Nat
  | .short => 0
  | .long => 1
  | .longRelease => 2
  | .activate => 3
  | .deactivate => 4

/-- A rule matches an event: ACTIVE, of its input and its kind (R112). -/
def ruleMatches (r : Rule) (e : InputEvent) : Bool :=
  r.state == .active && r.fields.elim false fun f => f.input.toNat == e.input.val && f.event.toNat == e.kind.code

/-- The request of an ASSERT or TOGGLE with a level on every channel (R113, R114). -/
def ruleRequest (i : InputNo) (f : RuleFields) (lv : BitVec 8) : Request :=
  ⟨.input i, (toChans f.channels).map fun c => (c, lv), toPriority f.priority, f.blink, f.hold⟩

/-- Make a rule's request; a refusal raises POOL_SHORT with the rule number (R82, R113, R114). -/
def makeRuleRequest (n : RuleNo) (i : InputNo) (f : RuleFields) (lv : BitVec 8) (s : State) : State :=
  (request (ruleRequest i f lv) s).getD (s.raise .poolShort n.val)

/-- A claim of any input with a priority at or below a rule's (R85, R115). -/
def releases (f : RuleFields) (cl : Claim) : Bool :=
  match cl.source with
  | .input _ => decide (cl.priority ≤ toPriority f.priority)
  | .record _ => false
  | .port => false

/-- A RELEASE action (R115). -/
def makeRelease (f : RuleFields) (s : State) : State := selectiveRemoval (toChans f.channels) (releases f) s

/-- The level a TOGGLE decides from the demand of the first channel of its list (R114). -/
def toggleLevel (f : RuleFields) (s : State) : BitVec 8 :=
  match toChans f.channels with
  | [] => f.level.getD 0
  | c :: _ => if (demandOf s c).on then 0 else f.level.getD 0

/-- The visit goes on to the next rule, or the event is finished after rule 15 (R112). -/
def Applying.advance (a : Applying) : Option Applying :=
  if h : a.next.val + 1 < 16 then some { a with next := ⟨a.next.val + 1, h⟩, toggle := none } else none

/-- The action of a matching rule that has passed its check: ASSERT and RELEASE are done and the visit goes on; a TOGGLE makes its
reading and keeps it for its request (R112, R114). -/
def applyAction (a : Applying) (f : RuleFields) (s : State) : State :=
  if f.action = 0 then { makeRuleRequest a.next a.event.input f (f.level.getD 0) s with applying := a.advance }
  else if f.action = 1 then { s with applying := some { a with toggle := some ⟨a.next, f, toggleLevel f s⟩ } }
  else { makeRelease f s with applying := a.advance }

/-- One step of the application of an event: a TOGGLE's request when its reading has been made, else the visit of the next rule, with its
check (R112, R114). -/
def applyStep (s : State) : State :=
  match s.applying with
  | none => s
  | some a =>
    match a.toggle with
    | some t => { makeRuleRequest t.rule a.event.input t.fields t.level s with applying := a.advance }
    | none =>
      if ruleMatches (s.rule a.next) a.event then
        if ruleSound (s.rule a.next) then
          match (s.rule a.next).fields with
          | some f => applyAction a f s
          | none => { s with applying := a.advance }
        else { checkRule a.next s with applying := a.advance }
      else { s with applying := a.advance }

/-- At most `k` further steps of the application (log 7). -/
def runApply : Nat → State → State
  | 0, s => s
  | k + 1, s => runApply k (applyStep s)

/-- The oldest waiting event of an input. -/
def oldestEvent (i : InputNo) (s : State) : Option InputEvent := s.events.find? fun e => e.input == i

/-- When no event is being applied, take the oldest event of an input (R110; log 7). -/
def takeInputEvent (i : InputNo) (s : State) : State :=
  match s.applying, oldestEvent i s with
  | none, some e => { s with events := s.events.erase e, applying := some ⟨e, 0, none⟩ }
  | _, _ => s

/-! ### Meanings -/

/-- INPUT_PIN_CHANGE (R104). -/
def execInputPinChange (i : InputNo) (high : Bool) (s : State) : Result := .next (pinChange i high s)

/-- CHANGE_TAKEN (R104 to R109, R120). -/
def execChangeTaken (i : InputNo) (s : State) : Result := .next (takeChange i s)

/-- THRESHOLD_REACHED (R106). -/
def execThresholdReached (i : InputNo) (s : State) : Result := .next (reachThreshold i s)

/-- INPUT_STUCK: the input monitor takes a second tick delivered to it and not yet taken, at which a held count may reach 120; the held
counts stand still while the oscillator is not STEADY (R108; logs 3, 5). -/
def execInputStuck (s : State) : Result := .next (if s.calendar.osc = .steady then takeHeldTick s else s)

/-- INPUT_EVENT: the oldest event of an input is taken when none is being applied, and its application goes on by at most `steps` steps;
32 are enough for any event (R110, R112; log 7). -/
def execInputEvent (i : InputNo) (steps : Nat) (s : State) : Result := .next (runApply steps (takeInputEvent i s))

end Sys2Proof.Machine
end

