-- ==== Sys2Proof/Machine/Reset.lean ====
section
/-!
DEFINITION. Main reset, cold start, the supplies, and storage disturbances (00 section 1.4; R15 to R18, R46 to R48, R66, R101, R120, R121,
R140 to R142, R156, R157, R169, R182), with the meanings of RESET_INPUT, MAIN_POWER_LOSS, POWER_RETURN, COLD_START and
STORAGE_DISTURBANCE.
-/

namespace Sys2Proof.Machine

/-- A channel's working state after main reset, before it derives its drive: the rest level as present demand, every pin inactive
(R101, R140, Table 6-2). -/
def Channel.fresh (k : ChannelConfig) : Channel :=
  ⟨⟨k.rest, none⟩, .normal, .inactive, .none, if k.kind = .pulsed then some .unknown else none, none, none, false, .unsupervised⟩

/-- The main domain emptied: no claim, no input state, no generator, no freeze, an idle port, no notice (R52, R101, R120, R140, R156, R169,
R182; while main power is absent, log 17), and no fault left due (log 35). No work of a second tick is due after it: a scrub step still due is
discarded, where R16, R159 and R169 do not say whether the integrity monitor takes it before or after the reset. DESIGN CHOICE, unsafe: log 39. -/
def clearMain (s : State) : State :=
  { s with
    evaluator := .blank
    claims := Vector.replicate 24 []
    waiting := []
    holdsDue := 0
    inputs := Vector.replicate 8 .blank
    events := []
    applying := none
    heldDue := 0
    channels := tabulate fun c => Channel.fresh (s.config c)
    freezeMask := 0
    freezeSeq := .idle
    generators := Vector.replicate 6 .free
    scrub := 0
    scrubDue := 0
    compareDue := Vector.replicate 24 false
    faultsDue := Vector.replicate 24 false
    port := .blank
    notices := Vector.replicate 12 .blank
    mask := 0xFFF
    msTime := 0 }

/-- A record at main reset: OPEN or WAITING becomes ARMED with its draft applied, with no notice and no count (R47). -/
def Record.returned (r : Record) : Record := if r.state.standing then { r.applyDraft with state := .armed } else r

/-- An input at main reset: a PUSH or LEVEL input has no debounced level, its first sample is pending, and the debouncer times the level
its pin is at (R120). -/
def Input.restarted (k : InputConfig) (lv : Bool) : Input :=
  match k.kind with
  | .off => .blank
  | .push => ⟨.released, none, none, some true, none, startInterval k lv⟩
  | .level => ⟨.inactive, none, none, some true, none, startInterval k lv⟩

/-- The calendar reports a loss at main reset (R17). -/
def reportClock (s : State) : State :=
  if s.calendar.state = .halted ∨ s.calendar.osc = .lost then s.raise .clockFault 1 else s

/-- START, then the calendar's report (R17, R182). -/
def startNotices (cold : Bool) (s : State) : State := reportClock (s.raise .start cold.toNat)

/-- The retained records and inputs brought to the reset main domain (R47, R120). -/
def restartBlocks (s : State) : State :=
  { s with
    records := tabulate fun n => (s.record n).returned
    inputs := tabulate fun i => Input.restarted (s.inputConfig i) (asserted s i) }

/-- Each channel derives its drive from its rest level, in an order the manual leaves open (R141, R156; log 8). -/
def deriveAll (s : State) : State := (takeOrder s).1.foldl (fun t c => deriveDrive c true t) (takeOrder s).2

/-- The re-evaluation of a main reset, when the calendar is RUNNING: the pass begins at the present minute and makes its first `visits`
visits; REEVALUATION_PASS makes the rest (R66, R67; log 6). -/
def resetEvaluation (visits : Nat) (s : State) : State :=
  if s.calendar.state = .running then runPass visits (beginPass .reevaluation s.calendar.now s) else s

/-- The port is re-initialising (R182). How many transfers meet it so the manual leaves open: the next of the free numbers (log 21). -/
def reinitialising (s : State) : State :=
  { s with port := { s.port with reinit := s.reinits.headD 0 }, reinits := s.reinits.tail }

/-- A main reset (R182). -/
def mainReset (cold : Bool) (visits : Nat) (s : State) : State :=
  resetEvaluation visits (deriveAll (restartBlocks (startNotices cold (reinitialising (clearMain s)))))

/-- The backup domain at its defaults (R18, R48, R121, R142, R156). -/
def clearBackup (s : State) : State :=
  { s with
    calendar := .cold
    records := Vector.replicate 96 .blank
    rules := Vector.replicate 16 .blank
    inputConfigs := Vector.replicate 8 .cold
    channelConfigs := tabulate .cold
    switches := Vector.replicate 24 .blank
    dimFreq := 200 }

/-- A cold start: power-up with the backup domain's supply lost (R18). -/
def coldStart (s : State) : State := mainReset true 96 { clearBackup s with mainPower := true }

/-- Replace a record's stored content by a disturbed one, where there is one. -/
def disturbContent (c : Content) (r : Record) : Record := { r with content := r.content.map fun _ => c }

/-- Replace a record's stored draft by a disturbed one, where there is one. -/
def disturbDraft (c : Content) (r : Record) : Record := { r with draft := r.draft.map fun _ => c }

/-- Replace a stored protected flag; a FREE record's image is empty and holds none (R20, R157). -/
def disturbProtected (p : Bool) (r : Record) : Record := if r.state = .free then r else { r with prot := p }

/-- A storage disturbance changes a stored image or a stored check code, and nothing else (R157; log 11). -/
def disturb (d : Disturbance) (s : State) : State :=
  match d with
  | .recordContent n c => s.setRecord n (disturbContent c (s.record n))
  | .recordDraft n c => s.setRecord n (disturbDraft c (s.record n))
  | .recordProtected n p => s.setRecord n (disturbProtected p (s.record n))
  | .recordCode n v => s.setRecord n { s.record n with code := v }
  | .ruleFields r f => s.setRule r { s.rule r with fields := (s.rule r).fields.map fun _ => f }
  | .ruleCode r v => s.setRule r { s.rule r with code := v }

/-! ### Meanings -/

/-- RESET_INPUT: a main reset; an unpowered part takes none (R182). -/
def execResetInput (visits : Nat) (s : State) : Result := .next (if s.mainPower then mainReset false visits s else s)

/-- MAIN_POWER_LOSS: the main domain is lost; the backup domain goes on (R15, R135, R156; log 17). -/
def execMainPowerLoss (s : State) : Result := .next (if s.mainPower then { clearMain s with mainPower := false } else s)

/-- POWER_RETURN: main power returns with the backup domain intact, and a main reset follows (R15; log 18). -/
def execPowerReturn (visits : Nat) (s : State) : Result :=
  .next (if s.mainPower then s else mainReset false visits { s with mainPower := true })

/-- COLD_START (R18; log 18). -/
def execColdStart (s : State) : Result := .next (coldStart s)

/-- STORAGE_DISTURBANCE (R157). -/
def execStorageDisturbance (d : Disturbance) (s : State) : Result := .next (disturb d s)

end Sys2Proof.Machine
end

