-- ==== Sys2Proof/Machine/Port.lean ====
section
/-!
DEFINITION. The command port: transfers of single bytes (R170 to R176), how a complete line is taken, carried out and answered (R173, R177,
R178), with the meanings of PORT_WRITE, PORT_READ, GAP_TIMER_END, UNKNOWN_COMMAND, LINE_TOO_LONG and the words of the port's own block:
NGET, NMSK, RSTR.
-/

namespace Sys2Proof.Machine

/-! ### Single bytes -/

/-- A byte other than carriage return and line feed in ACCEPTING: stored while the line holds fewer than 79, else lost with the overlength
mark; the gap timer restarts (R171). -/
def Port.accept (p : Port) (b : Byte) : Port :=
  if p.line.length < Config.lineMax then { p with line := p.line ++ [b], gapTimer := some Config.gapMs }
  else { p with overlength := true, gapTimer := some Config.gapMs }

/-- A line feed in ACCEPTING (R171). -/
def Port.feed (p : Port) : Port :=
  if p.line.isEmpty && !p.overlength then p else { p with gapTimer := some Config.gapMs }

/-- A carriage return in ACCEPTING ends the line: the port goes to EXECUTING with the line as it stands, and the line buffer is emptied
(R171, R173, R176). The overlength mark goes with the line to its execution, and the port's own is clear from there on, so that bit 5 of the
status byte shows an empty buffer; the manual does not say when the mark of a complete line is cleared. DESIGN CHOICE, unsafe: log 36. -/
def Port.endLine (p : Port) : Port :=
  { p with state := .executing, line := [], overlength := false, gapTimer := none, taken := some ⟨p.line, p.overlength, p.overrun⟩ }

/-- A byte written in ACCEPTING (R171). -/
def Port.write (p : Port) (b : Byte) : Port := if b = cr then p.endLine else if b = lf then p.feed else p.accept b

/-- A written byte in ANSWERING abandons the response (R174). -/
def Port.abandon (p : Port) : Port := { p with state := .accepting, response := [], readPos := 0 }

/-- One of the transfers that meet the re-initialising port is made (R182). -/
def Port.reinitPassed (p : Port) : Port := { p with reinit := p.reinit - 1 }

/-- A byte strobed in with WRS (R170, R171, R173, R174); a port that is re-initialising discards it (R182). -/
def Port.strobeIn (p : Port) (b : Byte) : Port :=
  if p.reinit ≠ 0 then p.reinitPassed
  else match p.state with
    | .accepting => p.write b
    | .executing => { p with overrun := true }
    | .answering => p.abandon.write b

/-- A read in ANSWERING returns the character at the read position; the one that ends the response moves the port to ACCEPTING (R174). -/
def Port.readChar (p : Port) (b : Byte) : Port :=
  if p.readPos + 1 < p.response.length then { p with readPos := p.readPos + 1, busOut := some b }
  else { p.abandon with busOut := some b }

/-- A read of the port status byte clears the overrun and dropped flags (R176). -/
def Port.readStatus (p : Port) (b : Byte) : Port := { p with overrun := false, dropped := false, busOut := some b }

/-- A byte strobed out with RDS (R170, R174, R175); a port that is re-initialising returns a status byte with the executing bit set
(R182; its other bits: log 21). -/
def strobeOut (s : State) : Port :=
  if s.port.reinit ≠ 0 then { s.port.reinitPassed with busOut := some (statusByte s ||| 0x01) }
  else match s.port.state, s.port.response[s.port.readPos]? with
    | .answering, some b => s.port.readChar b
    | _, _ => s.port.readStatus (statusByte s)

/-- The gap timer ends in ACCEPTING: the partial line is dropped (R172). -/
def Port.dropLine (p : Port) : Port := { p with line := [], overlength := false, dropped := true, gapTimer := none }

/-! ### Complete lines -/

/-- The port holds nothing of a line. -/
def Port.idle (p : Port) : Bool := p.state != .executing && p.line.isEmpty && !p.overlength

/-- The port in EXECUTING with a line taken whole. -/
def Port.takes (p : Port) (t : Taken) : Port :=
  { p.abandon with state := .executing, gapTimer := none, taken := some t }

/-- The line `t` is in execution: it is the line the port has taken, or the host writes it whole to a port that holds nothing of a line.
`none` when the port has another line in execution or holds part of one, when no such line can be written, when the port is re-initialising,
or when there is no main power (R171, R173, R182; log 2). -/
def takeLine (t : Text) (overlong : Bool) (s : State) : Option State :=
  if s.mainPower ∧ s.port.reinit = 0 then
    match s.port.state, s.port.taken with
    | .executing, some k =>
      if k.overlong = overlong ∧ k.text = t.take Config.lineMax ∧ (overlong ∨ t.length ≤ Config.lineMax) then some s else none
    | _, _ =>
      if s.port.idle && Text.plain t && decide (overlong = true ↔ Config.lineMax < t.length) then
        some { s with port := s.port.takes ⟨t.take Config.lineMax, overlong, s.port.overrun⟩ }
      else none
  else none

/-- What a command answers: a status, the response's fields, and the part after it (R177). -/
structure Reply where
  status : Status
  fields : List Text
  state : State
deriving DecidableEq, Repr

/-- A refused command answers its status field alone and changes nothing (R177, R178). -/
def refuse (st : Status) (s : State) : Reply := ⟨st, [], s⟩

/-- An accepted command. -/
def accept (fields : List Text) (s : State) : Reply := ⟨.ok, fields, s⟩

/-- The response line is written into the response buffer, and the port goes to ANSWERING (R173, R176). -/
def answer (mark : Bool) (r : Reply) : State :=
  { r.state with port := { r.state.port with
      state := .answering, response := responseText r.status mark r.fields, readPos := 0, taken := none } }

/-- The overrun mark of the line in execution (R176). -/
def takenMark (s : State) : Bool := s.port.taken.elim false Taken.mark

/-- A complete line ends a freeze sequence of which it is not the next step (R138, R171). -/
def endSequence (s : State) : State := { s with freezeSeq := .idle }

/-- The text of a line of a command word and fields, when these are what the port splits it into (R177). -/
def splitsTo (word : Text) (fields : List Text) : Bool := splitLine (lineText word fields) == (word, fields)

/-- A line command: the line of this word and these fields is carried out and answered. `body` is what the owning block does, on the part with
the freeze sequence ended (FRZK alone continues one). Nothing happens when that line is not in execution (log 2). -/
def carryOut (word : Text) (fields : List Text) (body : State → Reply) (s : State) : State :=
  if splitsTo word fields then
    match takeLine (lineText word fields) false s with
    | none => s
    | some s1 => answer (takenMark s1) (body (endSequence s1))
  else s

/-- The command words of Table 9-5. -/
def commandWords : List Text :=
  ["TSET", "TADJ", "TGET", "RWRT", "RGET", "RDRP", "RSUS", "RRES", "RFRE", "RCLR", "RPRT", "RFND", "RNXT", "CSET", "CREL", "GSCL", "CLST",
    "ICFG", "IGET", "TRWR", "TRGT", "CCFG", "CGET", "CCLR", "FRZK", "DFRQ", "GGET", "CFLT", "NGET", "NMSK", "RSTR"].map text

/-- The command word of a line is none of Table 9-5 (R178 order 2). -/
def unknownWord (t : Text) : Bool := !commandWords.contains (splitLine t).1

/-- A line that is answered with a status alone. -/
def answerLine (t : Text) (overlong : Bool) (st : Status) (s : State) : State :=
  match takeLine t overlong s with
  | none => s
  | some s1 => answer (takenMark s1) (refuse st (endSequence s1))

/-! ### NGET, NMSK, RSTR -/

/-- The kinds with a count above 0, in ascending kind code (R180). -/
def raisedKinds (s : State) : List (Fin 12) := (List.finRange 12).filter fun k => (nth s.notices k).count != 0

/-- The group of one entry: kind code, count, first subject (R180). -/
def noticeText (s : State) (k : Fin 12) : List Text :=
  [hex2 k.val, hex2 (nth s.notices k).count.toNat, hex2 ((nth s.notices k).first.getD 0)]

/-- NGET's response fields (R180). -/
def noticeFields (s : State) : List Text :=
  match raisedKinds s with
  | [] => [dash]
  | ks => ks.flatMap (noticeText s)

/-- NGET (R180). -/
def bodyNget (fields : List Text) (s : State) : Reply :=
  if fields = [] then accept (noticeFields s) { s with notices := Vector.replicate 12 .blank } else refuse .fieldCount s

/-- The attention mask: one to three hexadecimal digits (R181). -/
def maskField (f : Text) : Option (BitVec 12) := if f.length ≤ 3 then (number 0xFFF f).map (BitVec.ofNat 12) else none

/-- NMSK (R181). -/
def bodyNmsk (fields : List Text) (s : State) : Reply :=
  if (DigitRule.dashes none 1).bad fields then refuse .badDigit s
  else match fields with
    | [f] =>
      match maskField f with
      | some m => accept [] { s with mask := m }
      | none => refuse .range s
    | _ => refuse .fieldCount s

/-- RSTR on the line in execution: a main reset without a response; with fields it is refused and answered (R182). -/
def runRstr (fields : List Text) (visits : Nat) (s : State) : State :=
  if splitsTo (text "RSTR") fields then
    match takeLine (lineText (text "RSTR") fields) false s with
    | none => s
    | some s1 =>
      if fields = [] then mainReset false visits s1 else answer (takenMark s1) (refuse .fieldCount (endSequence s1))
  else s

/-! ### Meanings -/

/-- PORT_WRITE: a byte written while SEL is asserted (R170 to R174). -/
def execPortWrite (sel : Bool) (b : Byte) (s : State) : Result :=
  .next (if sel && s.mainPower then { s with port := s.port.strobeIn b } else s)

/-- PORT_READ: a byte read while SEL is asserted (R170, R174 to R176). -/
def execPortRead (sel : Bool) (s : State) : Result := .next (if sel && s.mainPower then { s with port := strobeOut s } else s)

/-- GAP_TIMER_END (R172); a timer that does not run does not end (log 3). -/
def execGapTimerEnd (s : State) : Result :=
  .next (if s.port.state = .accepting ∧ s.port.gapTimer.isSome then { s with port := s.port.dropLine } else s)

/-- UNKNOWN_COMMAND (R171, R178). -/
def execUnknownCommand (line : Text) (s : State) : Result :=
  .next (if unknownWord line then answerLine line false .unknownCommand s else s)

/-- LINE_TOO_LONG (R171, R178). -/
def execLineTooLong (line : Text) (s : State) : Result := .next (answerLine line true .lineTooLong s)

/-- NGET (R180). -/
def execNget (fields : List Text) (s : State) : Result := .next (carryOut (text "NGET") fields (bodyNget fields) s)

/-- NMSK (R181). -/
def execNmsk (fields : List Text) (s : State) : Result := .next (carryOut (text "NMSK") fields (bodyNmsk fields) s)

/-- RSTR (R182). -/
def execRstr (fields : List Text) (visits : Nat) (s : State) : Result := .next (runRstr fields visits s)

end Sys2Proof.Machine
end

