-- ==== Sys2Proof/Machine/CalendarCommands.lean ====
section
/-!
DEFINITION. The calendar clock's commands: TSET, TADJ, TGET (R11, R12, R14).
-/

namespace Sys2Proof.Machine

/-- The codes of TGET field 1 (R11). -/
def CalState.code : CalState → Nat
  | .stopped => 0
  | .running => 1
  | .halted => 2

/-- The codes of TGET field 6 (R11). -/
def OscStatus.code : OscStatus → Nat
  | .starting => 0
  | .steady => 1
  | .lost => 2

/-- The date and the minute of the day a TSET gives, when both are in range (R12). -/
def tsetValue (d t : Text) : Option (Date × Nat) :=
  match (dateField d).bind dateOf, (timeField t).bind timeOf with
  | some date, some minute => some (date, minute)
  | _, _ => none

/-- An accepted TSET: the calendar is set and its time step produced (R8, R12). -/
def setCalendar (date : Date) (minute : Nat) (s : State) : State :=
  let k := s.calendar.set date (minute / 60) (minute % 60)
  ({ s with calendar := k } : State).deliver (.step k.now .tset)

/-- TSET (R12). -/
def bodyTset (fields : List Text) (s : State) : Reply :=
  if DigitRule.strict.bad fields then refuse .badDigit s
  else match fields with
    | [d, t] =>
      match tsetValue d t with
      | none => refuse .range s
      | some v => if s.calendar.osc = .steady then accept [] (setCalendar v.1 v.2 s) else refuse .clockFault s
    | _ => refuse .fieldCount s

/-- TADJ's direction, "0" to advance or "1" to retard (R14). -/
def directionField (f : Text) : Option Bool :=
  if f = digit 0 then some false else if f = digit 1 then some true else none

/-- TADJ's offset: two BCD digits 00 to 30 (R14). -/
def offsetField (f : Text) : Option Nat := ((twoDigits 255 f).bind bcd2).filter fun n => decide (n ≤ 30)

/-- The seconds after an adjustment, when they stay within 00 to 59 (R14). -/
def adjusted (retard : Bool) (offset seconds : Nat) : Option Nat :=
  if retard then (if offset ≤ seconds then some (seconds - offset) else none)
  else (if seconds + offset ≤ 59 then some (seconds + offset) else none)

/-- TADJ (R14). -/
def bodyTadj (fields : List Text) (s : State) : Reply :=
  if DigitRule.strict.bad fields then refuse .badDigit s
  else match fields with
    | [dir, off] =>
      match directionField dir, offsetField off with
      | some r, some n =>
        if s.calendar.state = .running then
          match adjusted r n s.calendar.seconds with
          | some sec => accept [] { s with calendar := { s.calendar with seconds := sec } }
          | none => refuse .range s
        else refuse .wrongState s
      | _, _ => refuse .range s
    | _ => refuse .fieldCount s

/-- A date as ddmmyy. -/
def dateText (d : Date) : Text := decText 2 d.day ++ decText 2 d.month ++ decText 2 d.year

/-- A time as hhmm. -/
def timeText (hours minutes : Nat) : Text := decText 2 hours ++ decText 2 minutes

/-- TGET's six fields (R11). -/
def calendarFields (k : Calendar) : List Text :=
  [digit k.state.code, dateText k.date, timeText k.hours k.minutes, decText 2 k.seconds, digit k.weekday, digit k.osc.code]

/-- TGET (R11). -/
def bodyTget (fields : List Text) (s : State) : Reply :=
  if fields = [] then accept (calendarFields s.calendar) s else refuse .fieldCount s

/-! ### Meanings -/

/-- TSET (R12). -/
def execTset (fields : List Text) (s : State) : Result := .next (carryOut (text "TSET") fields (bodyTset fields) s)

/-- TADJ (R14). -/
def execTadj (fields : List Text) (s : State) : Result := .next (carryOut (text "TADJ") fields (bodyTadj fields) s)

/-- TGET (R11). -/
def execTget (fields : List Text) (s : State) : Result := .next (carryOut (text "TGET") fields (bodyTget fields) s)

end Sys2Proof.Machine
end

