-- ==== Sys2Proof/Machine/RecordCommands.lean ====
section
/-!
DEFINITION. The schedule table's commands: RWRT, RGET, RDRP, RSUS, RRES, RFRE, RCLR, RPRT, RFND (R28 to R45), and the window evaluator's
query RNXT (R70 to R72).
-/

namespace Sys2Proof.Machine

/-- A response's state field: the code of the record's state (Table 2-2). -/
def stateField (n : RecNo) (s : State) : List Text := [digit (s.record n).state.code]

/-- A protected record under a freeze refuses the commands of R43. -/
def lockedRecord (n : RecNo) (s : State) : Bool := s.freezeInEffect && (s.record n).prot

/-- A command of one field, a record number: the digit check, the field count, the range, and the lock of R43 when it applies, then what the
command does with the record (R29, R36 to R43). -/
def onRecord (guarded : Bool) (fields : List Text) (act : RecNo → State → Reply) (s : State) : Reply :=
  if DigitRule.strict.bad fields then refuse .badDigit s
  else match fields with
    | [f] =>
      match recordNumber f with
      | none => refuse .range s
      | some n => if guarded && lockedRecord n s then refuse .frozen s else act n s
    | _ => refuse .fieldCount s

/-! ### RWRT -/

/-- A kind and its ninth field with the season fields: WEEKLY with a weekday set, DATED with a date and no season (R28, R29). -/
def dayFields (kind day lo hi : Text) : Option (BitVec 4 × DayField × Option Season) :=
  match number 1 kind with
  | some 0 =>
    match weekdayField day with
    | none => none
    | some d =>
      if lo = dash ∧ hi = dash then some (0, .days d, none)
      else match monthDayField lo, monthDayField hi with
        | some a, some b => some (0, .days d, some ⟨a, b⟩)
        | _, _ => none
  | some _ =>
    match dateField day with
    | none => none
    | some d => if lo = dash ∧ hi = dash then some (1, .date d, none) else none
  | none => none

/-- Start and end (R29). -/
def timeFields (start stop : Text) : Option (BitVec 16 × BitVec 16) :=
  match timeField start, timeField stop with
  | some a, some b => if a = b then none else some (a, b)
  | _, _ => none

/-- The content that RWRT fields 2 to 11 write, when all are in range (R29). -/
def contentFields (kind chans lv blink prio start stop day lo hi : Text) : Option Content :=
  match dayFields kind day lo hi, channelListField chans, levelField lv, blinkField blink, priorityField prio, timeFields start stop with
  | some d, some ch, some l, some b, some p, some t => some ⟨d.1, ch, l, b, BitVec.ofNat 4 p.val, t.1, t.2, d.2.1, d.2.2⟩
  | _, _, _, _, _, _ => none

/-- The word NOW (R28). -/
def nowWord : Text := text "NOW"

/-- RWRT's record number, content and NOW (R28, R29); the outer `none` is a wrong field count, the inner one a value out of range. -/
def rwrtFields : List Text → Option (Option (RecNo × Content × Bool))
  | [n, k, ch, l, b, p, t0, t1, d, lo, hi] =>
    some ((recordNumber n).bind fun r => (contentFields k ch l b p t0 t1 d lo hi).map fun c => (r, c, false))
  | [n, k, ch, l, b, p, t0, t1, d, lo, hi, w] =>
    some (if w = nowWord then
      (recordNumber n).bind fun r => (contentFields k ch l b p t0 t1 d lo hi).map fun c => (r, c, true)
    else none)
  | _ => none

/-- The record with its content replaced and its check code computed, in a given state (R30, R32). -/
def Record.written (r : Record) (c : Content) (st : RecState) : Record :=
  ({ r with content := some c, draft := none, state := st } : Record).sealed

/-- Write a record's content and evaluate it as ARMED (R30, R32 steps 2 to 4, R68). -/
def writeArmed (n : RecNo) (c : Content) (s : State) : State :=
  evaluateRecord n (s.setRecord n ((s.record n).written c .armed))

/-- RWRT on an OPEN or WAITING record without NOW: the content becomes its draft (R31). -/
def storeDraft (n : RecNo) (c : Content) (s : State) : State :=
  s.setRecord n ({ s.record n with draft := some c } : Record).sealed

/-- An RWRT that has passed its range checks and the lock (R29 to R32). -/
def writeRecord (n : RecNo) (c : Content) (now : Bool) (s : State) : Reply :=
  let r := s.record n
  let done := fun t => accept (stateField n t) t
  if r.state.standing then
    if now then done (writeArmed n c (leaveWindow n s))
    else if r.draft.isSome then refuse .draftPresent s
    else done (storeDraft n c s)
  else if r.state = .suspended then done (s.setRecord n (r.written c .suspended))
  else done (writeArmed n c s)

/-- RWRT's digit check: the channel list may hold commas, every field may be "-", and NOW is a word (R29). -/
def rwrtDigits : DigitRule := ⟨some 2, List.range everyField, some 11⟩

/-- RWRT (R28 to R32). -/
def bodyRwrt (fields : List Text) (s : State) : Reply :=
  if rwrtDigits.bad fields then refuse .badDigit s
  else match rwrtFields fields with
    | none => refuse .fieldCount s
    | some none => refuse .range s
    | some (some v) => if lockedRecord v.1 s then refuse .frozen s else writeRecord v.1 v.2.1 v.2.2 s

/-! ### Reading -/

/-- Days per week, by the kind: for WEEKLY the number of weekdays in the day set, "-" for DATED (R22, Table 2-4). A QUARANTINED record may
hold stored values of which the manual gives none: a kind that is neither counts as `contentDated` says, and a WEEKLY content that stores a
date shows a digit left free. DESIGN CHOICE, safe: log 10. -/
def daysText (c : Content) : Text :=
  if contentDated c then dash
  else match c.day with
    | .days d => digit (ones 7 d.toNat)
    | .date _ => digit (Config.freeDaysPerWeek c).toNat

/-- The fields of a record with a content (Table 2-4). -/
def recordFields (r : Record) (c : Content) : List Text :=
  digit r.state.code :: contentText c
    ++ [flagText r.prot, decText 4 r.count.val, flagText r.wrap, daysText c]
    ++ (match r.draft with
        | none => [dash]
        | some d => contentText d)

/-- RGET's response fields: the state alone for a FREE record (R34). -/
def recordReport (n : RecNo) (s : State) : List Text :=
  match (s.record n).content with
  | none => stateField n s
  | some c => recordFields (s.record n) c

/-- RGET: the check, then the snapshot (R34, R35). -/
def getRecord (n : RecNo) (s : State) : Reply :=
  if (s.record n).state = .free then accept (stateField n s) s
  else
    let s1 := checkRecord n s
    accept (recordReport n s1) s1

/-- RGET (R34, R35). -/
def bodyRget (fields : List Text) (s : State) : Reply := onRecord false fields getRecord s

/-! ### RDRP, RSUS, RRES, RFRE, RCLR, RPRT -/

/-- RDRP on a record (R36). -/
def dropDraft (n : RecNo) (s : State) : Reply :=
  if (s.record n).draft.isSome then
    let t := s.setRecord n (s.record n).dropDraft
    accept (stateField n t) t
  else refuse .wrongState s

/-- RDRP (R36). -/
def bodyRdrp (fields : List Text) (s : State) : Reply := onRecord true fields dropDraft s

/-- The record as RSUS leaves it: any draft applied, SUSPENDED (R37). -/
def suspendRecord (n : RecNo) (s : State) : State :=
  let t := leaveWindow n s
  t.setRecord n { (t.record n).applyDraft with state := .suspended }

/-- RSUS on a record (R37). -/
def suspend (n : RecNo) (s : State) : Reply :=
  if (s.record n).state = .armed ∨ (s.record n).state.standing then
    let t := suspendRecord n s
    accept (stateField n t) t
  else refuse .wrongState s

/-- RSUS (R37). -/
def bodyRsus (fields : List Text) (s : State) : Reply := onRecord true fields suspend s

/-- RRES on a record (R38). -/
def resume (n : RecNo) (s : State) : Reply :=
  if (s.record n).state = .suspended then
    let t := evaluateRecord n (setRecState n .armed s)
    accept (stateField n t) t
  else refuse .wrongState s

/-- RRES (R38). -/
def bodyRres (fields : List Text) (s : State) : Reply := onRecord true fields resume s

/-- RFRE on a record (R40). -/
def freeRecord (n : RecNo) (s : State) : Reply :=
  if (s.record n).state = .free then refuse .wrongState s
  else
    let t := (leaveWindow n s).setRecord n .blank
    accept (stateField n t) t

/-- RFRE (R40). -/
def bodyRfre (fields : List Text) (s : State) : Reply := onRecord true fields freeRecord s

/-- RCLR on a record (R41). -/
def clearCount (n : RecNo) (s : State) : Reply := accept [] (s.setRecord n { s.record n with count := 0, wrap := false })

/-- RCLR (R41). -/
def bodyRclr (fields : List Text) (s : State) : Reply := onRecord true fields clearCount s

/-- RPRT on a record (R42). -/
def protect (n : RecNo) (p : Bool) (s : State) : Reply :=
  if (s.record n).state = .free then refuse .wrongState s
  else accept [] (s.setRecord n ({ s.record n with prot := p } : Record).sealed)

/-- RPRT (R42). The rule gives the protection value no form: it is taken as a Number, of 1 to 8 digits. DESIGN CHOICE, unsafe: log 40. -/
def bodyRprt (fields : List Text) (s : State) : Reply :=
  if DigitRule.strict.bad fields then refuse .badDigit s
  else match fields with
    | [f, v] =>
      match recordNumber f, number 1 v with
      | some n, some p => if lockedRecord n s then refuse .frozen s else protect n (p == 1) s
      | _, _ => refuse .range s
    | _ => refuse .fieldCount s

/-! ### RFND -/

/-- A field that is "-" for any, or a value. -/
def orAny {α : Type} (read : Text → Option α) (f : Text) : Option (Option α) := if f = dash then some none else (read f).map some

/-- A record matches a search (R44). -/
def Record.matchesSearch (ch : Option Chan) (code : Option Nat) (r : Record) : Bool :=
  ch.elim true r.names && code.elim true fun k => r.state.code == k

/-- The matching records from a starting number to 95, ascending (R44). -/
def findRecords (ch : Option Chan) (code : Option Nat) (start : RecNo) (s : State) : List RecNo :=
  (List.finRange 96).filter fun n => decide (start.val ≤ n.val) && (s.record n).matchesSearch ch code

/-- RFND's response fields: at most 24 numbers, then the continuation (R45). -/
def findFields (l : List RecNo) : List Text :=
  (l.take Config.findPage).map (fun n => hex2 n.val) ++ [orDash (fun n : RecNo => hex2 n.val) l[Config.findPage]?]

/-- RFND (R44, R45). The rule gives the state code no form: it is taken as a Number, of 1 to 8 digits. DESIGN CHOICE, unsafe: log 40. -/
def bodyRfnd (fields : List Text) (s : State) : Reply :=
  if (DigitRule.dashes none 3).bad fields then refuse .badDigit s
  else match fields with
    | [c, st, from0] =>
      match orAny channelNumber c, orAny (number 6) st, recordNumber from0 with
      | some ch, some code, some start => accept (findFields (findRecords ch code start s)) s
      | _, _, _ => refuse .range s
    | _ => refuse .fieldCount s

/-! ### RNXT -/

/-- The date of a minute that lies within the span of R71. -/
def spanDate (d : Date) (minute : Nat) : Option Date := (datesFrom d 9).find? fun e => dayIndex e == minute / 1440

/-- RNXT's response fields: date, time, record and event, or "-" (R70). -/
def nextFields (d : Date) : Option (Nat × RecNo × Bool) → List Text
  | none => [dash]
  | some (minute, n, isOpen) =>
    [orDash dateText (spanDate d minute), timeText (minute % 1440 / 60) (minute % 60), hex2 n.val, flagText isOpen]

/-- RNXT (R70 to R72). -/
def bodyRnxt (fields : List Text) (s : State) : Reply :=
  if (DigitRule.dashes none 1).bad fields then refuse .badDigit s
  else match fields with
    | [f] =>
      match orAny channelNumber f with
      | none => refuse .range s
      | some ch =>
        if s.calendar.state = .running then accept (nextFields s.calendar.date (nextEvent s ch)) s else refuse .clockNotSet s
    | _ => refuse .fieldCount s

/-! ### Meanings -/

/-- RWRT (R28 to R33). -/
def execRwrt (fields : List Text) (s : State) : Result := .next (carryOut (text "RWRT") fields (bodyRwrt fields) s)

/-- RGET (R34, R35). -/
def execRget (fields : List Text) (s : State) : Result := .next (carryOut (text "RGET") fields (bodyRget fields) s)

/-- RDRP (R36). -/
def execRdrp (fields : List Text) (s : State) : Result := .next (carryOut (text "RDRP") fields (bodyRdrp fields) s)

/-- RSUS (R37). -/
def execRsus (fields : List Text) (s : State) : Result := .next (carryOut (text "RSUS") fields (bodyRsus fields) s)

/-- RRES (R38). -/
def execRres (fields : List Text) (s : State) : Result := .next (carryOut (text "RRES") fields (bodyRres fields) s)

/-- RFRE (R40). -/
def execRfre (fields : List Text) (s : State) : Result := .next (carryOut (text "RFRE") fields (bodyRfre fields) s)

/-- RCLR (R41). -/
def execRclr (fields : List Text) (s : State) : Result := .next (carryOut (text "RCLR") fields (bodyRclr fields) s)

/-- RPRT (R42). -/
def execRprt (fields : List Text) (s : State) : Result := .next (carryOut (text "RPRT") fields (bodyRprt fields) s)

/-- RFND (R44, R45). -/
def execRfnd (fields : List Text) (s : State) : Result := .next (carryOut (text "RFND") fields (bodyRfnd fields) s)

/-- RNXT (R70 to R72). -/
def execRnxt (fields : List Text) (s : State) : Result := .next (carryOut (text "RNXT") fields (bodyRnxt fields) s)

end Sys2Proof.Machine
end

