-- ==== Sys2Proof/Machine/ClaimCommands.lean ====
section
/-!
DEFINITION. The claim arbiter's commands: CSET, CREL, GSCL, CLST (R93 to R100).
-/

namespace Sys2Proof.Machine

/-- A free count as a response shows it. -/
def freeText (s : State) : Text := hex2 (freeCount s)

/-- A request of the port: granted with the free count as its answer, or POOL_FULL (R82, R94, R97). -/
def portRequest (q : Request) (s : State) : Reply :=
  match request q s with
  | some t => accept [freeText t] t
  | none => refuse .poolFull s

/-- CSET's request, when its five fields are in range (R93). -/
def csetRequest (chans prio lv blink hold : Text) : Option Request :=
  match channelListField chans, priorityField prio, levelField lv, blinkField blink, holdField hold with
  | some ch, some p, some l, some b, some h => some ⟨.port, (toChans ch).map fun c => (c, l), p, b, h⟩
  | _, _, _, _, _ => none

/-- CSET (R93, R94). -/
def bodyCset (fields : List Text) (s : State) : Reply :=
  if (DigitRule.dashes (some 0) everyField).bad fields then refuse .badDigit s
  else match fields with
    | [ch, p, l, b, h] =>
      match csetRequest ch p l b h with
      | some q => portRequest q s
      | none => refuse .range s
    | _ => refuse .fieldCount s

/-- A PORT claim at a priority, or at any priority for "-" (R85, R95). -/
def portClaimAt (prio : Option (Fin 4)) (cl : Claim) : Bool := cl.source == .port && prio.elim true fun p => cl.priority == p

/-- The claims a CREL removes: those that meet its condition on its channels (R95). -/
def matchingClaims (chans : List Chan) (cond : Claim → Bool) (s : State) : Nat :=
  ((List.finRange 24).map fun c => if chans.contains c then ((s.claimList c).filter cond).length else 0).sum

/-- An accepted CREL: the selective removal, the number removed and the free count left (R95). -/
def releaseClaims (m : BitVec 24) (prio : Option (Fin 4)) (s : State) : Reply :=
  let t := selectiveRemoval (chansOf m) (portClaimAt prio) s
  accept [hex2 (matchingClaims (chansOf m) (portClaimAt prio) s), freeText t] t

/-- CREL (R95). -/
def bodyCrel (fields : List Text) (s : State) : Reply :=
  if (⟨none, [1], none⟩ : DigitRule).bad fields then refuse .badDigit s
  else match fields with
    | [m, p] =>
      match channelSetField m, orAny priorityField p with
      | some mask, some prio => releaseClaims mask prio s
      | _, _ => refuse .range s
    | _ => refuse .fieldCount s

/-- GSCL's targets: level 255 on the set mask, level 0 on what the clear mask names beside it (R97). -/
def groupTargets (setMask clearMask : BitVec 24) : List (Chan × BitVec 8) :=
  (chansOf (setMask ||| clearMask)).map fun c => (c, if setMask.getLsbD c.val then 255 else 0)

/-- GSCL's request, when its four fields are in range (R96). -/
def gsclRequest (setF clearF prio hold : Text) : Option Request :=
  match channelSetField setF, channelSetField clearF, priorityField prio, holdField hold with
  | some a, some b, some p, some h => some ⟨.port, groupTargets a b, p, none, h⟩
  | _, _, _, _ => none

/-- GSCL (R96, R97). -/
def bodyGscl (fields : List Text) (s : State) : Reply :=
  if (DigitRule.dashes none 4).bad fields then refuse .badDigit s
  else match fields with
    | [a, b, p, h] =>
      match gsclRequest a b p h with
      | some q => portRequest q s
      | none => refuse .range s
    | _ => refuse .fieldCount s

/-- The five fields of one claim (R98). -/
def claimText (cl : Claim) : List Text :=
  [hex2 (sourceCode cl.source), digit cl.priority.val, hex2 cl.level.toNat, blinkText cl.blink,
    orDash (fun h => hexText 4 h.toNat) cl.hold]

/-- The position at which the next page begins, or "-" (R98). -/
def continuation (pos len : Nat) : Text := if pos + Config.claimPage < len then hex2 (pos + Config.claimPage) else dash

/-- CLST's response fields: five header fields, up to 12 claims from a position, the continuation (R98). -/
def claimFields (c : Chan) (pos : Nat) (s : State) : List Text :=
  let l := s.claimList c
  [hex2 (demandOf s c).level.toNat, blinkText (demandOf s c).blink, freeText s, hex2 s.waiting.length, hex2 l.length]
    ++ ((l.drop pos).take Config.claimPage).flatMap claimText ++ [continuation pos l.length]

/-- CLST (R98, R99). -/
def bodyClst (fields : List Text) (s : State) : Reply :=
  if DigitRule.strict.bad fields then refuse .badDigit s
  else match fields with
    | [c] =>
      match channelNumber c with
      | some ch => accept (claimFields ch 0 s) s
      | none => refuse .range s
    | [c, p] =>
      match channelNumber c, twoDigits 0x2F p with
      | some ch, some pos => accept (claimFields ch pos s) s
      | _, _ => refuse .range s
    | _ => refuse .fieldCount s

/-! ### Meanings -/

/-- CSET (R93, R94). -/
def execCset (fields : List Text) (s : State) : Result := .next (carryOut (text "CSET") fields (bodyCset fields) s)

/-- CREL (R95). -/
def execCrel (fields : List Text) (s : State) : Result := .next (carryOut (text "CREL") fields (bodyCrel fields) s)

/-- GSCL (R96, R97). -/
def execGscl (fields : List Text) (s : State) : Result := .next (carryOut (text "GSCL") fields (bodyGscl fields) s)

/-- CLST (R98, R99). -/
def execClst (fields : List Text) (s : State) : Result := .next (carryOut (text "CLST") fields (bodyClst fields) s)

end Sys2Proof.Machine
end

