-- ==== Sys2Proof/Machine/InputCommands.lean ====
section
/-!
DEFINITION. The input monitor's commands: ICFG, IGET (R118, R119), TRWR, TRGT (R116, R117).
-/

namespace Sys2Proof.Machine

/-- An input number, 0 to 7. -/
def inputNumber (f : Text) : Option InputNo := (number 7 f).map fun n => ⟨n % 8, Nat.mod_lt _ (by decide)⟩

/-- A number with a least and a greatest value. -/
def rangeField (least most : Nat) (f : Text) : Option Nat := (number most f).filter fun n => decide (least ≤ n)

/-- The configuration that ICFG fields 2 to 5 write, when they are in range (R118). -/
def icfgConfig (kind pol deb long : Text) : Option InputConfig :=
  match number 2 kind, number 1 pol with
  | some 0, some p => if deb = dash ∧ long = dash then some ⟨.off, p == 1, none, none⟩ else none
  | some 1, some p =>
    match rangeField 1 100 deb, rangeField 1 100 long with
    | some d, some l => some ⟨.push, p == 1, some d, some l⟩
    | _, _ => none
  | some _, some p => if long = dash then (rangeField 1 100 deb).map fun d => ⟨.level, p == 1, some d, none⟩ else none
  | _, _ => none

/-- The idle state of an input, watched from the debounced level "not asserted": a pin found asserted starts a debounce interval (R104, R118). -/
def Input.idle (k : InputConfig) (pin : Bool) : Input :=
  let iv := if pin then startInterval k true else none
  match k.kind with
  | .off => .blank
  | .push => ⟨.released, none, none, some false, some false, iv⟩
  | .level => ⟨.inactive, none, none, some false, some false, iv⟩

/-- An accepted ICFG (R118). -/
def configureInput (i : InputNo) (k : InputConfig) (s : State) : State :=
  let s1 := s.setInputConfig i k
  s1.setInput i (Input.idle k (asserted s1 i))

/-- ICFG (R118). -/
def bodyIcfg (fields : List Text) (s : State) : Reply :=
  if (⟨none, [3, 4], none⟩ : DigitRule).bad fields then refuse .badDigit s
  else match fields with
    | [n, kind, pol, deb, long] =>
      match inputNumber n, icfgConfig kind pol deb long with
      | some i, some k => accept [] (configureInput i k s)
      | _, _ => refuse .range s
    | _ => refuse .fieldCount s

/-- The kind codes of ICFG (R118). -/
def InputKind.code : InputKind → Nat
  | .off => 0
  | .push => 1
  | .level => 2

/-- IGET's state field (R119). -/
def InputState.text : InputState → Text
  | .none => dash
  | .released => digit 0
  | .pressed => digit 1
  | .longHeld => digit 2
  | .stuck => digit 3
  | .inactive => digit 0
  | .active => digit 1

/-- IGET's response fields (R119). -/
def inputFields (i : InputNo) (s : State) : List Text :=
  let k := s.inputConfig i
  let x := s.input i
  [digit k.kind.code, flagText k.activeLow, orDash hex2 k.debounce, orDash hex2 k.long, x.state.text, orDash hex2 x.heldCount,
    orDash flagText x.firstPending, if k.kind = .off then dash else flagText (asserted s i)]

/-- IGET (R119). -/
def bodyIget (fields : List Text) (s : State) : Reply :=
  if DigitRule.strict.bad fields then refuse .badDigit s
  else match fields with
    | [f] =>
      match inputNumber f with
      | some i => accept (inputFields i s) s
      | none => refuse .range s
    | _ => refuse .fieldCount s

/-! ### TRWR, TRGT -/

/-- A rule number, 00 to 0F. -/
def ruleNumber (f : Text) : Option RuleNo := (number 15 f).map fun n => ⟨n % 16, Nat.mod_lt _ (by decide)⟩

/-- The action with its level, blink and hold: ASSERT 0, TOGGLE 1, RELEASE 2 (R116). -/
def actionFields (action lv blink hold : Text) : Option (BitVec 4 × Option (BitVec 8) × Option Blink × Option (BitVec 16)) :=
  match number 2 action with
  | none => none
  | some 2 => if lv = dash ∧ blink = dash ∧ hold = dash then some (2, none, none, none) else none
  | some a =>
    match levelField lv, blinkField blink, holdField hold with
    | some l, some b, some h => if a = 1 ∧ l = 0 then none else some (BitVec.ofNat 4 a, some l, b, h)
    | _, _, _ => none

/-- The stored fields that TRWR fields 2 to 9 write, when they are in range (R116). -/
def trwrRule (inp ev action chans prio lv blink hold : Text) : Option RuleFields :=
  match inputNumber inp, number 4 ev, actionFields action lv blink hold, channelListField chans, priorityField prio with
  | some i, some e, some a, some ch, some p =>
    some ⟨BitVec.ofNat 4 i.val, BitVec.ofNat 4 e, a.1, ch, BitVec.ofNat 4 p.val, a.2.1, a.2.2.1, a.2.2.2⟩
  | _, _, _, _, _ => none

/-- TRWR's rule number with the fields to store, or none to clear (R116); the outer `none` is a wrong field count, the inner one a value out of
range. -/
def trwrFields : List Text → Option (Option (RuleNo × Option RuleFields))
  | [n, x] => if x = dash then some ((ruleNumber n).map fun r => (r, none)) else none
  | [n, i, e, a, ch, p, l, b, h] => some ((ruleNumber n).bind fun r => (trwrRule i e a ch p l b h).map fun f => (r, some f))
  | _ => none

/-- A rule as an accepted TRWR leaves it (R116, R157). -/
def Rule.written : Option RuleFields → Rule
  | none => .blank
  | some f => ⟨.active, some f, ruleCodeOf f⟩

/-- TRWR (R116). -/
def bodyTrwr (fields : List Text) (s : State) : Reply :=
  if (DigitRule.dashes (some 4) everyField).bad fields then refuse .badDigit s
  else match trwrFields fields with
    | none => refuse .fieldCount s
    | some none => refuse .range s
    | some (some v) => accept [] (s.setRule v.1 (Rule.written v.2))

/-- The rule state codes of TRGT (R117). -/
def RuleState.code : RuleState → Nat
  | .unused => 0
  | .active => 1
  | .faulted => 2

/-- TRGT's response fields: the state alone for an UNUSED rule (R117). -/
def ruleReport (n : RuleNo) (s : State) : List Text :=
  digit (s.rule n).state.code :: (if (s.rule n).state = .unused then [] else (s.rule n).fields.elim [] ruleText)

/-- TRGT (R117). -/
def bodyTrgt (fields : List Text) (s : State) : Reply :=
  if DigitRule.strict.bad fields then refuse .badDigit s
  else match fields with
    | [f] =>
      match ruleNumber f with
      | some n => accept (ruleReport n s) s
      | none => refuse .range s
    | _ => refuse .fieldCount s

/-! ### Meanings -/

/-- ICFG (R118). -/
def execIcfg (fields : List Text) (s : State) : Result := .next (carryOut (text "ICFG") fields (bodyIcfg fields) s)

/-- IGET (R119). -/
def execIget (fields : List Text) (s : State) : Result := .next (carryOut (text "IGET") fields (bodyIget fields) s)

/-- TRWR (R116). -/
def execTrwr (fields : List Text) (s : State) : Result := .next (carryOut (text "TRWR") fields (bodyTrwr fields) s)

/-- TRGT (R117). -/
def execTrgt (fields : List Text) (s : State) : Result := .next (carryOut (text "TRGT") fields (bodyTrgt fields) s)

end Sys2Proof.Machine
end

