-- ==== Sys2Proof/Machine/ChannelCommands.lean ====
section
/-!
DEFINITION. The commands of the load channels, the generator pool and the integrity monitor: CCFG, CGET, CCLR, FRZK (R124 to R126, R137,
R138), DFRQ, GGET (R145, R155), CFLT (R168).
-/

namespace Sys2Proof.Machine

/-! ### CCFG -/

/-- A channel as a plain number, 00 to 17. -/
def plainChannel (f : Text) : Option Chan := (number 23 f).map fun n => ⟨n % 24, Nat.mod_lt _ (by decide)⟩

/-- A driver pin, 00 to 1F. -/
def pinField (f : Text) : Option Pin := (number 31 f).map fun n => ⟨n % 32, Nat.mod_lt _ (by decide)⟩

/-- The channel kind codes of CCFG (R124). -/
def ChanKind.code : ChanKind → Nat
  | .switched => 0
  | .dimmed => 1
  | .pulsed => 2

/-- The kind a code names (R124). -/
def kindOf : Nat → ChanKind
  | 0 => .switched
  | 1 => .dimmed
  | _ => .pulsed

/-- A pulse length of 01 to FF, or "-" to keep the held value (R124). -/
def lengthField (held : BitVec 8) (f : Text) : Option (BitVec 8) :=
  if f = dash then some held else (number 255 f).bind fun n => if n = 0 then none else some (BitVec.ofNat 8 n)

/-- Pin B and the pulse length a kind takes: for PULSED a pin B other than pin A, for the others "-" in both fields and the held pulse length
(R124, R125). -/
def pulseFields (kind : ChanKind) (held : BitVec 8) (pinA : Pin) (pinB len : Text) : Option (Option Pin × BitVec 8) :=
  match kind with
  | .pulsed =>
    match pinField pinB, lengthField held len with
    | some b, some l => if b = pinA then none else some (some b, l)
    | _, _ => none
  | _ => if pinB = dash ∧ len = dash then some (none, held) else none

/-- The configuration that CCFG fields 2 to 8 write, when they are in range (R124). -/
def ccfgConfig (held : BitVec 8) (kind rest prio pol pinA pinB len : Text) : Option ChannelConfig :=
  match number 2 kind, levelField rest, priorityField prio, number 1 pol, pinField pinA with
  | some k, some r, some p, some l, some a =>
    (pulseFields (kindOf k) held a pinB len).map fun x => ⟨kindOf k, r, p, l == 1, a, x.1, x.2⟩
  | _, _, _, _, _ => none

/-- A pin belongs to a channel other than `c` (R124). -/
def takenByOther (s : State) (c : Chan) (p : Pin) : Bool := (pinOwner s p).elim false fun d => d != c

/-- A configuration names a pin that belongs to a channel other than `c` (R124). -/
def pinInUse (s : State) (c : Chan) (k : ChannelConfig) : Bool := takenByOther s c k.pinA || k.pinB.elim false (takenByOther s c)

/-- A pulse in progress is cut off, without counting (R125 step 1, R135). -/
def cutPulse (c : Chan) (s : State) : State :=
  match (s.channel c).pulse with
  | some (.pulsing _) =>
    s.setChannel c { s.channel c with pulse := some .unknown, pending := none, pulseTimer := none, pulseCounts := false }
  | _ => s

/-- The pins the stored configuration names are driven inactive, and the monitor hears of it where the channel is supervised (R125 step 3,
R164). -/
def pinsInactive (c : Chan) (s : State) : State :=
  if (s.channel c).condition = .normal ∧ (s.config c).kind ≠ .pulsed then driveSteady c false s
  else s.setChannel c { s.channel c with drive := .inactive, feedback := .unsupervised }

/-- The pulse state a stored configuration gives: UNKNOWN for PULSED, else absent (R125 step 4). -/
def freshPulse (c : Chan) (s : State) : State :=
  s.setChannel c { s.channel c with pulse := if (s.config c).kind = .pulsed then some .unknown else none }

/-- The arbiter takes the channel's demand with the new rest level; a changed demand becomes the present demand (R125 step 5; log 32). -/
def republish (c : Chan) (s : State) : State :=
  if demandOf s c = (s.channel c).present then s else takePresent c (demandOf s c) s

/-- A NORMAL channel derives its drive from its present demand (R125 step 6). -/
def deriveNormal (c : Chan) (s : State) : State := if (s.channel c).condition = .normal then deriveDrive c true s else s

/-- An accepted CCFG (R125). -/
def configureChannel (c : Chan) (k : ChannelConfig) (s : State) : State :=
  deriveNormal c (republish c (freshPulse c (pinsInactive c ((leavePool c (cutPulse c s)).setConfig c k))))

/-- CCFG's state conditions (R124), then its effect; a fault of the channel that has been left is dropped (log 35). -/
def tryConfigure (c : Chan) (k : ChannelConfig) (s : State) : Reply :=
  if s.frozen c then refuse .frozen s
  else if pinInUse s c k then refuse .pinInUse s
  else accept [] (configureChannel c k (dropFault c s))

/-- CCFG (R124, R125). -/
def bodyCcfg (fields : List Text) (s : State) : Reply :=
  if (DigitRule.dashes none everyField).bad fields then refuse .badDigit s
  else match fields with
    | [n, kind, rest, prio, pol, a, b, len] =>
      match plainChannel n with
      | none => refuse .range s
      | some c =>
        match ccfgConfig (s.config c).pulseLength kind rest prio pol a b len with
        | some k => tryConfigure c k s
        | none => refuse .range s
    | _ => refuse .fieldCount s

/-! ### CGET, CCLR, CFLT -/

/-- A command of one field, a channel as two digits (R126, R137, R168). -/
def onChannel (fields : List Text) (act : Chan → State → Reply) (s : State) : Reply :=
  if DigitRule.strict.bad fields then refuse .badDigit s
  else match fields with
    | [f] =>
      match channelNumber f with
      | some c => act c s
      | none => refuse .range s
    | _ => refuse .fieldCount s

/-- A pin as two digits. -/
def pinText (p : Pin) : Text := hex2 p.val

/-- CGET's fields 1 to 7 (R126). -/
def configText (k : ChannelConfig) : List Text :=
  [digit k.kind.code, hex2 k.rest.toNat, digit k.drivePriority.val, flagText k.activeLow, pinText k.pinA,
    if k.kind = .pulsed then orDash pinText k.pinB else dash, hex2 k.pulseLength.toNat]

/-- CGET's drive field (R126). -/
def driveText (k : ChanKind) (d : Drive) : Text :=
  if k = .pulsed then dash
  else match d with
    | .inactive => digit 0
    | .active => digit 1
    | .generator => digit 2

/-- CGET's pulse state field (R126). -/
def PulseState.code : PulseState → Nat
  | .unknown => 0
  | .atOff => 1
  | .atOn => 2
  | .pulsing true => 3
  | .pulsing false => 4

/-- CGET's generator field (R126). -/
def linkText : Link → Text
  | .holding g => digit g.val
  | .none => dash
  | .waiting => dash

/-- CGET's response fields (R126). -/
def channelFields (c : Chan) (s : State) : List Text :=
  let k := s.config c
  let x := s.channel c
  configText k
    ++ [flagText (s.frozen c), flagText (x.condition == .faulted), flagText (degraded s c), driveText k.kind x.drive,
      orDash (fun p => digit p.code) x.pulse, orDash flagText x.pending, linkText x.link,
      decText 4 (s.switch c).count.val, flagText (s.switch c).wrap]

/-- CGET on a channel (R126). -/
def getChannel (c : Chan) (s : State) : Reply := accept (channelFields c s) s

/-- CGET (R126). -/
def bodyCget (fields : List Text) (s : State) : Reply := onChannel fields getChannel s

/-- CCLR on a channel (R137). -/
def clearSwitch (c : Chan) (s : State) : Reply := if s.frozen c then refuse .frozen s else accept [] (s.setSwitch c .blank)

/-- CCLR (R137). -/
def bodyCclr (fields : List Text) (s : State) : Reply := onChannel fields clearSwitch s

/-- CFLT on a channel (R168). -/
def restoreChannel (c : Chan) (s : State) : Reply :=
  if (s.channel c).condition = .normal then refuse .wrongState s
  else accept [] (deriveDrive c true (s.setChannel c { s.channel c with condition := .normal }))

/-- CFLT (R168). -/
def bodyCflt (fields : List Text) (s : State) : Reply := onChannel fields restoreChannel s

/-! ### FRZK -/

/-- FRZK's key and channel set, when in range (R138). -/
def frzkFields (key set : Text) : Option (Nat × BitVec 24) :=
  match number 255 key, channelSetField set with
  | some k, some m => if m = 0 then none else some (k, m)
  | _, _ => none

/-- The next step of a freeze sequence found at `seq`; a line that is not it leaves the sequence ended (R138, R139). -/
def freezeStep (seq : FreezeSeq) (key : Nat) (m : BitVec 24) (s : State) : Reply :=
  match seq with
  | .idle => if key = 0x5A then accept [digit 1] { s with freezeSeq := .one m } else refuse .sequenceError s
  | .one m0 => if key = 0xA5 ∧ m = m0 then accept [digit 2] { s with freezeSeq := .two m } else refuse .sequenceError s
  | .two m0 =>
    if key = 0x5A ∧ m = m0 then
      accept [digit 3, hexText 6 (s.freezeMask ||| m).toNat] { s with freezeMask := s.freezeMask ||| m, freezeSeq := .idle }
    else refuse .sequenceError s

/-- FRZK against the sequence it finds (R138). -/
def bodyFrzk (fields : List Text) (seq : FreezeSeq) (s : State) : Reply :=
  if DigitRule.strict.bad fields then refuse .badDigit s
  else match fields with
    | [k, m] =>
      match frzkFields k m with
      | some v => freezeStep seq v.1 v.2 s
      | none => refuse .range s
    | _ => refuse .fieldCount s

/-! ### DFRQ, GGET -/

/-- Every generator is FREE (R145). -/
def allFree (s : State) : Bool := (List.finRange 6).all fun g => s.generator g == .free

/-- DFRQ (R145). -/
def bodyDfrq (fields : List Text) (s : State) : Reply :=
  if DigitRule.strict.bad fields then refuse .badDigit s
  else match fields with
    | [f] =>
      match rangeField 100 1000 f with
      | none => refuse .range s
      | some n => if allFree s then accept [] { s with dimFreq := n } else refuse .busy s
    | _ => refuse .fieldCount s

/-- The six fields of one generator (R155). -/
def generatorText : Generator → List Text
  | .free => [digit 0, dash, dash, dash, dash, dash]
  | .busy r =>
    [digit (if r.releasing then 2 else 1), hex2 r.channel.val, hex2 r.active.duty.toNat, blinkText r.active.blink,
      orDash (fun p : Params => hex2 p.duty.toNat) r.staged, blinkText (r.staged.bind Params.blink)]

/-- GGET's response fields (R155). -/
def poolFields (s : State) : List Text :=
  hexText 4 s.dimFreq :: ((List.finRange 6).flatMap fun g => generatorText (s.generator g))
    ++ hex2 (waiters s).length :: (waiters s).map fun c => hex2 c.val

/-- GGET (R155). -/
def bodyGget (fields : List Text) (s : State) : Reply := if fields = [] then accept (poolFields s) s else refuse .fieldCount s

/-! ### Meanings -/

/-- CCFG (R124, R125). -/
def execCcfg (fields : List Text) (s : State) : Result := .next (carryOut (text "CCFG") fields (bodyCcfg fields) s)

/-- CGET (R126). -/
def execCget (fields : List Text) (s : State) : Result := .next (carryOut (text "CGET") fields (bodyCget fields) s)

/-- CCLR (R137). -/
def execCclr (fields : List Text) (s : State) : Result := .next (carryOut (text "CCLR") fields (bodyCclr fields) s)

/-- FRZK: of all the lines, it alone can continue the freeze sequence it finds (R138). -/
def execFrzk (fields : List Text) (s : State) : Result := .next (carryOut (text "FRZK") fields (bodyFrzk fields s.freezeSeq) s)

/-- DFRQ (R145). -/
def execDfrq (fields : List Text) (s : State) : Result := .next (carryOut (text "DFRQ") fields (bodyDfrq fields) s)

/-- GGET (R155). -/
def execGget (fields : List Text) (s : State) : Result := .next (carryOut (text "GGET") fields (bodyGget fields) s)

/-- CFLT (R168). -/
def execCflt (fields : List Text) (s : State) : Result := .next (carryOut (text "CFLT") fields (bodyCflt fields) s)

end Sys2Proof.Machine
end

