-- ==== Sys2Proof/Machine/Timebase.lean ====
section
/-!
DEFINITION. The second tick and the timebase monitor (R4, R5, R9, R10, R15), the scrub (R159), and what passes in a
microsecond when no command is pending (log 4), with the meanings of SECOND_TICK, QUALIFICATION_COMPLETE,
QUALIFICATION_RESTART, OSCILLATOR_LOSS, BOUNDARY_PASS, REEVALUATION_PASS, HOLD_EXPIRY, PULSE_COMPLETION, PERIOD_END and SETTLE_TIMER_END.
-/

namespace Sys2Proof.Machine

/-! ### The second tick -/

/-- The scrub step: the item at the scrub position is checked, and the position advances from 111 to 0 (R159). -/
def scrubStep (s : State) : State :=
  let s1 := if h : s.scrub.val < 96 then checkRecord ⟨s.scrub.val, h⟩ s else checkRule ⟨s.scrub.val - 96, by omega⟩ s
  { s1 with scrub := s.scrub + 1 }

/-- The arbiter takes the oldest second tick delivered to it and not yet taken (R60, R87; log 5). -/
def takeHoldTick (s : State) : State := if s.holdsDue = 0 then s else holdCountdown { s with holdsDue := s.holdsDue - 1 }

/-- The integrity monitor makes the scrub step of the oldest second tick that has none yet (R159; log 5). -/
def takeScrubTick (s : State) : State := if s.scrubDue = 0 then s else scrubStep { s with scrubDue := s.scrubDue - 1 }

/-- The integrity monitor makes the steady comparison of a channel, when a second tick calls for one that has not been made (R165; log 5). -/
def takeCompareTick (held : List PinHold) (c : Chan) (s : State) : State :=
  if nth s.compareDue c then steadyCompare held c { s with compareDue := upd s.compareDue c false } else s

/-- Do something a number of times. -/
def times (f : State → State) : Nat → State → State
  | 0, s => s
  | k + 1, s => times f k (f s)

/-- One piece of a second tick's work, with what earlier ticks left of it. -/
def tickWork (held : List PinHold) (s : State) (w : TickWork) : State :=
  match w with
  | .holds => times takeHoldTick s.holdsDue s
  | .held => times takeHeldTick s.heldDue s
  | .scrub => times takeScrubTick s.scrubDue s
  | .compare c => takeCompareTick held c s

/-- The work of every second tick in the model's own order. -/
def allWork : List TickWork := [.holds, .held, .scrub] ++ (List.finRange 24).map .compare

/-- The whole order of a tick's work: what is named first, then the rest, less what is left for later (log 5). -/
def workOrder (o : TickOrder) : List TickWork :=
  (o.first.eraseDups ++ allWork.filter fun w => !o.first.contains w).filter fun w => !o.later.contains w

/-- The work that is due, in an order; its consumers are not powered while main power is absent (R15). -/
def tickWorks (held : List PinHold) (o : TickOrder) (s : State) : State :=
  if s.mainPower then (workOrder o).foldl (tickWork held) s else s

/-- The tick is delivered to the arbiter, the input monitor and the integrity monitor, when they are powered: the work of each is due
(R4, R15). -/
def deliverTick (s : State) : State :=
  if s.mainPower then
    { s with
      holdsDue := s.holdsDue + 1
      heldDue := s.heldDue + 1
      scrubDue := s.scrubDue + 1
      compareDue := Vector.replicate 24 true }
  else s

/-- The calendar at a second tick: it advances and its event is produced (R4, R5). -/
def advance (s : State) : State :=
  let k := s.calendar.tick
  let s1 := { s with calendar := { k.1 with phase := 0 } }
  k.2.elim s1 s1.deliver

/-- The phase completes its last period: the calendar advances, the tick is delivered, and its consumers take it in an order (R4, R5). A
resumed tick has done the first two before (log 5). -/
def secondTick (held : List PinHold) (o : TickOrder) (s : State) : State :=
  tickWorks held o (if o.resumed then s else deliverTick (advance s))

/-! ### The oscillator -/

/-- The oscillator is declared STEADY: the phase starts from 0, the calendar state does not change (R9). -/
def qualified (s : State) : State :=
  { s with calendar := { s.calendar with osc := .steady, phase := 0, qualify := none } }

/-- A gap restarts the 100 ms interval (R9). -/
def requalify (s : State) : State := { s with calendar := { s.calendar with qualify := some Config.qualifyMs } }

/-- The oscillator is declared LOST (R10). Holds, held counts, scrub and comparisons stand still while it is (R86, R108, R159, R165), so the
work of the ticks that came before the loss is done before it, with no pin held from outside (DEDUCED, safe: log 38). -/
def oscillatorLost (s : State) : State :=
  let s1 := tickWorks [] .plain s
  ({ s1 with calendar := s1.calendar.lose } : State).raise .clockFault 0

/-! ### A microsecond (log 4) -/

/-- A generator's phases one microsecond later. A period whose end takes up staged parameters or completes a release stands at its end until
PERIOD_END; any other begins again of itself, and an envelope period begins a PWM period with it (R144, R150; log 27). -/
def GenRun.pass (freq : Nat) (r : GenRun) : GenRun :=
  let due := r.releasing || r.staged.isSome
  let p := r.pwmPhase + freq
  match r.active.blink, r.envPhase with
  | some b, some e =>
    if e + 1 < b.period.toNat * Config.blinkUnit then { r with pwmPhase := p % Config.pwmUnits, envPhase := some (e + 1) }
    else if due then r
    else { r with pwmPhase := 0, envPhase := some 0 }
  | _, _ =>
    if p < Config.pwmUnits then { r with pwmPhase := p }
    else if due then { r with pwmPhase := Config.pwmUnits - 1 }
    else { r with pwmPhase := p % Config.pwmUnits }

/-- A generator one microsecond later. -/
def Generator.pass (freq : Nat) : Generator → Generator
  | .free => .free
  | .busy r => .busy (r.pass freq)

/-- The waveforms one microsecond later; an unpowered pool has none (R156). -/
def wavePass (s : State) : State :=
  if s.mainPower then { s with generators := tabulate fun g => (s.generator g).pass s.dimFreq } else s

/-! ### A millisecond (log 4) -/

/-- An input one millisecond later: its debounce interval runs down. -/
def Input.pass (x : Input) : Input := { x with interval := x.interval.map fun iv => { iv with left := iv.left - 1 } }

/-- A feedback state one millisecond later: its settle timer runs down. -/
def Feedback.pass : Feedback → Feedback
  | .settling h t => .settling h (t - 1)
  | .unsupervised => .unsupervised
  | .watched h => .watched h

/-- A channel one millisecond later: its pulse and settle timers run down. -/
def Channel.pass (x : Channel) : Channel :=
  { x with pulseTimer := x.pulseTimer.map fun t => t - 1, feedback := x.feedback.pass }

/-- The oscillator periods of a number of milliseconds, 32,768 in 1,000 (R4). -/
def periodsOf (ms : Nat) : Nat := ms * 32768 / 1000

/-- The sub-second phase one millisecond later; at its last period it stands until SECOND_TICK (R4; logs 4, 19). -/
def phasePass (phase : Nat) : Nat := min 32767 (periodsOf ((phase * 1000 + 32767) / 32768 + 1))

/-- The calendar one millisecond later: the phase counts while the oscillator is STEADY; a qualification interval runs down while it is not
(R4, R9; logs 4, 20). -/
def Calendar.pass (k : Calendar) : Calendar :=
  if k.osc = .steady then { k with phase := phasePass k.phase } else { k with qualify := k.qualify.map fun t => t - 1 }

/-- One millisecond passes: timers run down and stop at their end, whose event is a command of its own. An unpowered main domain has no
timebase. -/
def msPass (s : State) : State :=
  let s1 := { s with calendar := s.calendar.pass }
  if s.mainPower then
    { s1 with
      msTime := s.msTime + 1
      port := { s.port with gapTimer := s.port.gapTimer.map fun t => t - 1 }
      inputs := tabulate fun i => (s.input i).pass
      channels := tabulate fun c => (s.channel c).pass }
  else s1

/-- What passes on an empty queue: a microsecond of the waveforms, and with the thousandth a millisecond of the timers. DESIGN CHOICE, safe:
log 4. -/
def idle (s : State) : State :=
  if s.micros + 1 < Config.microsPerMs then { wavePass s with micros := s.micros + 1 } else msPass { wavePass s with micros := 0 }

/-! ### Meanings -/

/-- SECOND_TICK: only a STEADY oscillator produces one (R4, R5; log 3). -/
def execSecondTick (held : List PinHold) (o : TickOrder) (s : State) : Result :=
  .next (if s.calendar.osc = .steady then secondTick held o s else s)

/-- QUALIFICATION_COMPLETE: from STARTING or LOST (R9; log 3). -/
def execQualificationComplete (s : State) : Result := .next (if s.calendar.osc = .steady then s else qualified s)

/-- QUALIFICATION_RESTART: during a qualification; it raises no notice (R9; log 3). -/
def execQualificationRestart (s : State) : Result := .next (if s.calendar.osc = .steady then s else requalify s)

/-- OSCILLATOR_LOSS: only in STEADY (R10, R18; log 3). -/
def execOscillatorLoss (s : State) : Result := .next (if s.calendar.osc = .steady then oscillatorLost s else s)

/-- BOUNDARY_PASS (R52, R53, R57). -/
def execBoundaryPass (visits : Nat) (s : State) : Result := .next (passCommand .boundary visits s)

/-- REEVALUATION_PASS (R52, R53, R61). -/
def execReevaluationPass (visits : Nat) (s : State) : Result := .next (passCommand .reevaluation visits s)

/-- HOLD_EXPIRY: the arbiter takes a second tick delivered to it and not yet taken, at which a hold may reach 0; holds stand still while the
oscillator is not STEADY (R86, R87; logs 3, 5). -/
def execHoldExpiry (s : State) : Result := .next (if s.calendar.osc = .steady then takeHoldTick s else s)

/-- PULSE_COMPLETION (R134). -/
def execPulseCompletion (c : Chan) (s : State) : Result := .next (completePulse c s)

/-- PERIOD_END (R150, R151). -/
def execPeriodEnd (g : GenNo) (s : State) : Result := .next (endPeriod g s)

/-- SETTLE_TIMER_END (R154, R165; log 35). -/
def execSettleTimerEnd (c : Chan) (r : Readback) (s : State) : Result := .next (endSettle c r.high r.late s)

end Sys2Proof.Machine
end

