-- ==== Sys2Proof/Machine/Dispatch.lean ====
section
/-!
DEFINITION. The effect of a command on everything but the queue: one arm per constructor of Instr, each a call of its meaning.
-/

namespace Sys2Proof.Machine

/-- What a command does to the part, the queue apart. -/
def exec (i : Instr) (s : State) : Host.Outcome State Fault Refusal :=
  match i with
  | .tset fields => Sys2Proof.Machine.execTset fields s
  | .tadj fields => Sys2Proof.Machine.execTadj fields s
  | .tget fields => Sys2Proof.Machine.execTget fields s
  | .rwrt fields => Sys2Proof.Machine.execRwrt fields s
  | .rget fields => Sys2Proof.Machine.execRget fields s
  | .rdrp fields => Sys2Proof.Machine.execRdrp fields s
  | .rsus fields => Sys2Proof.Machine.execRsus fields s
  | .rres fields => Sys2Proof.Machine.execRres fields s
  | .rfre fields => Sys2Proof.Machine.execRfre fields s
  | .rclr fields => Sys2Proof.Machine.execRclr fields s
  | .rprt fields => Sys2Proof.Machine.execRprt fields s
  | .rfnd fields => Sys2Proof.Machine.execRfnd fields s
  | .rnxt fields => Sys2Proof.Machine.execRnxt fields s
  | .cset fields => Sys2Proof.Machine.execCset fields s
  | .crel fields => Sys2Proof.Machine.execCrel fields s
  | .gscl fields => Sys2Proof.Machine.execGscl fields s
  | .clst fields => Sys2Proof.Machine.execClst fields s
  | .icfg fields => Sys2Proof.Machine.execIcfg fields s
  | .iget fields => Sys2Proof.Machine.execIget fields s
  | .trwr fields => Sys2Proof.Machine.execTrwr fields s
  | .trgt fields => Sys2Proof.Machine.execTrgt fields s
  | .ccfg fields => Sys2Proof.Machine.execCcfg fields s
  | .cget fields => Sys2Proof.Machine.execCget fields s
  | .cclr fields => Sys2Proof.Machine.execCclr fields s
  | .frzk fields => Sys2Proof.Machine.execFrzk fields s
  | .dfrq fields => Sys2Proof.Machine.execDfrq fields s
  | .gget fields => Sys2Proof.Machine.execGget fields s
  | .cflt fields => Sys2Proof.Machine.execCflt fields s
  | .nget fields => Sys2Proof.Machine.execNget fields s
  | .nmsk fields => Sys2Proof.Machine.execNmsk fields s
  | .rstr fields visits => Sys2Proof.Machine.execRstr fields visits s
  | .unknownCommand line => Sys2Proof.Machine.execUnknownCommand line s
  | .lineTooLong line => Sys2Proof.Machine.execLineTooLong line s
  | .portWrite sel byte => Sys2Proof.Machine.execPortWrite sel byte s
  | .portRead sel => Sys2Proof.Machine.execPortRead sel s
  | .gapTimerEnd => Sys2Proof.Machine.execGapTimerEnd s
  | .secondTick held order => Sys2Proof.Machine.execSecondTick held order s
  | .qualificationComplete => Sys2Proof.Machine.execQualificationComplete s
  | .qualificationRestart => Sys2Proof.Machine.execQualificationRestart s
  | .oscillatorLoss => Sys2Proof.Machine.execOscillatorLoss s
  | .boundaryPass visits => Sys2Proof.Machine.execBoundaryPass visits s
  | .reevaluationPass visits => Sys2Proof.Machine.execReevaluationPass visits s
  | .holdExpiry => Sys2Proof.Machine.execHoldExpiry s
  | .inputPinChange input high => Sys2Proof.Machine.execInputPinChange input high s
  | .changeTaken input => Sys2Proof.Machine.execChangeTaken input s
  | .thresholdReached input => Sys2Proof.Machine.execThresholdReached input s
  | .inputStuck => Sys2Proof.Machine.execInputStuck s
  | .inputEvent input steps => Sys2Proof.Machine.execInputEvent input steps s
  | .pulseCompletion c => Sys2Proof.Machine.execPulseCompletion c s
  | .periodEnd g => Sys2Proof.Machine.execPeriodEnd g s
  | .settleTimerEnd c readback => Sys2Proof.Machine.execSettleTimerEnd c readback s
  | .resetInput visits => Sys2Proof.Machine.execResetInput visits s
  | .mainPowerLoss => Sys2Proof.Machine.execMainPowerLoss s
  | .powerReturn visits => Sys2Proof.Machine.execPowerReturn visits s
  | .coldStart => Sys2Proof.Machine.execColdStart s
  | .storageDisturbance d => Sys2Proof.Machine.execStorageDisturbance d s

end Sys2Proof.Machine
end

