-- ==== Sys2Proof/Safety.lean ====
section
/-!
DEFINITION. What the statements speak of: when the line of a command is carried out and how it is answered; the invariants of the calendar
(R2, R3, R4), of the claim pool and its lists (R73, R75, R76), of the waiting list (R88) and of the generator links and the wait set (R143,
R147).
-/

namespace Sys2Proof.Machine

/-! ### Lines -/

/-- The port has this line in execution, or holds nothing of a line, so that the host can write it whole (R171, R173), and is not
re-initialising (R182). -/
def portReady (line : Text) (p : Port) : Bool :=
  p.reinit == 0 && p.line.isEmpty && !p.overlength
    && match p.state with
      | .executing => p.gapTimer.isNone && p.taken.elim false fun k => !k.overlong && k.text == line
      | .accepting => true
      | .answering => true

/-- The line of a word and fields is carried out now: it is a line the host can write (R171, R177), and the port is ready for it. -/
def lineTaken (word : Text) (fields : List Text) (s : State) : Bool :=
  s.mainPower && splitsTo word fields && Text.plain (lineText word fields)
    && decide ((lineText word fields).length ≤ Config.lineMax) && portReady (lineText word fields) s.port

/-- The overrun mark of the response to a line carried out now: the overrun flag as it stood when the line was taken (R176). -/
def markNow (p : Port) : Bool :=
  match p.state with
  | .executing => p.taken.elim false Taken.mark
  | .accepting => p.overrun
  | .answering => p.overrun

/-- The port once a line is answered: ANSWERING with the response line, its read position at the first character (R173, R177). -/
def answered (p : Port) (st : Status) (fields : List Text) : Port :=
  { p with state := .answering, response := responseText st (markNow p) fields, readPos := 0, gapTimer := none, taken := none }

/-- The port with this line in execution (R171, R173). -/
def inExecution (line : Text) (p : Port) : Port :=
  match p.state with
  | .executing => p
  | .accepting =>
    { p with state := .executing, response := [], readPos := 0, gapTimer := none, taken := some ⟨line, false, p.overrun⟩ }
  | .answering =>
    { p with state := .executing, response := [], readPos := 0, gapTimer := none, taken := some ⟨line, false, p.overrun⟩ }

/-- The part as the owning block finds it: the line in execution, and any freeze sequence ended (R138, R173). -/
def begun (word : Text) (fields : List Text) (s : State) : State :=
  { s with freezeSeq := .idle, port := inExecution (lineText word fields) s.port }

/-- The part after a line that is answered with a status alone: the line has ended any freeze sequence, and nothing else has changed (R138,
R178). -/
def refusedWith (st : Status) (s : State) : State := { s with freezeSeq := .idle, port := answered s.port st [] }

/-- The part after a line that reads and changes nothing: the response, and any freeze sequence ended. -/
def reported (fields : List Text) (s : State) : State := { s with freezeSeq := .idle, port := answered s.port .ok fields }

/-! ### The forms of a response -/

/-- A flag or a bit: 1 or 0. -/
def shownFlag (b : Bool) : Text := text (if b then "1" else "0")

/-- A value in a form, or "-" when it is absent (Table 9-2). -/
def shownOr {α : Type} (form : α → Text) : Option α → Text
  | none => text "-"
  | some a => form a

/-- A blink: four digits, period then on-time, or "-" (R98, R117, R155). -/
def shownBlink : Option Blink → Text := shownOr fun b => hexText 2 b.period.toNat ++ hexText 2 b.onTime.toNat

/-- A hold: four digits, or "-" (R98; in TRGT, log 16). -/
def shownHold : Option (BitVec 16) → Text := shownOr fun h => hexText 4 h.toNat

/-- A channel list: two digits each, joined by commas (Table 9-2). -/
def shownList (l : List (BitVec 8)) : Text := List.intercalate [0x2C] (l.map fun c => hexText 2 c.toNat)

/-! ### The lines that write a table

Which line writes which values, said with the texts the fields must be (Table 9-2) and not through a reader of lines. -/

/-- A line fails the digit check (R178 order 3; R29, R93, R116, R124): a field, other than one written "-" and the one at `word`, holds a character that is
neither 0 to 9 nor A to F, nor a comma of the channel list, the field at `list`. Positions count from 0. -/
def BadDigits (list word : Option Nat) (fields : List Text) : Prop :=
  ∃ i f b, fields[i]? = some f ∧ word ≠ some i ∧ f ≠ text "-" ∧ b ∈ f ∧ isHex b = false ∧ ¬ (list = some i ∧ b = 0x2C)

/-- A channel list: 1 to 4 distinct two-digit numbers 00 to 17 joined by commas (Table 9-2). -/
def ListForm (f : Text) (l : List (BitVec 8)) : Prop :=
  f = shownList l ∧ 1 ≤ l.length ∧ l.length ≤ 4 ∧ l.Nodup ∧ ∀ c ∈ l, c.toNat ≤ 0x17

/-- A blink of four digits, period 02 to FF then on-time 01 to one below the period; or "-" (Table 2-3). -/
def BlinkForm (f : Text) : Option Blink → Prop
  | none => f = text "-"
  | some b => f = hexText 2 b.period.toNat ++ hexText 2 b.onTime.toNat
      ∧ 2 ≤ b.period.toNat ∧ 1 ≤ b.onTime.toNat ∧ b.onTime.toNat < b.period.toNat

/-- A hold of 1 to FFFF, or "-" (R93, R116). -/
def HoldForm (f : Text) : Option (BitVec 16) → Prop
  | none => f = text "-"
  | some h => h ≠ 0 ∧ number 0xFFFF f = some h.toNat

/-- A time hhmm in BCD, 0000 to 2359, stored as its four digits (Table 2-3). -/
def TimeForm (f : Text) (w : BitVec 16) : Prop :=
  f = hexText 4 w.toNat ∧ ∃ h m, h ≤ 23 ∧ m ≤ 59 ∧ f = decText 2 h ++ decText 2 m

/-- A date ddmmyy in BCD that is valid by R3, stored as its six digits (Table 2-3). -/
def DateForm (f : Text) (w : BitVec 24) : Prop :=
  f = hexText 6 w.toNat ∧ ∃ d : Date, validDate d = true ∧ f = decText 2 d.day ++ (decText 2 d.month ++ decText 2 d.year)

/-- A month-day mmdd in BCD, 0101 to 1231, February taken with 29 days, stored as its four digits (R29). -/
def MonthDayForm (f : Text) (w : BitVec 16) : Prop :=
  f = hexText 4 w.toNat ∧ ∃ m d, 1 ≤ m ∧ 1 ≤ d ∧ d ≤ ([31, 29, 31, 30, 31, 30, 31, 31, 30, 31, 30, 31].getD (m - 1) 0)
    ∧ f = decText 2 m ++ decText 2 d

/-- A weekday set of 1 to 7 distinct digits 1 to 7 in any order, bit w - 1 of the set for weekday w (R28). -/
def WeekdaysForm (f : Text) (set : BitVec 7) : Prop :=
  f ≠ [] ∧ f.Nodup ∧ (∀ b ∈ f, 0x31 ≤ b.toNat ∧ b.toNat ≤ 0x37) ∧ ∀ k, k < 7 → (set.getLsbD k = true ↔ BitVec.ofNat 8 (0x31 + k) ∈ f)

/-- The ninth to eleventh fields: a weekday set for WEEKLY, a date without season for DATED (R28, R29). -/
def DayForm (fd lo hi : Text) (c : Content) : Prop :=
  (match c.day with
    | .days set => c.kind = 0 ∧ WeekdaysForm fd set
    | .date w => c.kind = 1 ∧ DateForm fd w ∧ c.season = none)
  ∧ (match c.season with
    | none => lo = text "-" ∧ hi = text "-"
    | some x => MonthDayForm lo x.fromDay ∧ MonthDayForm hi x.untilDay)

/-- The RWRT line of record `n` with content `c`, with or without NOW (Table 2-3). -/
def RwrtLine (fields : List Text) (n : RecNo) (c : Content) (now : Bool) : Prop :=
  ∃ fn fk fc fl fb fp f0 f1 fd lo hi,
    fields = [fn, fk, fc, fl, fb, fp, f0, f1, fd, lo, hi] ++ (if now then [text "NOW"] else [])
    ∧ number 0x5F fn = some n.val ∧ number 1 fk = some c.kind.toNat ∧ ListForm fc c.channels ∧ number 0xFF fl = some c.level.toNat
    ∧ BlinkForm fb c.blink ∧ number 3 fp = some c.priority.toNat ∧ TimeForm f0 c.start ∧ TimeForm f1 c.stop ∧ c.start ≠ c.stop
    ∧ DayForm fd lo hi c

/-- The CSET line of these channels, priority, level, blink and hold (R93). -/
def CsetLine (fields : List Text) (chans : List (BitVec 8)) (prio : Fin 4) (lv : BitVec 8) (blink : Option Blink) (hold : Option (BitVec 16)) : Prop :=
  ∃ fc fp fl fb fh, fields = [fc, fp, fl, fb, fh] ∧ ListForm fc chans ∧ number 3 fp = some prio.val ∧ number 0xFF fl = some lv.toNat
    ∧ BlinkForm fb blink ∧ HoldForm fh hold

/-- The ICFG line of input `i` with configuration `k` (R118). -/
def IcfgLine (fields : List Text) (i : InputNo) (k : InputConfig) : Prop :=
  ∃ fi fk fp fd fl, fields = [fi, fk, fp, fd, fl] ∧ number 7 fi = some i.val ∧ number 1 fp = some k.activeLow.toNat
    ∧ match k.kind with
      | .off => number 2 fk = some 0 ∧ fd = text "-" ∧ fl = text "-" ∧ k.debounce = none ∧ k.long = none
      | .push => number 2 fk = some 1 ∧ ∃ d l, 1 ≤ d ∧ number 0x64 fd = some d ∧ k.debounce = some d
          ∧ 1 ≤ l ∧ number 0x64 fl = some l ∧ k.long = some l
      | .level => number 2 fk = some 2 ∧ (∃ d, 1 ≤ d ∧ number 0x64 fd = some d ∧ k.debounce = some d) ∧ fl = text "-" ∧ k.long = none

/-- The TRWR line that clears rule `n`, or writes its fields (R116). -/
def TrwrLine (fields : List Text) (n : RuleNo) : Option RuleFields → Prop
  | none => ∃ fn, fields = [fn, text "-"] ∧ number 0x0F fn = some n.val
  | some r => ∃ fn fi fe fa fc fp fl fb fh, fields = [fn, fi, fe, fa, fc, fp, fl, fb, fh]
    ∧ number 0x0F fn = some n.val ∧ number 7 fi = some r.input.toNat ∧ number 4 fe = some r.event.toNat
    ∧ number 2 fa = some r.action.toNat ∧ ListForm fc r.channels ∧ number 3 fp = some r.priority.toNat
    ∧ (r.action = 2 → fl = text "-" ∧ fb = text "-" ∧ fh = text "-" ∧ r.level = none ∧ r.blink = none ∧ r.hold = none)
    ∧ (r.action ≠ 2 → (∃ lv, r.level = some lv ∧ number 0xFF fl = some lv.toNat ∧ (r.action = 1 → lv ≠ 0))
      ∧ BlinkForm fb r.blink ∧ HoldForm fh r.hold)

/-- The CCFG line of channel `c` with configuration `k`; `held` is the pulse length that stays where none is written (R124, R125). -/
def CcfgLine (held : BitVec 8) (fields : List Text) (c : Chan) (k : ChannelConfig) : Prop :=
  ∃ fc fk fr fp fo fa fb fl, fields = [fc, fk, fr, fp, fo, fa, fb, fl] ∧ number 0x17 fc = some c.val
    ∧ number 2 fk = some (match k.kind with | .switched => 0 | .dimmed => 1 | .pulsed => 2)
    ∧ number 0xFF fr = some k.rest.toNat ∧ number 3 fp = some k.drivePriority.val ∧ number 1 fo = some k.activeLow.toNat
    ∧ number 0x1F fa = some k.pinA.val
    ∧ (k.kind = .pulsed → (∃ b, k.pinB = some b ∧ number 0x1F fb = some b.val ∧ b ≠ k.pinA)
      ∧ (fl = text "-" ∧ k.pulseLength = held ∨ k.pulseLength ≠ 0 ∧ number 0xFF fl = some k.pulseLength.toNat))
    ∧ (k.kind ≠ .pulsed → fb = text "-" ∧ fl = text "-" ∧ k.pinB = none ∧ k.pulseLength = held)

/-! ### Notices, records, windows -/

/-- An entry after raises of its kind with these subjects, in this order (R179). -/
def Notice.raisedFor (e : Notice) (subjects : List Nat) : Notice := subjects.foldl Notice.raised e

/-- The occurrence count goes up by one; from 9999 it becomes 0000 and the wrap flag is set (R24). -/
def Record.counted (r : Record) : Record :=
  if r.count = 9999 then { r with count := 0, wrap := true } else { r with count := r.count + 1 }

/-- The record taken out of service: its draft discarded, its check code recomputed, QUARANTINED (R161). -/
def Record.condemned (r : Record) : Record := Record.sealed { r with draft := none, state := .quarantined }

/-- The claim record `n` holds on each channel of its list while it is OPEN with a content (R21, R83). -/
def openClaim (n : RecNo) (c : Content) : Claim := ⟨.record n, toPriority c.priority, c.level, c.blink, none⟩

/-- The opening of an ARMED record `n` with content `c` leads from `s` to `t` (R55): one that fails its check is quarantined with RECORD_FAULT; else
it is counted, with RECORD_WRAP at a rollover (R24), and its claims are requested: granted when no record waits and the pool has room (R81), with
every channel's present demand the demand of its list (R78, R127); refused else, when it joins the waiting list at the tail with CLAIM_WAIT (R82). -/
def Opens (n : RecNo) (c : Content) (s t : State) : Prop :=
  (recordSound (s.record n) = false →
    t = { s with records := upd s.records n (s.record n).condemned, notices := t.notices }
      ∧ (s.mainPower = true → t.notices = upd s.notices 5 ((s.notice .recordFault).raised n.val)))
  ∧ (recordSound (s.record n) = true →
    (∀ j, j ≠ n → t.record j = s.record j)
    ∧ (s.mainPower = true →
        t.notice .recordWrap = if (s.record n).count = 9999 then (s.notice .recordWrap).raised n.val else s.notice .recordWrap)
    ∧ (s.waiting = [] → c.channels.length ≤ freeCount s →
        t.record n = { (s.record n).counted with state := .opened } ∧ t.waiting = []
        ∧ (∀ ch ∈ toChans c.channels, t.claimList ch =
            insertClaim (openClaim n c) ((s.claimList ch).filter fun cl => cl.source != .record n))
        ∧ (∀ ch, ch ∉ toChans c.channels → t.claimList ch = s.claimList ch)
        ∧ (∀ ch, (t.channel ch).present = demandOf t ch)
        ∧ t.calendar = s.calendar ∧ t.port = s.port ∧ t.rules = s.rules ∧ t.channelConfigs = s.channelConfigs
        ∧ t.evaluator = s.evaluator)
    ∧ ((s.waiting ≠ [] ∨ freeCount s < c.channels.length) →
        t = { s with records := t.records, waiting := s.waiting ++ [n], notices := t.notices }
        ∧ t.record n = { (s.record n).counted with state := .waiting }
        ∧ (s.mainPower = true → t.notice .claimWait = (s.notice .claimWait).raised n.val)
        ∧ ((s.record n).count ≠ 9999 → s.mainPower = true →
            t.notices = upd s.notices 2 ((s.notice .claimWait).raised n.val))))

/-- The single-record evaluation of an ARMED record `n` leads from `s` to `t` (R68): it is opened when the evaluation minute lies inside its content;
it becomes SPENT with MISSED_WINDOW when it is DATED and its window ends at or before that minute; else, and whenever the calendar is not RUNNING
or the evaluation minute is absent, nothing changes. -/
def Evaluated (n : RecNo) (s t : State) : Prop :=
  ∀ c, (s.record n).state = .armed → (s.record n).content = some c →
    ((s.calendar.state ≠ .running ∨ s.evaluator.minute = none) → t = s)
    ∧ ∀ m, s.calendar.state = .running → s.evaluator.minute = some m →
      (inside c m = true → Opens n c s t)
      ∧ (inside c m = false → c.kind = 0 → t = s)
      ∧ (∀ b d w, inside c m = false → c.kind = 1 → c.day = .date b → dateOf b = some d → windowOn c d = some w →
        (w.2 ≤ m.index → t = { s with records := upd s.records n { s.record n with state := .spent }, notices := t.notices }
          ∧ (s.mainPower = true → t.notices = upd s.notices 1 ((s.notice .missedWindow).raised n.val)))
        ∧ (m.index < w.2 → t = s))

/-- An event of R71: record `n`, in state ARMED, OPEN or WAITING and naming the channel, opens or closes at a minute of the span: at the start of a
window that begins after the present minute, at the end of such a window, or at the end of the window an OPEN or WAITING record stands in. -/
def PlannedEvent (s : State) (ch : Option Chan) (n : RecNo) (minute : Nat) (isOpen : Bool) : Prop :=
  ∃ c d w, (s.record n).content = some c
    ∧ ((s.record n).state = .armed ∨ (s.record n).state = .opened ∨ (s.record n).state = .waiting)
    ∧ (∀ k, ch = some k → k ∈ toChans c.channels)
    ∧ validDate d = true ∧ windowOn c d = some w
    ∧ (isOpen = true ∧ minute = w.1 ∧ s.calendar.now.index < w.1
      ∨ isOpen = false ∧ minute = w.2
        ∧ (s.calendar.now.index < w.1
          ∨ (s.record n).state ≠ .armed ∧ w.1 ≤ s.calendar.now.index ∧ s.calendar.now.index < w.2))
    ∧ s.calendar.now.index < minute ∧ minute ≤ s.calendar.now.index + 11520 ∧ minute ≤ minuteIndex ⟨99, 12, 31⟩ 23 59

/-! ### The service of the waiting list -/

/-- The grants of a list of records, those that pass their check, one after another (R90). -/
def grants (l : List RecNo) (s : State) : State :=
  (l.filter fun n => recordSound (s.record n)).foldl (fun u n => placeRecord n u) s

/-- A service of the waiting list leads from `s`, with the entries freed, to `t` (R90, R91): the first `k` records leave the list, from the head on; each
that passes its check finds its need covered by the free count and becomes OPEN with its claims, each that fails is quarantined with RECORD_FAULT;
the other records stand; the list is then empty, or its head passes its check and needs more entries than are free. -/
def Served (s t : State) : Prop :=
  ∃ k, t.waiting = s.waiting.drop k
    ∧ t.claims = (grants (s.waiting.take k) s).claims
    ∧ (∀ n ∈ s.waiting.take k, t.record n =
        if recordSound (s.record n) then { s.record n with state := .opened } else (s.record n).condemned)
    ∧ (∀ n, n ∉ s.waiting.take k → t.record n = s.record n)
    ∧ (∀ i n, i < k → s.waiting[i]? = some n → recordSound (s.record n) = true →
        (s.record n).need ≤ freeCount (grants (s.waiting.take i) s))
    ∧ (∀ n c, n ∈ s.waiting.take k → recordSound (s.record n) = true → (s.record n).content = some c →
        ∀ ch ∈ toChans c.channels, openClaim n c ∈ t.claimList ch)
    ∧ (t.waiting = [] ∨ ∃ n rest, t.waiting = n :: rest ∧ recordSound (t.record n) = true ∧ freeCount t < (t.record n).need)
    ∧ (s.mainPower = true → t.notice .recordFault =
        (s.notice .recordFault).raisedFor (((s.waiting.take k).filter fun n => !recordSound (s.record n)).map Fin.val))

/-- Record `n`, OPEN or WAITING, leaves its window, and `s` becomes `v` (R32, R37, R40, R56, R161): an OPEN record's claims are withdrawn, and the
entries freed serve the records that wait (R84, R91); a WAITING record leaves the list, the records behind it close up, and when it was the head the
list is served (R89, R91). Every channel takes its new demand (R78). The record itself stands, and nothing of the part changes beside the records that
wait, the claims, the channels, the generators, the switch counters and what these raise. -/
def Leaves (n : RecNo) (s v : State) : Prop :=
  v.record n = s.record n
  ∧ v = { s with
      records := v.records, claims := v.claims, waiting := v.waiting, channels := v.channels, generators := v.generators
      switches := v.switches, notices := v.notices, publishOrders := v.publishOrders }
  ∧ (∀ k, k ≠ .recordFault → k ≠ .switchWrap → k ≠ .genShort → v.notice k = s.notice k)
  ∧ ((s.record n).state = .opened →
      Served { s with claims := tabulate fun ch => (s.claimList ch).filter fun cl => cl.source != .record n } v
      ∧ ∀ ch, (v.channel ch).present = demandOf v ch)
  ∧ ((s.record n).state = .waiting →
      (∀ rest, s.waiting = n :: rest → Served { s with waiting := rest } v ∧ ∀ ch, (v.channel ch).present = demandOf v ch)
      ∧ (s.waiting.head? ≠ some n → v = { s with waiting := s.waiting.filter fun j => j != n }))

/-- The records that can leave their window so: the waiting list holds each of its records once, and no OPEN record (R88). -/
def Listed (n : RecNo) (s : State) : Prop :=
  (s.waiting.head? = some n → s.waiting.Nodup) ∧ ((s.record n).state = .opened → s.waiting.Nodup ∧ n ∉ s.waiting)

/-! ### A second tick at its consumers -/

/-- An input after one second tick: a PRESSED or LONG_HELD one counts it, and at 120 is STUCK (R108). -/
def Input.afterTick (x : Input) : Input :=
  if x.state = .pressed ∨ x.state = .longHeld then
    if 120 ≤ x.heldCount.getD 0 + 1 then { x with state := .stuck, pressTime := none, heldCount := none }
    else { x with heldCount := some (x.heldCount.getD 0 + 1) }
  else x

/-- The inputs that reach 120 at a second tick, ascending (R108; their order: log 37). -/
def stuckAtTick (s : State) : List InputNo :=
  (List.finRange 8).filter fun i =>
    ((s.input i).state == .pressed || (s.input i).state == .longHeld) && decide (120 ≤ (s.input i).heldCount.getD 0 + 1)

/-- A claim after one second tick: its hold one less, the claim gone when that is 0 (R86). -/
def Claim.afterTick (cl : Claim) : Option Claim :=
  match cl.hold with
  | none => some cl
  | some h => if h.toNat ≤ 1 then none else some { cl with hold := some (h - 1) }

/-- A check of the record would fail and quarantine it (R158, R161). -/
def failsCheck (r : Record) : Bool := r.state != .free && r.state != .quarantined && !recordSound r

/-- A check of the rule would fail and fault it (R158, R163). -/
def ruleFailsCheck (r : Rule) : Bool := r.state == .active && !ruleSound r

/-- The ticks whose work of one kind is due when `due` were left and a tick comes, or a delivered one is resumed (log 5). -/
def dueAt (o : TickOrder) (due : Nat) : Nat := if o.resumed then due else due + 1

/-- The commanded level a feedback state holds (R164). -/
def Feedback.commanded : Feedback → Option Bool
  | .unsupervised => none
  | .settling h _ => some h
  | .watched h => some h

/-- The feedback state after pin A is driven steadily at a level: as it was when that is the level commanded before, else SETTLING for 20 ms (R164). -/
def Feedback.steadyAt (f : Feedback) (high : Bool) : Feedback := if f.commanded = some high then f else .settling high 20

/-! ### Invariants -/

/-- The calendar is one the manual allows: a valid date (R3), a time of day, the phase 0 unless the oscillator is STEADY (R4), a RUNNING calendar
only with a STEADY oscillator, and a STOPPED one at 2000-01-01 00:00:00 (R2). -/
def CalendarInv (s : State) : Prop :=
  let k := s.calendar
  validDate k.date = true ∧ k.hours < 24 ∧ k.minutes < 60 ∧ k.seconds < 60 ∧ k.phase < 32768
    ∧ (k.osc ≠ .steady → k.phase = 0) ∧ (k.state = .running → k.osc = .steady)
    ∧ (k.state = .stopped → k.date = ⟨0, 1, 1⟩ ∧ k.hours = 0 ∧ k.minutes = 0 ∧ k.seconds = 0)

/-- A claim list is ordered by priority from highest to lowest (R76). -/
def ordered (l : List Claim) : Prop := l.Pairwise fun a b => b.priority ≤ a.priority

/-- No two claims of a list have the same source (R75). -/
def oneEach (l : List Claim) : Prop := (l.map Claim.source).Nodup

/-- The free entries and the claims on all lists number 48 (R73); every list is ordered (R76) and holds one claim of a source at most (R75). -/
def PoolInv (s : State) : Prop :=
  freeCount s + claimTotal s = 48 ∧ ∀ c, ordered (s.claimList c) ∧ oneEach (s.claimList c)

/-- The waiting list holds exactly the records in state WAITING, each once (R88). While main power is absent there is no waiting list, and the
evaluator has nothing to do (R15); the records keep their states until the main reset returns them to ARMED (R47). -/
def WaitingInv (s : State) : Prop :=
  (s.mainPower = true → s.waiting.Nodup ∧ ∀ n, n ∈ s.waiting ↔ (s.record n).state = .waiting)
    ∧ (s.mainPower = false → s.waiting = [] ∧ s.evaluator.pass = none ∧ s.evaluator.pending = [])

/-- The generator names its channel and the channel its generator (R143); a channel that waits is NORMAL and needs a generator, and no generator
is FREE while one waits (R147); a FAULTED channel has nothing at the pool (R166). -/
def GeneratorInv (s : State) : Prop :=
  (∀ c g, (s.channel c).link = .holding g ↔ ∃ r, s.generator g = .busy r ∧ r.channel = c)
    ∧ (∀ c, (s.channel c).link = .waiting →
        (s.channel c).condition = .normal ∧ (needs (s.config c).kind (s.channel c).present).isSome = true ∧ ∀ g, s.generator g ≠ .free)
    ∧ ∀ c, (s.channel c).condition = .faulted → (s.channel c).link = .none

/-! ### The request of a rule -/

/-- Rule `n` makes one request of source INPUT `i` on its channels with level `lv` (R113, R114), leading from `s` to `t`. It needs an entry for each
channel whose list holds no claim of that input (R80). When the free count covers the need, every channel has the claim with the rule's priority,
blink and hold, in place of one the input had there and the newest of its priority (R76, R77, R81); else nothing changes and POOL_SHORT is raised with
the rule number (R82). -/
def RuleRequests (n : RuleNo) (i : InputNo) (f : RuleFields) (lv : BitVec 8) (s t : State) : Prop :=
  ∀ (p : Fin 4) (need : Nat), p.val = f.priority.toNat →
    need = ((toChans f.channels).filter fun c => (s.claimList c).all fun cl => cl.source != .input i).length →
    (need ≤ freeCount s →
      (∀ c ∈ toChans f.channels, t.claimList c =
          insertClaim ⟨.input i, p, lv, f.blink, f.hold⟩ ((s.claimList c).filter fun cl => cl.source != .input i))
      ∧ (∀ c, c ∉ toChans f.channels → t.claimList c = s.claimList c)
      ∧ (∀ c, (t.channel c).present = demandOf t c)
      ∧ (PoolInv s → (toChans f.channels).Nodup → freeCount t + need = freeCount s)
      ∧ t.notice .poolShort = s.notice .poolShort ∧ t.records = s.records ∧ t.waiting = s.waiting ∧ t.rules = s.rules
      ∧ t.calendar = s.calendar ∧ t.port = s.port ∧ t.channelConfigs = s.channelConfigs ∧ t.evaluator = s.evaluator)
    ∧ (freeCount s < need →
      t = { s with notices := t.notices }
      ∧ (s.mainPower = true → t.notices = upd s.notices 3 ((s.notice .poolShort).raised n.val)))

end Sys2Proof.Machine
end

