-- ==== Sys2Proof/Certificates/Slice0/Obligations.lean ====
section
/-!
DEFINITION. The statements about the OB-2460. Each follows the numbered rules named in its docstring; where a clause rests on a choice of
the model, the docstring names the log entry.
-/

section

open Sys2Proof Sys2Proof.Machine

/-! ### The step and the queue -/

/-- The queue of commands, first in, first out, is the model's (DESIGN CHOICE, log 1); that a command's effect is whole before the next is taken is R79's
and R154's. A step takes the command at the front of the queue and runs it on the part with the queue's rest. -/
def Obligations.StepRunsTheFrontCommand : Prop :=
  ∀ (c : Instr) (s : State) (rest : List Instr), step { s with pending := c :: rest } = exec c { s with pending := rest }

/-- On an empty queue a step passes a microsecond (log 4): no record, rule, configuration, claim, notice, event, date or time of day changes,
and nothing the host reads at the port. R144: the waveform of a generator goes on, its PWM phase by as many millionths of a period as the dimming
frequency has hertz, its envelope phase by a microsecond (log 27); a PWM period begins again at its end, and an envelope period that has nothing to
take up or to release begins again with a new PWM period. -/
def Obligations.IdleStepKeepsTheTables : Prop :=
  ∀ s : State, s.pending = [] → ∃ t, step s = .next t ∧ t.pending = [] ∧ t.records = s.records ∧ t.rules = s.rules
    ∧ t.channelConfigs = s.channelConfigs ∧ t.inputConfigs = s.inputConfigs ∧ t.switches = s.switches ∧ t.claims = s.claims
    ∧ t.waiting = s.waiting ∧ t.notices = s.notices ∧ t.mask = s.mask ∧ t.evaluator = s.evaluator ∧ t.events = s.events
    ∧ t.calendar = { s.calendar with phase := t.calendar.phase, qualify := t.calendar.qualify }
    ∧ t.port = { s.port with gapTimer := t.port.gapTimer }
    ∧ (s.mainPower = true → ∀ g, (s.generator g = .free → t.generator g = .free)
      ∧ ∀ r, s.generator g = .busy r → ∃ pwm env, t.generator g = .busy { r with pwmPhase := pwm, envPhase := env }
        ∧ (r.active.blink = none → env = r.envPhase
          ∧ (r.pwmPhase + s.dimFreq < 1000000 → pwm = r.pwmPhase + s.dimFreq)
          ∧ (1000000 ≤ r.pwmPhase + s.dimFreq → r.releasing = false → r.staged = none → pwm = (r.pwmPhase + s.dimFreq) % 1000000))
        ∧ (∀ b e, r.active.blink = some b → r.envPhase = some e →
          (e + 1 < b.period.toNat * 10000 → env = some (e + 1) ∧ pwm = (r.pwmPhase + s.dimFreq) % 1000000)
          ∧ (b.period.toNat * 10000 ≤ e + 1 → r.releasing = false → r.staged = none → env = some 0 ∧ pwm = 0)))

/-- Every command of the table has a next state, in every state of the part, and leaves the queue behind it as it is. That one which stands for an event
that cannot occur, or for a line that is not in execution, has a next state too is the model's choice (logs 1, 2 and 3). -/
def Obligations.EveryCommandCompletes : Prop :=
  ∀ (c : Instr) (s : State), ∃ t, exec c s = .next t ∧ t.pending = s.pending

/-! ### Invariants -/

/-- The machine after reset meets the four invariants. -/
def Obligations.ResetMeetsTheInvariants : Prop :=
  CalendarInv State.reset ∧ PoolInv State.reset ∧ WaitingInv State.reset ∧ GeneratorInv State.reset

/-- R2, R3, R4: a step keeps the calendar one that the manual allows. -/
def Obligations.CalendarInvIsKept : Prop :=
  ∀ s t : State, CalendarInv s → step s = .next t → CalendarInv t

/-- R73, R75, R76: a step keeps the pool at 48, every claim list ordered, and one claim of a source at most on a list. -/
def Obligations.PoolInvIsKept : Prop :=
  ∀ s t : State, PoolInv s → step s = .next t → PoolInv t

/-- R88: a step keeps the waiting list the list of exactly the records in state WAITING, each once. -/
def Obligations.WaitingInvIsKept : Prop :=
  ∀ s t : State, WaitingInv s → step s = .next t → WaitingInv t

/-- R143, R147: a step keeps the generators and the channels naming each other, and no generator FREE while a channel waits. -/
def Obligations.GeneratorInvIsKept : Prop :=
  ∀ s t : State, GeneratorInv s → step s = .next t → GeneratorInv t

/-! ### Resets and supplies -/

/-- R18, R48, R121, R142, R156, R169, R182: a cold start, from any state, sets the backup domain to its defaults and ends with every channel steady
inactive, the calendar STOPPED and START raised with subject 1. That a part that is powered already takes it too is log 18's choice, and that the byte
last returned at the bus is absent after it log 24's (DESIGN CHOICE). How many transfers meet the port re-initialising is free (`reinits`, log 21). -/
def Obligations.ColdStartSetsTheDefaults : Prop :=
  ∀ s : State, ∃ t, exec .coldStart s = .next t
    ∧ (∀ n, t.record n = ⟨.free, none, none, false, 0, false, 0⟩) ∧ (∀ r, t.rule r = ⟨.unused, none, 0⟩)
    ∧ (∀ i, t.inputConfig i = ⟨.off, false, none, none⟩) ∧ (∀ i, t.input i = ⟨.none, none, none, none, none, none⟩)
    ∧ (∀ c : Chan, t.config c = ⟨.switched, 0, 0, false, ⟨c.val, by omega⟩, none, 10⟩) ∧ (∀ c, t.switch c = ⟨0, false⟩)
    ∧ t.dimFreq = 200 ∧ t.calendar.state = .stopped ∧ t.calendar.date = ⟨0, 1, 1⟩ ∧ t.calendar.hours = 0 ∧ t.calendar.minutes = 0
    ∧ t.calendar.seconds = 0 ∧ t.calendar.weekday = 6 ∧ t.calendar.phase = 0 ∧ t.calendar.osc = .starting
    ∧ t.mainPower = true ∧ (∀ c, t.claimList c = []) ∧ t.waiting = [] ∧ t.evaluator = ⟨[], none, none⟩
    ∧ (∀ c, (t.channel c).present = ⟨0, none⟩ ∧ (t.channel c).drive = .inactive ∧ (t.channel c).condition = .normal)
    ∧ (∀ p, pinHigh t p = some false)
    ∧ t.freezeMask = 0 ∧ (∀ g, t.generator g = .free) ∧ t.scrub = 0 ∧ t.mask = 0xFFF ∧ t.port = { Port.blank with reinit := s.reinits.headD 0 }
    ∧ t.notice .start = ⟨1, some 1⟩ ∧ (∀ k, k ≠ .start → t.notice k = ⟨0, none⟩) ∧ t.pending = s.pending

/-- R16, R17, R47, R52, R101, R120, R139 to R141, R156, R169, R182: a main reset by the RESET input, by RSTR or by the return of main power, with the
calendar not RUNNING, keeps the backup domain but for the return of OPEN and WAITING records to ARMED, empties the main domain, leaves each PUSH and
LEVEL input with its first sample pending and its pin's level timed, and has each channel derive its drive from its rest level: steadily, by a pulse
that does not count, or by a generator, of which the first six that ask are granted 0 to 5 and the others wait with GEN_SHORT. How many transfers meet
the port re-initialising is free (`reinits`, log 21); that the byte last returned at the bus is absent after it is log 24's choice (DESIGN CHOICE), and
that no scrub step is due after it log 39's, and no fault log 35's (DESIGN CHOICE). -/
def Obligations.MainResetWithTheCalendarNotRunning : Prop :=
  ∀ (s : State) (c : Instr) (v : Nat), s.calendar.state ≠ .running →
    (c = .resetInput v ∧ s.mainPower = true ∨ c = .rstr [] v ∧ lineTaken (text "RSTR") [] s = true
      ∨ c = .powerReturn v ∧ s.mainPower = false) →
    ∃ t, exec c s = .next t ∧ t.mainPower = true
      ∧ t.calendar = s.calendar ∧ t.rules = s.rules ∧ t.inputConfigs = s.inputConfigs ∧ t.channelConfigs = s.channelConfigs
      ∧ t.switches = s.switches ∧ t.dimFreq = s.dimFreq
      ∧ (∀ n, t.record n = if (s.record n).state = .opened ∨ (s.record n).state = .waiting
          then { (s.record n).applyDraft with state := .armed } else s.record n)
      ∧ (∀ c, t.claimList c = []) ∧ t.waiting = [] ∧ t.evaluator = ⟨[], none, none⟩ ∧ t.events = [] ∧ t.applying = none
      ∧ t.freezeMask = 0 ∧ t.freezeSeq = .idle ∧ t.scrub = 0 ∧ t.port = { Port.blank with reinit := s.reinits.headD 0 } ∧ t.mask = 0xFFF
      ∧ t.holdsDue = 0 ∧ t.heldDue = 0 ∧ t.scrubDue = 0 ∧ (∀ c, nth t.compareDue c = false ∧ nth t.faultsDue c = false)
      ∧ (∀ i, t.input i = match (s.inputConfig i).kind with
          | .off => ⟨.none, none, none, none, none, none⟩
          | .push => ⟨.released, none, none, some true, none, (s.inputConfig i).debounce.map fun ms => ⟨asserted s i, ms⟩⟩
          | .level => ⟨.inactive, none, none, some true, none, (s.inputConfig i).debounce.map fun ms => ⟨asserted s i, ms⟩⟩)
      ∧ (∀ c, (t.channel c).present = ⟨(s.config c).rest, none⟩ ∧ (t.channel c).condition = .normal)
      ∧ (∀ c, (s.config c).kind = .pulsed → t.channel c = ⟨⟨(s.config c).rest, none⟩, .normal, .inactive, .none,
          some (.pulsing ((s.config c).rest != 0)), none, some ((s.config c).pulseLength.toNat * 10), false, .unsupervised⟩)
      ∧ (∀ c, (s.config c).kind ≠ .pulsed → needs (s.config c).kind ⟨(s.config c).rest, none⟩ = none → t.channel c =
          ⟨⟨(s.config c).rest, none⟩, .normal, if (s.config c).rest = 0 then .inactive else .active, .none, none, none, none, false,
            .settling (((s.config c).rest != 0) != (s.config c).activeLow) 20⟩)
      ∧ (∀ c p, (s.config c).kind ≠ .pulsed → needs (s.config c).kind ⟨(s.config c).rest, none⟩ = some p →
          (∃ g, t.channel c =
              ⟨⟨(s.config c).rest, none⟩, .normal, .generator, .holding g, none, none, none, false, .unsupervised⟩
            ∧ t.generator g = .busy ⟨false, c, p, none, 0, p.blink.map fun _ => 0⟩)
          ∨ (∀ g, t.generator g ≠ .free) ∧ t.channel c =
              ⟨⟨(s.config c).rest, none⟩, .normal, if 128 ≤ (s.config c).rest.toNat then .active else .inactive,
                .waiting, none, none, none, false,
                .settling (decide (128 ≤ (s.config c).rest.toNat) != (s.config c).activeLow) 20⟩)
      ∧ (∀ g : GenNo, t.generator g ≠ .free ↔ g.val <
          ((List.finRange 24).filter fun c => (needs (s.config c).kind ⟨(s.config c).rest, none⟩).isSome).length)
      ∧ (t.notice .genShort).count.toNat = ((List.finRange 24).filter fun c => (t.channel c).link == .waiting).length
      ∧ t.notice .start = ⟨1, some 0⟩
      ∧ t.notice .clockFault = (if s.calendar.state = .halted ∨ s.calendar.osc = .lost then ⟨1, some 1⟩ else ⟨0, none⟩)
      ∧ t.pending = s.pending

/-- R16, R47, R66: a main reset with the calendar RUNNING makes the whole re-evaluation pass at the present minute (96 visits, log 6): each record as R47
leaves it, when ARMED, opens when it is sound and the minute lies inside its content, counted, OPEN with its claims until the first that does not fit
the pool and WAITING from there on; it is quarantined when it fails the check of its opening; it becomes SPENT with MISSED_WINDOW when it is DATED and
its window is over; every other record stands. How many transfers meet the port re-initialising is free (`reinits`, log 21); that the byte last
returned at the bus is absent after it is log 24's choice (DESIGN CHOICE). -/
def Obligations.MainResetReevaluates : Prop :=
  ∀ (s : State) (c : Instr), s.calendar.state = .running →
    (c = .resetInput 96 ∧ s.mainPower = true ∨ c = .rstr [] 96 ∧ lineTaken (text "RSTR") [] s = true
      ∨ c = .powerReturn 96 ∧ s.mainPower = false) →
    ∃ t, exec c s = .next t ∧ t.calendar = s.calendar ∧ t.evaluator = ⟨[], some s.calendar.now, none⟩ ∧ t.rules = s.rules
      ∧ t.channelConfigs = s.channelConfigs ∧ t.inputConfigs = s.inputConfigs ∧ t.port = { Port.blank with reinit := s.reinits.headD 0 }
      ∧ t.freezeMask = 0
      ∧ (∀ n r, r = (if (s.record n).state = .opened ∨ (s.record n).state = .waiting
            then { (s.record n).applyDraft with state := .armed } else s.record n) →
          (r.state ≠ .armed → t.record n = r)
          ∧ ∀ e, r.state = .armed → r.content = some e →
            (inside e s.calendar.now = true → recordSound r = true →
              t.record n = { r.counted with state := .opened } ∨ t.record n = { r.counted with state := .waiting })
            ∧ (inside e s.calendar.now = true → recordSound r = false → t.record n = r.condemned)
            ∧ (inside e s.calendar.now = false → e.kind = 0 → t.record n = r)
            ∧ (∀ b d w, inside e s.calendar.now = false → e.kind = 1 → e.day = .date b → dateOf b = some d → windowOn e d = some w →
              t.record n = if w.2 ≤ s.calendar.now.index then { r with state := .spent } else r))
      ∧ t.waiting = ((List.finRange 96).filter fun n => (t.record n).state == .waiting)
      ∧ (∀ n rest, t.waiting = n :: rest → freeCount t < (t.record n).need)
      ∧ (∀ i j, (t.record i).state = .opened → (t.record j).state = .waiting → i < j)
      ∧ (∀ n e, (t.record n).state = .opened → (t.record n).content = some e →
          ∀ ch ∈ toChans e.channels, openClaim n e ∈ t.claimList ch)
      ∧ (∀ ch, ∀ cl ∈ t.claimList ch, ∃ n, cl.source = .record n ∧ (t.record n).state = .opened)
      ∧ (∀ ch, (t.channel ch).present = demandOf t ch)
      ∧ t.notice .missedWindow = Notice.raisedFor ⟨0, none⟩ (((List.finRange 96).filter fun n =>
          (t.record n).state == .spent && (s.record n).state != .spent).map Fin.val)

/-- R15, R135, R156: at the loss of main power the backup domain keeps everything, every claim is lost and no driver pin is driven. R123, R131, R144:
with main power, a pin that no channel names is low, and one that a channel alone names is driven at the level its polarity gives: pin A active or
inactive by a steady drive, by the generator (active for duty/255 of the PWM period, gated by the envelope's on-time; the units of its phases are log
27's), or during a pulse to ON; pin B active during a pulse to OFF. -/
def Obligations.MainPowerLossKeepsTheBackupDomain : Prop :=
  ∀ s : State, s.mainPower = true →
    (∃ t, exec .mainPowerLoss s = .next t ∧ t.mainPower = false
      ∧ t.calendar = s.calendar ∧ t.records = s.records ∧ t.rules = s.rules ∧ t.inputConfigs = s.inputConfigs
      ∧ t.channelConfigs = s.channelConfigs ∧ t.switches = s.switches ∧ t.dimFreq = s.dimFreq
      ∧ (∀ c, t.claimList c = []) ∧ t.waiting = [] ∧ (∀ p, pinHigh t p = none) ∧ t.pending = s.pending)
    ∧ ∀ p : Pin,
      ((∀ c, (s.config c).pinA ≠ p ∧ ¬ ((s.config c).kind = .pulsed ∧ (s.config c).pinB = some p)) → pinHigh s p = some false)
      ∧ ∀ (c : Chan) (k : ChannelConfig) (x : Channel), k = s.config c → x = s.channel c →
        (∀ d, (s.config d).pinA = p ∨ (s.config d).kind = .pulsed ∧ (s.config d).pinB = some p → d = c) →
        (k.pinA = p →
          (x.pulse = none → x.drive = .active → pinHigh s p = some (!k.activeLow))
          ∧ (x.pulse = none → x.drive = .inactive → pinHigh s p = some k.activeLow)
          ∧ (∀ g r, x.pulse = none → x.drive = .generator → x.link = .holding g → s.generator g = .busy r →
            (r.active.blink = none →
              pinHigh s p = some (decide (r.pwmPhase * 255 < r.active.duty.toNat * 1000000) != k.activeLow))
            ∧ (∀ b e, r.active.blink = some b → r.envPhase = some e → pinHigh s p =
              some (decide (r.pwmPhase * 255 < r.active.duty.toNat * 1000000 ∧ e < b.onTime.toNat * 10000) != k.activeLow)))
          ∧ (∀ u, x.pulse = some u → pinHigh s p = some (decide (u = .pulsing true) != k.activeLow)))
        ∧ (k.pinA ≠ p → k.kind = .pulsed → k.pinB = some p →
          pinHigh s p = some (decide (x.pulse = some (.pulsing false)) != k.activeLow))

/-- R157: a storage disturbance changes the stored content, draft, protected flag or code of one record, or the stored fields or code of one rule; every
other item of that record or rule, every other record and rule and everything else in the part stand. What is absent stays absent, and a FREE record
holds no image. The forms a disturbance takes are log 11's. -/
def Obligations.DisturbanceChangesOneImage : Prop :=
  ∀ s : State,
    (∀ n c, exec (.storageDisturbance (.recordContent n c)) s = .next { s with
      records := upd s.records n { s.record n with content := (s.record n).content.map fun _ => c } })
    ∧ (∀ n c, exec (.storageDisturbance (.recordDraft n c)) s = .next { s with
      records := upd s.records n { s.record n with draft := (s.record n).draft.map fun _ => c } })
    ∧ (∀ n p, exec (.storageDisturbance (.recordProtected n p)) s = .next { s with
      records := upd s.records n { s.record n with prot := if (s.record n).state = .free then (s.record n).prot else p } })
    ∧ (∀ n v, exec (.storageDisturbance (.recordCode n v)) s = .next { s with
      records := upd s.records n { s.record n with code := v } })
    ∧ (∀ r f, exec (.storageDisturbance (.ruleFields r f)) s = .next { s with
      rules := upd s.rules r { s.rule r with fields := (s.rule r).fields.map fun _ => f } })
    ∧ (∀ r v, exec (.storageDisturbance (.ruleCode r v)) s = .next { s with
      rules := upd s.rules r { s.rule r with code := v } })

/-! ### Calendar -/

/-- R1, R3: the day after a valid date is a valid date, one day later, on the next weekday; with the weekdays of the manual's examples. -/
def Obligations.TheNextDateIsOneDayLater : Prop :=
  (∀ d e : Date, validDate d = true → nextDate d = some e →
    validDate e = true ∧ dayIndex e = dayIndex d + 1 ∧ weekdayOf e = weekdayOf d % 7 + 1)
  ∧ weekdayOf ⟨0, 1, 1⟩ = 6 ∧ weekdayOf ⟨24, 3, 15⟩ = 5 ∧ weekdayOf ⟨99, 12, 31⟩ = 4

/-- R12: the checks of TSET in their order, and what an accepted TSET sets; nothing else in the part changes. -/
def Obligations.TsetSetsTheCalendar : Prop :=
  ∀ (s : State) (fields : List Text), lineTaken (text "TSET") fields s = true →
    ((∃ f ∈ fields, ∃ b ∈ f, isHex b = false) → exec (.tset fields) s = .next (refusedWith .badDigit s))
    ∧ ((∀ f ∈ fields, ∀ b ∈ f, isHex b = true) → fields.length ≠ 2 → exec (.tset fields) s = .next (refusedWith .fieldCount s))
    ∧ ∀ d t, fields = [d, t] →
      ((∀ f ∈ fields, ∀ b ∈ f, isHex b = true) → ((dateField d).bind dateOf = none ∨ (timeField t).bind timeOf = none) →
        exec (.tset fields) s = .next (refusedWith .range s))
      ∧ ∀ date minute, (dateField d).bind dateOf = some date → (timeField t).bind timeOf = some minute →
        (s.calendar.osc ≠ .steady → exec (.tset fields) s = .next (refusedWith .clockFault s))
        ∧ (s.calendar.osc = .steady → exec (.tset fields) s = .next { s with
            calendar := { s.calendar with
              state := .running, date := date, hours := minute / 60, minutes := minute % 60, seconds := 0, phase := 0 }
            evaluator := { s.evaluator with
              pending := s.evaluator.pending ++ [.step ⟨date, minute / 60, minute % 60, weekdayOf date⟩ .tset] }
            freezeSeq := .idle
            port := answered s.port .ok [] })

/-- R14: the checks of TADJ in their order, and what an accepted TADJ moves: the seconds, and nothing else in the part. -/
def Obligations.TadjTrimsTheSeconds : Prop :=
  ∀ (s : State) (fields : List Text), lineTaken (text "TADJ") fields s = true →
    ((∃ f ∈ fields, ∃ b ∈ f, isHex b = false) → exec (.tadj fields) s = .next (refusedWith .badDigit s))
    ∧ ((∀ f ∈ fields, ∀ b ∈ f, isHex b = true) → fields.length ≠ 2 → exec (.tadj fields) s = .next (refusedWith .fieldCount s))
    ∧ ∀ dir off, fields = [dir, off] → (∀ f ∈ fields, ∀ b ∈ f, isHex b = true) →
      ((directionField dir = none ∨ offsetField off = none) → exec (.tadj fields) s = .next (refusedWith .range s))
      ∧ ∀ retard n, directionField dir = some retard → offsetField off = some n →
        (s.calendar.state ≠ .running → exec (.tadj fields) s = .next (refusedWith .wrongState s))
        ∧ (s.calendar.state = .running →
          ((retard = false ∧ 59 < s.calendar.seconds + n ∨ retard = true ∧ s.calendar.seconds < n) →
            exec (.tadj fields) s = .next (refusedWith .range s))
          ∧ (retard = false → s.calendar.seconds + n ≤ 59 → exec (.tadj fields) s = .next { s with
              calendar := { s.calendar with seconds := s.calendar.seconds + n }
              freezeSeq := .idle
              port := answered s.port .ok [] })
          ∧ (retard = true → n ≤ s.calendar.seconds → exec (.tadj fields) s = .next { s with
              calendar := { s.calendar with seconds := s.calendar.seconds - n }
              freezeSeq := .idle
              port := answered s.port .ok [] }))

/-- R11: TGET answers the calendar in six fields in every state and changes nothing; with a field it is refused. -/
def Obligations.TgetReportsTheCalendar : Prop :=
  ∀ (s : State) (fields : List Text), lineTaken (text "TGET") fields s = true →
    (fields ≠ [] → exec (.tget fields) s = .next (refusedWith .fieldCount s))
    ∧ (fields = [] → exec (.tget fields) s = .next (reported
        [(match s.calendar.state with | .stopped => text "0" | .running => text "1" | .halted => text "2"),
          decText 2 s.calendar.date.day ++ decText 2 s.calendar.date.month ++ decText 2 s.calendar.date.year,
          decText 2 s.calendar.hours ++ decText 2 s.calendar.minutes, decText 2 s.calendar.seconds, digit (weekdayOf s.calendar.date),
          (match s.calendar.osc with | .starting => text "0" | .steady => text "1" | .lost => text "2")] s))

/-- R4 to R7, R15, R86, R108, R159 to R163, R165, R166: a second tick of a STEADY oscillator advances a RUNNING calendar by one second, with a minute
boundary at 59 to 00 and the year rollover at 2099-12-31 23:59:59, and leaves a calendar that is not RUNNING alone. With main power it is delivered to
the holds, the held counts, the scrub and the comparisons, each of which takes it now or has it due (their order: log 5): the scrub checks the item at
its position and moves on; PRESSED and LONG_HELD inputs count it; holds go down by one and claims at 0 leave; a WATCHED channel whose readback differs
is FAULTED, with OUTPUT_FAULT, wherever its comparison stands in the order, when nothing else the tick does reaches a channel. A tick that finds
nothing to act on leaves every channel, record and rule. Without a STEADY oscillator no tick comes (log 3); a resumed tick goes on with what is due (log
5); a fault found on a pin that the command marks `late` is left due (DESIGN CHOICE, log 35); the inputs that reach 120 raise INPUT_STUCK from 0 to 7
(DESIGN CHOICE, log 37). -/
def Obligations.SecondTickAdvancesTheCalendar : Prop :=
  ∀ (s : State) (held : List PinHold) (o : TickOrder),
    (s.calendar.osc ≠ .steady → exec (.secondTick held o) s = .next s)
    ∧ (s.calendar.osc = .steady → ∃ t, exec (.secondTick held o) s = .next t
      ∧ t.port = s.port ∧ t.channelConfigs = s.channelConfigs ∧ t.inputConfigs = s.inputConfigs ∧ t.freezeMask = s.freezeMask
      ∧ t.mask = s.mask ∧ t.events = s.events ∧ t.pending = s.pending
      ∧ (o.resumed = true → t.calendar = s.calendar ∧ t.evaluator = s.evaluator)
      ∧ (o.resumed = false →
        (s.calendar.state ≠ .running → t.calendar = { s.calendar with phase := 0 } ∧ t.evaluator = s.evaluator)
        ∧ (s.calendar.state = .running → s.calendar.seconds < 59 →
            t.calendar = { s.calendar with seconds := s.calendar.seconds + 1, phase := 0 } ∧ t.evaluator = s.evaluator)
        ∧ (s.calendar.state = .running → s.calendar.seconds = 59 → s.calendar.minutes < 59 →
            t.calendar = { s.calendar with seconds := 0, minutes := s.calendar.minutes + 1, phase := 0 })
        ∧ (s.calendar.state = .running → s.calendar.seconds = 59 → s.calendar.minutes = 59 → s.calendar.hours < 23 →
            t.calendar = { s.calendar with seconds := 0, minutes := 0, hours := s.calendar.hours + 1, phase := 0 })
        ∧ (∀ d, s.calendar.state = .running → s.calendar.seconds = 59 → s.calendar.minutes = 59 → s.calendar.hours = 23 →
            nextDate s.calendar.date = some d →
            t.calendar = { s.calendar with seconds := 0, minutes := 0, hours := 0, date := d, phase := 0 })
        ∧ (s.calendar.state = .running → s.calendar.seconds = 59 → s.mainPower = true →
            (s.calendar.minutes < 59 ∨ s.calendar.hours < 23 ∨ s.calendar.date ≠ ⟨99, 12, 31⟩) → CalendarInv s →
            t.evaluator = { s.evaluator with pending := s.evaluator.pending ++
              [.boundary ⟨t.calendar.date, t.calendar.hours, t.calendar.minutes, weekdayOf t.calendar.date⟩] })
        ∧ (s.calendar.state = .running → s.calendar.seconds = 59 → s.calendar.minutes = 59 → s.calendar.hours = 23 →
            s.calendar.date = ⟨99, 12, 31⟩ →
            t.calendar = { s.calendar with seconds := 0, minutes := 0, hours := 0, date := ⟨0, 1, 1⟩, phase := 0 }
              ∧ (s.mainPower = true → t.evaluator = { s.evaluator with
                  pending := s.evaluator.pending ++ [.step ⟨⟨0, 1, 1⟩, 0, 0, 6⟩ .rollover] })))
      ∧ (s.mainPower = false → t = { s with calendar := t.calendar })
      ∧ (s.mainPower = true →
        -- the held counts (R108)
        (.held ∈ o.later → t.inputs = s.inputs ∧ t.heldDue = dueAt o s.heldDue)
        ∧ (.held ∉ o.later → t.heldDue = 0 ∧ (dueAt o s.heldDue = 1 → (∀ i, t.input i = (s.input i).afterTick)
            ∧ t.notice .inputStuck = (s.notice .inputStuck).raisedFor ((stuckAtTick s).map Fin.val)))
        -- the scrub (R159 to R163)
        ∧ (.scrub ∈ o.later → t.scrub = s.scrub ∧ t.scrubDue = dueAt o s.scrubDue ∧ t.rules = s.rules)
        ∧ (.scrub ∉ o.later → t.scrubDue = 0 ∧ (dueAt o s.scrubDue = 1 → t.scrub = s.scrub + 1
            ∧ (∀ r, s.scrub.val ≠ 96 + r.val → t.rule r = s.rule r)
            ∧ (∀ r, s.scrub.val = 96 + r.val →
                t.rule r = (if ruleFailsCheck (s.rule r) then { s.rule r with state := .faulted } else s.rule r)
                ∧ t.notice .ruleFault = (if ruleFailsCheck (s.rule r) then (s.notice .ruleFault).raised r.val else s.notice .ruleFault))
            ∧ (s.waiting = [] → (∀ n, s.scrub.val ≠ n.val → t.record n = s.record n)
              ∧ ∀ n, s.scrub.val = n.val →
                t.record n = (if failsCheck (s.record n) then (s.record n).condemned else s.record n)
                ∧ t.notice .recordFault =
                    (if failsCheck (s.record n) then (s.notice .recordFault).raised n.val else s.notice .recordFault))))
        -- the holds (R86)
        ∧ (.holds ∈ o.later → t.holdsDue = dueAt o s.holdsDue)
        ∧ (.holds ∉ o.later → t.holdsDue = 0)
        ∧ (s.waiting = [] → dueAt o s.scrubDue = 1 → dueAt o s.holdsDue = 1 → ∀ found : List RecNo,
            found = (if .scrub ∈ o.later then [] else
              (List.finRange 96).filter fun n => s.scrub.val == n.val && (s.record n).state == .opened && !recordSound (s.record n)) →
            t.waiting = [] ∧ ∀ ch, t.claimList ch =
              (((s.claimList ch).filter fun cl => found.all fun n => cl.source != .record n).filterMap
                fun cl => if .holds ∈ o.later then some cl else cl.afterTick))
        -- the comparisons (R165, R166)
        ∧ (∀ c, .compare c ∈ o.later → nth t.compareDue c = (nth s.compareDue c || !o.resumed))
        ∧ (∀ c, .compare c ∉ o.later → nth t.compareDue c = false)
        ∧ (∀ c rest h, o.first = .compare c :: rest → .compare c ∉ o.later → (nth s.compareDue c || !o.resumed) = true →
            (s.channel c).feedback = .watched h → readback held s (s.config c).pinA ≠ h →
            (lateOn held (s.config c).pinA = false → (t.channel c).condition = .faulted ∧ (t.channel c).drive = .inactive
              ∧ (t.channel c).link = .none ∧ (t.channel c).feedback = .unsupervised ∧ (t.notice .outputFault).count ≠ 0)
            ∧ (lateOn held (s.config c).pinA = true → nth t.faultsDue c = true))
        ∧ (s.waiting = [] → dueAt o s.scrubDue = 1 → dueAt o s.holdsDue = 1 →
            (∀ ch, ∀ cl ∈ s.claimList ch, cl.afterTick ≠ none) →
            (∀ n : RecNo, s.scrub.val = n.val → failsCheck (s.record n) = false) →
            (∀ c d, (s.config d).pinA = (s.config c).pinA
              ∨ (s.config d).kind = .pulsed ∧ (s.config d).pinB = some (s.config c).pinA → d = c) →
            (∀ c h g, (s.channel c).feedback = .watched h → (s.channel c).link ≠ .holding g) →
            (∀ c, (∀ h, (s.channel c).feedback ≠ .watched h) → t.channel c = s.channel c)
            ∧ ∀ c h, (s.channel c).feedback = .watched h →
              (.compare c ∈ o.later ∨ (nth s.compareDue c || !o.resumed) = false → t.channel c = s.channel c)
              ∧ (.compare c ∉ o.later → (nth s.compareDue c || !o.resumed) = true →
                (readback held s (s.config c).pinA = h → t.channel c = s.channel c)
                ∧ (readback held s (s.config c).pinA ≠ h → lateOn held (s.config c).pinA = false →
                  t.channel c = { s.channel c with condition := .faulted, drive := .inactive, link := .none, feedback := .unsupervised }
                  ∧ (t.notice .outputFault).count ≠ 0)
                ∧ (readback held s (s.config c).pinA ≠ h → lateOn held (s.config c).pinA = true →
                  t.channel c = s.channel c ∧ nth t.faultsDue c = true)))
        -- a tick that finds nothing to act on
        ∧ (s.waiting = [] → dueAt o s.scrubDue = 1 → dueAt o s.holdsDue = 1 →
            (∀ ch, ∀ cl ∈ s.claimList ch, cl.afterTick ≠ none) →
            (∀ n : RecNo, s.scrub.val = n.val → failsCheck (s.record n) = false) →
            (∀ r : RuleNo, s.scrub.val = 96 + r.val → ruleFailsCheck (s.rule r) = false) →
            (∀ c h, (s.channel c).feedback = .watched h → readback held s (s.config c).pinA = h) →
            t.channels = s.channels ∧ t.generators = s.generators ∧ t.switches = s.switches ∧ t.records = s.records
              ∧ t.rules = s.rules ∧ ∀ k, k ≠ .inputStuck → t.notice k = s.notice k)))

/-- R9, R10: a completed qualification makes the oscillator STEADY with the phase at 0 and changes no calendar state; a restarted one changes
nothing but what remains of its interval (log 20); neither raises a notice. The loss of a STEADY oscillator halts the calendar at the time last
counted, discards the phase and raises CLOCK_FAULT with subject 0, which finds no notice table while main power is absent. What second ticks before the
loss have left due is done before it (DEDUCED, log 38); with nothing due the calendar and the notice are all that changes. An oscillator that is not
STEADY is not lost (log 3). -/
def Obligations.OscillatorEventsMoveTheCalendar : Prop :=
  ∀ s : State,
    (s.calendar.osc ≠ .steady →
      exec .qualificationComplete s = .next { s with calendar := { s.calendar with osc := .steady, phase := 0, qualify := none } }
      ∧ exec .qualificationRestart s = .next { s with calendar := { s.calendar with qualify := some 100 } }
      ∧ exec .oscillatorLoss s = .next s)
    ∧ (s.calendar.osc = .steady → ∃ t, exec .oscillatorLoss s = .next t
      ∧ t.calendar.state = .halted ∧ t.calendar.osc = .lost ∧ t.calendar.phase = 0 ∧ t.calendar.date = s.calendar.date
      ∧ t.calendar.hours = s.calendar.hours ∧ t.calendar.minutes = s.calendar.minutes ∧ t.calendar.seconds = s.calendar.seconds
      ∧ (s.mainPower = true → t.notice .clockFault = (s.notice .clockFault).raised 0
        ∧ t.holdsDue = 0 ∧ t.heldDue = 0 ∧ t.scrubDue = 0 ∧ ∀ c, nth t.compareDue c = false)
      ∧ (s.mainPower = true → s.holdsDue = 0 → s.heldDue = 0 → s.scrubDue = 0 → (∀ c, nth s.compareDue c = false) →
          t = { s with calendar := t.calendar, notices := upd s.notices 9 ((s.notice .clockFault).raised 0) })
      ∧ (s.mainPower = false → t = { s with calendar := t.calendar })
      ∧ t.evaluator = s.evaluator ∧ t.port = s.port ∧ t.channelConfigs = s.channelConfigs ∧ t.inputConfigs = s.inputConfigs)

/-! ### Windows and passes -/

/-- R22, R49 to R51, R57: the window of a WEEKLY content that begins on a date, and the one window of a DATED content; a minute lies inside a content when
it lies in the window of its date or of the day before, and a window starts at its first minute. A season holds the month-days from its first to its
last, wrapping the year end when the first is later, compared by month and then by day, a bound of 02-29 too in every year. -/
def Obligations.WindowsOfAContent : Prop :=
  (∀ (c : Content) (a b : Nat) (d : Date), timeOf c.start = some a → timeOf c.stop = some b → a ≠ b →
    (∀ set admits, c.kind = 0 → c.day = .days set → set ≠ 0 → seasonAdmits c.season d = some admits →
      windowOn c d =
        (if admits = true ∧ set.getLsbD (weekdayOf d - 1) = true then
          some (dayIndex d * 1440 + a, (if a < b then dayIndex d else dayIndex d + 1) * 1440 + b)
        else none))
    ∧ (∀ w e, c.kind = 1 → c.day = .date w → dateOf w = some e →
      windowOn c d =
        (if e = d then some (dayIndex d * 1440 + a, (if a < b then dayIndex d else dayIndex d + 1) * 1440 + b) else none)))
  ∧ (∀ (c : Content) (m : Moment),
    (inside c m = true ↔ ∃ d w, (d = m.date ∨ prevDate m.date = some d) ∧ windowOn c d = some w ∧ w.1 ≤ m.index ∧ m.index < w.2)
    ∧ (startsAt c m = true ↔ ∃ w, windowOn c m.date = some w ∧ w.1 = m.index))
  ∧ (∀ d, seasonAdmits none d = some true)
  ∧ (∀ (x : Season) (lo hi : Nat × Nat) (d : Date), validDate d = true → monthDayOf x.fromDay = some lo → monthDayOf x.untilDay = some hi →
    ∃ admits, seasonAdmits (some x) d = some admits ∧
      (admits = true ↔
        if lo.1 < hi.1 ∨ lo.1 = hi.1 ∧ lo.2 ≤ hi.2 then
          (lo.1 < d.month ∨ lo.1 = d.month ∧ lo.2 ≤ d.day) ∧ (d.month < hi.1 ∨ d.month = hi.1 ∧ d.day ≤ hi.2)
        else (lo.1 < d.month ∨ lo.1 = d.month ∧ lo.2 ≤ d.day) ∨ (d.month < hi.1 ∨ d.month = hi.1 ∧ d.day ≤ hi.2)))
  ∧ (∀ d : Date, validDate d = true → leap d.year = false → seasonAdmits (some ⟨0x0229, 0x0229⟩) d = some false)
  ∧ (∀ y, seasonAdmits (some ⟨0x0229, 0x1231⟩) ⟨y, 3, 1⟩ = some true ∧ seasonAdmits (some ⟨0x0229, 0x1231⟩) ⟨y, 2, 28⟩ = some false
    ∧ seasonAdmits (some ⟨0x0101, 0x0229⟩) ⟨y, 2, 28⟩ = some true ∧ seasonAdmits (some ⟨0x0101, 0x0229⟩) ⟨y, 3, 1⟩ = some false)

/-- R52, R53: with no pass in progress, the oldest pending event is taken, its minute becomes the evaluation minute, and a pass of its kind begins at
record 0, no record being visited yet (0 visits, log 6); a pass of 96 visits is carried through to record 95, and then none is in progress. A pass in
progress keeps its minute and the pending events while it visits; v + 1 visits are one visit and then v visits of the pass that goes on, and after record
95 none are left. That the oldest event is taken in HALTED too is the model's choice (DESIGN CHOICE, log 34). -/
def Obligations.APassBeginsWithTheOldestEvent : Prop :=
  ∀ (s : State) (k : PassKind) (cmd : Nat → Instr),
    (k = .boundary ∧ cmd = Instr.boundaryPass ∨ k = .reevaluation ∧ cmd = Instr.reevaluationPass) →
    (∀ m rest, s.evaluator.pass = none →
      (k = .boundary ∧ s.evaluator.pending = .boundary m :: rest
        ∨ k = .reevaluation ∧ ∃ cause, s.evaluator.pending = .step m cause :: rest) →
      exec (cmd 0) s = .next { s with evaluator := ⟨rest, some m, some ⟨k, 0⟩⟩ }
      ∧ (∀ v, exec (cmd v) s = exec (cmd v) { s with evaluator := ⟨rest, some m, some ⟨k, 0⟩⟩ })
      ∧ ∃ t, exec (cmd 96) s = .next t ∧ t.evaluator = ⟨rest, some m, none⟩)
    ∧ ∀ (n : RecNo) (m : Moment), s.evaluator.pass = some ⟨k, n⟩ → s.evaluator.minute = some m →
      ∀ v, ∃ t u, exec (cmd 1) s = .next t ∧ exec (cmd (v + 1)) s = .next u
        ∧ (n.val + 1 < 96 → exec (cmd v) t = .next u) ∧ (n.val + 1 = 96 → u = t)
        ∧ u.evaluator = { s.evaluator with pass := if h : n.val + (v + 1) < 96 then some ⟨k, ⟨n.val + (v + 1), h⟩⟩ else none }

/-- R24, R55, R57, R61, R62, R81, R82: what a visit of a pass makes of an ARMED record. One that opens (at a window's start, or inside one at a
re-evaluation) fails its check and is quarantined; else it is counted, with RECORD_WRAP from 9999, and its claims are requested: granted when no record
waits and the pool has room, else the record joins the waiting list with CLAIM_WAIT. One that does not open stays ARMED, or becomes SPENT with
MISSED_WINDOW when it is DATED and its window is over. A FREE, SUSPENDED, SPENT or QUARANTINED record is passed over. -/
def Obligations.APassOpensAnArmedRecord : Prop :=
  ∀ (s : State) (k : PassKind) (opens : Content → Moment → Bool) (cmd : Instr) (n : RecNo) (m : Moment) (next : Option Pass),
    (k = .boundary ∧ opens = startsAt ∧ cmd = .boundaryPass 1 ∨ k = .reevaluation ∧ opens = inside ∧ cmd = .reevaluationPass 1) →
    s.evaluator.pass = some ⟨k, n⟩ → s.evaluator.minute = some m →
    next = (if h : n.val + 1 < 96 then some ⟨k, ⟨n.val + 1, h⟩⟩ else none) →
    (∀ c, (s.record n).state = .armed → (s.record n).content = some c →
      (opens c m = true → ∃ t, Opens n c s t ∧ exec cmd s = .next { t with evaluator := { s.evaluator with pass := next } })
      ∧ (opens c m = false → c.kind = 0 → exec cmd s = .next { s with evaluator := { s.evaluator with pass := next } })
      ∧ (∀ b d w, opens c m = false → c.kind = 1 → c.day = .date b → dateOf b = some d → windowOn c d = some w →
        (m.index < w.2 → exec cmd s = .next { s with evaluator := { s.evaluator with pass := next } })
        ∧ (w.2 ≤ m.index → ∃ t, exec cmd s = .next t ∧ t = { s with
            records := upd s.records n { s.record n with state := .spent }
            notices := t.notices
            evaluator := { s.evaluator with pass := next } }
          ∧ (s.mainPower = true → t.notices = upd s.notices 1 ((s.notice .missedWindow).raised n.val)))))
    ∧ ((s.record n).state = .free ∨ (s.record n).state = .suspended ∨ (s.record n).state = .spent ∨ (s.record n).state = .quarantined →
      exec cmd s = .next { s with evaluator := { s.evaluator with pass := next } })

/-- R25, R55 to R58, R61, R84: what a visit of a boundary pass, or of a re-evaluation, makes of an OPEN record. Inside its window it is left as it is.
Outside, its claims are withdrawn, with the service of the waiting list (R90, R91), and its draft is applied; a content that is then DATED leaves it
SPENT, a WEEKLY one ARMED; and an ARMED one opens again at once when one of its windows, by the new content, begins at this minute (at a re-evaluation:
holds it), whether records wait or not. -/
def Obligations.ABoundaryClosesAnOpenRecord : Prop :=
  ∀ (s : State) (k : PassKind) (opens : Content → Moment → Bool) (cmd : Instr) (n : RecNo) (m : Moment) (next : Option Pass) (c : Content),
    (k = .boundary ∧ opens = startsAt ∧ cmd = .boundaryPass 1 ∨ k = .reevaluation ∧ opens = inside ∧ cmd = .reevaluationPass 1) →
    s.evaluator.pass = some ⟨k, n⟩ → s.evaluator.minute = some m →
    next = (if h : n.val + 1 < 96 then some ⟨k, ⟨n.val + 1, h⟩⟩ else none) →
    (s.record n).state = .opened → (s.record n).content = some c →
    (inside c m = true → exec cmd s = .next { s with evaluator := { s.evaluator with pass := next } })
    ∧ ∀ (e : Content) (r : Record), inside c m = false → s.waiting.Nodup → n ∉ s.waiting →
      r = (match (s.record n).draft with
        | none => s.record n
        | some d => Record.sealed { s.record n with content := some d, draft := none }) → r.content = some e →
      ∃ v w t, Leaves n s v
        ∧ w = { v with records := upd v.records n { r with state := if contentDated e then .spent else .armed } }
        ∧ exec cmd s = .next { t with evaluator := { s.evaluator with pass := next } }
        ∧ (contentDated e = true ∨ opens e m = false → t = w)
        ∧ (contentDated e = false → opens e m = true → Opens n e w t)
        ∧ (s.waiting = [] → w.waiting = [] ∧ (∀ j, j ≠ n → w.record j = s.record j)
          ∧ ∀ ch, w.claimList ch = (s.claimList ch).filter fun cl => cl.source != .record n)

/-- R25, R56, R57, R61, R89 to R91: what a visit of a boundary pass, or of a re-evaluation, makes of a WAITING record. Inside its window it keeps its
place. Outside, it leaves the list with MISSED_WINDOW, the records behind it close up, and when it was the head the list is served; its draft is
applied, and it is SPENT when its content is then DATED, else ARMED, and opens again as an OPEN record that closes does. -/
def Obligations.AMissedWindowLeavesTheWaitingList : Prop :=
  ∀ (s : State) (k : PassKind) (opens : Content → Moment → Bool) (cmd : Instr) (n : RecNo) (m : Moment) (next : Option Pass) (c : Content),
    (k = .boundary ∧ opens = startsAt ∧ cmd = .boundaryPass 1 ∨ k = .reevaluation ∧ opens = inside ∧ cmd = .reevaluationPass 1) →
    s.evaluator.pass = some ⟨k, n⟩ → s.evaluator.minute = some m →
    next = (if h : n.val + 1 < 96 then some ⟨k, ⟨n.val + 1, h⟩⟩ else none) →
    (s.record n).state = .waiting → (s.record n).content = some c →
    (inside c m = true → exec cmd s = .next { s with evaluator := { s.evaluator with pass := next } })
    ∧ ∀ (e : Content) (r : Record), inside c m = false → (s.waiting.Nodup ∨ s.waiting.head? ≠ some n) → s.mainPower = true →
      r = (match (s.record n).draft with
        | none => s.record n
        | some d => Record.sealed { s.record n with content := some d, draft := none }) → r.content = some e →
      ∃ v w t, Leaves n s v
        ∧ w = { v with
          records := upd v.records n { r with state := if contentDated e then .spent else .armed }
          notices := upd v.notices 1 ((s.notice .missedWindow).raised n.val) }
        ∧ exec cmd s = .next { t with evaluator := { s.evaluator with pass := next } }
        ∧ (contentDated e = true ∨ opens e m = false → t = w)
        ∧ (contentDated e = false → opens e m = true → Opens n e w t)
        ∧ (s.waiting = [n] → w.waiting = [] ∧ (∀ j, j ≠ n → w.record j = s.record j) ∧ w.claims = s.claims)
        ∧ (s.waiting.head? ≠ some n → w.waiting = (s.waiting.filter fun j => j != n) ∧ (∀ j, j ≠ n → w.record j = s.record j)
          ∧ w.claims = s.claims)

/-! ### Records -/

/-- R28 to R30, R68: the checks of RWRT in their order: a bad digit, a number of fields that is neither 11 nor 12, a line that no record number, content
and NOW of Table 2-3 write (RANGE). An accepted RWRT on a FREE, ARMED, SPENT or QUARANTINED record stores the content with its check code, makes the
record ARMED and makes the single-record evaluation; the answer is the state it leaves. -/
def Obligations.RwrtWritesAndEvaluates : Prop :=
  ∀ (s : State) (fields : List Text), lineTaken (text "RWRT") fields s = true →
    (BadDigits (some 2) (some 11) fields → exec (.rwrt fields) s = .next (refusedWith .badDigit s))
    ∧ (¬ BadDigits (some 2) (some 11) fields →
      (fields.length ≠ 11 → fields.length ≠ 12 → exec (.rwrt fields) s = .next (refusedWith .fieldCount s))
      ∧ (fields.length = 11 ∨ fields.length = 12 → (∀ n c now, ¬ RwrtLine fields n c now) →
        exec (.rwrt fields) s = .next (refusedWith .range s)))
    ∧ ∀ (n : RecNo) (c : Content) (now : Bool) (u : State), RwrtLine fields n c now → lockedRecord n s = false →
      ((s.record n).state = .free ∨ (s.record n).state = .armed ∨ (s.record n).state = .spent ∨ (s.record n).state = .quarantined) →
      u = (begun (text "RWRT") fields s).setRecord n
            (Record.sealed { s.record n with content := some c, draft := none, state := .armed }) →
      ∃ t, t = evaluateRecord n u ∧ Evaluated n u t
        ∧ exec (.rwrt fields) s = .next { t with port := answered s.port .ok [digit (t.record n).state.code] }
        ∧ ((s.calendar.state ≠ .running ∨ s.evaluator.minute = none) → (t.record n).state = .armed ∧ t.claims = s.claims)

/-- R29 to R32, R68: RWRT on a SUSPENDED record replaces its content; on an OPEN or WAITING one without NOW it stores the content as the draft, or is
refused with DRAFT_PRESENT, and nothing else changes; with NOW it takes the record out of its window, its claims withdrawn or its list place removed
and the list served, discards its draft, writes the content and evaluates the record anew. -/
def Obligations.RwrtReplacesStagesOrLeaves : Prop :=
  ∀ (s : State) (fields : List Text) (n : RecNo) (c : Content) (now : Bool),
    lineTaken (text "RWRT") fields s = true → RwrtLine fields n c now → lockedRecord n s = false →
    ((s.record n).state = .suspended → exec (.rwrt fields) s = .next { s with
        records := upd s.records n (Record.sealed { s.record n with content := some c, draft := none })
        freezeSeq := .idle
        port := answered s.port .ok [text "4"] })
    ∧ ((s.record n).state = .opened ∨ (s.record n).state = .waiting → now = false →
      ((s.record n).draft = none → exec (.rwrt fields) s = .next { s with
          records := upd s.records n (Record.sealed { s.record n with draft := some c })
          freezeSeq := .idle
          port := answered s.port .ok [digit (s.record n).state.code] })
      ∧ ((s.record n).draft ≠ none → exec (.rwrt fields) s = .next (refusedWith .draftPresent s)))
    ∧ ((s.record n).state = .opened ∨ (s.record n).state = .waiting → now = true → Listed n s →
      ∃ u w t, Leaves n (begun (text "RWRT") fields s) u
        ∧ w = { u with records := upd u.records n (Record.sealed { u.record n with content := some c, draft := none, state := .armed }) }
        ∧ t = evaluateRecord n w ∧ Evaluated n w t
        ∧ exec (.rwrt fields) s = .next { t with port := answered s.port .ok [digit (t.record n).state.code] })

/-- R43: under a freeze a protected record refuses the seven commands with FROZEN, whatever its state, and nothing changes. A
protection value of more than one digit in RPRT's line is taken as the number it writes by the model's choice (DESIGN CHOICE, log 40). -/
def Obligations.ProtectedRecordsAreFrozen : Prop :=
  ∀ (s : State) (n : RecNo) (f : Text), s.freezeMask ≠ 0 → (s.record n).prot = true → recordNumber f = some n →
    (lineTaken (text "RDRP") [f] s = true → exec (.rdrp [f]) s = .next (refusedWith .frozen s))
    ∧ (lineTaken (text "RSUS") [f] s = true → exec (.rsus [f]) s = .next (refusedWith .frozen s))
    ∧ (lineTaken (text "RRES") [f] s = true → exec (.rres [f]) s = .next (refusedWith .frozen s))
    ∧ (lineTaken (text "RFRE") [f] s = true → exec (.rfre [f]) s = .next (refusedWith .frozen s))
    ∧ (lineTaken (text "RCLR") [f] s = true → exec (.rclr [f]) s = .next (refusedWith .frozen s))
    ∧ (∀ v p, number 1 v = some p → lineTaken (text "RPRT") [f, v] s = true → exec (.rprt [f, v]) s = .next (refusedWith .frozen s))
    ∧ (∀ fields c now, RwrtLine fields n c now → lineTaken (text "RWRT") fields s = true → exec (.rwrt fields) s = .next (refusedWith .frozen s))

/-- R22, R34, R35, R158, R161: RGET answers "0" for a FREE record and the fields of Table 2-4 for a sound one, and changes nothing; one that fails its
check is quarantined first: an ARMED, SUSPENDED or SPENT one as it stands, an OPEN or WAITING one once its claims are withdrawn or its list place
removed, with the service that follows. A QUARANTINED record is reported with the content it stores, whatever it is. The days per week are the number
of weekdays of a WEEKLY content, and "-" for a DATED one whatever day it stores. -/
def Obligations.RgetChecksAndReports : Prop :=
  (∀ c : Content, (∀ set, c.kind = 0 → c.day = .days set →
      daysText c = digit ((List.range 7).filter fun k => set.getLsbD k).length) ∧ (c.kind = 1 → daysText c = text "-"))
  ∧ ∀ (s : State) (f : Text) (n : RecNo), lineTaken (text "RGET") [f] s = true → recordNumber f = some n →
    ((s.record n).state = .free → exec (.rget [f]) s = .next (reported [text "0"] s))
    ∧ (∀ c, (s.record n).state ≠ .free → (recordSound (s.record n) = true ∨ (s.record n).state = .quarantined) →
        (s.record n).content = some c → exec (.rget [f]) s = .next (reported
          (digit (s.record n).state.code :: contentText c
            ++ [flagText (s.record n).prot, decText 4 (s.record n).count.val, flagText (s.record n).wrap, daysText c]
            ++ (match (s.record n).draft with | none => [text "-"] | some d => contentText d)) s))
    ∧ (∀ c, ((s.record n).state = .armed ∨ (s.record n).state = .suspended ∨ (s.record n).state = .spent) →
        recordSound (s.record n) = false → (s.record n).content = some c →
        ∃ t, exec (.rget [f]) s = .next t
          ∧ t = { s with records := t.records, notices := t.notices, freezeSeq := .idle, port := t.port }
          ∧ t.record n = Record.sealed { s.record n with draft := none, state := .quarantined }
          ∧ (∀ j, j ≠ n → t.record j = s.record j)
          ∧ t.notices = upd s.notices 5 ((s.notice .recordFault).raised n.val)
          ∧ t.port = answered s.port .ok (text "6" :: contentText c
              ++ [flagText (s.record n).prot, decText 4 (s.record n).count.val, flagText (s.record n).wrap, daysText c, text "-"]))
    ∧ (∀ c, ((s.record n).state = .opened ∨ (s.record n).state = .waiting) → Listed n s →
        recordSound (s.record n) = false → (s.record n).content = some c →
        ∃ v, Leaves n (begun (text "RGET") [f] s) v ∧ exec (.rget [f]) s = .next { v with
          records := upd v.records n (Record.sealed { s.record n with draft := none, state := .quarantined })
          notices := upd v.notices 5 ((v.notice .recordFault).raised n.val)
          port := answered s.port .ok (text "6" :: contentText c
            ++ [flagText (s.record n).prot, decText 4 (s.record n).count.val, flagText (s.record n).wrap, daysText c, text "-"]) })

/-- R37, R84, R89 to R91: RSUS suspends an ARMED record; it takes an OPEN record's claims back and a WAITING record off the list, applies a draft, and
suspends it; the claims freed, or the head gone from the list, serve the records that wait. Any other state is refused with WRONG_STATE. -/
def Obligations.RsusSuspendsTheRecord : Prop :=
  ∀ (s : State) (f : Text) (n : RecNo), lineTaken (text "RSUS") [f] s = true → recordNumber f = some n → lockedRecord n s = false →
    ((s.record n).state = .armed → (s.record n).draft = none → exec (.rsus [f]) s = .next { s with
        records := upd s.records n { s.record n with state := .suspended }
        freezeSeq := .idle
        port := answered s.port .ok [text "4"] })
    ∧ ((s.record n).state = .opened →
      (s.waiting = [] → ∃ t, exec (.rsus [f]) s = .next t
        ∧ t.record n = { (s.record n).applyDraft with state := .suspended } ∧ (∀ j, j ≠ n → t.record j = s.record j)
        ∧ (∀ ch, t.claimList ch = (s.claimList ch).filter fun cl => cl.source != .record n) ∧ t.waiting = []
        ∧ t.port = answered s.port .ok [text "4"])
      ∧ (s.waiting.Nodup → n ∉ s.waiting → ∃ t v,
        Served { s with claims := tabulate fun ch => (s.claimList ch).filter fun cl => cl.source != .record n } v
        ∧ exec (.rsus [f]) s = .next t
        ∧ t.record n = { (s.record n).applyDraft with state := .suspended } ∧ (∀ j, j ≠ n → t.record j = v.record j)
        ∧ t.claims = v.claims ∧ t.waiting = v.waiting ∧ (∀ ch, (t.channel ch).present = demandOf t ch)
        ∧ t.port = answered s.port .ok [text "4"]))
    ∧ ((s.record n).state = .waiting →
      (s.waiting = [n] → ∃ t, exec (.rsus [f]) s = .next t
        ∧ t.record n = { (s.record n).applyDraft with state := .suspended } ∧ (∀ j, j ≠ n → t.record j = s.record j)
        ∧ t.claims = s.claims ∧ t.waiting = [] ∧ t.port = answered s.port .ok [text "4"])
      ∧ (s.waiting.head? ≠ some n → ∃ t, exec (.rsus [f]) s = .next t
        ∧ t.record n = { (s.record n).applyDraft with state := .suspended } ∧ (∀ j, j ≠ n → t.record j = s.record j)
        ∧ t.claims = s.claims ∧ t.waiting = (s.waiting.filter fun j => j != n) ∧ t.port = answered s.port .ok [text "4"])
      ∧ (∀ rest, s.waiting = n :: rest → s.waiting.Nodup → ∃ t v, Served { s with waiting := rest } v ∧ exec (.rsus [f]) s = .next t
        ∧ t.record n = { (s.record n).applyDraft with state := .suspended } ∧ (∀ j, j ≠ n → t.record j = v.record j)
        ∧ t.claims = v.claims ∧ t.waiting = v.waiting ∧ t.port = answered s.port .ok [text "4"]))
    ∧ ((s.record n).state = .free ∨ (s.record n).state = .suspended ∨ (s.record n).state = .spent ∨ (s.record n).state = .quarantined →
      exec (.rsus [f]) s = .next (refusedWith .wrongState s))

/-- R38, R40, R68, R84, R89 to R91: RRES makes a SUSPENDED record ARMED and evaluates it; RFRE returns a record to FREE with everything absent and the
count 0000, whatever state but FREE it was in, with its claims withdrawn when it was OPEN and its list place removed when it was WAITING, and the records
that wait served when entries were freed or the head left; any other state is refused with WRONG_STATE. -/
def Obligations.RresResumesAndRfreFrees : Prop :=
  ∀ (s : State) (f : Text) (n : RecNo), recordNumber f = some n → lockedRecord n s = false →
    (lineTaken (text "RRES") [f] s = true →
      ((s.record n).state ≠ .suspended → exec (.rres [f]) s = .next (refusedWith .wrongState s))
      ∧ ((s.record n).state = .suspended →
        (∃ u t, u = (begun (text "RRES") [f] s).setRecord n { s.record n with state := .armed } ∧ t = evaluateRecord n u ∧ Evaluated n u t
          ∧ exec (.rres [f]) s = .next { t with port := answered s.port .ok [digit (t.record n).state.code] })
        ∧ ((s.calendar.state ≠ .running ∨ s.evaluator.minute = none) → exec (.rres [f]) s = .next { s with
            records := upd s.records n { s.record n with state := .armed }
            freezeSeq := .idle
            port := answered s.port .ok [text "1"] })))
    ∧ (lineTaken (text "RFRE") [f] s = true →
      ((s.record n).state = .free → exec (.rfre [f]) s = .next (refusedWith .wrongState s))
      ∧ ((s.record n).state ≠ .free → ∃ t, exec (.rfre [f]) s = .next t ∧ t.record n = ⟨.free, none, none, false, 0, false, 0⟩
        ∧ t.port = answered s.port .ok [text "0"] ∧ t.calendar = s.calendar ∧ t.rules = s.rules ∧ t.channelConfigs = s.channelConfigs
        ∧ t.evaluator = s.evaluator ∧ t.freezeMask = s.freezeMask
        ∧ ((s.record n).state = .opened → s.waiting.Nodup → n ∉ s.waiting → ∃ v,
          Served { s with claims := tabulate fun ch => (s.claimList ch).filter fun cl => cl.source != .record n } v
          ∧ (∀ j, j ≠ n → t.record j = v.record j) ∧ t.claims = v.claims ∧ t.waiting = v.waiting
          ∧ (∀ ch, ∀ cl ∈ t.claimList ch, cl.source ≠ .record n) ∧ ∀ ch, (t.channel ch).present = demandOf t ch)
        ∧ ((s.record n).state = .waiting →
          (s.waiting.head? ≠ some n → (∀ j, j ≠ n → t.record j = s.record j) ∧ t.claims = s.claims
            ∧ t.waiting = s.waiting.filter fun j => j != n)
          ∧ (∀ rest, s.waiting = n :: rest → s.waiting.Nodup → ∃ v, Served { s with waiting := rest } v
            ∧ (∀ j, j ≠ n → t.record j = v.record j) ∧ t.claims = v.claims ∧ t.waiting = v.waiting)))
      ∧ ((s.record n).state = .armed ∨ (s.record n).state = .suspended ∨ (s.record n).state = .spent ∨ (s.record n).state = .quarantined →
        exec (.rfre [f]) s = .next { s with
          records := upd s.records n ⟨.free, none, none, false, 0, false, 0⟩
          freezeSeq := .idle
          port := answered s.port .ok [text "0"] }))

/-- R36, R41, R42: RDRP discards a draft and recomputes the check code, or is refused with WRONG_STATE; RCLR clears a record's count and wrap
flag, in every state; RPRT sets its protected flag and recomputes its check code, and is refused with WRONG_STATE for a FREE record. Nothing
else changes. That RPRT's value may have more than one digit is the model's choice (DESIGN CHOICE, log 40). -/
def Obligations.RdrpRclrRprtChangeTheirFields : Prop :=
  ∀ (s : State) (f : Text) (n : RecNo), recordNumber f = some n → lockedRecord n s = false →
    (lineTaken (text "RDRP") [f] s = true →
      ((s.record n).draft = none → exec (.rdrp [f]) s = .next (refusedWith .wrongState s))
      ∧ ((s.record n).draft ≠ none → exec (.rdrp [f]) s = .next { s with
          records := upd s.records n (Record.sealed { s.record n with draft := none })
          freezeSeq := .idle
          port := answered s.port .ok [digit (s.record n).state.code] }))
    ∧ (lineTaken (text "RCLR") [f] s = true → exec (.rclr [f]) s = .next { s with
        records := upd s.records n { s.record n with count := 0, wrap := false }
        freezeSeq := .idle
        port := answered s.port .ok [] })
    ∧ (∀ v p, number 1 v = some p → lineTaken (text "RPRT") [f, v] s = true →
      ((s.record n).state = .free → exec (.rprt [f, v]) s = .next (refusedWith .wrongState s))
      ∧ ((s.record n).state ≠ .free → exec (.rprt [f, v]) s = .next { s with
          records := upd s.records n (Record.sealed { s.record n with prot := (p == 1) })
          freezeSeq := .idle
          port := answered s.port .ok [] }))

/-- R44, R45, R70, R71, R98, R117, R119, R126, R147, R155: the queries answer from the part as it stands, field by field as their tables give the
response, and change nothing. RFND returns the matching records from the starting number on, 24 at most, and the next one or "-". RNXT's event is the
earliest of the span, that of the lowest-numbered record among those at one minute, with its date and time; it finds none when there is none. CLST
returns 12 claims at most from its position, in list order. GGET lists the wait set in grant order. The four digits of TRGT's hold are log 16's
(DEDUCED). That RFND's state code may have more than one digit is the model's choice (DESIGN CHOICE, log 40). -/
def Obligations.QueriesChangeNothing : Prop :=
  ∀ s : State,
    -- RFND (R44, R45)
    (∀ c st f ch code start found, orAny channelNumber c = some ch → orAny (number 6) st = some code → recordNumber f = some start →
      lineTaken (text "RFND") [c, st, f] s = true →
      found = ((List.finRange 96).filter fun n => decide (start ≤ n)
        && (ch.all fun k => ((s.record n).content.elim [] fun x => toChans x.channels).contains k)
        && (code.all fun j => [RecState.free, .armed, .opened, .waiting, .suspended, .spent, .quarantined][j]? == some (s.record n).state)) →
      exec (.rfnd [c, st, f]) s = .next (reported
        ((found.take 24).map (fun n => hexText 2 n.val) ++ [shownOr (fun n : RecNo => hexText 2 n.val) found[24]?]) s))
    -- RNXT (R70, R71)
    ∧ (∀ f ch, orAny channelNumber f = some ch → lineTaken (text "RNXT") [f] s = true →
      (s.calendar.state ≠ .running → exec (.rnxt [f]) s = .next (refusedWith .clockNotSet s))
      ∧ (s.calendar.state = .running → nextEvent s ch = none → exec (.rnxt [f]) s = .next (reported [text "-"] s))
      ∧ (∀ minute n isOpen d, s.calendar.state = .running → CalendarInv s → nextEvent s ch = some (minute, n, isOpen) →
        validDate d = true → dayIndex d = minute / 1440 →
        exec (.rnxt [f]) s = .next (reported
          [decText 2 d.day ++ (decText 2 d.month ++ decText 2 d.year), decText 2 (minute % 1440 / 60) ++ decText 2 (minute % 60),
            hexText 2 n.val, shownFlag isOpen] s)))
    ∧ (∀ ch : Option Chan, CalendarInv s →
      (∀ n c, (s.record n).state = .armed ∨ (s.record n).state = .opened ∨ (s.record n).state = .waiting → (s.record n).content = some c →
        contentInRange c = true) →
      (∀ minute n isOpen, nextEvent s ch = some (minute, n, isOpen) → PlannedEvent s ch n minute isOpen
        ∧ ∀ j other b, PlannedEvent s ch j other b → minute < other ∨ minute = other ∧ n ≤ j)
      ∧ (nextEvent s ch = none → ∀ j other b, ¬ PlannedEvent s ch j other b))
    -- CLST (R98)
    ∧ (∀ line f c pos, channelNumber f = some c → (line = [f] ∧ pos = 0 ∨ ∃ p, line = [f, p] ∧ twoDigits 0x2F p = some pos) →
      lineTaken (text "CLST") line s = true →
      exec (.clst line) s = .next (reported
        ([hexText 2 (demandOf s c).level.toNat, shownBlink (demandOf s c).blink, hexText 2 (freeCount s), hexText 2 s.waiting.length,
            hexText 2 (s.claimList c).length]
          ++ (((s.claimList c).drop pos).take 12).flatMap (fun cl =>
            [hexText 2 (match cl.source with | .record n => n.val | .input i => 0x60 + i.val | .port => 0x70),
              hexText 1 cl.priority.val, hexText 2 cl.level.toNat, shownBlink cl.blink, shownHold cl.hold])
          ++ [if pos + 12 < (s.claimList c).length then hexText 2 (pos + 12) else text "-"]) s))
    -- IGET (R119)
    ∧ (∀ f i k x, inputNumber f = some i → lineTaken (text "IGET") [f] s = true → k = s.inputConfig i → x = s.input i →
      exec (.iget [f]) s = .next (reported
        [match k.kind with | .off => text "0" | .push => text "1" | .level => text "2", shownFlag k.activeLow,
          shownOr (hexText 2) k.debounce, shownOr (hexText 2) k.long,
          match x.state with
            | .none => text "-" | .released => text "0" | .pressed => text "1" | .longHeld => text "2" | .stuck => text "3"
            | .inactive => text "0" | .active => text "1",
          shownOr (hexText 2) x.heldCount, shownOr shownFlag x.firstPending,
          if k.kind = .off then text "-" else shownFlag (nth s.inputPins i != k.activeLow)] s))
    -- TRGT (R117)
    ∧ (∀ f n, ruleNumber f = some n → lineTaken (text "TRGT") [f] s = true →
      ((s.rule n).state = .unused → exec (.trgt [f]) s = .next (reported [text "0"] s))
      ∧ (∀ r, (s.rule n).state ≠ .unused → (s.rule n).fields = some r → exec (.trgt [f]) s = .next (reported
        [if (s.rule n).state = .active then text "1" else text "2", hexText 1 r.input.toNat, hexText 1 r.event.toNat,
          hexText 1 r.action.toNat, shownList r.channels, hexText 1 r.priority.toNat, shownOr (fun l => hexText 2 l.toNat) r.level,
          shownBlink r.blink, shownHold r.hold] s)))
    -- CGET (R126)
    ∧ (∀ f c k x, channelNumber f = some c → lineTaken (text "CGET") [f] s = true → k = s.config c → x = s.channel c →
      exec (.cget [f]) s = .next (reported
        [match k.kind with | .switched => text "0" | .dimmed => text "1" | .pulsed => text "2", hexText 2 k.rest.toNat,
          hexText 1 k.drivePriority.val, shownFlag k.activeLow, hexText 2 k.pinA.val,
          if k.kind = .pulsed then shownOr (fun p : Pin => hexText 2 p.val) k.pinB else text "-", hexText 2 k.pulseLength.toNat,
          shownFlag (s.freezeMask.getLsbD c.val), if x.condition = .faulted then text "1" else text "0",
          if x.link = .waiting then text "1" else text "0",
          if k.kind = .pulsed then text "-" else match x.drive with | .inactive => text "0" | .active => text "1" | .generator => text "2",
          match x.pulse with
            | none => text "-" | some .unknown => text "0" | some .atOff => text "1" | some .atOn => text "2"
            | some (.pulsing on) => if on then text "3" else text "4",
          shownOr shownFlag x.pending,
          match x.link with | .none => text "-" | .waiting => text "-" | .holding g => hexText 1 g.val,
          decText 4 (s.switch c).count.val, shownFlag (s.switch c).wrap] s))
    -- GGET (R147, R155)
    ∧ (lineTaken (text "GGET") [] s = true → ∃ ws : List Chan,
      (∀ c, c ∈ ws ↔ (s.channel c).link = .waiting)
      ∧ ws.Pairwise (fun a b => (s.config b).drivePriority < (s.config a).drivePriority
          ∨ (s.config b).drivePriority = (s.config a).drivePriority ∧ a < b)
      ∧ exec (.gget []) s = .next (reported
        (hexText 4 s.dimFreq :: ((List.finRange 6).flatMap fun g => match s.generator g with
            | .free => [text "0", text "-", text "-", text "-", text "-", text "-"]
            | .busy r => [if r.releasing then text "2" else text "1", hexText 2 r.channel.val, hexText 2 r.active.duty.toNat,
                shownBlink r.active.blink, shownOr (fun p : Params => hexText 2 p.duty.toNat) r.staged, shownBlink (r.staged.bind Params.blink)])
          ++ hexText 2 ws.length :: ws.map fun c => hexText 2 c.val) s))

/-! ### Claims -/

/-- R77, R80 to R82, R93, R94: the checks of CSET in their order: a bad digit, a number of fields other than five, a line that no channels, priority, level,
blink and hold of R93 write (RANGE). A CSET needs an entry for each listed channel without a PORT claim; when the free count covers its need it creates or
replaces the PORT claim of every listed channel, each the newest of its priority, and answers the free count; else it is refused with POOL_FULL and nothing
changes. -/
def Obligations.CsetMakesPortClaims : Prop :=
  ∀ (s : State) (fields : List Text), lineTaken (text "CSET") fields s = true →
    (BadDigits (some 0) none fields → exec (.cset fields) s = .next (refusedWith .badDigit s))
    ∧ (¬ BadDigits (some 0) none fields →
      (fields.length ≠ 5 → exec (.cset fields) s = .next (refusedWith .fieldCount s))
      ∧ (fields.length = 5 → (∀ l p lv b h, ¬ CsetLine fields l p lv b h) → exec (.cset fields) s = .next (refusedWith .range s)))
    ∧ ∀ l p lv b h need, CsetLine fields l p lv b h →
      need = ((toChans l).filter fun c => (s.claimList c).all fun cl => cl.source != .port).length →
      (freeCount s < need → exec (.cset fields) s = .next (refusedWith .poolFull s))
      ∧ (need ≤ freeCount s → ∃ t, exec (.cset fields) s = .next t
        ∧ (∀ c ∈ toChans l, t.claimList c = insertClaim ⟨.port, p, lv, b, h⟩ ((s.claimList c).filter fun cl => cl.source != .port))
        ∧ (∀ c, c ∉ toChans l → t.claimList c = s.claimList c)
        ∧ (PoolInv s → freeCount t + need = freeCount s)
        ∧ (∀ c, (t.channel c).present = demandOf t c)
        ∧ t.port = answered s.port .ok [hexText 2 (freeCount t)] ∧ t.waiting = s.waiting ∧ t.records = s.records ∧ t.rules = s.rules
        ∧ t.calendar = s.calendar ∧ t.channelConfigs = s.channelConfigs ∧ t.freezeMask = s.freezeMask)

/-- R80, R97: a GSCL needs an entry for each channel of its masks without a PORT claim; one whose need fits gives the channels of its set mask a PORT
claim with level 255, those of its clear mask alone one with level 0, and leaves the other channels' lists; else it is refused with POOL_FULL. -/
def Obligations.GsclSetsAndClearsAGroup : Prop :=
  ∀ (s : State) (f g p h : Text) (setMask clearMask : BitVec 24) (prio : Fin 4) (hold : Option (BitVec 16)) (need : Nat),
    lineTaken (text "GSCL") [f, g, p, h] s = true → channelSetField f = some setMask → channelSetField g = some clearMask →
    priorityField p = some prio → holdField h = some hold →
    need = ((List.finRange 24).filter fun c =>
      (setMask.getLsbD c.val || clearMask.getLsbD c.val) && (s.claimList c).all fun cl => cl.source != .port).length →
    (freeCount s < need → exec (.gscl [f, g, p, h]) s = .next (refusedWith .poolFull s))
    ∧ (need ≤ freeCount s → ∃ t, exec (.gscl [f, g, p, h]) s = .next t
      ∧ (∀ c : Chan, setMask.getLsbD c.val = true → t.claimList c =
          insertClaim ⟨.port, prio, 255, none, hold⟩ ((s.claimList c).filter fun cl => cl.source != .port))
      ∧ (∀ c : Chan, setMask.getLsbD c.val = false → clearMask.getLsbD c.val = true → t.claimList c =
          insertClaim ⟨.port, prio, 0, none, hold⟩ ((s.claimList c).filter fun cl => cl.source != .port))
      ∧ (∀ c : Chan, setMask.getLsbD c.val = false → clearMask.getLsbD c.val = false → t.claimList c = s.claimList c)
      ∧ t.port = answered s.port .ok [hex2 (freeCount t)] ∧ t.waiting = s.waiting ∧ t.records = s.records)

/-- R85, R91, R95: CREL removes the PORT claims of its channels at its priority, or at any, and answers how many it removed and the free count left; with
nobody waiting the lists lose just those claims. When it removed none, no claim, list or record changes; when it removed one, the records that wait are
served with the entries freed, and the answer counts what is left after that. -/
def Obligations.CrelRemovesPortClaims : Prop :=
  ∀ (s : State) (f g : Text) (m : BitVec 24) (prio : Option (Fin 4)) (u : State),
    lineTaken (text "CREL") [f, g] s = true → channelSetField f = some m → orAny priorityField g = some prio →
    u = { s with claims := tabulate fun c =>
      if m.getLsbD c.val then (s.claimList c).filter fun cl => !(cl.source == .port && prio.elim true fun p => cl.priority == p)
      else s.claimList c } →
    ∃ t, exec (.crel [f, g]) s = .next t
      ∧ t.port = answered s.port .ok [hex2 (matchingClaims (chansOf m) (portClaimAt prio) s), hex2 (freeCount t)]
      ∧ t.calendar = s.calendar ∧ t.rules = s.rules ∧ t.channelConfigs = s.channelConfigs ∧ t.freezeMask = s.freezeMask
      ∧ (s.waiting = [] → t.records = s.records ∧ t.waiting = []
        ∧ ∀ c : Chan, t.claimList c =
          if m.getLsbD c.val then (s.claimList c).filter fun cl => !(cl.source == .port && prio.elim true fun p => cl.priority == p)
          else s.claimList c)
      ∧ (claimTotal u = claimTotal s → t.records = s.records ∧ t.waiting = s.waiting ∧ t.claims = s.claims ∧ t.channels = s.channels)
      ∧ (claimTotal u ≠ claimTotal s → s.waiting.Nodup → Served u t ∧ ∀ c, (t.channel c).present = demandOf t c)

/-- R86, R91: taking a second tick, the arbiter decrements every hold and removes the claims whose hold reaches 0; with nobody waiting nothing else of the
lists changes, and with records waiting the entries freed serve them. A tick not yet taken is what HOLD_EXPIRY takes (log 5). While the oscillator is not
STEADY holds stand still, and no HOLD_EXPIRY comes (log 3). -/
def Obligations.HoldsCountDownAndExpire : Prop :=
  ∀ s u : State,
    u = { s with holdsDue := s.holdsDue - 1, claims := tabulate fun c => (s.claimList c).filterMap Claim.afterTick } →
    (s.holdsDue = 0 ∨ s.calendar.osc ≠ .steady → exec .holdExpiry s = .next s)
    ∧ (s.holdsDue ≠ 0 → s.calendar.osc = .steady → ∃ t, exec .holdExpiry s = .next t ∧ t.holdsDue + 1 = s.holdsDue
      ∧ t.calendar = s.calendar ∧ t.port = s.port
      ∧ (s.waiting = [] → (∀ c, t.claimList c = (s.claimList c).filterMap fun cl =>
          match cl.hold with
          | none => some cl
          | some h => if h.toNat ≤ 1 then none else some { cl with hold := some (h - 1) })
        ∧ t.waiting = [] ∧ t.records = s.records)
      ∧ (claimTotal u = claimTotal s → t = u)
      ∧ (claimTotal u ≠ claimTotal s → s.waiting.Nodup → Served u t ∧ ∀ c, (t.channel c).present = demandOf t c))

/-! ### Inputs -/

/-- R104, R118: the checks of ICFG in their order: a bad digit, a number of fields other than five, a line that no input and configuration of R118 write
(RANGE). An accepted ICFG stores the configuration and sets the idle state: the debounced level not asserted, the first-sample flag taken, and a pin
found asserted timed as a fresh press or assertion. That "-" is a bad digit but in the debounce time and the long threshold is log 15's (DEDUCED). -/
def Obligations.IcfgSetsTheIdleState : Prop :=
  ∀ (s : State) (fields : List Text) (bad : Prop), lineTaken (text "ICFG") fields s = true →
    bad = (∃ i f b, fields[i]? = some f ∧ ¬ (f = text "-" ∧ (i = 3 ∨ i = 4)) ∧ b ∈ f ∧ isHex b = false) →
    (bad → exec (.icfg fields) s = .next (refusedWith .badDigit s))
    ∧ (¬ bad →
      (fields.length ≠ 5 → exec (.icfg fields) s = .next (refusedWith .fieldCount s))
      ∧ (fields.length = 5 → (∀ i k, ¬ IcfgLine fields i k) → exec (.icfg fields) s = .next (refusedWith .range s)))
    ∧ ∀ (i : InputNo) (k : InputConfig) (x : Input), IcfgLine fields i k →
      (k.kind = .off ∧ x = ⟨.none, none, none, none, none, none⟩
        ∨ k.kind = .push ∧ x = ⟨.released, none, none, some false, some false,
            if nth s.inputPins i != k.activeLow then k.debounce.map fun ms => ⟨true, ms⟩ else none⟩
        ∨ k.kind = .level ∧ x = ⟨.inactive, none, none, some false, some false,
            if nth s.inputPins i != k.activeLow then k.debounce.map fun ms => ⟨true, ms⟩ else none⟩) →
      exec (.icfg fields) s = .next { s with
        inputConfigs := upd s.inputConfigs i k
        inputs := upd s.inputs i x
        freezeSeq := .idle
        port := answered s.port .ok [] }

/-- R116, R157: the checks of TRWR in their order: a bad digit, a line of neither nine fields nor two with "-" second (FIELD_COUNT), a line that no rule
number and fields of R116 write (RANGE). An accepted TRWR stores the rule's fields with their check code and makes it ACTIVE, or clears it; no claim and
nothing else changes. -/
def Obligations.TrwrWritesTheRule : Prop :=
  ∀ (s : State) (fields : List Text), lineTaken (text "TRWR") fields s = true →
    (BadDigits (some 4) none fields → exec (.trwr fields) s = .next (refusedWith .badDigit s))
    ∧ (¬ BadDigits (some 4) none fields →
      (fields.length ≠ 9 → (∀ f, fields ≠ [f, text "-"]) → exec (.trwr fields) s = .next (refusedWith .fieldCount s))
      ∧ ((fields.length = 9 ∨ ∃ f, fields = [f, text "-"]) → (∀ n r, ¬ TrwrLine fields n r) →
        exec (.trwr fields) s = .next (refusedWith .range s)))
    ∧ ∀ (n : RuleNo) (r : Option RuleFields), TrwrLine fields n r → exec (.trwr fields) s = .next { s with
        rules := upd s.rules n (match r with
          | none => ⟨.unused, none, 0⟩
          | some x => ⟨.active, some x, ruleCodeOf x⟩)
        freezeSeq := .idle
        port := answered s.port .ok [] }

/-- R104: when the pin of a PUSH or LEVEL input comes to differ from the debounced level, a debounce interval starts; when it comes back, the interval is
discarded. An OFF input changes nothing more than its pin; a pin that is at that level already changes nothing (DEDUCED, log 3). -/
def Obligations.PinChangesStartTheDebouncer : Prop :=
  ∀ (s : State) (i : InputNo) (high : Bool),
    (nth s.inputPins i = high → exec (.inputPinChange i high) s = .next s)
    ∧ (nth s.inputPins i ≠ high → s.mainPower = true →
      ((s.inputConfig i).kind = .off → ∃ t, exec (.inputPinChange i high) s = .next t ∧ t = { s with inputPins := upd s.inputPins i high })
      ∧ (∀ lv, (s.inputConfig i).kind ≠ .off → lv = (high != (s.inputConfig i).activeLow) →
        exec (.inputPinChange i high) s = .next { s with
          inputPins := upd s.inputPins i high
          inputs := upd s.inputs i { s.input i with
            interval := if (s.input i).debounced = some lv then none else (s.inputConfig i).debounce.map fun ms => ⟨lv, ms⟩ } }))

/-- R105 to R109: what a taken change does to the state machine of its input, and the event it produces. -/
def Obligations.ChangesMoveTheInput : Prop :=
  ∀ (s : State) (i : InputNo) (x : Input) (ms : Nat), x = s.input i → x.firstPending = some false →
    (x.interval = some ⟨true, ms⟩ → x.state = .released → exec (.changeTaken i) s = .next (s.setInput i { x with
        state := .pressed, pressTime := some s.msTime, heldCount := some 0, debounced := some true, interval := none }))
    ∧ (x.interval = some ⟨false, ms⟩ → x.state = .pressed → exec (.changeTaken i) s = .next { s with
        inputs := upd s.inputs i { x with
          state := .released, pressTime := none, heldCount := none, debounced := some false, interval := none }
        events := s.events ++ [⟨i, .short⟩] })
    ∧ (x.interval = some ⟨false, ms⟩ → x.state = .longHeld → exec (.changeTaken i) s = .next { s with
        inputs := upd s.inputs i { x with
          state := .released, pressTime := none, heldCount := none, debounced := some false, interval := none }
        events := s.events ++ [⟨i, .longRelease⟩] })
    ∧ (x.interval = some ⟨false, ms⟩ → x.state = .stuck → exec (.changeTaken i) s = .next (s.setInput i { x with
        state := .released, pressTime := none, heldCount := none, debounced := some false, interval := none }))
    ∧ (x.interval = some ⟨true, ms⟩ → x.state = .inactive → exec (.changeTaken i) s = .next { s with
        inputs := upd s.inputs i { x with state := .active, debounced := some true, interval := none }
        events := s.events ++ [⟨i, .activate⟩] })
    ∧ (x.interval = some ⟨false, ms⟩ → x.state = .active → exec (.changeTaken i) s = .next { s with
        inputs := upd s.inputs i { x with state := .inactive, debounced := some false, interval := none }
        events := s.events ++ [⟨i, .deactivate⟩] })

/-- R120: the first sample after a main reset: STUCK with INPUT_STUCK for a PUSH input found asserted, ACTIVE with an ACTIVATE event for a LEVEL input found
active, no event else. -/
def Obligations.FirstSamplesSetTheInput : Prop :=
  ∀ (s : State) (i : InputNo) (lv : Bool) (ms : Nat), (s.input i).firstPending = some true → (s.input i).interval = some ⟨lv, ms⟩ →
    ((s.inputConfig i).kind = .push → ∃ t, exec (.changeTaken i) s = .next t
      ∧ t = { s with inputs := t.inputs, notices := t.notices }
      ∧ t.input i = { s.input i with
          state := if lv then .stuck else .released, firstPending := some false, debounced := some lv, interval := none }
      ∧ (lv = false → t.notices = s.notices)
      ∧ (lv = true → s.mainPower = true → t.notices = upd s.notices 8 ((s.notice .inputStuck).raised i.val)))
    ∧ ((s.inputConfig i).kind = .level → exec (.changeTaken i) s = .next { s with
        inputs := upd s.inputs i { s.input i with
          state := if lv then .active else .inactive, firstPending := some false, debounced := some lv, interval := none }
        events := s.events ++ (if lv then [⟨i, .activate⟩] else []) })

/-- R106, R108: the long threshold makes a PRESSED input LONG_HELD with a LONG event, and in any other state changes nothing (DEDUCED, log 3); a second tick
counts every PRESSED and LONG_HELD input, and the 120th makes it STUCK with INPUT_STUCK and no event. A tick not yet taken is what INPUT_STUCK takes
(log 5), the inputs from 0 to 7 (DESIGN CHOICE, log 37). While the oscillator is not STEADY the counts stand still, and no INPUT_STUCK comes (log 3). -/
def Obligations.HeldInputsBecomeLongAndStuck : Prop :=
  ∀ s : State,
    (∀ i, (s.input i).state = .pressed → exec (.thresholdReached i) s = .next { s with
      inputs := upd s.inputs i { s.input i with state := .longHeld, pressTime := none }
      events := s.events ++ [⟨i, .long⟩] })
    ∧ (∀ i, (s.input i).state ≠ .pressed → exec (.thresholdReached i) s = .next s)
    ∧ (s.heldDue = 0 ∨ s.calendar.osc ≠ .steady → exec .inputStuck s = .next s)
    ∧ (s.heldDue ≠ 0 → s.calendar.osc = .steady → ∃ t, exec .inputStuck s = .next t ∧ t.heldDue + 1 = s.heldDue
      ∧ t = { s with inputs := t.inputs, notices := t.notices, heldDue := t.heldDue }
      ∧ (∀ i, t.input i =
          if (s.input i).state = .pressed ∨ (s.input i).state = .longHeld then
            if 120 ≤ (s.input i).heldCount.getD 0 + 1 then { s.input i with state := .stuck, pressTime := none, heldCount := none }
            else { s.input i with heldCount := some ((s.input i).heldCount.getD 0 + 1) }
          else s.input i)
      ∧ (s.mainPower = true → t.notices = upd s.notices 8 ((s.notice .inputStuck).raisedFor ((stuckAtTick s).map Fin.val))))

/-- R110, R112, R163: with no event being applied, the oldest event of the input is taken, and the visit begins at rule 0; it passes over a rule that
does not match, and faults a matching rule whose check fails, with RULE_FAULT, without applying it; and goes on to the next rule number, or ends the
event after rule 15. k + 1 steps are one step and then k steps of the event that goes on, none when it has ended; and 32 steps, at most two for each
rule, end any event (the steps are log 7's). -/
def Obligations.AnEventVisitsTheRules : Prop :=
  ∀ (s : State) (i : InputNo) (e : InputEvent) (a : Applying) (next : Option Applying),
    next = (if h : a.next.val + 1 < 16 then some ⟨a.event, ⟨a.next.val + 1, h⟩, none⟩ else none) →
    (s.applying = none → s.events.find? (fun x => x.input == i) = some e →
      exec (.inputEvent i 0) s = .next { s with events := s.events.erase e, applying := some ⟨e, 0, none⟩ }
      ∧ ∀ k, exec (.inputEvent i k) s = exec (.inputEvent i k) { s with events := s.events.erase e, applying := some ⟨e, 0, none⟩ })
    ∧ (s.applying = some a → a.toggle = none →
      (ruleMatches (s.rule a.next) a.event = false → exec (.inputEvent i 1) s = .next { s with applying := next })
      ∧ (ruleMatches (s.rule a.next) a.event = true → ruleSound (s.rule a.next) = false → s.mainPower = true →
        exec (.inputEvent i 1) s = .next { s with
          rules := upd s.rules a.next { s.rule a.next with state := .faulted }
          notices := upd s.notices 6 ((s.notice .ruleFault).raised a.next.val)
          applying := next }))
    ∧ (s.applying = some a → ∀ k, ∃ t u, exec (.inputEvent i 1) s = .next t ∧ exec (.inputEvent i (k + 1)) s = .next u
      ∧ (t.applying ≠ none → exec (.inputEvent i k) t = .next u) ∧ (t.applying = none → u = t))
    ∧ ∃ t, exec (.inputEvent i 32) s = .next t ∧ t.applying = none

/-- R77, R81, R82, R112 to R114: a matching sound ASSERT rule, and the request of a TOGGLE after its reading, make one request with source INPUT i: when
the free count covers its need, every channel of the rule has the claim with the rule's priority, blink and hold and the action's level, the newest of
its priority, in place of one the input had there; when it does not, nothing changes and POOL_SHORT is raised with the rule number. The visit goes on
in either case. A TOGGLE's reading decides level 0 when the first channel's demand is above 0, else the rule's level. -/
def Obligations.RulesMakeTheirRequests : Prop :=
  ∀ (s : State) (i : InputNo) (a : Applying) (f : RuleFields) (lv : BitVec 8) (next : Option Applying), s.applying = some a →
    next = (if h : a.next.val + 1 < 16 then some ⟨a.event, ⟨a.next.val + 1, h⟩, none⟩ else none) →
    (a.toggle = none → ruleMatches (s.rule a.next) a.event = true → ruleSound (s.rule a.next) = true →
      (s.rule a.next).fields = some f → f.action = 0 → f.level = some lv →
        ∃ t, RuleRequests a.next a.event.input f lv s t ∧ exec (.inputEvent i 1) s = .next { t with applying := next })
    ∧ (∀ c rest, a.toggle = none → ruleMatches (s.rule a.next) a.event = true → ruleSound (s.rule a.next) = true →
      (s.rule a.next).fields = some f → f.action = 1 → f.level = some lv → toChans f.channels = c :: rest →
        exec (.inputEvent i 1) s = .next { s with
          applying := some { a with toggle := some ⟨a.next, f, if (demandOf s c).level = 0 then lv else 0⟩ } })
    ∧ (∀ g, a.toggle = some ⟨a.next, f, g⟩ →
        ∃ t, RuleRequests a.next a.event.input f g s t ∧ exec (.inputEvent i 1) s = .next { t with applying := next })

/-- R85, R91, R115: a matching sound RELEASE rule removes from its channels every claim of any input at or below its priority; with nobody waiting the lists
lose just those claims, and with records waiting the entries freed serve them. No POOL_SHORT is raised for a RELEASE, and one that removes nothing changes
no list, record or notice. -/
def Obligations.AReleaseRuleClearsInputClaims : Prop :=
  ∀ (s : State) (i : InputNo) (a : Applying) (f : RuleFields) (u : State) (next : Option Applying), s.applying = some a → a.toggle = none →
    next = (if h : a.next.val + 1 < 16 then some ⟨a.event, ⟨a.next.val + 1, h⟩, none⟩ else none) →
    ruleMatches (s.rule a.next) a.event = true → ruleSound (s.rule a.next) = true → (s.rule a.next).fields = some f → f.action = 2 →
    u = { s with claims := tabulate fun c =>
      if c ∈ toChans f.channels then
        (s.claimList c).filter fun cl => !(match cl.source with
          | .input _ => decide (cl.priority.val ≤ f.priority.toNat)
          | .record _ => false
          | .port => false)
      else s.claimList c } →
    ∃ t, exec (.inputEvent i 1) s = .next t ∧ t.applying = next ∧ t.rules = s.rules
      ∧ t.notice .poolShort = s.notice .poolShort
      ∧ (s.waiting = [] → t.records = s.records ∧ t.waiting = [] ∧ t.claims = u.claims)
      ∧ (claimTotal u = claimTotal s → t = { s with applying := next })
      ∧ (claimTotal u ≠ claimTotal s → s.waiting.Nodup → Served u t ∧ ∀ c, (t.channel c).present = demandOf t c)

/-! ### Channels and generators -/

/-- R127 to R133, R136, R146, R149, R151, R152, R167: the demands for which a channel needs a generator, and the parameters it hands over (Table 6-3); and
what a channel makes of a demand published to it, said of a CSET of priority 3 on that one channel, whose level and blink become its demand. A rise from
level 0 counts, and rolls over from 9999 with SWITCH_WRAP. A FAULTED channel takes the demand and drives nothing. A NORMAL one drives a steady level, and
leaves the wait set or starts a release when it has a place or a generator there; or it takes the lowest FREE generator, waits with GEN_SHORT at its
degraded level, stages new parameters, which ends a release, or goes on waiting. A PULSED one starts a pulse, or sets or clears its pending target. -/
def Obligations.DemandsThatNeedAGenerator : Prop :=
  (∀ (lv : BitVec 8) (b : Option Blink),
    needs .switched ⟨lv, b⟩ = (if lv = 0 then none else b.map fun x => ⟨255, some x⟩)
    ∧ needs .dimmed ⟨lv, b⟩ = (if lv = 0 ∨ (lv = 255 ∧ b = none) then none else some ⟨lv, b⟩)
    ∧ needs .pulsed ⟨lv, b⟩ = none)
  ∧ ∀ (s : State) (fields : List Text) (n : BitVec 8) (hold : Option (BitVec 16)) (c : Chan) (d : Demand) (k : ChannelConfig) (x y : Channel)
      (steady waits : Channel),
    lineTaken (text "CSET") fields s = true → CsetLine fields [n] 3 d.level d.blink hold → n.toNat = c.val →
    ((∀ cl ∈ s.claimList c, cl.source ≠ .port) → freeCount s ≠ 0) →
    (∀ e, (s.channel e).present = demandOf s e) → (s.channel c).present ≠ d →
    k = s.config c → x = s.channel c → y = { x with present := d } →
    steady = { y with
      drive := if d.level = 0 then .inactive else .active
      feedback := x.feedback.steadyAt ((d.level != 0) != k.activeLow) } →
    waits = { y with
      link := .waiting
      drive := if k.kind = .switched ∨ 128 ≤ d.level.toNat then .active else .inactive
      feedback := x.feedback.steadyAt (decide (k.kind = .switched ∨ 128 ≤ d.level.toNat) != k.activeLow) } →
    ∃ t, exec (.cset fields) s = .next t
      ∧ (∀ e, e ≠ c → t.channel e = s.channel e ∧ t.switch e = s.switch e)
      ∧ (∀ j, j ≠ .switchWrap → j ≠ .genShort → t.notice j = s.notice j)
      -- the switch counter (R136)
      ∧ (x.condition = .normal ∧ k.kind ≠ .pulsed ∧ x.present.level = 0 ∧ d.level ≠ 0 →
        ((s.switch c).count ≠ 9999 → t.switch c = { s.switch c with count := (s.switch c).count + 1 }
          ∧ t.notice .switchWrap = s.notice .switchWrap)
        ∧ ((s.switch c).count = 9999 → t.switch c = ⟨0, true⟩ ∧ t.notice .switchWrap = (s.notice .switchWrap).raised c.val))
      ∧ (¬ (x.condition = .normal ∧ k.kind ≠ .pulsed ∧ x.present.level = 0 ∧ d.level ≠ 0) →
        t.switch c = s.switch c ∧ t.notice .switchWrap = s.notice .switchWrap)
      -- the drive and the generators
      ∧ (x.condition = .faulted → t.channel c = y ∧ t.generators = s.generators ∧ t.notice .genShort = s.notice .genShort)
      ∧ (x.condition = .normal → k.kind ≠ .pulsed → needs k.kind d = none → t.notice .genShort = s.notice .genShort
        ∧ (x.link = .none → t.channel c = steady ∧ t.generators = s.generators)
        ∧ (x.link = .waiting → t.channel c = { steady with link := .none } ∧ t.generators = s.generators)
        ∧ (∀ g r, x.link = .holding g → s.generator g = .busy r → t.channel c = y
          ∧ t.generators = upd s.generators g (.busy { r with releasing := true, staged := none })))
      ∧ (∀ p, x.condition = .normal → k.kind ≠ .pulsed → needs k.kind d = some p →
        (∀ g, x.link = .none → (∀ j : GenNo, j < g → s.generator j ≠ .free) → s.generator g = .free →
          t.channel c = { y with link := .holding g, drive := .generator, feedback := .unsupervised }
          ∧ t.generators = upd s.generators g (.busy ⟨false, c, p, none, 0, p.blink.map fun _ => 0⟩)
          ∧ t.notice .genShort = s.notice .genShort)
        ∧ (x.link = .none → (∀ g, s.generator g ≠ .free) → t.channel c = waits ∧ t.generators = s.generators
          ∧ t.notice .genShort = (s.notice .genShort).raised c.val)
        ∧ (x.link = .waiting → t.channel c = waits ∧ t.generators = s.generators ∧ t.notice .genShort = s.notice .genShort)
        ∧ (∀ g r, x.link = .holding g → s.generator g = .busy r → t.channel c = y
          ∧ t.generators = upd s.generators g (.busy { r with releasing := false, staged := some p })
          ∧ t.notice .genShort = s.notice .genShort))
      ∧ (∀ z, x.condition = .normal → k.kind = .pulsed →
        z = { y with pulse := some (.pulsing (d.level != 0)), pending := none, pulseTimer := some (k.pulseLength.toNat * 10), pulseCounts := true } →
        t.generators = s.generators ∧ t.notice .genShort = s.notice .genShort
        ∧ (x.pulse = some .unknown → t.channel c = z)
        ∧ (x.pulse = some .atOff → t.channel c = if d.level = 0 then y else z)
        ∧ (x.pulse = some .atOn → t.channel c = if d.level = 0 then z else y)
        ∧ (∀ on, x.pulse = some (.pulsing on) → t.channel c =
            { y with pending := if (d.level != 0) = on then none else some (d.level != 0) }))

/-- R124, R125, R136, R139, R146, R148, R153, R164: the checks of CCFG in their order: a bad digit, a number of fields other than eight, a line that
no channel and configuration of R124 write (RANGE), a frozen channel (FROZEN), a pin that belongs to another channel (PIN_IN_USE). An accepted one
stores the configuration, leaves every other configuration, every claim and every record. A generator the channel holds is returned and granted to the
first waiter; the switch counter is kept but for a demand that the new rest level raises from 0. A NORMAL SWITCHED or DIMMED channel then derives its
drive, once, with one GEN_SHORT at most (DEDUCED, log 32): steadily, by the lowest FREE generator, or waiting with GEN_SHORT at its degraded level;
its feedback follows the levels commanded on pin A, and stays at a level that was commanded before even when pin A is another pin (DEDUCED, log 23). A
fault of the channel left due is dropped (DESIGN CHOICE, log 35). A NORMAL PULSED one starts a pulse that does not count; a FAULTED one stays FAULTED
with its pins inactive and its pulse state UNKNOWN when it is PULSED, else absent. -/
def Obligations.CcfgWritesTheConfiguration : Prop :=
  ∀ (s : State) (fields : List Text), lineTaken (text "CCFG") fields s = true →
    (BadDigits none none fields → exec (.ccfg fields) s = .next (refusedWith .badDigit s))
    ∧ (¬ BadDigits none none fields →
      (fields.length ≠ 8 → exec (.ccfg fields) s = .next (refusedWith .fieldCount s))
      ∧ (fields.length = 8 → (∀ c k, ¬ CcfgLine (s.config c).pulseLength fields c k) → exec (.ccfg fields) s = .next (refusedWith .range s)))
    ∧ ∀ (c : Chan) (k : ChannelConfig), CcfgLine (s.config c).pulseLength fields c k →
      (s.frozen c = true → exec (.ccfg fields) s = .next (refusedWith .frozen s))
      ∧ (s.frozen c = false → pinInUse s c k = true → exec (.ccfg fields) s = .next (refusedWith .pinInUse s))
      ∧ (s.frozen c = false → pinInUse s c k = false → ∃ t, exec (.ccfg fields) s = .next t
        ∧ t.config c = k ∧ (∀ d, d ≠ c → t.config d = s.config d) ∧ t.claims = s.claims ∧ t.records = s.records ∧ t.waiting = s.waiting
        ∧ t.port = answered s.port .ok [] ∧ t.calendar = s.calendar ∧ t.freezeMask = s.freezeMask
        ∧ (∀ e, nth t.faultsDue e = if e = c then false else nth s.faultsDue e)
        ∧ (t.channel c).condition = (s.channel c).condition ∧ (t.channel c).present = demandOf t c
        ∧ ((s.channel c).condition = .faulted → (t.channel c).drive = .inactive ∧ (t.channel c).link = .none
          ∧ (t.channel c).feedback = .unsupervised ∧ (t.channel c).pulse = if k.kind = .pulsed then some .unknown else none)
        ∧ ((s.channel c).condition = .normal → k.kind = .pulsed →
          (t.channel c).pulse = some (.pulsing (t.channel c).present.on) ∧ (t.channel c).pulseCounts = false)
        -- the switch counters (R136)
        ∧ (∀ e, e ≠ c → t.switch e = s.switch e)
        ∧ ((s.channel c).condition = .normal ∧ k.kind ≠ .pulsed ∧ (s.channel c).present.level = 0 ∧ (demandOf t c).level ≠ 0 →
          ((s.switch c).count ≠ 9999 → t.switch c = { s.switch c with count := (s.switch c).count + 1 })
          ∧ ((s.switch c).count = 9999 → t.switch c = ⟨0, true⟩ ∧ t.notice .switchWrap = (s.notice .switchWrap).raised c.val))
        ∧ (¬ ((s.channel c).condition = .normal ∧ k.kind ≠ .pulsed ∧ (s.channel c).present.level = 0 ∧ (demandOf t c).level ≠ 0) →
          t.switch c = s.switch c)
        -- the generator returned (R125, R148, R153)
        ∧ ∀ gs : Vector Generator 6,
          ((s.channel c).link = .none ∧ gs = s.generators
            ∨ (s.channel c).link = .waiting ∧ gs = s.generators
            ∨ (∃ g, (s.channel c).link = .holding g ∧ waiters s = [] ∧ gs = upd s.generators g .free)
            ∨ ∃ g w others p, (s.channel c).link = .holding g ∧ waiters s = w :: others
              ∧ needs (s.config w).kind (s.channel w).present = some p
              ∧ gs = upd s.generators g (.busy ⟨false, w, p, none, 0, p.blink.map fun _ => 0⟩)) →
          (∀ g w others, (s.channel c).link = .holding g → waiters s = w :: others →
            needs (s.config w).kind (s.channel w).present ≠ none → t.channel w =
              { s.channel w with link := .holding g, drive := .generator, feedback := .unsupervised })
          ∧ (∀ e, e ≠ c → ((s.channel c).link = .none ∨ (s.channel c).link = .waiting ∨ (waiters s).head? ≠ some e) →
            t.channel e = s.channel e)
          ∧ ((s.channel c).condition = .faulted ∨ k.kind = .pulsed → t.generators = gs ∧ t.notice .genShort = s.notice .genShort)
          -- the drive derived (R125, R128 to R130, R146, R164)
          ∧ ∀ x y : Channel, x = s.channel c → y = t.channel c → x.condition = .normal → k.kind ≠ .pulsed →
            y.pulse = none
            ∧ (needs k.kind y.present = none → y.link = .none ∧ y.drive = (if y.present.level = 0 then .inactive else .active)
              ∧ y.feedback = (x.feedback.steadyAt k.activeLow).steadyAt ((y.present.level != 0) != k.activeLow)
              ∧ t.generators = gs ∧ t.notice .genShort = s.notice .genShort)
            ∧ (∀ p, needs k.kind y.present = some p →
              (∀ g, (∀ j : GenNo, j < g → nth gs j ≠ .free) → nth gs g = .free →
                y.link = .holding g ∧ y.drive = .generator ∧ y.feedback = .unsupervised
                ∧ t.generators = upd gs g (.busy ⟨false, c, p, none, 0, p.blink.map fun _ => 0⟩)
                ∧ t.notice .genShort = s.notice .genShort)
              ∧ ((∀ g, nth gs g ≠ .free) → y.link = .waiting
                ∧ y.drive = (if k.kind = .switched ∨ 128 ≤ y.present.level.toNat then .active else .inactive)
                ∧ y.feedback = (x.feedback.steadyAt k.activeLow).steadyAt
                    (decide (k.kind = .switched ∨ 128 ≤ y.present.level.toNat) != k.activeLow)
                ∧ t.generators = gs ∧ t.notice .genShort = (s.notice .genShort).raised c.val)))

/-- R137: CCLR sets a channel's switch counter to 0000 and clears its wrap flag, or is refused with FROZEN, or with RANGE for a channel above 17, and for
one not written with two digits (DEDUCED, log 14); nothing else changes. -/
def Obligations.CclrClearsTheCounter : Prop :=
  ∀ (s : State) (fields : List Text), lineTaken (text "CCLR") fields s = true → (∀ f ∈ fields, ∀ b ∈ f, isHex b = true) →
    (fields.length ≠ 1 → exec (.cclr fields) s = .next (refusedWith .fieldCount s))
    ∧ ∀ f, fields = [f] →
      (channelNumber f = none → exec (.cclr fields) s = .next (refusedWith .range s))
      ∧ ∀ c, channelNumber f = some c →
        (s.frozen c = true → exec (.cclr fields) s = .next (refusedWith .frozen s))
        ∧ (s.frozen c = false → exec (.cclr fields) s = .next { s with
            switches := upd s.switches c ⟨0, false⟩
            freezeSeq := .idle
            port := answered s.port .ok [] })

/-- R138, R139: the three lines of a freeze sequence; a FRZK that is not the next step is refused with SEQUENCE_ERROR and ends the sequence. -/
def Obligations.FreezeTakesThreeLines : Prop :=
  ∀ (s : State) (f g : Text) (key : Nat) (m : BitVec 24), lineTaken (text "FRZK") [f, g] s = true → number 255 f = some key →
    channelSetField g = some m → m ≠ 0 →
    (s.freezeSeq = .idle → key = 0x5A → exec (.frzk [f, g]) s = .next { s with
        freezeSeq := .one m, port := answered s.port .ok [text "1"] })
    ∧ (s.freezeSeq = .one m → key = 0xA5 → exec (.frzk [f, g]) s = .next { s with
        freezeSeq := .two m, port := answered s.port .ok [text "2"] })
    ∧ (s.freezeSeq = .two m → key = 0x5A → exec (.frzk [f, g]) s = .next { s with
        freezeMask := s.freezeMask ||| m
        freezeSeq := .idle
        port := answered s.port .ok [text "3", hexText 6 (s.freezeMask ||| m).toNat] })
    ∧ (¬ (s.freezeSeq = .idle ∧ key = 0x5A) → ¬ (s.freezeSeq = .one m ∧ key = 0xA5) → ¬ (s.freezeSeq = .two m ∧ key = 0x5A) →
      exec (.frzk [f, g]) s = .next (refusedWith .sequenceError s))

/-- R145: DFRQ sets the dimming frequency when every generator is FREE, and is refused with BUSY else; values outside 100 to 1000 are refused with RANGE. -/
def Obligations.DfrqSetsTheFrequency : Prop :=
  ∀ (s : State) (fields : List Text), lineTaken (text "DFRQ") fields s = true → (∀ f ∈ fields, ∀ b ∈ f, isHex b = true) →
    (fields.length ≠ 1 → exec (.dfrq fields) s = .next (refusedWith .fieldCount s))
    ∧ ∀ f, fields = [f] →
      (rangeField 100 1000 f = none → exec (.dfrq fields) s = .next (refusedWith .range s))
      ∧ ∀ n, rangeField 100 1000 f = some n →
        ((∃ g, s.generator g ≠ .free) → exec (.dfrq fields) s = .next (refusedWith .busy s))
        ∧ ((∀ g, s.generator g = .free) → exec (.dfrq fields) s = .next { s with
            dimFreq := n
            freezeSeq := .idle
            port := answered s.port .ok [] })

/-- R130, R146, R168: CFLT is refused with WRONG_STATE for a NORMAL channel; a FAULTED one becomes NORMAL and derives its drive from its present demand:
steadily and settling, by a generator, waiting with GEN_SHORT at its degraded level, or by a pulse that does not count. -/
def Obligations.CfltRestoresTheChannel : Prop :=
  ∀ (s : State) (f : Text) (c : Chan) (x : Channel), lineTaken (text "CFLT") [f] s = true → channelNumber f = some c → x = s.channel c →
    (x.condition = .normal → exec (.cflt [f]) s = .next (refusedWith .wrongState s))
    ∧ (x.condition = .faulted → x.link = .none → x.feedback = .unsupervised →
      ((s.config c).kind ≠ .pulsed → needs (s.config c).kind x.present = none → exec (.cflt [f]) s = .next { s with
          channels := upd s.channels c { x with
            condition := .normal
            drive := if x.present.level = 0 then .inactive else .active
            feedback := .settling ((x.present.level != 0) != (s.config c).activeLow) 20 }
          freezeSeq := .idle
          port := answered s.port .ok [] })
      ∧ (∀ p g, (s.config c).kind ≠ .pulsed → needs (s.config c).kind x.present = some p →
          (∀ j : GenNo, j < g → s.generator j ≠ .free) → s.generator g = .free → exec (.cflt [f]) s = .next { s with
          channels := upd s.channels c { x with condition := .normal, link := .holding g, drive := .generator }
          generators := upd s.generators g (.busy ⟨false, c, p, none, 0, p.blink.map fun _ => 0⟩)
          freezeSeq := .idle
          port := answered s.port .ok [] })
      ∧ (∀ on, (s.config c).kind ≠ .pulsed → needs (s.config c).kind x.present ≠ none → (∀ g, s.generator g ≠ .free) →
          on = decide ((s.config c).kind = .switched ∨ 128 ≤ x.present.level.toNat) → exec (.cflt [f]) s = .next { s with
          channels := upd s.channels c { x with
            condition := .normal
            link := .waiting
            drive := if on then .active else .inactive
            feedback := .settling (on != (s.config c).activeLow) 20 }
          notices := upd s.notices 4 ((s.notice .genShort).raised c.val)
          freezeSeq := .idle
          port := answered s.port .ok [] })
      ∧ ((s.config c).kind = .pulsed → x.pulse = some .unknown → exec (.cflt [f]) s = .next { s with
          channels := upd s.channels c { x with
            condition := .normal
            pulse := some (.pulsing (x.present.level != 0))
            pending := none
            pulseTimer := some ((s.config c).pulseLength.toNat * 10)
            pulseCounts := false }
          freezeSeq := .idle
          port := answered s.port .ok [] }))

/-- R134, R136: a pulse that completes leaves the channel where it went, counts when it was to ON and may count, rolling over from 9999 with SWITCH_WRAP, and
gives way to a pulse to its pending target; a channel that runs no pulse has nothing to complete (log 3). -/
def Obligations.PulsesCompleteAndCount : Prop :=
  ∀ (s : State) (c : Chan) (x : Channel), x = s.channel c →
    (∀ y, y = { x with pending := none, pulseTimer := none, pulseCounts := false } →
      (x.pulse = some (.pulsing false) → x.pending = none →
        exec (.pulseCompletion c) s = .next (s.setChannel c { y with pulse := some .atOff }))
      ∧ (x.pulse = some (.pulsing true) → x.pending = none → x.pulseCounts = false →
        exec (.pulseCompletion c) s = .next (s.setChannel c { y with pulse := some .atOn }))
      ∧ (x.pulse = some (.pulsing true) → x.pending = none → x.pulseCounts = true → (s.switch c).count ≠ 9999 →
        exec (.pulseCompletion c) s = .next { s with
          channels := upd s.channels c { y with pulse := some .atOn }
          switches := upd s.switches c { s.switch c with count := (s.switch c).count + 1 } })
      ∧ (x.pulse = some (.pulsing true) → x.pending = none → x.pulseCounts = true → (s.switch c).count = 9999 → s.mainPower = true →
        exec (.pulseCompletion c) s = .next { s with
          channels := upd s.channels c { y with pulse := some .atOn }
          switches := upd s.switches c ⟨0, true⟩
          notices := upd s.notices 11 ((s.notice .switchWrap).raised c.val) })
      ∧ (x.pulse = some (.pulsing true) → x.pending = some false → x.pulseCounts = false →
        exec (.pulseCompletion c) s = .next (s.setChannel c { y with
          pulse := some (.pulsing false), pulseTimer := some ((s.config c).pulseLength.toNat * 10), pulseCounts := true }))
      ∧ (x.pulse = some (.pulsing true) → x.pending = some false → x.pulseCounts = true → (s.switch c).count ≠ 9999 →
        exec (.pulseCompletion c) s = .next { s with
          channels := upd s.channels c { y with
            pulse := some (.pulsing false), pulseTimer := some ((s.config c).pulseLength.toNat * 10), pulseCounts := true }
          switches := upd s.switches c { s.switch c with count := (s.switch c).count + 1 } })
      ∧ (x.pulse = some (.pulsing true) → x.pending = some false → x.pulseCounts = true → (s.switch c).count = 9999 → s.mainPower = true →
        exec (.pulseCompletion c) s = .next { s with
          channels := upd s.channels c { y with
            pulse := some (.pulsing false), pulseTimer := some ((s.config c).pulseLength.toNat * 10), pulseCounts := true }
          switches := upd s.switches c ⟨0, true⟩
          notices := upd s.notices 11 ((s.notice .switchWrap).raised c.val) })
      ∧ (x.pulse = some (.pulsing false) → x.pending = some true → exec (.pulseCompletion c) s = .next (s.setChannel c { y with
          pulse := some (.pulsing true), pulseTimer := some ((s.config c).pulseLength.toNat * 10), pulseCounts := true })))
    ∧ ((∀ b, x.pulse ≠ some (.pulsing b)) → exec (.pulseCompletion c) s = .next s)

/-- R150, R151, R147: at the end of its current period a RUNNING generator takes up its staged parameters, or begins the period again; a RELEASING one
becomes FREE, its channel takes its steady level, and with nobody waiting it stays FREE; else it starts for the first waiter. A FREE generator has no
period to end (DEDUCED, log 3). -/
def Obligations.PeriodEndsTakeUpOrRelease : Prop :=
  ∀ (s : State) (g : GenNo) (r : GenRun),
    (s.generator g = .free → exec (.periodEnd g) s = .next s)
    ∧ (∀ p, s.generator g = .busy r → r.releasing = false → p = r.staged.getD r.active →
      exec (.periodEnd g) s = .next (s.setGenerator g
        (.busy { r with active := p, staged := none, pwmPhase := 0, envPhase := p.blink.map fun _ => 0 })))
    ∧ (s.generator g = .busy r → r.releasing = true → (s.channel r.channel).link = .holding g → ∃ t, exec (.periodEnd g) s = .next t
      ∧ (t.channel r.channel).link = .none
      ∧ (t.channel r.channel).drive = (if (s.channel r.channel).present.level = 0 then .inactive else .active)
      ∧ t.claims = s.claims ∧ t.records = s.records ∧ t.channelConfigs = s.channelConfigs
      ∧ (waiters s = [] → t.generator g = .free ∧ ∀ d, d ≠ r.channel → t.channel d = s.channel d)
      ∧ (∀ w rest p, waiters s = w :: rest → needs (s.config w).kind (s.channel w).present = some p →
          t.generator g = .busy ⟨false, w, p, none, 0, p.blink.map fun _ => 0⟩ ∧ (t.channel w).link = .holding g
            ∧ (t.channel w).drive = .generator))

/-- R148, R153, R154, R165, R166: at the end of the settle timer a pin that follows its command is WATCHED; one that does not faults its channel, with
OUTPUT_FAULT; its demand and its claims stand. The channel gives up what it has at the pool: a place in the wait set without a grant, a generator
that goes at once to the first waiter or is FREE. The fault is taken with the comparison, or is left due and taken by the command that comes again,
after what has come between: so a fault found while its channel waited returns the generator that a grant taken first has given it, or one that is
RELEASING before the release ends. That a fault can be left so is the model's choice (DESIGN CHOICE, log 35). -/
def Obligations.SettleComparisonsWatchOrFault : Prop :=
  ∀ (s : State) (c : Chan) (readback : Bool),
    (∀ high ms late, nth s.faultsDue c = false → (s.channel c).feedback = .settling high ms → readback = high →
      exec (.settleTimerEnd c ⟨readback, late⟩) s = .next (s.setChannel c { s.channel c with feedback := .watched high }))
    ∧ (∀ high ms, nth s.faultsDue c = false → (s.channel c).feedback = .settling high ms → readback ≠ high →
      exec (.settleTimerEnd c ⟨readback, true⟩) s = .next { s with faultsDue := upd s.faultsDue c true })
    ∧ (nth s.faultsDue c = true → exec (.settleTimerEnd c ⟨readback, true⟩) s = .next s)
    ∧ (nth s.faultsDue c = true ∨ (∃ high ms, (s.channel c).feedback = .settling high ms ∧ readback ≠ high) →
      ∃ t, exec (.settleTimerEnd c ⟨readback, false⟩) s = .next t
        ∧ (t.channel c).condition = .faulted ∧ (t.channel c).drive = .inactive ∧ (t.channel c).feedback = .unsupervised
        ∧ (t.channel c).link = .none ∧ (t.channel c).present = (s.channel c).present ∧ t.claims = s.claims ∧ t.records = s.records
        ∧ t.waiting = s.waiting ∧ nth t.faultsDue c = false
        ∧ (s.mainPower = true → t.notices = upd s.notices 7 ((s.notice .outputFault).raised c.val))
        ∧ ((∀ g, (s.channel c).link ≠ .holding g) → t.generators = s.generators ∧ ∀ e, e ≠ c → t.channel e = s.channel e)
        ∧ (∀ g, (s.channel c).link = .holding g →
          (waiters s = [] → t.generators = upd s.generators g .free)
          ∧ ∀ w others p, waiters s = w :: others → needs (s.config w).kind (s.channel w).present = some p →
            t.generators = upd s.generators g (.busy ⟨false, w, p, none, 0, p.blink.map fun _ => 0⟩)
            ∧ t.channel w = { s.channel w with link := .holding g, drive := .generator, feedback := .unsupervised }))

/-! ### Command port and notices -/

/-- R170 to R174, R182: what a byte written to the port does in each port state; at the end of the gap timer in ACCEPTING the partial line is dropped, with no
other effect in the part. A byte written while a main reset is re-initialising the port is discarded; how many transfers meet it so is free
(log 21). That the carriage return clears the overlength mark of the line it ends is log 36's choice (DESIGN CHOICE). -/
def Obligations.WrittenBytesReachTheLine : Prop :=
  ∀ (s : State) (b : Byte),
    exec (.portWrite false b) s = .next s
    ∧ (s.port.state = .accepting → s.port.gapTimer ≠ none → exec .gapTimerEnd s = .next { s with
        port := { s.port with line := [], overlength := false, dropped := true, gapTimer := none } })
    ∧ (∀ k, s.mainPower = true → s.port.reinit = k + 1 → exec (.portWrite true b) s = .next { s with port := { s.port with reinit := k } })
    ∧ (s.mainPower = true → s.port.reinit = 0 →
      (s.port.state = .executing → exec (.portWrite true b) s = .next { s with port := { s.port with overrun := true } })
      ∧ (s.port.state = .answering → exec (.portWrite true b) s =
          exec (.portWrite true b) { s with port := { s.port with state := .accepting, response := [], readPos := 0 } })
      ∧ (s.port.state = .accepting → b ≠ cr → b ≠ lf →
        (s.port.line.length < 79 → exec (.portWrite true b) s = .next { s with
            port := { s.port with line := s.port.line ++ [b], gapTimer := some 250 } })
        ∧ (79 ≤ s.port.line.length → exec (.portWrite true b) s = .next { s with
            port := { s.port with overlength := true, gapTimer := some 250 } }))
      ∧ (s.port.state = .accepting → exec (.portWrite true lf) s = .next
          (if s.port.line = [] ∧ s.port.overlength = false then s else { s with port := { s.port with gapTimer := some 250 } }))
      ∧ (s.port.state = .accepting → exec (.portWrite true cr) s = .next { s with port := { s.port with
            state := .executing, line := [], overlength := false, gapTimer := none,
            taken := some ⟨s.port.line, s.port.overlength, s.port.overrun⟩ } }))

/-- R170, R174, R176, R182: a read returns the next response character in ANSWERING, the last one ending the answer, and the port status byte else, which clears
the overrun and dropped flags. While a main reset is re-initialising the port a read returns a status byte with the executing bit set; its other bits are
those of the part after the reset (log 21). -/
def Obligations.ReadsReturnAnswersOrStatus : Prop :=
  ∀ s : State,
    exec (.portRead false) s = .next s
    ∧ (∀ k, s.mainPower = true → s.port.reinit = k + 1 → ∃ v : Byte,
      exec (.portRead true) s = .next { s with port := { s.port with reinit := k, busOut := some v } }
      ∧ v.getLsbD 0 = true ∧ ∀ j : Nat, j ≠ 0 → v.getLsbD j = (statusByte s).getLsbD j)
    ∧ (s.mainPower = true → s.port.reinit = 0 →
      (s.port.state ≠ .answering → exec (.portRead true) s = .next { s with
          port := { s.port with overrun := false, dropped := false, busOut := some (statusByte s) } })
      ∧ (∀ b, s.port.state = .answering → s.port.response[s.port.readPos]? = some b →
        (s.port.readPos + 1 < s.port.response.length → exec (.portRead true) s = .next { s with
            port := { s.port with readPos := s.port.readPos + 1, busOut := some b } })
        ∧ (s.port.readPos + 1 = s.port.response.length → exec (.portRead true) s = .next { s with
            port := { s.port with state := .accepting, response := [], readPos := 0, busOut := some b } })))

/-- R175, R181: the bits of the port status byte; the attention bit shows whether an unmasked kind has a count above 0. -/
def Obligations.StatusByteBits : Prop :=
  ∀ s : State,
    (statusByte s).getLsbD 7 = true ∧ (statusByte s).getLsbD 6 = false ∧ (statusByte s).getLsbD 1 = false
    ∧ ((statusByte s).getLsbD 5 = true ↔ s.port.line ≠ [] ∨ s.port.overlength = true)
    ∧ ((statusByte s).getLsbD 4 = true ↔ ∃ k : Fin 12, s.mask.getLsbD k.val = true ∧ (nth s.notices k).count ≠ 0)
    ∧ (statusByte s).getLsbD 3 = s.port.dropped ∧ (statusByte s).getLsbD 2 = s.port.overrun
    ∧ ((statusByte s).getLsbD 0 = true ↔ s.port.state = .executing)

/-- R178: a line of digits whose number of fields its command does not take is refused with FIELD_COUNT and changes nothing but a freeze sequence. -/
def Obligations.WrongFieldCountsAreRefused : Prop :=
  ∀ (s : State) (fields : List Text) (v : Nat) (e : Text × Instr × List Nat),
    e ∈ [(text "TSET", .tset fields, [2]), (text "TADJ", .tadj fields, [2]), (text "TGET", .tget fields, [0]),
      (text "RWRT", .rwrt fields, [11, 12]), (text "RGET", .rget fields, [1]), (text "RDRP", .rdrp fields, [1]),
      (text "RSUS", .rsus fields, [1]), (text "RRES", .rres fields, [1]), (text "RFRE", .rfre fields, [1]),
      (text "RCLR", .rclr fields, [1]), (text "RPRT", .rprt fields, [2]), (text "RFND", .rfnd fields, [3]),
      (text "RNXT", .rnxt fields, [1]), (text "CSET", .cset fields, [5]), (text "CREL", .crel fields, [2]),
      (text "GSCL", .gscl fields, [4]), (text "CLST", .clst fields, [1, 2]), (text "ICFG", .icfg fields, [5]),
      (text "IGET", .iget fields, [1]), (text "TRWR", .trwr fields, [9]), (text "TRGT", .trgt fields, [1]),
      (text "CCFG", .ccfg fields, [8]), (text "CGET", .cget fields, [1]), (text "CCLR", .cclr fields, [1]),
      (text "FRZK", .frzk fields, [2]), (text "DFRQ", .dfrq fields, [1]), (text "GGET", .gget fields, [0]),
      (text "CFLT", .cflt fields, [1]), (text "NGET", .nget fields, [0]), (text "NMSK", .nmsk fields, [1]),
      (text "RSTR", .rstr fields v, [0])] →
    lineTaken e.1 fields s = true → (∀ f ∈ fields, ∀ b ∈ f, isHex b = true) → fields.length ∉ e.2.2 →
    exec e.2.1 s = .next (refusedWith .fieldCount s)

/-- R171, R178: a line whose first word is no command word is answered UNKNOWN_COMMAND, and one that was too long LINE_TOO_LONG; neither changes
anything but a freeze sequence. -/
def Obligations.LinesThatAreNoCommand : Prop :=
  ∀ (s : State) (line : Text), s.mainPower = true → Text.plain line = true →
    (line.length ≤ 79 → portReady line s.port = true → (splitLine line).1 ∉ commandWords →
      exec (.unknownCommand line) s = .next (refusedWith .unknownCommand s))
    ∧ (79 < line.length →
      (s.port.state ≠ .executing → s.port.line = [] → s.port.overlength = false → s.port.reinit = 0 →
        exec (.lineTooLong line) s = .next (refusedWith .lineTooLong s))
      ∧ (∀ mark, s.port.state = .executing → s.port.gapTimer = none → s.port.reinit = 0 → s.port.taken = some ⟨line.take 79, true, mark⟩ →
        exec (.lineTooLong line) s = .next (refusedWith .lineTooLong s)))

/-- R180, R181: NGET returns every entry with a count above 0 in ascending kind code, "-" when there is none, and clears every entry; NMSK replaces the
attention mask with a value of one to three digits, and "-" and a value above FFF are refused with RANGE; a value up to FFF written with four or more
digits is refused with RANGE too (DEDUCED, log 14). -/
def Obligations.NgetAndNmskWorkOnTheNotices : Prop :=
  ∀ s : State,
    (lineTaken (text "NGET") [] s = true → exec (.nget []) s = .next { s with
      notices := Vector.replicate 12 ⟨0, none⟩
      freezeSeq := .idle
      port := answered s.port .ok (if ∀ k, (nth s.notices k).count = 0 then [text "-"]
        else ((List.finRange 12).filter fun k => (nth s.notices k).count != 0).flatMap fun k =>
          [hex2 k.val, hex2 (nth s.notices k).count.toNat, hex2 ((nth s.notices k).first.getD 0)]) })
    ∧ ∀ f, lineTaken (text "NMSK") [f] s = true →
      (∀ m, maskField f = some m → exec (.nmsk [f]) s = .next { s with
          mask := m
          freezeSeq := .idle
          port := answered s.port .ok [] })
      ∧ (f = text "-" → exec (.nmsk [f]) s = .next (refusedWith .range s))
      ∧ ((∀ b ∈ f, isHex b = true) → maskField f = none → exec (.nmsk [f]) s = .next (refusedWith .range s))

end
end

