-- ==== Sys2Proof/Laws/State.lean ====
section
/-!
SUPPORT. What each update of the state leaves in each field: one lemma per field and update, true by unfolding, so that no later proof opens a
record update.
-/

namespace Sys2Proof.Machine.State

/-! ### setRecord -/

@[simp] theorem setRecord_calendar (s : State) (n : RecNo) (x : Record) : (s.setRecord n x).calendar = s.calendar := rfl
@[simp] theorem setRecord_records (s : State) (n : RecNo) (x : Record) : (s.setRecord n x).records = upd s.records n x := rfl
@[simp] theorem setRecord_rules (s : State) (n : RecNo) (x : Record) : (s.setRecord n x).rules = s.rules := rfl
@[simp] theorem setRecord_inputConfigs (s : State) (n : RecNo) (x : Record) : (s.setRecord n x).inputConfigs = s.inputConfigs := rfl
@[simp] theorem setRecord_channelConfigs (s : State) (n : RecNo) (x : Record) : (s.setRecord n x).channelConfigs = s.channelConfigs := rfl
@[simp] theorem setRecord_switches (s : State) (n : RecNo) (x : Record) : (s.setRecord n x).switches = s.switches := rfl
@[simp] theorem setRecord_dimFreq (s : State) (n : RecNo) (x : Record) : (s.setRecord n x).dimFreq = s.dimFreq := rfl
@[simp] theorem setRecord_mainPower (s : State) (n : RecNo) (x : Record) : (s.setRecord n x).mainPower = s.mainPower := rfl
@[simp] theorem setRecord_inputPins (s : State) (n : RecNo) (x : Record) : (s.setRecord n x).inputPins = s.inputPins := rfl
@[simp] theorem setRecord_evaluator (s : State) (n : RecNo) (x : Record) : (s.setRecord n x).evaluator = s.evaluator := rfl
@[simp] theorem setRecord_claims (s : State) (n : RecNo) (x : Record) : (s.setRecord n x).claims = s.claims := rfl
@[simp] theorem setRecord_waiting (s : State) (n : RecNo) (x : Record) : (s.setRecord n x).waiting = s.waiting := rfl
@[simp] theorem setRecord_holdsDue (s : State) (n : RecNo) (x : Record) : (s.setRecord n x).holdsDue = s.holdsDue := rfl
@[simp] theorem setRecord_inputs (s : State) (n : RecNo) (x : Record) : (s.setRecord n x).inputs = s.inputs := rfl
@[simp] theorem setRecord_events (s : State) (n : RecNo) (x : Record) : (s.setRecord n x).events = s.events := rfl
@[simp] theorem setRecord_applying (s : State) (n : RecNo) (x : Record) : (s.setRecord n x).applying = s.applying := rfl
@[simp] theorem setRecord_heldDue (s : State) (n : RecNo) (x : Record) : (s.setRecord n x).heldDue = s.heldDue := rfl
@[simp] theorem setRecord_channels (s : State) (n : RecNo) (x : Record) : (s.setRecord n x).channels = s.channels := rfl
@[simp] theorem setRecord_freezeMask (s : State) (n : RecNo) (x : Record) : (s.setRecord n x).freezeMask = s.freezeMask := rfl
@[simp] theorem setRecord_freezeSeq (s : State) (n : RecNo) (x : Record) : (s.setRecord n x).freezeSeq = s.freezeSeq := rfl
@[simp] theorem setRecord_generators (s : State) (n : RecNo) (x : Record) : (s.setRecord n x).generators = s.generators := rfl
@[simp] theorem setRecord_scrub (s : State) (n : RecNo) (x : Record) : (s.setRecord n x).scrub = s.scrub := rfl
@[simp] theorem setRecord_scrubDue (s : State) (n : RecNo) (x : Record) : (s.setRecord n x).scrubDue = s.scrubDue := rfl
@[simp] theorem setRecord_compareDue (s : State) (n : RecNo) (x : Record) : (s.setRecord n x).compareDue = s.compareDue := rfl
@[simp] theorem setRecord_faultsDue (s : State) (n : RecNo) (x : Record) : (s.setRecord n x).faultsDue = s.faultsDue := rfl
@[simp] theorem setRecord_port (s : State) (n : RecNo) (x : Record) : (s.setRecord n x).port = s.port := rfl
@[simp] theorem setRecord_notices (s : State) (n : RecNo) (x : Record) : (s.setRecord n x).notices = s.notices := rfl
@[simp] theorem setRecord_mask (s : State) (n : RecNo) (x : Record) : (s.setRecord n x).mask = s.mask := rfl
@[simp] theorem setRecord_msTime (s : State) (n : RecNo) (x : Record) : (s.setRecord n x).msTime = s.msTime := rfl
@[simp] theorem setRecord_publishOrders (s : State) (n : RecNo) (x : Record) : (s.setRecord n x).publishOrders = s.publishOrders := rfl
@[simp] theorem setRecord_reinits (s : State) (n : RecNo) (x : Record) : (s.setRecord n x).reinits = s.reinits := rfl
@[simp] theorem setRecord_micros (s : State) (n : RecNo) (x : Record) : (s.setRecord n x).micros = s.micros := rfl
@[simp] theorem setRecord_pending (s : State) (n : RecNo) (x : Record) : (s.setRecord n x).pending = s.pending := rfl

@[simp] theorem setRecord_record_same (s : State) (n : RecNo) (x : Record) : (s.setRecord n x).record n = x := nth_upd_same _ _ _
@[simp] theorem setRecord_record_other (s : State) {n j : RecNo} (x : Record) (h : j ≠ n) :
    (s.setRecord n x).record j = s.record j := nth_upd_other _ _ h
@[simp] theorem setRecord_rule (s : State) (n : RecNo) (x : Record) (j : RuleNo) : (s.setRecord n x).rule j = s.rule j := rfl
@[simp] theorem setRecord_inputConfig (s : State) (n : RecNo) (x : Record) (j : InputNo) : (s.setRecord n x).inputConfig j = s.inputConfig j := rfl
@[simp] theorem setRecord_input (s : State) (n : RecNo) (x : Record) (j : InputNo) : (s.setRecord n x).input j = s.input j := rfl
@[simp] theorem setRecord_config (s : State) (n : RecNo) (x : Record) (j : Chan) : (s.setRecord n x).config j = s.config j := rfl
@[simp] theorem setRecord_channel (s : State) (n : RecNo) (x : Record) (j : Chan) : (s.setRecord n x).channel j = s.channel j := rfl
@[simp] theorem setRecord_generator (s : State) (n : RecNo) (x : Record) (j : GenNo) : (s.setRecord n x).generator j = s.generator j := rfl
@[simp] theorem setRecord_switch (s : State) (n : RecNo) (x : Record) (j : Chan) : (s.setRecord n x).switch j = s.switch j := rfl
@[simp] theorem setRecord_claimList (s : State) (n : RecNo) (x : Record) (j : Chan) : (s.setRecord n x).claimList j = s.claimList j := rfl

/-! ### setRule -/

@[simp] theorem setRule_calendar (s : State) (n : RuleNo) (x : Rule) : (s.setRule n x).calendar = s.calendar := rfl
@[simp] theorem setRule_records (s : State) (n : RuleNo) (x : Rule) : (s.setRule n x).records = s.records := rfl
@[simp] theorem setRule_rules (s : State) (n : RuleNo) (x : Rule) : (s.setRule n x).rules = upd s.rules n x := rfl
@[simp] theorem setRule_inputConfigs (s : State) (n : RuleNo) (x : Rule) : (s.setRule n x).inputConfigs = s.inputConfigs := rfl
@[simp] theorem setRule_channelConfigs (s : State) (n : RuleNo) (x : Rule) : (s.setRule n x).channelConfigs = s.channelConfigs := rfl
@[simp] theorem setRule_switches (s : State) (n : RuleNo) (x : Rule) : (s.setRule n x).switches = s.switches := rfl
@[simp] theorem setRule_dimFreq (s : State) (n : RuleNo) (x : Rule) : (s.setRule n x).dimFreq = s.dimFreq := rfl
@[simp] theorem setRule_mainPower (s : State) (n : RuleNo) (x : Rule) : (s.setRule n x).mainPower = s.mainPower := rfl
@[simp] theorem setRule_inputPins (s : State) (n : RuleNo) (x : Rule) : (s.setRule n x).inputPins = s.inputPins := rfl
@[simp] theorem setRule_evaluator (s : State) (n : RuleNo) (x : Rule) : (s.setRule n x).evaluator = s.evaluator := rfl
@[simp] theorem setRule_claims (s : State) (n : RuleNo) (x : Rule) : (s.setRule n x).claims = s.claims := rfl
@[simp] theorem setRule_waiting (s : State) (n : RuleNo) (x : Rule) : (s.setRule n x).waiting = s.waiting := rfl
@[simp] theorem setRule_holdsDue (s : State) (n : RuleNo) (x : Rule) : (s.setRule n x).holdsDue = s.holdsDue := rfl
@[simp] theorem setRule_inputs (s : State) (n : RuleNo) (x : Rule) : (s.setRule n x).inputs = s.inputs := rfl
@[simp] theorem setRule_events (s : State) (n : RuleNo) (x : Rule) : (s.setRule n x).events = s.events := rfl
@[simp] theorem setRule_applying (s : State) (n : RuleNo) (x : Rule) : (s.setRule n x).applying = s.applying := rfl
@[simp] theorem setRule_heldDue (s : State) (n : RuleNo) (x : Rule) : (s.setRule n x).heldDue = s.heldDue := rfl
@[simp] theorem setRule_channels (s : State) (n : RuleNo) (x : Rule) : (s.setRule n x).channels = s.channels := rfl
@[simp] theorem setRule_freezeMask (s : State) (n : RuleNo) (x : Rule) : (s.setRule n x).freezeMask = s.freezeMask := rfl
@[simp] theorem setRule_freezeSeq (s : State) (n : RuleNo) (x : Rule) : (s.setRule n x).freezeSeq = s.freezeSeq := rfl
@[simp] theorem setRule_generators (s : State) (n : RuleNo) (x : Rule) : (s.setRule n x).generators = s.generators := rfl
@[simp] theorem setRule_scrub (s : State) (n : RuleNo) (x : Rule) : (s.setRule n x).scrub = s.scrub := rfl
@[simp] theorem setRule_scrubDue (s : State) (n : RuleNo) (x : Rule) : (s.setRule n x).scrubDue = s.scrubDue := rfl
@[simp] theorem setRule_compareDue (s : State) (n : RuleNo) (x : Rule) : (s.setRule n x).compareDue = s.compareDue := rfl
@[simp] theorem setRule_faultsDue (s : State) (n : RuleNo) (x : Rule) : (s.setRule n x).faultsDue = s.faultsDue := rfl
@[simp] theorem setRule_port (s : State) (n : RuleNo) (x : Rule) : (s.setRule n x).port = s.port := rfl
@[simp] theorem setRule_notices (s : State) (n : RuleNo) (x : Rule) : (s.setRule n x).notices = s.notices := rfl
@[simp] theorem setRule_mask (s : State) (n : RuleNo) (x : Rule) : (s.setRule n x).mask = s.mask := rfl
@[simp] theorem setRule_msTime (s : State) (n : RuleNo) (x : Rule) : (s.setRule n x).msTime = s.msTime := rfl
@[simp] theorem setRule_publishOrders (s : State) (n : RuleNo) (x : Rule) : (s.setRule n x).publishOrders = s.publishOrders := rfl
@[simp] theorem setRule_reinits (s : State) (n : RuleNo) (x : Rule) : (s.setRule n x).reinits = s.reinits := rfl
@[simp] theorem setRule_micros (s : State) (n : RuleNo) (x : Rule) : (s.setRule n x).micros = s.micros := rfl
@[simp] theorem setRule_pending (s : State) (n : RuleNo) (x : Rule) : (s.setRule n x).pending = s.pending := rfl

@[simp] theorem setRule_record (s : State) (n : RuleNo) (x : Rule) (j : RecNo) : (s.setRule n x).record j = s.record j := rfl
@[simp] theorem setRule_rule_same (s : State) (n : RuleNo) (x : Rule) : (s.setRule n x).rule n = x := nth_upd_same _ _ _
@[simp] theorem setRule_rule_other (s : State) {n j : RuleNo} (x : Rule) (h : j ≠ n) :
    (s.setRule n x).rule j = s.rule j := nth_upd_other _ _ h
@[simp] theorem setRule_inputConfig (s : State) (n : RuleNo) (x : Rule) (j : InputNo) : (s.setRule n x).inputConfig j = s.inputConfig j := rfl
@[simp] theorem setRule_input (s : State) (n : RuleNo) (x : Rule) (j : InputNo) : (s.setRule n x).input j = s.input j := rfl
@[simp] theorem setRule_config (s : State) (n : RuleNo) (x : Rule) (j : Chan) : (s.setRule n x).config j = s.config j := rfl
@[simp] theorem setRule_channel (s : State) (n : RuleNo) (x : Rule) (j : Chan) : (s.setRule n x).channel j = s.channel j := rfl
@[simp] theorem setRule_generator (s : State) (n : RuleNo) (x : Rule) (j : GenNo) : (s.setRule n x).generator j = s.generator j := rfl
@[simp] theorem setRule_switch (s : State) (n : RuleNo) (x : Rule) (j : Chan) : (s.setRule n x).switch j = s.switch j := rfl
@[simp] theorem setRule_claimList (s : State) (n : RuleNo) (x : Rule) (j : Chan) : (s.setRule n x).claimList j = s.claimList j := rfl

/-! ### setInputConfig -/

@[simp] theorem setInputConfig_calendar (s : State) (i : InputNo) (x : InputConfig) : (s.setInputConfig i x).calendar = s.calendar := rfl
@[simp] theorem setInputConfig_records (s : State) (i : InputNo) (x : InputConfig) : (s.setInputConfig i x).records = s.records := rfl
@[simp] theorem setInputConfig_rules (s : State) (i : InputNo) (x : InputConfig) : (s.setInputConfig i x).rules = s.rules := rfl
@[simp] theorem setInputConfig_inputConfigs (s : State) (i : InputNo) (x : InputConfig) : (s.setInputConfig i x).inputConfigs = upd s.inputConfigs i x := rfl
@[simp] theorem setInputConfig_channelConfigs (s : State) (i : InputNo) (x : InputConfig) : (s.setInputConfig i x).channelConfigs = s.channelConfigs := rfl
@[simp] theorem setInputConfig_switches (s : State) (i : InputNo) (x : InputConfig) : (s.setInputConfig i x).switches = s.switches := rfl
@[simp] theorem setInputConfig_dimFreq (s : State) (i : InputNo) (x : InputConfig) : (s.setInputConfig i x).dimFreq = s.dimFreq := rfl
@[simp] theorem setInputConfig_mainPower (s : State) (i : InputNo) (x : InputConfig) : (s.setInputConfig i x).mainPower = s.mainPower := rfl
@[simp] theorem setInputConfig_inputPins (s : State) (i : InputNo) (x : InputConfig) : (s.setInputConfig i x).inputPins = s.inputPins := rfl
@[simp] theorem setInputConfig_evaluator (s : State) (i : InputNo) (x : InputConfig) : (s.setInputConfig i x).evaluator = s.evaluator := rfl
@[simp] theorem setInputConfig_claims (s : State) (i : InputNo) (x : InputConfig) : (s.setInputConfig i x).claims = s.claims := rfl
@[simp] theorem setInputConfig_waiting (s : State) (i : InputNo) (x : InputConfig) : (s.setInputConfig i x).waiting = s.waiting := rfl
@[simp] theorem setInputConfig_holdsDue (s : State) (i : InputNo) (x : InputConfig) : (s.setInputConfig i x).holdsDue = s.holdsDue := rfl
@[simp] theorem setInputConfig_inputs (s : State) (i : InputNo) (x : InputConfig) : (s.setInputConfig i x).inputs = s.inputs := rfl
@[simp] theorem setInputConfig_events (s : State) (i : InputNo) (x : InputConfig) : (s.setInputConfig i x).events = s.events := rfl
@[simp] theorem setInputConfig_applying (s : State) (i : InputNo) (x : InputConfig) : (s.setInputConfig i x).applying = s.applying := rfl
@[simp] theorem setInputConfig_heldDue (s : State) (i : InputNo) (x : InputConfig) : (s.setInputConfig i x).heldDue = s.heldDue := rfl
@[simp] theorem setInputConfig_channels (s : State) (i : InputNo) (x : InputConfig) : (s.setInputConfig i x).channels = s.channels := rfl
@[simp] theorem setInputConfig_freezeMask (s : State) (i : InputNo) (x : InputConfig) : (s.setInputConfig i x).freezeMask = s.freezeMask := rfl
@[simp] theorem setInputConfig_freezeSeq (s : State) (i : InputNo) (x : InputConfig) : (s.setInputConfig i x).freezeSeq = s.freezeSeq := rfl
@[simp] theorem setInputConfig_generators (s : State) (i : InputNo) (x : InputConfig) : (s.setInputConfig i x).generators = s.generators := rfl
@[simp] theorem setInputConfig_scrub (s : State) (i : InputNo) (x : InputConfig) : (s.setInputConfig i x).scrub = s.scrub := rfl
@[simp] theorem setInputConfig_scrubDue (s : State) (i : InputNo) (x : InputConfig) : (s.setInputConfig i x).scrubDue = s.scrubDue := rfl
@[simp] theorem setInputConfig_compareDue (s : State) (i : InputNo) (x : InputConfig) : (s.setInputConfig i x).compareDue = s.compareDue := rfl
@[simp] theorem setInputConfig_faultsDue (s : State) (i : InputNo) (x : InputConfig) : (s.setInputConfig i x).faultsDue = s.faultsDue := rfl
@[simp] theorem setInputConfig_port (s : State) (i : InputNo) (x : InputConfig) : (s.setInputConfig i x).port = s.port := rfl
@[simp] theorem setInputConfig_notices (s : State) (i : InputNo) (x : InputConfig) : (s.setInputConfig i x).notices = s.notices := rfl
@[simp] theorem setInputConfig_mask (s : State) (i : InputNo) (x : InputConfig) : (s.setInputConfig i x).mask = s.mask := rfl
@[simp] theorem setInputConfig_msTime (s : State) (i : InputNo) (x : InputConfig) : (s.setInputConfig i x).msTime = s.msTime := rfl
@[simp] theorem setInputConfig_publishOrders (s : State) (i : InputNo) (x : InputConfig) : (s.setInputConfig i x).publishOrders = s.publishOrders := rfl
@[simp] theorem setInputConfig_reinits (s : State) (i : InputNo) (x : InputConfig) : (s.setInputConfig i x).reinits = s.reinits := rfl
@[simp] theorem setInputConfig_micros (s : State) (i : InputNo) (x : InputConfig) : (s.setInputConfig i x).micros = s.micros := rfl
@[simp] theorem setInputConfig_pending (s : State) (i : InputNo) (x : InputConfig) : (s.setInputConfig i x).pending = s.pending := rfl

@[simp] theorem setInputConfig_record (s : State) (i : InputNo) (x : InputConfig) (j : RecNo) : (s.setInputConfig i x).record j = s.record j := rfl
@[simp] theorem setInputConfig_rule (s : State) (i : InputNo) (x : InputConfig) (j : RuleNo) : (s.setInputConfig i x).rule j = s.rule j := rfl
@[simp] theorem setInputConfig_inputConfig_same (s : State) (i : InputNo) (x : InputConfig) : (s.setInputConfig i x).inputConfig i = x := nth_upd_same _ _ _
@[simp] theorem setInputConfig_inputConfig_other (s : State) {i j : InputNo} (x : InputConfig) (h : j ≠ i) :
    (s.setInputConfig i x).inputConfig j = s.inputConfig j := nth_upd_other _ _ h
@[simp] theorem setInputConfig_input (s : State) (i : InputNo) (x : InputConfig) (j : InputNo) : (s.setInputConfig i x).input j = s.input j := rfl
@[simp] theorem setInputConfig_config (s : State) (i : InputNo) (x : InputConfig) (j : Chan) : (s.setInputConfig i x).config j = s.config j := rfl
@[simp] theorem setInputConfig_channel (s : State) (i : InputNo) (x : InputConfig) (j : Chan) : (s.setInputConfig i x).channel j = s.channel j := rfl
@[simp] theorem setInputConfig_generator (s : State) (i : InputNo) (x : InputConfig) (j : GenNo) : (s.setInputConfig i x).generator j = s.generator j := rfl
@[simp] theorem setInputConfig_switch (s : State) (i : InputNo) (x : InputConfig) (j : Chan) : (s.setInputConfig i x).switch j = s.switch j := rfl
@[simp] theorem setInputConfig_claimList (s : State) (i : InputNo) (x : InputConfig) (j : Chan) : (s.setInputConfig i x).claimList j = s.claimList j := rfl

/-! ### setInput -/

@[simp] theorem setInput_calendar (s : State) (i : InputNo) (x : Input) : (s.setInput i x).calendar = s.calendar := rfl
@[simp] theorem setInput_records (s : State) (i : InputNo) (x : Input) : (s.setInput i x).records = s.records := rfl
@[simp] theorem setInput_rules (s : State) (i : InputNo) (x : Input) : (s.setInput i x).rules = s.rules := rfl
@[simp] theorem setInput_inputConfigs (s : State) (i : InputNo) (x : Input) : (s.setInput i x).inputConfigs = s.inputConfigs := rfl
@[simp] theorem setInput_channelConfigs (s : State) (i : InputNo) (x : Input) : (s.setInput i x).channelConfigs = s.channelConfigs := rfl
@[simp] theorem setInput_switches (s : State) (i : InputNo) (x : Input) : (s.setInput i x).switches = s.switches := rfl
@[simp] theorem setInput_dimFreq (s : State) (i : InputNo) (x : Input) : (s.setInput i x).dimFreq = s.dimFreq := rfl
@[simp] theorem setInput_mainPower (s : State) (i : InputNo) (x : Input) : (s.setInput i x).mainPower = s.mainPower := rfl
@[simp] theorem setInput_inputPins (s : State) (i : InputNo) (x : Input) : (s.setInput i x).inputPins = s.inputPins := rfl
@[simp] theorem setInput_evaluator (s : State) (i : InputNo) (x : Input) : (s.setInput i x).evaluator = s.evaluator := rfl
@[simp] theorem setInput_claims (s : State) (i : InputNo) (x : Input) : (s.setInput i x).claims = s.claims := rfl
@[simp] theorem setInput_waiting (s : State) (i : InputNo) (x : Input) : (s.setInput i x).waiting = s.waiting := rfl
@[simp] theorem setInput_holdsDue (s : State) (i : InputNo) (x : Input) : (s.setInput i x).holdsDue = s.holdsDue := rfl
@[simp] theorem setInput_inputs (s : State) (i : InputNo) (x : Input) : (s.setInput i x).inputs = upd s.inputs i x := rfl
@[simp] theorem setInput_events (s : State) (i : InputNo) (x : Input) : (s.setInput i x).events = s.events := rfl
@[simp] theorem setInput_applying (s : State) (i : InputNo) (x : Input) : (s.setInput i x).applying = s.applying := rfl
@[simp] theorem setInput_heldDue (s : State) (i : InputNo) (x : Input) : (s.setInput i x).heldDue = s.heldDue := rfl
@[simp] theorem setInput_channels (s : State) (i : InputNo) (x : Input) : (s.setInput i x).channels = s.channels := rfl
@[simp] theorem setInput_freezeMask (s : State) (i : InputNo) (x : Input) : (s.setInput i x).freezeMask = s.freezeMask := rfl
@[simp] theorem setInput_freezeSeq (s : State) (i : InputNo) (x : Input) : (s.setInput i x).freezeSeq = s.freezeSeq := rfl
@[simp] theorem setInput_generators (s : State) (i : InputNo) (x : Input) : (s.setInput i x).generators = s.generators := rfl
@[simp] theorem setInput_scrub (s : State) (i : InputNo) (x : Input) : (s.setInput i x).scrub = s.scrub := rfl
@[simp] theorem setInput_scrubDue (s : State) (i : InputNo) (x : Input) : (s.setInput i x).scrubDue = s.scrubDue := rfl
@[simp] theorem setInput_compareDue (s : State) (i : InputNo) (x : Input) : (s.setInput i x).compareDue = s.compareDue := rfl
@[simp] theorem setInput_faultsDue (s : State) (i : InputNo) (x : Input) : (s.setInput i x).faultsDue = s.faultsDue := rfl
@[simp] theorem setInput_port (s : State) (i : InputNo) (x : Input) : (s.setInput i x).port = s.port := rfl
@[simp] theorem setInput_notices (s : State) (i : InputNo) (x : Input) : (s.setInput i x).notices = s.notices := rfl
@[simp] theorem setInput_mask (s : State) (i : InputNo) (x : Input) : (s.setInput i x).mask = s.mask := rfl
@[simp] theorem setInput_msTime (s : State) (i : InputNo) (x : Input) : (s.setInput i x).msTime = s.msTime := rfl
@[simp] theorem setInput_publishOrders (s : State) (i : InputNo) (x : Input) : (s.setInput i x).publishOrders = s.publishOrders := rfl
@[simp] theorem setInput_reinits (s : State) (i : InputNo) (x : Input) : (s.setInput i x).reinits = s.reinits := rfl
@[simp] theorem setInput_micros (s : State) (i : InputNo) (x : Input) : (s.setInput i x).micros = s.micros := rfl
@[simp] theorem setInput_pending (s : State) (i : InputNo) (x : Input) : (s.setInput i x).pending = s.pending := rfl

@[simp] theorem setInput_record (s : State) (i : InputNo) (x : Input) (j : RecNo) : (s.setInput i x).record j = s.record j := rfl
@[simp] theorem setInput_rule (s : State) (i : InputNo) (x : Input) (j : RuleNo) : (s.setInput i x).rule j = s.rule j := rfl
@[simp] theorem setInput_inputConfig (s : State) (i : InputNo) (x : Input) (j : InputNo) : (s.setInput i x).inputConfig j = s.inputConfig j := rfl
@[simp] theorem setInput_input_same (s : State) (i : InputNo) (x : Input) : (s.setInput i x).input i = x := nth_upd_same _ _ _
@[simp] theorem setInput_input_other (s : State) {i j : InputNo} (x : Input) (h : j ≠ i) :
    (s.setInput i x).input j = s.input j := nth_upd_other _ _ h
@[simp] theorem setInput_config (s : State) (i : InputNo) (x : Input) (j : Chan) : (s.setInput i x).config j = s.config j := rfl
@[simp] theorem setInput_channel (s : State) (i : InputNo) (x : Input) (j : Chan) : (s.setInput i x).channel j = s.channel j := rfl
@[simp] theorem setInput_generator (s : State) (i : InputNo) (x : Input) (j : GenNo) : (s.setInput i x).generator j = s.generator j := rfl
@[simp] theorem setInput_switch (s : State) (i : InputNo) (x : Input) (j : Chan) : (s.setInput i x).switch j = s.switch j := rfl
@[simp] theorem setInput_claimList (s : State) (i : InputNo) (x : Input) (j : Chan) : (s.setInput i x).claimList j = s.claimList j := rfl

/-! ### setConfig -/

@[simp] theorem setConfig_calendar (s : State) (c : Chan) (x : ChannelConfig) : (s.setConfig c x).calendar = s.calendar := rfl
@[simp] theorem setConfig_records (s : State) (c : Chan) (x : ChannelConfig) : (s.setConfig c x).records = s.records := rfl
@[simp] theorem setConfig_rules (s : State) (c : Chan) (x : ChannelConfig) : (s.setConfig c x).rules = s.rules := rfl
@[simp] theorem setConfig_inputConfigs (s : State) (c : Chan) (x : ChannelConfig) : (s.setConfig c x).inputConfigs = s.inputConfigs := rfl
@[simp] theorem setConfig_channelConfigs (s : State) (c : Chan) (x : ChannelConfig) : (s.setConfig c x).channelConfigs = upd s.channelConfigs c x := rfl
@[simp] theorem setConfig_switches (s : State) (c : Chan) (x : ChannelConfig) : (s.setConfig c x).switches = s.switches := rfl
@[simp] theorem setConfig_dimFreq (s : State) (c : Chan) (x : ChannelConfig) : (s.setConfig c x).dimFreq = s.dimFreq := rfl
@[simp] theorem setConfig_mainPower (s : State) (c : Chan) (x : ChannelConfig) : (s.setConfig c x).mainPower = s.mainPower := rfl
@[simp] theorem setConfig_inputPins (s : State) (c : Chan) (x : ChannelConfig) : (s.setConfig c x).inputPins = s.inputPins := rfl
@[simp] theorem setConfig_evaluator (s : State) (c : Chan) (x : ChannelConfig) : (s.setConfig c x).evaluator = s.evaluator := rfl
@[simp] theorem setConfig_claims (s : State) (c : Chan) (x : ChannelConfig) : (s.setConfig c x).claims = s.claims := rfl
@[simp] theorem setConfig_waiting (s : State) (c : Chan) (x : ChannelConfig) : (s.setConfig c x).waiting = s.waiting := rfl
@[simp] theorem setConfig_holdsDue (s : State) (c : Chan) (x : ChannelConfig) : (s.setConfig c x).holdsDue = s.holdsDue := rfl
@[simp] theorem setConfig_inputs (s : State) (c : Chan) (x : ChannelConfig) : (s.setConfig c x).inputs = s.inputs := rfl
@[simp] theorem setConfig_events (s : State) (c : Chan) (x : ChannelConfig) : (s.setConfig c x).events = s.events := rfl
@[simp] theorem setConfig_applying (s : State) (c : Chan) (x : ChannelConfig) : (s.setConfig c x).applying = s.applying := rfl
@[simp] theorem setConfig_heldDue (s : State) (c : Chan) (x : ChannelConfig) : (s.setConfig c x).heldDue = s.heldDue := rfl
@[simp] theorem setConfig_channels (s : State) (c : Chan) (x : ChannelConfig) : (s.setConfig c x).channels = s.channels := rfl
@[simp] theorem setConfig_freezeMask (s : State) (c : Chan) (x : ChannelConfig) : (s.setConfig c x).freezeMask = s.freezeMask := rfl
@[simp] theorem setConfig_freezeSeq (s : State) (c : Chan) (x : ChannelConfig) : (s.setConfig c x).freezeSeq = s.freezeSeq := rfl
@[simp] theorem setConfig_generators (s : State) (c : Chan) (x : ChannelConfig) : (s.setConfig c x).generators = s.generators := rfl
@[simp] theorem setConfig_scrub (s : State) (c : Chan) (x : ChannelConfig) : (s.setConfig c x).scrub = s.scrub := rfl
@[simp] theorem setConfig_scrubDue (s : State) (c : Chan) (x : ChannelConfig) : (s.setConfig c x).scrubDue = s.scrubDue := rfl
@[simp] theorem setConfig_compareDue (s : State) (c : Chan) (x : ChannelConfig) : (s.setConfig c x).compareDue = s.compareDue := rfl
@[simp] theorem setConfig_faultsDue (s : State) (c : Chan) (x : ChannelConfig) : (s.setConfig c x).faultsDue = s.faultsDue := rfl
@[simp] theorem setConfig_port (s : State) (c : Chan) (x : ChannelConfig) : (s.setConfig c x).port = s.port := rfl
@[simp] theorem setConfig_notices (s : State) (c : Chan) (x : ChannelConfig) : (s.setConfig c x).notices = s.notices := rfl
@[simp] theorem setConfig_mask (s : State) (c : Chan) (x : ChannelConfig) : (s.setConfig c x).mask = s.mask := rfl
@[simp] theorem setConfig_msTime (s : State) (c : Chan) (x : ChannelConfig) : (s.setConfig c x).msTime = s.msTime := rfl
@[simp] theorem setConfig_publishOrders (s : State) (c : Chan) (x : ChannelConfig) : (s.setConfig c x).publishOrders = s.publishOrders := rfl
@[simp] theorem setConfig_reinits (s : State) (c : Chan) (x : ChannelConfig) : (s.setConfig c x).reinits = s.reinits := rfl
@[simp] theorem setConfig_micros (s : State) (c : Chan) (x : ChannelConfig) : (s.setConfig c x).micros = s.micros := rfl
@[simp] theorem setConfig_pending (s : State) (c : Chan) (x : ChannelConfig) : (s.setConfig c x).pending = s.pending := rfl

@[simp] theorem setConfig_record (s : State) (c : Chan) (x : ChannelConfig) (j : RecNo) : (s.setConfig c x).record j = s.record j := rfl
@[simp] theorem setConfig_rule (s : State) (c : Chan) (x : ChannelConfig) (j : RuleNo) : (s.setConfig c x).rule j = s.rule j := rfl
@[simp] theorem setConfig_inputConfig (s : State) (c : Chan) (x : ChannelConfig) (j : InputNo) : (s.setConfig c x).inputConfig j = s.inputConfig j := rfl
@[simp] theorem setConfig_input (s : State) (c : Chan) (x : ChannelConfig) (j : InputNo) : (s.setConfig c x).input j = s.input j := rfl
@[simp] theorem setConfig_config_same (s : State) (c : Chan) (x : ChannelConfig) : (s.setConfig c x).config c = x := nth_upd_same _ _ _
@[simp] theorem setConfig_config_other (s : State) {c j : Chan} (x : ChannelConfig) (h : j ≠ c) :
    (s.setConfig c x).config j = s.config j := nth_upd_other _ _ h
@[simp] theorem setConfig_channel (s : State) (c : Chan) (x : ChannelConfig) (j : Chan) : (s.setConfig c x).channel j = s.channel j := rfl
@[simp] theorem setConfig_generator (s : State) (c : Chan) (x : ChannelConfig) (j : GenNo) : (s.setConfig c x).generator j = s.generator j := rfl
@[simp] theorem setConfig_switch (s : State) (c : Chan) (x : ChannelConfig) (j : Chan) : (s.setConfig c x).switch j = s.switch j := rfl
@[simp] theorem setConfig_claimList (s : State) (c : Chan) (x : ChannelConfig) (j : Chan) : (s.setConfig c x).claimList j = s.claimList j := rfl

/-! ### setChannel -/

@[simp] theorem setChannel_calendar (s : State) (c : Chan) (x : Channel) : (s.setChannel c x).calendar = s.calendar := rfl
@[simp] theorem setChannel_records (s : State) (c : Chan) (x : Channel) : (s.setChannel c x).records = s.records := rfl
@[simp] theorem setChannel_rules (s : State) (c : Chan) (x : Channel) : (s.setChannel c x).rules = s.rules := rfl
@[simp] theorem setChannel_inputConfigs (s : State) (c : Chan) (x : Channel) : (s.setChannel c x).inputConfigs = s.inputConfigs := rfl
@[simp] theorem setChannel_channelConfigs (s : State) (c : Chan) (x : Channel) : (s.setChannel c x).channelConfigs = s.channelConfigs := rfl
@[simp] theorem setChannel_switches (s : State) (c : Chan) (x : Channel) : (s.setChannel c x).switches = s.switches := rfl
@[simp] theorem setChannel_dimFreq (s : State) (c : Chan) (x : Channel) : (s.setChannel c x).dimFreq = s.dimFreq := rfl
@[simp] theorem setChannel_mainPower (s : State) (c : Chan) (x : Channel) : (s.setChannel c x).mainPower = s.mainPower := rfl
@[simp] theorem setChannel_inputPins (s : State) (c : Chan) (x : Channel) : (s.setChannel c x).inputPins = s.inputPins := rfl
@[simp] theorem setChannel_evaluator (s : State) (c : Chan) (x : Channel) : (s.setChannel c x).evaluator = s.evaluator := rfl
@[simp] theorem setChannel_claims (s : State) (c : Chan) (x : Channel) : (s.setChannel c x).claims = s.claims := rfl
@[simp] theorem setChannel_waiting (s : State) (c : Chan) (x : Channel) : (s.setChannel c x).waiting = s.waiting := rfl
@[simp] theorem setChannel_holdsDue (s : State) (c : Chan) (x : Channel) : (s.setChannel c x).holdsDue = s.holdsDue := rfl
@[simp] theorem setChannel_inputs (s : State) (c : Chan) (x : Channel) : (s.setChannel c x).inputs = s.inputs := rfl
@[simp] theorem setChannel_events (s : State) (c : Chan) (x : Channel) : (s.setChannel c x).events = s.events := rfl
@[simp] theorem setChannel_applying (s : State) (c : Chan) (x : Channel) : (s.setChannel c x).applying = s.applying := rfl
@[simp] theorem setChannel_heldDue (s : State) (c : Chan) (x : Channel) : (s.setChannel c x).heldDue = s.heldDue := rfl
@[simp] theorem setChannel_channels (s : State) (c : Chan) (x : Channel) : (s.setChannel c x).channels = upd s.channels c x := rfl
@[simp] theorem setChannel_freezeMask (s : State) (c : Chan) (x : Channel) : (s.setChannel c x).freezeMask = s.freezeMask := rfl
@[simp] theorem setChannel_freezeSeq (s : State) (c : Chan) (x : Channel) : (s.setChannel c x).freezeSeq = s.freezeSeq := rfl
@[simp] theorem setChannel_generators (s : State) (c : Chan) (x : Channel) : (s.setChannel c x).generators = s.generators := rfl
@[simp] theorem setChannel_scrub (s : State) (c : Chan) (x : Channel) : (s.setChannel c x).scrub = s.scrub := rfl
@[simp] theorem setChannel_scrubDue (s : State) (c : Chan) (x : Channel) : (s.setChannel c x).scrubDue = s.scrubDue := rfl
@[simp] theorem setChannel_compareDue (s : State) (c : Chan) (x : Channel) : (s.setChannel c x).compareDue = s.compareDue := rfl
@[simp] theorem setChannel_faultsDue (s : State) (c : Chan) (x : Channel) : (s.setChannel c x).faultsDue = s.faultsDue := rfl
@[simp] theorem setChannel_port (s : State) (c : Chan) (x : Channel) : (s.setChannel c x).port = s.port := rfl
@[simp] theorem setChannel_notices (s : State) (c : Chan) (x : Channel) : (s.setChannel c x).notices = s.notices := rfl
@[simp] theorem setChannel_mask (s : State) (c : Chan) (x : Channel) : (s.setChannel c x).mask = s.mask := rfl
@[simp] theorem setChannel_msTime (s : State) (c : Chan) (x : Channel) : (s.setChannel c x).msTime = s.msTime := rfl
@[simp] theorem setChannel_publishOrders (s : State) (c : Chan) (x : Channel) : (s.setChannel c x).publishOrders = s.publishOrders := rfl
@[simp] theorem setChannel_reinits (s : State) (c : Chan) (x : Channel) : (s.setChannel c x).reinits = s.reinits := rfl
@[simp] theorem setChannel_micros (s : State) (c : Chan) (x : Channel) : (s.setChannel c x).micros = s.micros := rfl
@[simp] theorem setChannel_pending (s : State) (c : Chan) (x : Channel) : (s.setChannel c x).pending = s.pending := rfl

@[simp] theorem setChannel_record (s : State) (c : Chan) (x : Channel) (j : RecNo) : (s.setChannel c x).record j = s.record j := rfl
@[simp] theorem setChannel_rule (s : State) (c : Chan) (x : Channel) (j : RuleNo) : (s.setChannel c x).rule j = s.rule j := rfl
@[simp] theorem setChannel_inputConfig (s : State) (c : Chan) (x : Channel) (j : InputNo) : (s.setChannel c x).inputConfig j = s.inputConfig j := rfl
@[simp] theorem setChannel_input (s : State) (c : Chan) (x : Channel) (j : InputNo) : (s.setChannel c x).input j = s.input j := rfl
@[simp] theorem setChannel_config (s : State) (c : Chan) (x : Channel) (j : Chan) : (s.setChannel c x).config j = s.config j := rfl
@[simp] theorem setChannel_channel_same (s : State) (c : Chan) (x : Channel) : (s.setChannel c x).channel c = x := nth_upd_same _ _ _
@[simp] theorem setChannel_channel_other (s : State) {c j : Chan} (x : Channel) (h : j ≠ c) :
    (s.setChannel c x).channel j = s.channel j := nth_upd_other _ _ h
@[simp] theorem setChannel_generator (s : State) (c : Chan) (x : Channel) (j : GenNo) : (s.setChannel c x).generator j = s.generator j := rfl
@[simp] theorem setChannel_switch (s : State) (c : Chan) (x : Channel) (j : Chan) : (s.setChannel c x).switch j = s.switch j := rfl
@[simp] theorem setChannel_claimList (s : State) (c : Chan) (x : Channel) (j : Chan) : (s.setChannel c x).claimList j = s.claimList j := rfl

/-! ### setGenerator -/

@[simp] theorem setGenerator_calendar (s : State) (g : GenNo) (x : Generator) : (s.setGenerator g x).calendar = s.calendar := rfl
@[simp] theorem setGenerator_records (s : State) (g : GenNo) (x : Generator) : (s.setGenerator g x).records = s.records := rfl
@[simp] theorem setGenerator_rules (s : State) (g : GenNo) (x : Generator) : (s.setGenerator g x).rules = s.rules := rfl
@[simp] theorem setGenerator_inputConfigs (s : State) (g : GenNo) (x : Generator) : (s.setGenerator g x).inputConfigs = s.inputConfigs := rfl
@[simp] theorem setGenerator_channelConfigs (s : State) (g : GenNo) (x : Generator) : (s.setGenerator g x).channelConfigs = s.channelConfigs := rfl
@[simp] theorem setGenerator_switches (s : State) (g : GenNo) (x : Generator) : (s.setGenerator g x).switches = s.switches := rfl
@[simp] theorem setGenerator_dimFreq (s : State) (g : GenNo) (x : Generator) : (s.setGenerator g x).dimFreq = s.dimFreq := rfl
@[simp] theorem setGenerator_mainPower (s : State) (g : GenNo) (x : Generator) : (s.setGenerator g x).mainPower = s.mainPower := rfl
@[simp] theorem setGenerator_inputPins (s : State) (g : GenNo) (x : Generator) : (s.setGenerator g x).inputPins = s.inputPins := rfl
@[simp] theorem setGenerator_evaluator (s : State) (g : GenNo) (x : Generator) : (s.setGenerator g x).evaluator = s.evaluator := rfl
@[simp] theorem setGenerator_claims (s : State) (g : GenNo) (x : Generator) : (s.setGenerator g x).claims = s.claims := rfl
@[simp] theorem setGenerator_waiting (s : State) (g : GenNo) (x : Generator) : (s.setGenerator g x).waiting = s.waiting := rfl
@[simp] theorem setGenerator_holdsDue (s : State) (g : GenNo) (x : Generator) : (s.setGenerator g x).holdsDue = s.holdsDue := rfl
@[simp] theorem setGenerator_inputs (s : State) (g : GenNo) (x : Generator) : (s.setGenerator g x).inputs = s.inputs := rfl
@[simp] theorem setGenerator_events (s : State) (g : GenNo) (x : Generator) : (s.setGenerator g x).events = s.events := rfl
@[simp] theorem setGenerator_applying (s : State) (g : GenNo) (x : Generator) : (s.setGenerator g x).applying = s.applying := rfl
@[simp] theorem setGenerator_heldDue (s : State) (g : GenNo) (x : Generator) : (s.setGenerator g x).heldDue = s.heldDue := rfl
@[simp] theorem setGenerator_channels (s : State) (g : GenNo) (x : Generator) : (s.setGenerator g x).channels = s.channels := rfl
@[simp] theorem setGenerator_freezeMask (s : State) (g : GenNo) (x : Generator) : (s.setGenerator g x).freezeMask = s.freezeMask := rfl
@[simp] theorem setGenerator_freezeSeq (s : State) (g : GenNo) (x : Generator) : (s.setGenerator g x).freezeSeq = s.freezeSeq := rfl
@[simp] theorem setGenerator_generators (s : State) (g : GenNo) (x : Generator) : (s.setGenerator g x).generators = upd s.generators g x := rfl
@[simp] theorem setGenerator_scrub (s : State) (g : GenNo) (x : Generator) : (s.setGenerator g x).scrub = s.scrub := rfl
@[simp] theorem setGenerator_scrubDue (s : State) (g : GenNo) (x : Generator) : (s.setGenerator g x).scrubDue = s.scrubDue := rfl
@[simp] theorem setGenerator_compareDue (s : State) (g : GenNo) (x : Generator) : (s.setGenerator g x).compareDue = s.compareDue := rfl
@[simp] theorem setGenerator_faultsDue (s : State) (g : GenNo) (x : Generator) : (s.setGenerator g x).faultsDue = s.faultsDue := rfl
@[simp] theorem setGenerator_port (s : State) (g : GenNo) (x : Generator) : (s.setGenerator g x).port = s.port := rfl
@[simp] theorem setGenerator_notices (s : State) (g : GenNo) (x : Generator) : (s.setGenerator g x).notices = s.notices := rfl
@[simp] theorem setGenerator_mask (s : State) (g : GenNo) (x : Generator) : (s.setGenerator g x).mask = s.mask := rfl
@[simp] theorem setGenerator_msTime (s : State) (g : GenNo) (x : Generator) : (s.setGenerator g x).msTime = s.msTime := rfl
@[simp] theorem setGenerator_publishOrders (s : State) (g : GenNo) (x : Generator) : (s.setGenerator g x).publishOrders = s.publishOrders := rfl
@[simp] theorem setGenerator_reinits (s : State) (g : GenNo) (x : Generator) : (s.setGenerator g x).reinits = s.reinits := rfl
@[simp] theorem setGenerator_micros (s : State) (g : GenNo) (x : Generator) : (s.setGenerator g x).micros = s.micros := rfl
@[simp] theorem setGenerator_pending (s : State) (g : GenNo) (x : Generator) : (s.setGenerator g x).pending = s.pending := rfl

@[simp] theorem setGenerator_record (s : State) (g : GenNo) (x : Generator) (j : RecNo) : (s.setGenerator g x).record j = s.record j := rfl
@[simp] theorem setGenerator_rule (s : State) (g : GenNo) (x : Generator) (j : RuleNo) : (s.setGenerator g x).rule j = s.rule j := rfl
@[simp] theorem setGenerator_inputConfig (s : State) (g : GenNo) (x : Generator) (j : InputNo) : (s.setGenerator g x).inputConfig j = s.inputConfig j := rfl
@[simp] theorem setGenerator_input (s : State) (g : GenNo) (x : Generator) (j : InputNo) : (s.setGenerator g x).input j = s.input j := rfl
@[simp] theorem setGenerator_config (s : State) (g : GenNo) (x : Generator) (j : Chan) : (s.setGenerator g x).config j = s.config j := rfl
@[simp] theorem setGenerator_channel (s : State) (g : GenNo) (x : Generator) (j : Chan) : (s.setGenerator g x).channel j = s.channel j := rfl
@[simp] theorem setGenerator_generator_same (s : State) (g : GenNo) (x : Generator) : (s.setGenerator g x).generator g = x := nth_upd_same _ _ _
@[simp] theorem setGenerator_generator_other (s : State) {g j : GenNo} (x : Generator) (h : j ≠ g) :
    (s.setGenerator g x).generator j = s.generator j := nth_upd_other _ _ h
@[simp] theorem setGenerator_switch (s : State) (g : GenNo) (x : Generator) (j : Chan) : (s.setGenerator g x).switch j = s.switch j := rfl
@[simp] theorem setGenerator_claimList (s : State) (g : GenNo) (x : Generator) (j : Chan) : (s.setGenerator g x).claimList j = s.claimList j := rfl

/-! ### setSwitch -/

@[simp] theorem setSwitch_calendar (s : State) (c : Chan) (x : SwitchCounter) : (s.setSwitch c x).calendar = s.calendar := rfl
@[simp] theorem setSwitch_records (s : State) (c : Chan) (x : SwitchCounter) : (s.setSwitch c x).records = s.records := rfl
@[simp] theorem setSwitch_rules (s : State) (c : Chan) (x : SwitchCounter) : (s.setSwitch c x).rules = s.rules := rfl
@[simp] theorem setSwitch_inputConfigs (s : State) (c : Chan) (x : SwitchCounter) : (s.setSwitch c x).inputConfigs = s.inputConfigs := rfl
@[simp] theorem setSwitch_channelConfigs (s : State) (c : Chan) (x : SwitchCounter) : (s.setSwitch c x).channelConfigs = s.channelConfigs := rfl
@[simp] theorem setSwitch_switches (s : State) (c : Chan) (x : SwitchCounter) : (s.setSwitch c x).switches = upd s.switches c x := rfl
@[simp] theorem setSwitch_dimFreq (s : State) (c : Chan) (x : SwitchCounter) : (s.setSwitch c x).dimFreq = s.dimFreq := rfl
@[simp] theorem setSwitch_mainPower (s : State) (c : Chan) (x : SwitchCounter) : (s.setSwitch c x).mainPower = s.mainPower := rfl
@[simp] theorem setSwitch_inputPins (s : State) (c : Chan) (x : SwitchCounter) : (s.setSwitch c x).inputPins = s.inputPins := rfl
@[simp] theorem setSwitch_evaluator (s : State) (c : Chan) (x : SwitchCounter) : (s.setSwitch c x).evaluator = s.evaluator := rfl
@[simp] theorem setSwitch_claims (s : State) (c : Chan) (x : SwitchCounter) : (s.setSwitch c x).claims = s.claims := rfl
@[simp] theorem setSwitch_waiting (s : State) (c : Chan) (x : SwitchCounter) : (s.setSwitch c x).waiting = s.waiting := rfl
@[simp] theorem setSwitch_holdsDue (s : State) (c : Chan) (x : SwitchCounter) : (s.setSwitch c x).holdsDue = s.holdsDue := rfl
@[simp] theorem setSwitch_inputs (s : State) (c : Chan) (x : SwitchCounter) : (s.setSwitch c x).inputs = s.inputs := rfl
@[simp] theorem setSwitch_events (s : State) (c : Chan) (x : SwitchCounter) : (s.setSwitch c x).events = s.events := rfl
@[simp] theorem setSwitch_applying (s : State) (c : Chan) (x : SwitchCounter) : (s.setSwitch c x).applying = s.applying := rfl
@[simp] theorem setSwitch_heldDue (s : State) (c : Chan) (x : SwitchCounter) : (s.setSwitch c x).heldDue = s.heldDue := rfl
@[simp] theorem setSwitch_channels (s : State) (c : Chan) (x : SwitchCounter) : (s.setSwitch c x).channels = s.channels := rfl
@[simp] theorem setSwitch_freezeMask (s : State) (c : Chan) (x : SwitchCounter) : (s.setSwitch c x).freezeMask = s.freezeMask := rfl
@[simp] theorem setSwitch_freezeSeq (s : State) (c : Chan) (x : SwitchCounter) : (s.setSwitch c x).freezeSeq = s.freezeSeq := rfl
@[simp] theorem setSwitch_generators (s : State) (c : Chan) (x : SwitchCounter) : (s.setSwitch c x).generators = s.generators := rfl
@[simp] theorem setSwitch_scrub (s : State) (c : Chan) (x : SwitchCounter) : (s.setSwitch c x).scrub = s.scrub := rfl
@[simp] theorem setSwitch_scrubDue (s : State) (c : Chan) (x : SwitchCounter) : (s.setSwitch c x).scrubDue = s.scrubDue := rfl
@[simp] theorem setSwitch_compareDue (s : State) (c : Chan) (x : SwitchCounter) : (s.setSwitch c x).compareDue = s.compareDue := rfl
@[simp] theorem setSwitch_faultsDue (s : State) (c : Chan) (x : SwitchCounter) : (s.setSwitch c x).faultsDue = s.faultsDue := rfl
@[simp] theorem setSwitch_port (s : State) (c : Chan) (x : SwitchCounter) : (s.setSwitch c x).port = s.port := rfl
@[simp] theorem setSwitch_notices (s : State) (c : Chan) (x : SwitchCounter) : (s.setSwitch c x).notices = s.notices := rfl
@[simp] theorem setSwitch_mask (s : State) (c : Chan) (x : SwitchCounter) : (s.setSwitch c x).mask = s.mask := rfl
@[simp] theorem setSwitch_msTime (s : State) (c : Chan) (x : SwitchCounter) : (s.setSwitch c x).msTime = s.msTime := rfl
@[simp] theorem setSwitch_publishOrders (s : State) (c : Chan) (x : SwitchCounter) : (s.setSwitch c x).publishOrders = s.publishOrders := rfl
@[simp] theorem setSwitch_reinits (s : State) (c : Chan) (x : SwitchCounter) : (s.setSwitch c x).reinits = s.reinits := rfl
@[simp] theorem setSwitch_micros (s : State) (c : Chan) (x : SwitchCounter) : (s.setSwitch c x).micros = s.micros := rfl
@[simp] theorem setSwitch_pending (s : State) (c : Chan) (x : SwitchCounter) : (s.setSwitch c x).pending = s.pending := rfl

@[simp] theorem setSwitch_record (s : State) (c : Chan) (x : SwitchCounter) (j : RecNo) : (s.setSwitch c x).record j = s.record j := rfl
@[simp] theorem setSwitch_rule (s : State) (c : Chan) (x : SwitchCounter) (j : RuleNo) : (s.setSwitch c x).rule j = s.rule j := rfl
@[simp] theorem setSwitch_inputConfig (s : State) (c : Chan) (x : SwitchCounter) (j : InputNo) : (s.setSwitch c x).inputConfig j = s.inputConfig j := rfl
@[simp] theorem setSwitch_input (s : State) (c : Chan) (x : SwitchCounter) (j : InputNo) : (s.setSwitch c x).input j = s.input j := rfl
@[simp] theorem setSwitch_config (s : State) (c : Chan) (x : SwitchCounter) (j : Chan) : (s.setSwitch c x).config j = s.config j := rfl
@[simp] theorem setSwitch_channel (s : State) (c : Chan) (x : SwitchCounter) (j : Chan) : (s.setSwitch c x).channel j = s.channel j := rfl
@[simp] theorem setSwitch_generator (s : State) (c : Chan) (x : SwitchCounter) (j : GenNo) : (s.setSwitch c x).generator j = s.generator j := rfl
@[simp] theorem setSwitch_switch_same (s : State) (c : Chan) (x : SwitchCounter) : (s.setSwitch c x).switch c = x := nth_upd_same _ _ _
@[simp] theorem setSwitch_switch_other (s : State) {c j : Chan} (x : SwitchCounter) (h : j ≠ c) :
    (s.setSwitch c x).switch j = s.switch j := nth_upd_other _ _ h
@[simp] theorem setSwitch_claimList (s : State) (c : Chan) (x : SwitchCounter) (j : Chan) : (s.setSwitch c x).claimList j = s.claimList j := rfl

/-! ### setClaimList -/

@[simp] theorem setClaimList_calendar (s : State) (c : Chan) (x : List Claim) : (s.setClaimList c x).calendar = s.calendar := rfl
@[simp] theorem setClaimList_records (s : State) (c : Chan) (x : List Claim) : (s.setClaimList c x).records = s.records := rfl
@[simp] theorem setClaimList_rules (s : State) (c : Chan) (x : List Claim) : (s.setClaimList c x).rules = s.rules := rfl
@[simp] theorem setClaimList_inputConfigs (s : State) (c : Chan) (x : List Claim) : (s.setClaimList c x).inputConfigs = s.inputConfigs := rfl
@[simp] theorem setClaimList_channelConfigs (s : State) (c : Chan) (x : List Claim) : (s.setClaimList c x).channelConfigs = s.channelConfigs := rfl
@[simp] theorem setClaimList_switches (s : State) (c : Chan) (x : List Claim) : (s.setClaimList c x).switches = s.switches := rfl
@[simp] theorem setClaimList_dimFreq (s : State) (c : Chan) (x : List Claim) : (s.setClaimList c x).dimFreq = s.dimFreq := rfl
@[simp] theorem setClaimList_mainPower (s : State) (c : Chan) (x : List Claim) : (s.setClaimList c x).mainPower = s.mainPower := rfl
@[simp] theorem setClaimList_inputPins (s : State) (c : Chan) (x : List Claim) : (s.setClaimList c x).inputPins = s.inputPins := rfl
@[simp] theorem setClaimList_evaluator (s : State) (c : Chan) (x : List Claim) : (s.setClaimList c x).evaluator = s.evaluator := rfl
@[simp] theorem setClaimList_claims (s : State) (c : Chan) (x : List Claim) : (s.setClaimList c x).claims = upd s.claims c x := rfl
@[simp] theorem setClaimList_waiting (s : State) (c : Chan) (x : List Claim) : (s.setClaimList c x).waiting = s.waiting := rfl
@[simp] theorem setClaimList_holdsDue (s : State) (c : Chan) (x : List Claim) : (s.setClaimList c x).holdsDue = s.holdsDue := rfl
@[simp] theorem setClaimList_inputs (s : State) (c : Chan) (x : List Claim) : (s.setClaimList c x).inputs = s.inputs := rfl
@[simp] theorem setClaimList_events (s : State) (c : Chan) (x : List Claim) : (s.setClaimList c x).events = s.events := rfl
@[simp] theorem setClaimList_applying (s : State) (c : Chan) (x : List Claim) : (s.setClaimList c x).applying = s.applying := rfl
@[simp] theorem setClaimList_heldDue (s : State) (c : Chan) (x : List Claim) : (s.setClaimList c x).heldDue = s.heldDue := rfl
@[simp] theorem setClaimList_channels (s : State) (c : Chan) (x : List Claim) : (s.setClaimList c x).channels = s.channels := rfl
@[simp] theorem setClaimList_freezeMask (s : State) (c : Chan) (x : List Claim) : (s.setClaimList c x).freezeMask = s.freezeMask := rfl
@[simp] theorem setClaimList_freezeSeq (s : State) (c : Chan) (x : List Claim) : (s.setClaimList c x).freezeSeq = s.freezeSeq := rfl
@[simp] theorem setClaimList_generators (s : State) (c : Chan) (x : List Claim) : (s.setClaimList c x).generators = s.generators := rfl
@[simp] theorem setClaimList_scrub (s : State) (c : Chan) (x : List Claim) : (s.setClaimList c x).scrub = s.scrub := rfl
@[simp] theorem setClaimList_scrubDue (s : State) (c : Chan) (x : List Claim) : (s.setClaimList c x).scrubDue = s.scrubDue := rfl
@[simp] theorem setClaimList_compareDue (s : State) (c : Chan) (x : List Claim) : (s.setClaimList c x).compareDue = s.compareDue := rfl
@[simp] theorem setClaimList_faultsDue (s : State) (c : Chan) (x : List Claim) : (s.setClaimList c x).faultsDue = s.faultsDue := rfl
@[simp] theorem setClaimList_port (s : State) (c : Chan) (x : List Claim) : (s.setClaimList c x).port = s.port := rfl
@[simp] theorem setClaimList_notices (s : State) (c : Chan) (x : List Claim) : (s.setClaimList c x).notices = s.notices := rfl
@[simp] theorem setClaimList_mask (s : State) (c : Chan) (x : List Claim) : (s.setClaimList c x).mask = s.mask := rfl
@[simp] theorem setClaimList_msTime (s : State) (c : Chan) (x : List Claim) : (s.setClaimList c x).msTime = s.msTime := rfl
@[simp] theorem setClaimList_publishOrders (s : State) (c : Chan) (x : List Claim) : (s.setClaimList c x).publishOrders = s.publishOrders := rfl
@[simp] theorem setClaimList_reinits (s : State) (c : Chan) (x : List Claim) : (s.setClaimList c x).reinits = s.reinits := rfl
@[simp] theorem setClaimList_micros (s : State) (c : Chan) (x : List Claim) : (s.setClaimList c x).micros = s.micros := rfl
@[simp] theorem setClaimList_pending (s : State) (c : Chan) (x : List Claim) : (s.setClaimList c x).pending = s.pending := rfl

@[simp] theorem setClaimList_record (s : State) (c : Chan) (x : List Claim) (j : RecNo) : (s.setClaimList c x).record j = s.record j := rfl
@[simp] theorem setClaimList_rule (s : State) (c : Chan) (x : List Claim) (j : RuleNo) : (s.setClaimList c x).rule j = s.rule j := rfl
@[simp] theorem setClaimList_inputConfig (s : State) (c : Chan) (x : List Claim) (j : InputNo) : (s.setClaimList c x).inputConfig j = s.inputConfig j := rfl
@[simp] theorem setClaimList_input (s : State) (c : Chan) (x : List Claim) (j : InputNo) : (s.setClaimList c x).input j = s.input j := rfl
@[simp] theorem setClaimList_config (s : State) (c : Chan) (x : List Claim) (j : Chan) : (s.setClaimList c x).config j = s.config j := rfl
@[simp] theorem setClaimList_channel (s : State) (c : Chan) (x : List Claim) (j : Chan) : (s.setClaimList c x).channel j = s.channel j := rfl
@[simp] theorem setClaimList_generator (s : State) (c : Chan) (x : List Claim) (j : GenNo) : (s.setClaimList c x).generator j = s.generator j := rfl
@[simp] theorem setClaimList_switch (s : State) (c : Chan) (x : List Claim) (j : Chan) : (s.setClaimList c x).switch j = s.switch j := rfl
@[simp] theorem setClaimList_claimList_same (s : State) (c : Chan) (x : List Claim) : (s.setClaimList c x).claimList c = x := nth_upd_same _ _ _
@[simp] theorem setClaimList_claimList_other (s : State) {c j : Chan} (x : List Claim) (h : j ≠ c) :
    (s.setClaimList c x).claimList j = s.claimList j := nth_upd_other _ _ h

/-! ### raise -/

@[simp] theorem raise_calendar (s : State) (k : NoticeKind) (j : Nat) : (s.raise k j).calendar = s.calendar := by
  unfold raise; split <;> rfl
@[simp] theorem raise_records (s : State) (k : NoticeKind) (j : Nat) : (s.raise k j).records = s.records := by
  unfold raise; split <;> rfl
@[simp] theorem raise_rules (s : State) (k : NoticeKind) (j : Nat) : (s.raise k j).rules = s.rules := by
  unfold raise; split <;> rfl
@[simp] theorem raise_inputConfigs (s : State) (k : NoticeKind) (j : Nat) : (s.raise k j).inputConfigs = s.inputConfigs := by
  unfold raise; split <;> rfl
@[simp] theorem raise_channelConfigs (s : State) (k : NoticeKind) (j : Nat) : (s.raise k j).channelConfigs = s.channelConfigs := by
  unfold raise; split <;> rfl
@[simp] theorem raise_switches (s : State) (k : NoticeKind) (j : Nat) : (s.raise k j).switches = s.switches := by
  unfold raise; split <;> rfl
@[simp] theorem raise_dimFreq (s : State) (k : NoticeKind) (j : Nat) : (s.raise k j).dimFreq = s.dimFreq := by
  unfold raise; split <;> rfl
@[simp] theorem raise_mainPower (s : State) (k : NoticeKind) (j : Nat) : (s.raise k j).mainPower = s.mainPower := by
  unfold raise; split <;> rfl
@[simp] theorem raise_inputPins (s : State) (k : NoticeKind) (j : Nat) : (s.raise k j).inputPins = s.inputPins := by
  unfold raise; split <;> rfl
@[simp] theorem raise_evaluator (s : State) (k : NoticeKind) (j : Nat) : (s.raise k j).evaluator = s.evaluator := by
  unfold raise; split <;> rfl
@[simp] theorem raise_claims (s : State) (k : NoticeKind) (j : Nat) : (s.raise k j).claims = s.claims := by
  unfold raise; split <;> rfl
@[simp] theorem raise_waiting (s : State) (k : NoticeKind) (j : Nat) : (s.raise k j).waiting = s.waiting := by
  unfold raise; split <;> rfl
@[simp] theorem raise_holdsDue (s : State) (k : NoticeKind) (j : Nat) : (s.raise k j).holdsDue = s.holdsDue := by
  unfold raise; split <;> rfl
@[simp] theorem raise_inputs (s : State) (k : NoticeKind) (j : Nat) : (s.raise k j).inputs = s.inputs := by
  unfold raise; split <;> rfl
@[simp] theorem raise_events (s : State) (k : NoticeKind) (j : Nat) : (s.raise k j).events = s.events := by
  unfold raise; split <;> rfl
@[simp] theorem raise_applying (s : State) (k : NoticeKind) (j : Nat) : (s.raise k j).applying = s.applying := by
  unfold raise; split <;> rfl
@[simp] theorem raise_heldDue (s : State) (k : NoticeKind) (j : Nat) : (s.raise k j).heldDue = s.heldDue := by
  unfold raise; split <;> rfl
@[simp] theorem raise_channels (s : State) (k : NoticeKind) (j : Nat) : (s.raise k j).channels = s.channels := by
  unfold raise; split <;> rfl
@[simp] theorem raise_freezeMask (s : State) (k : NoticeKind) (j : Nat) : (s.raise k j).freezeMask = s.freezeMask := by
  unfold raise; split <;> rfl
@[simp] theorem raise_freezeSeq (s : State) (k : NoticeKind) (j : Nat) : (s.raise k j).freezeSeq = s.freezeSeq := by
  unfold raise; split <;> rfl
@[simp] theorem raise_generators (s : State) (k : NoticeKind) (j : Nat) : (s.raise k j).generators = s.generators := by
  unfold raise; split <;> rfl
@[simp] theorem raise_scrub (s : State) (k : NoticeKind) (j : Nat) : (s.raise k j).scrub = s.scrub := by
  unfold raise; split <;> rfl
@[simp] theorem raise_scrubDue (s : State) (k : NoticeKind) (j : Nat) : (s.raise k j).scrubDue = s.scrubDue := by
  unfold raise; split <;> rfl
@[simp] theorem raise_compareDue (s : State) (k : NoticeKind) (j : Nat) : (s.raise k j).compareDue = s.compareDue := by
  unfold raise; split <;> rfl
@[simp] theorem raise_faultsDue (s : State) (k : NoticeKind) (j : Nat) : (s.raise k j).faultsDue = s.faultsDue := by
  unfold raise; split <;> rfl
@[simp] theorem raise_port (s : State) (k : NoticeKind) (j : Nat) : (s.raise k j).port = s.port := by
  unfold raise; split <;> rfl
@[simp] theorem raise_mask (s : State) (k : NoticeKind) (j : Nat) : (s.raise k j).mask = s.mask := by
  unfold raise; split <;> rfl
@[simp] theorem raise_msTime (s : State) (k : NoticeKind) (j : Nat) : (s.raise k j).msTime = s.msTime := by
  unfold raise; split <;> rfl
@[simp] theorem raise_publishOrders (s : State) (k : NoticeKind) (j : Nat) : (s.raise k j).publishOrders = s.publishOrders := by
  unfold raise; split <;> rfl
@[simp] theorem raise_reinits (s : State) (k : NoticeKind) (j : Nat) : (s.raise k j).reinits = s.reinits := by
  unfold raise; split <;> rfl
@[simp] theorem raise_micros (s : State) (k : NoticeKind) (j : Nat) : (s.raise k j).micros = s.micros := by
  unfold raise; split <;> rfl
@[simp] theorem raise_pending (s : State) (k : NoticeKind) (j : Nat) : (s.raise k j).pending = s.pending := by
  unfold raise; split <;> rfl

@[simp] theorem raise_record (s : State) (k : NoticeKind) (j : Nat) (i : RecNo) : (s.raise k j).record i = s.record i := by
  simp [record]
@[simp] theorem raise_rule (s : State) (k : NoticeKind) (j : Nat) (i : RuleNo) : (s.raise k j).rule i = s.rule i := by
  simp [rule]
@[simp] theorem raise_inputConfig (s : State) (k : NoticeKind) (j : Nat) (i : InputNo) : (s.raise k j).inputConfig i = s.inputConfig i := by
  simp [inputConfig]
@[simp] theorem raise_input (s : State) (k : NoticeKind) (j : Nat) (i : InputNo) : (s.raise k j).input i = s.input i := by
  simp [input]
@[simp] theorem raise_config (s : State) (k : NoticeKind) (j : Nat) (i : Chan) : (s.raise k j).config i = s.config i := by
  simp [config]
@[simp] theorem raise_channel (s : State) (k : NoticeKind) (j : Nat) (i : Chan) : (s.raise k j).channel i = s.channel i := by
  simp [channel]
@[simp] theorem raise_generator (s : State) (k : NoticeKind) (j : Nat) (i : GenNo) : (s.raise k j).generator i = s.generator i := by
  simp [generator]
@[simp] theorem raise_switch (s : State) (k : NoticeKind) (j : Nat) (i : Chan) : (s.raise k j).switch i = s.switch i := by
  simp [switch]
@[simp] theorem raise_claimList (s : State) (k : NoticeKind) (j : Nat) (i : Chan) : (s.raise k j).claimList i = s.claimList i := by
  simp [claimList]

/-- A raise with main power present puts the raised entry in the kind's place (R179). -/
theorem raise_powered (s : State) (k : NoticeKind) (j : Nat) (h : s.mainPower = true) :
    s.raise k j = { s with notices := upd s.notices k.code ((s.notice k).raised j) } := by
  simp [raise, h]

end Sys2Proof.Machine.State
end

