-- ==== Sys2Proof/Laws/Channels.lean ====
section
/-!
SUPPORT. What the operations of the load channels, the generator pool and the feedback check can change: channels, generators, switch counters,
notices, and the free orders they use; everything else stands.
-/

namespace Sys2Proof.Machine

/-- What is left of a list without its repetitions names nothing twice. -/
theorem nodup_eraseDups {α : Type} [BEq α] [LawfulBEq α] (l : List α) : l.eraseDups.Nodup := by
  induction hn : l.length using Nat.strongRecOn generalizing l with
  | ind n ih =>
    cases l with
    | nil => simp
    | cons a l =>
      rw [List.eraseDups_cons, List.nodup_cons]
      refine ⟨by simp, ih _ ?_ _ rfl⟩
      have := List.length_filter_le (fun b => !b == a) l
      simp only [List.length_cons] at hn
      omega

/-- `t` differs from `s` at most in channels, generators, switch counters, notices and free orders. -/
def ChannelFrame (s t : State) : Prop :=
  ∃ ch gs sw no po, t = { s with channels := ch, generators := gs, switches := sw, notices := no, publishOrders := po }

namespace ChannelFrame

theorem refl (s : State) : ChannelFrame s s := ⟨_, _, _, _, _, rfl⟩

theorem trans {s t u : State} (h1 : ChannelFrame s t) (h2 : ChannelFrame t u) : ChannelFrame s u := by
  obtain ⟨_, _, _, _, _, rfl⟩ := h1
  obtain ⟨_, _, _, _, _, rfl⟩ := h2
  exact ⟨_, _, _, _, _, rfl⟩

theorem setChannel (s : State) (c : Chan) (x : Channel) : ChannelFrame s (s.setChannel c x) := ⟨_, _, _, _, _, rfl⟩

theorem setGenerator (s : State) (g : GenNo) (x : Generator) : ChannelFrame s (s.setGenerator g x) := ⟨_, _, _, _, _, rfl⟩

theorem setSwitch (s : State) (c : Chan) (x : SwitchCounter) : ChannelFrame s (s.setSwitch c x) := ⟨_, _, _, _, _, rfl⟩

theorem raise (s : State) (k : NoticeKind) (j : Nat) : ChannelFrame s (s.raise k j) := by
  unfold State.raise
  split
  · exact ⟨_, _, _, _, _, rfl⟩
  · exact refl s

theorem foldl {α : Type} {f : State → α → State} (hf : ∀ s a, ChannelFrame s (f s a)) (l : List α) (s : State) :
    ChannelFrame s (l.foldl f s) := by
  induction l generalizing s with
  | nil => exact refl s
  | cons a l ih => exact (hf s a).trans (ih (f s a))

variable {s t : State}

theorem calendar (h : ChannelFrame s t) : t.calendar = s.calendar := by obtain ⟨_, _, _, _, _, rfl⟩ := h; rfl
theorem records (h : ChannelFrame s t) : t.records = s.records := by obtain ⟨_, _, _, _, _, rfl⟩ := h; rfl
theorem rules (h : ChannelFrame s t) : t.rules = s.rules := by obtain ⟨_, _, _, _, _, rfl⟩ := h; rfl
theorem channelConfigs (h : ChannelFrame s t) : t.channelConfigs = s.channelConfigs := by obtain ⟨_, _, _, _, _, rfl⟩ := h; rfl
theorem mainPower (h : ChannelFrame s t) : t.mainPower = s.mainPower := by obtain ⟨_, _, _, _, _, rfl⟩ := h; rfl
theorem evaluator (h : ChannelFrame s t) : t.evaluator = s.evaluator := by obtain ⟨_, _, _, _, _, rfl⟩ := h; rfl
theorem claims (h : ChannelFrame s t) : t.claims = s.claims := by obtain ⟨_, _, _, _, _, rfl⟩ := h; rfl
theorem waiting (h : ChannelFrame s t) : t.waiting = s.waiting := by obtain ⟨_, _, _, _, _, rfl⟩ := h; rfl
theorem port (h : ChannelFrame s t) : t.port = s.port := by obtain ⟨_, _, _, _, _, rfl⟩ := h; rfl
theorem pending (h : ChannelFrame s t) : t.pending = s.pending := by obtain ⟨_, _, _, _, _, rfl⟩ := h; rfl

theorem record (h : ChannelFrame s t) (n : RecNo) : t.record n = s.record n := by simp [State.record, h.records]
theorem config (h : ChannelFrame s t) (c : Chan) : t.config c = s.config c := by simp [State.config, h.channelConfigs]
theorem claimList (h : ChannelFrame s t) (c : Chan) : t.claimList c = s.claimList c := by simp [State.claimList, h.claims]

end ChannelFrame

theorem countSwitch_frame (c : Chan) (s : State) : ChannelFrame s (countSwitch c s) := by
  unfold countSwitch
  dsimp only
  split
  · exact (ChannelFrame.setSwitch _ _ _).trans (ChannelFrame.raise _ _ _)
  · exact ChannelFrame.setSwitch _ _ _

theorem driveSteady_frame (c : Chan) (b : Bool) (s : State) : ChannelFrame s (driveSteady c b s) := ChannelFrame.setChannel _ _ _

theorem setLink_frame (c : Chan) (l : Link) (s : State) : ChannelFrame s (setLink c l s) := ChannelFrame.setChannel _ _ _

theorem startGenerator_frame (g : GenNo) (c : Chan) (p : Params) (s : State) : ChannelFrame s (startGenerator g c p s) :=
  (ChannelFrame.setGenerator _ _ _).trans (ChannelFrame.setChannel _ _ _)

theorem grantNext_frame (g : GenNo) (s : State) : ChannelFrame s (grantNext g s) := by
  unfold grantNext
  split
  · exact ChannelFrame.refl s
  · split
    · exact startGenerator_frame _ _ _ _
    · exact ChannelFrame.refl s

theorem requestGenerator_frame (c : Chan) (p : Params) (s : State) : ChannelFrame s (requestGenerator c p s) := by
  unfold requestGenerator
  split
  · exact startGenerator_frame _ _ _ _
  · exact ((setLink_frame _ _ _).trans (driveSteady_frame _ _ _)).trans (ChannelFrame.raise _ _ _)

theorem stage_frame (g : GenNo) (p : Params) (s : State) : ChannelFrame s (stage g p s) := by
  unfold stage
  split
  · exact ChannelFrame.refl s
  · exact ChannelFrame.setGenerator _ _ _

theorem release_frame (g : GenNo) (s : State) : ChannelFrame s (release g s) := by
  unfold release
  split
  · exact ChannelFrame.refl s
  · exact ChannelFrame.setGenerator _ _ _

theorem leavePool_frame (c : Chan) (s : State) : ChannelFrame s (leavePool c s) := by
  unfold leavePool
  split
  · exact ChannelFrame.refl s
  · exact setLink_frame _ _ _
  · exact ((setLink_frame _ _ _).trans (ChannelFrame.setGenerator _ _ _)).trans (grantNext_frame _ _)

theorem deriveSteady_frame (c : Chan) (s : State) : ChannelFrame s (deriveSteady c s) := by
  unfold deriveSteady
  dsimp only
  split
  · exact requestGenerator_frame _ _ _
  · exact stage_frame _ _ _
  · exact driveSteady_frame _ _ _
  · exact driveSteady_frame _ _ _
  · exact release_frame _ _
  · exact (setLink_frame _ _ _).trans (driveSteady_frame _ _ _)

theorem startPulse_frame (c : Chan) (on counts : Bool) (s : State) : ChannelFrame s (startPulse c on counts s) :=
  ChannelFrame.setChannel _ _ _

theorem derivePulse_frame (c : Chan) (d : Bool) (s : State) : ChannelFrame s (derivePulse c d s) := by
  unfold derivePulse
  dsimp only
  split
  · exact ChannelFrame.refl s
  · exact startPulse_frame _ _ _ _
  · split
    · exact startPulse_frame _ _ _ _
    · exact ChannelFrame.refl s
  · split
    · exact ChannelFrame.refl s
    · exact startPulse_frame _ _ _ _
  · exact ChannelFrame.setChannel _ _ _

theorem deriveDrive_frame (c : Chan) (d : Bool) (s : State) : ChannelFrame s (deriveDrive c d s) := by
  unfold deriveDrive
  split
  · exact derivePulse_frame _ _ _
  · exact deriveSteady_frame _ _
  · exact deriveSteady_frame _ _

theorem takePresent_frame (c : Chan) (d : Demand) (s : State) : ChannelFrame s (takePresent c d s) := by
  unfold takePresent
  dsimp only
  split
  · exact (ChannelFrame.setChannel _ _ _).trans (countSwitch_frame _ _)
  · exact ChannelFrame.setChannel _ _ _

theorem takeDemand_frame (c : Chan) (d : Demand) (s : State) : ChannelFrame s (takeDemand c d s) := by
  unfold takeDemand
  dsimp only
  split
  · exact (takePresent_frame _ _ _).trans (deriveDrive_frame _ _ _)
  · exact takePresent_frame _ _ _

theorem countPulse_frame (c : Chan) (b : Bool) (s : State) : ChannelFrame s (countPulse c b s) := by
  unfold countPulse
  split
  · exact countSwitch_frame _ _
  · exact ChannelFrame.refl s

theorem completePulse_frame (c : Chan) (s : State) : ChannelFrame s (completePulse c s) := by
  unfold completePulse
  dsimp only
  split
  · split
    · exact ((ChannelFrame.setChannel _ _ _).trans (countPulse_frame _ _ _)).trans (startPulse_frame _ _ _ _)
    · exact (ChannelFrame.setChannel _ _ _).trans (countPulse_frame _ _ _)
  · exact ChannelFrame.refl s

theorem endRelease_frame (g : GenNo) (c : Chan) (s : State) : ChannelFrame s (endRelease g c s) :=
  (((ChannelFrame.setGenerator _ _ _).trans (setLink_frame _ _ _)).trans (driveSteady_frame _ _ _)).trans (grantNext_frame _ _)

theorem endPeriod_frame (g : GenNo) (s : State) : ChannelFrame s (endPeriod g s) := by
  unfold endPeriod
  split
  · exact ChannelFrame.refl s
  · split
    · exact endRelease_frame _ _ _
    · exact ChannelFrame.setGenerator _ _ _

theorem faultChannel_frame (c : Chan) (s : State) : ChannelFrame s (faultChannel c s) :=
  ((ChannelFrame.setChannel _ _ _).trans (leavePool_frame _ _)).trans (ChannelFrame.raise _ _ _)

/-- `t` differs from `s` at most in what `ChannelFrame` lets differ, and in which faults are due (R166; log 35). -/
def FaultFrame (s t : State) : Prop := ∃ fd, ChannelFrame { s with faultsDue := fd } t

theorem ChannelFrame.fault {s t : State} (h : ChannelFrame s t) : FaultFrame s t := ⟨s.faultsDue, h⟩

theorem takeFault_frame (c : Chan) (s : State) : FaultFrame s (takeFault c s) := ⟨_, faultChannel_frame _ _⟩

theorem mismatch_frame (late : Bool) (c : Chan) (s : State) : FaultFrame s (mismatch late c s) := by
  unfold mismatch
  split
  · exact ⟨_, ChannelFrame.refl _⟩
  · exact takeFault_frame _ _

theorem settleCompare_frame (c : Chan) (b late : Bool) (s : State) : FaultFrame s (settleCompare c b late s) := by
  unfold settleCompare
  split
  · split
    · exact (ChannelFrame.setChannel _ _ _).fault
    · exact mismatch_frame _ _ _
  · exact (ChannelFrame.refl s).fault

theorem endSettle_frame (c : Chan) (b late : Bool) (s : State) : FaultFrame s (endSettle c b late s) := by
  unfold endSettle
  split
  · split
    · exact (ChannelFrame.refl s).fault
    · exact takeFault_frame _ _
  · exact settleCompare_frame _ _ _ _

theorem steadyCompare_frame (held : List PinHold) (c : Chan) (s : State) : FaultFrame s (steadyCompare held c s) := by
  unfold steadyCompare
  split
  · split
    · exact (ChannelFrame.refl s).fault
    · exact mismatch_frame _ _ _
  · exact (ChannelFrame.refl s).fault

theorem publishOne_frame (s : State) (c : Chan) : ChannelFrame s (publishOne s c) := by
  unfold publishOne
  split
  · exact ChannelFrame.refl s
  · exact takeDemand_frame _ _ _

theorem takeOrder_frame (s : State) : ChannelFrame s (takeOrder s).2 := by
  unfold takeOrder
  split
  · exact ChannelFrame.refl s
  · exact ⟨_, _, _, _, _, rfl⟩

/-- The publications of an operation change nothing but channels, generators, counters, notices and the free orders (R78, R127). -/
theorem publish_frame (s : State) : ChannelFrame s (publish s) :=
  (takeOrder_frame s).trans (ChannelFrame.foldl publishOne_frame _ _)

theorem deriveAll_frame (s : State) : ChannelFrame s (deriveAll s) :=
  (takeOrder_frame s).trans (ChannelFrame.foldl (fun t c => deriveDrive_frame c true t) _ _)

end Sys2Proof.Machine
end

