-- ==== Sys2Proof/Laws/Table.lean ====
section
/-!
SUPPORT. What the operations of the claim arbiter, the integrity check of a record and the window evaluator's procedures can change: records,
claim lists, the waiting list, and what the channels' operations change; everything else stands.
-/

namespace Sys2Proof.Machine

/-- `t` differs from `s` at most in records, claim lists, the waiting list, and what `ChannelFrame` lets differ. -/
def TableFrame (s t : State) : Prop :=
  ∃ re cl wa ch gs sw no po, t = { s with
    records := re, claims := cl, waiting := wa, channels := ch, generators := gs, switches := sw, notices := no, publishOrders := po }

theorem ChannelFrame.table {s t : State} (h : ChannelFrame s t) : TableFrame s t := by
  obtain ⟨_, _, _, _, _, rfl⟩ := h
  exact ⟨_, _, _, _, _, _, _, _, rfl⟩

namespace TableFrame

theorem refl (s : State) : TableFrame s s := (ChannelFrame.refl s).table

theorem trans {s t u : State} (h1 : TableFrame s t) (h2 : TableFrame t u) : TableFrame s u := by
  obtain ⟨_, _, _, _, _, _, _, _, rfl⟩ := h1
  obtain ⟨_, _, _, _, _, _, _, _, rfl⟩ := h2
  exact ⟨_, _, _, _, _, _, _, _, rfl⟩

theorem setRecord (s : State) (n : RecNo) (x : Record) : TableFrame s (s.setRecord n x) := ⟨_, _, _, _, _, _, _, _, rfl⟩

theorem setClaimList (s : State) (c : Chan) (x : List Claim) : TableFrame s (s.setClaimList c x) := ⟨_, _, _, _, _, _, _, _, rfl⟩

theorem setWaiting (s : State) (x : List RecNo) : TableFrame s { s with waiting := x } := ⟨_, _, _, _, _, _, _, _, rfl⟩

theorem raise (s : State) (k : NoticeKind) (j : Nat) : TableFrame s (s.raise k j) := (ChannelFrame.raise s k j).table

theorem foldl {α : Type} {f : State → α → State} (hf : ∀ s a, TableFrame s (f s a)) (l : List α) (s : State) :
    TableFrame s (l.foldl f s) := by
  induction l generalizing s with
  | nil => exact refl s
  | cons a l ih => exact (hf s a).trans (ih (f s a))

variable {s t : State}

theorem calendar (h : TableFrame s t) : t.calendar = s.calendar := by obtain ⟨_, _, _, _, _, _, _, _, rfl⟩ := h; rfl
theorem rules (h : TableFrame s t) : t.rules = s.rules := by obtain ⟨_, _, _, _, _, _, _, _, rfl⟩ := h; rfl
theorem channelConfigs (h : TableFrame s t) : t.channelConfigs = s.channelConfigs := by
  obtain ⟨_, _, _, _, _, _, _, _, rfl⟩ := h; rfl
theorem mainPower (h : TableFrame s t) : t.mainPower = s.mainPower := by obtain ⟨_, _, _, _, _, _, _, _, rfl⟩ := h; rfl
theorem evaluator (h : TableFrame s t) : t.evaluator = s.evaluator := by obtain ⟨_, _, _, _, _, _, _, _, rfl⟩ := h; rfl
theorem port (h : TableFrame s t) : t.port = s.port := by obtain ⟨_, _, _, _, _, _, _, _, rfl⟩ := h; rfl
theorem freezeSeq (h : TableFrame s t) : t.freezeSeq = s.freezeSeq := by obtain ⟨_, _, _, _, _, _, _, _, rfl⟩ := h; rfl
theorem pending (h : TableFrame s t) : t.pending = s.pending := by obtain ⟨_, _, _, _, _, _, _, _, rfl⟩ := h; rfl

theorem config (h : TableFrame s t) (c : Chan) : t.config c = s.config c := by simp [State.config, h.channelConfigs]

end TableFrame

theorem countRecord_frame (n : RecNo) (s : State) : TableFrame s (countRecord n s) := by
  unfold countRecord
  dsimp only
  split
  · exact (TableFrame.setRecord _ _ _).trans (TableFrame.raise _ _ _)
  · exact TableFrame.setRecord _ _ _

theorem placeOne_frame (q : Request) (s : State) (x : Chan × BitVec 8) : TableFrame s (placeOne q s x) := TableFrame.setClaimList _ _ _

theorem place_frame (q : Request) (s : State) : TableFrame s (place q s) := TableFrame.foldl (placeOne_frame q) _ _

theorem request_frame (q : Request) {s t : State} (h : request q s = some t) : TableFrame s t := by
  unfold request at h
  split at h
  · cases h
    exact (place_frame q s).trans (publish_frame _).table
  · cases h

theorem placeRecord_frame (n : RecNo) (s : State) : TableFrame s (placeRecord n s) := by
  unfold placeRecord
  split
  · exact TableFrame.refl s
  · exact place_frame _ _

theorem setRecState_frame (n : RecNo) (st : RecState) (s : State) : TableFrame s (setRecState n st s) := TableFrame.setRecord _ _ _

theorem markQuarantined_frame (n : RecNo) (s : State) : TableFrame s (markQuarantined n s) :=
  (TableFrame.setRecord _ _ _).trans (TableFrame.raise _ _ _)

theorem serve_frame (l : List RecNo) (s : State) : TableFrame s (serve l s) := by
  induction l generalizing s with
  | nil => exact TableFrame.refl s
  | cons n rest ih =>
    unfold serve
    split
    · split
      · exact (((TableFrame.setWaiting s rest).trans (placeRecord_frame _ _)).trans (setRecState_frame _ _ _)).trans (ih _)
      · exact TableFrame.refl s
    · exact ((TableFrame.setWaiting s rest).trans (markQuarantined_frame _ _)).trans (ih _)

theorem serveWaiting_frame (s : State) : TableFrame s (serveWaiting s) := serve_frame _ _

theorem keepClaims_frame (keep : Chan → Claim → Bool) (s : State) : TableFrame s (keepClaims keep s) := ⟨_, _, _, _, _, _, _, _, rfl⟩

/-- The service of the waiting list and the publications that close an operation change nothing outside the table and the channels. -/
theorem publish_serveWaiting_frame (s : State) : TableFrame s (publish (serveWaiting s)) :=
  (serveWaiting_frame s).trans (publish_frame _).table

theorem withdraw_frame (n : RecNo) (s : State) : TableFrame s (withdraw n s) :=
  (keepClaims_frame _ s).trans (publish_serveWaiting_frame _)

theorem removeWaiting_frame (n : RecNo) (s : State) : TableFrame s (removeWaiting n s) := by
  unfold removeWaiting
  dsimp only
  split
  · exact (TableFrame.setWaiting s _).trans (publish_serveWaiting_frame _)
  · exact TableFrame.setWaiting s _

theorem selectiveRemoval_frame (chans : List Chan) (cond : Claim → Bool) (s : State) : TableFrame s (selectiveRemoval chans cond s) := by
  unfold selectiveRemoval
  dsimp only
  split
  · exact TableFrame.refl s
  · exact (keepClaims_frame _ s).trans (publish_serveWaiting_frame _)

theorem holdCountdown_frame (s : State) : TableFrame s (holdCountdown s) := by
  have h0 : TableFrame s { s with claims := tabulate fun c => (s.claimList c).filterMap countDown } := ⟨_, _, _, _, _, _, _, _, rfl⟩
  unfold holdCountdown
  dsimp only
  split
  · exact h0
  · exact h0.trans (publish_serveWaiting_frame _)

theorem quarantine_frame (n : RecNo) (s : State) : TableFrame s (quarantine n s) := by
  unfold quarantine
  split
  · exact (withdraw_frame _ _).trans (markQuarantined_frame _ _)
  · exact (removeWaiting_frame _ _).trans (markQuarantined_frame _ _)
  · exact markQuarantined_frame _ _
  · exact markQuarantined_frame _ _
  · exact markQuarantined_frame _ _
  · exact TableFrame.refl s
  · exact TableFrame.refl s

theorem checkRecord_frame (n : RecNo) (s : State) : TableFrame s (checkRecord n s) := by
  unfold checkRecord
  split
  · exact TableFrame.refl s
  · exact quarantine_frame _ _

theorem requestOpening_frame (n : RecNo) (s : State) : TableFrame s (requestOpening n s) := by
  unfold requestOpening
  split
  · exact ((placeRecord_frame _ _).trans (setRecState_frame _ _ _)).trans (publish_frame _).table
  · exact ((TableFrame.setWaiting s _).trans (setRecState_frame _ _ _)).trans (TableFrame.raise _ _ _)

theorem openRecord_frame (n : RecNo) (s : State) : TableFrame s (openRecord n s) := by
  unfold openRecord
  split
  · exact (countRecord_frame _ _).trans (requestOpening_frame _ _)
  · exact quarantine_frame _ _

theorem leaveWindow_frame (n : RecNo) (s : State) : TableFrame s (leaveWindow n s) := by
  unfold leaveWindow
  split
  · exact withdraw_frame _ _
  · exact removeWaiting_frame _ _
  · exact TableFrame.refl s

theorem closeRecord_frame (n : RecNo) (s : State) : TableFrame s (closeRecord n s) := by
  unfold closeRecord
  dsimp only
  refine TableFrame.trans (leaveWindow_frame n s) (TableFrame.trans ?_ (TableFrame.setRecord _ _ _))
  split
  · exact TableFrame.raise _ _ _
  · exact TableFrame.refl _

theorem spendRecord_frame (n : RecNo) (s : State) : TableFrame s (spendRecord n s) :=
  (setRecState_frame _ _ _).trans (TableFrame.raise _ _ _)

theorem closeIfOutside_frame (m : Moment) (n : RecNo) (s : State) : TableFrame s (closeIfOutside m n s) := by
  unfold closeIfOutside
  dsimp only
  split
  · exact closeRecord_frame _ _
  · exact TableFrame.refl s

theorem testArmed_frame (opens : Content → Moment → Bool) (m : Moment) (n : RecNo) (s : State) :
    TableFrame s (testArmed opens m n s) := by
  unfold testArmed
  dsimp only
  split
  · exact TableFrame.refl s
  · split
    · split
      · exact openRecord_frame _ _
      · split
        · exact spendRecord_frame _ _
        · exact TableFrame.refl s
    · exact TableFrame.refl s

/-- One visit of a pass changes nothing outside the table and the channels (R53). -/
theorem visit_frame (k : PassKind) (m : Moment) (n : RecNo) (s : State) : TableFrame s (visit k m n s) :=
  (closeIfOutside_frame m n s).trans (testArmed_frame _ _ _ _)

/-- A single-record evaluation changes nothing outside the table and the channels (R68). -/
theorem evaluateRecord_frame (n : RecNo) (s : State) : TableFrame s (evaluateRecord n s) := by
  unfold evaluateRecord
  split
  · split
    · exact testArmed_frame _ _ _ _
    · exact TableFrame.refl s
  · exact TableFrame.refl s

end Sys2Proof.Machine
end

