-- ==== Sys2Proof/Laws/Lines.lean ====
section
/-!
SUPPORT. How a line command is carried out and answered, for every command at once: the queue stands; when the line is carried out, the outcome
is the body's, answered on the port; no body touches the port.
-/

namespace Sys2Proof.Machine

/-- `t` has the port, the queue and the main power of `s`. -/
def PortFrame (s t : State) : Prop := t.port = s.port ∧ t.pending = s.pending ∧ t.mainPower = s.mainPower

theorem PortFrame.refl (s : State) : PortFrame s s := ⟨rfl, rfl, rfl⟩

theorem PortFrame.trans {s t u : State} (h1 : PortFrame s t) (h2 : PortFrame t u) : PortFrame s u :=
  ⟨h2.1.trans h1.1, h2.2.1.trans h1.2.1, h2.2.2.trans h1.2.2⟩

theorem TableFrame.port_frame {s t : State} (h : TableFrame s t) : PortFrame s t := ⟨h.port, h.pending, h.mainPower⟩

theorem ChannelFrame.port_frame {s t : State} (h : ChannelFrame s t) : PortFrame s t := h.table.port_frame

/-- A taken line leaves everything but the port, and the queue with it. -/
theorem takeLine_some {t : Text} {o : Bool} {s s1 : State} (h : takeLine t o s = some s1) : s1 = { s with port := s1.port } := by
  unfold takeLine at h
  split at h
  · split at h
    · split at h
      · cases h; rfl
      · cases h
    · split at h
      · cases h; rfl
      · cases h
  · cases h

/-- A line command leaves the queue as it is. -/
theorem carryOut_pending (word : Text) (fields : List Text) (body : State → Reply) (s : State)
    (hb : ∀ u, (body u).state.pending = u.pending) : (carryOut word fields body s).pending = s.pending := by
  unfold carryOut
  split
  · split
    · rfl
    · rename_i s1 h
      have := takeLine_some h
      simp only [answer, hb, endSequence]
      rw [this]
  · rfl

theorem answerLine_pending (t : Text) (o : Bool) (st : Status) (s : State) : (answerLine t o st s).pending = s.pending := by
  unfold answerLine
  split
  · rfl
  · rename_i s1 h
    have := takeLine_some h
    simp only [answer, refuse, endSequence]
    rw [this]

/-- A line that is carried out now is taken, and the port then has it in execution. -/
theorem takeLine_taken {word : Text} {fields : List Text} {s : State} (h : lineTaken word fields s = true) :
    takeLine (lineText word fields) false s = some { s with port := inExecution (lineText word fields) s.port } := by
  simp only [lineTaken, portReady, Bool.and_eq_true, decide_eq_true_eq] at h
  obtain ⟨⟨⟨⟨hp, -⟩, hpl⟩, hlen⟩, ⟨⟨hr, hl⟩, ho⟩, hport⟩ := h
  have hre : s.port.reinit = 0 := by simpa using hr
  have hline : s.port.line = [] := by simpa using hl
  have hover : s.port.overlength = false := by simpa using ho
  have htake : (lineText word fields).take Config.lineMax = lineText word fields := List.take_of_length_le hlen
  have hnot : ¬ Config.lineMax < (lineText word fields).length := by omega
  unfold takeLine
  rw [if_pos ⟨hp, hre⟩]
  cases hs : s.port.state with
  | executing =>
    simp only [hs] at hport
    cases hk : s.port.taken with
    | none => simp [hk] at hport
    | some k =>
      simp only [hk, Option.elim_some, Bool.and_eq_true, Bool.not_eq_true', beq_iff_eq] at hport
      have hin : inExecution (lineText word fields) s.port = s.port := by simp [inExecution, hs]
      simp [hport.2.1, hport.2.2, htake, hlen, hin]
  | accepting =>
    simp [Port.idle, hs, hline, hover, hpl, hnot, htake, inExecution, Port.takes, Port.abandon]
  | answering =>
    simp [Port.idle, hs, hline, hover, hpl, hnot, htake, inExecution, Port.takes, Port.abandon]

/-- The port once the line in execution is answered. -/
theorem inExecution_answered (line : Text) (p : Port) (st : Status) (fields : List Text)
    (h : p.state = .executing → p.gapTimer = none) :
    { inExecution line p with
      state := .answering, response := responseText st ((inExecution line p).taken.elim false Taken.mark) fields, readPos := 0, taken := none }
      = answered p st fields := by
  cases hs : p.state with
  | executing => simp [inExecution, answered, markNow, hs, h hs]
  | accepting => simp [inExecution, answered, markNow, hs]
  | answering => simp [inExecution, answered, markNow, hs]

/-- A line that is carried out now: the body acts on the part with the line in execution, and its reply is the port's answer (R173, R177). -/
theorem carryOut_taken {word : Text} {fields : List Text} {body : State → Reply} {s : State} (h : lineTaken word fields s = true)
    (hb : (body (begun word fields s)).state.port = (begun word fields s).port) :
    carryOut word fields body s =
      { (body (begun word fields s)).state with
        port := answered s.port (body (begun word fields s)).status (body (begun word fields s)).fields } := by
  have hsplit : splitsTo word fields = true := by
    simp only [lineTaken, Bool.and_eq_true] at h
    exact h.1.1.1.2
  have hgap : s.port.state = .executing → s.port.gapTimer = none := by
    intro hs
    simp only [lineTaken, portReady, Bool.and_eq_true, hs] at h
    simpa using h.2.2.1
  have hmark := inExecution_answered (lineText word fields) s.port (body (begun word fields s)).status
    (body (begun word fields s)).fields hgap
  have hbegun : endSequence { s with port := inExecution (lineText word fields) s.port } = begun word fields s := rfl
  unfold carryOut
  rw [if_pos hsplit, takeLine_taken h]
  dsimp only
  rw [hbegun]
  generalize body (begun word fields s) = r at hb hmark ⊢
  rw [← hmark]
  unfold answer
  rw [hb]
  rfl

/-- A line whose body refuses it changes nothing but the port and a freeze sequence (R138, R178). -/
theorem carryOut_refused {word : Text} {fields : List Text} {body : State → Reply} {s : State} {st : Status}
    (h : lineTaken word fields s = true) (hb : body (begun word fields s) = refuse st (begun word fields s)) :
    carryOut word fields body s = refusedWith st s := by
  rw [carryOut_taken h (by rw [hb]; rfl), hb]
  rfl

/-- A line whose body reads and changes nothing (R35, R72, R99). -/
theorem carryOut_reported {word : Text} {fields : List Text} {body : State → Reply} {s : State} {out : List Text}
    (h : lineTaken word fields s = true) (hb : body (begun word fields s) = accept out (begun word fields s)) :
    carryOut word fields body s = reported out s := by
  rw [carryOut_taken h (by rw [hb]; rfl), hb]
  rfl

end Sys2Proof.Machine
end

