-- ==== Sys2Proof/Laws/Commands.lean ====
section
/-!
SUPPORT. No line command's body touches the port, the queue or the main power.
-/

namespace Sys2Proof.Machine

theorem refuse_frame (st : Status) (s : State) : PortFrame s (refuse st s).state := PortFrame.refl s

theorem accept_frame (out : List Text) {s t : State} (h : PortFrame s t) : PortFrame s (accept out t).state := h

theorem setRecord_port (s : State) (n : RecNo) (r : Record) : PortFrame s (s.setRecord n r) := (TableFrame.setRecord s n r).port_frame

theorem deliver_port (s : State) (e : TimeEvent) : PortFrame s (s.deliver e) := by
  unfold State.deliver
  split
  · exact ⟨rfl, rfl, rfl⟩
  · exact PortFrame.refl s

theorem setCalendar_port (d : Date) (m : Nat) (s : State) : PortFrame s (setCalendar d m s) :=
  PortFrame.trans (t := { s with calendar := s.calendar.set d (m / 60) (m % 60) }) ⟨rfl, rfl, rfl⟩ (deliver_port _ _)

theorem bodyTset_frame (f : List Text) (s : State) : PortFrame s (bodyTset f s).state := by
  unfold bodyTset
  split
  · exact refuse_frame _ _
  · split
    · split
      · exact refuse_frame _ _
      · split
        · exact setCalendar_port _ _ _
        · exact refuse_frame _ _
    · exact refuse_frame _ _

theorem bodyTadj_frame (f : List Text) (s : State) : PortFrame s (bodyTadj f s).state := by
  unfold bodyTadj
  split
  · exact refuse_frame _ _
  · split
    · split
      · split
        · split
          · exact ⟨rfl, rfl, rfl⟩
          · exact refuse_frame _ _
        · exact refuse_frame _ _
      · exact refuse_frame _ _
    · exact refuse_frame _ _

theorem bodyTget_frame (f : List Text) (s : State) : PortFrame s (bodyTget f s).state := by
  unfold bodyTget
  split
  · exact PortFrame.refl s
  · exact refuse_frame _ _

theorem onRecord_frame (g : Bool) (f : List Text) (act : RecNo → State → Reply) (s : State)
    (h : ∀ n, PortFrame s (act n s).state) : PortFrame s (onRecord g f act s).state := by
  unfold onRecord
  split
  · exact refuse_frame _ _
  · split
    · split
      · exact refuse_frame _ _
      · split
        · exact refuse_frame _ _
        · exact h _
    · exact refuse_frame _ _

theorem writeRecord_frame (n : RecNo) (c : Content) (now : Bool) (s : State) : PortFrame s (writeRecord n c now s).state := by
  unfold writeRecord
  dsimp only
  split
  · split
    · exact ((leaveWindow_frame n s).trans ((TableFrame.setRecord _ _ _).trans (evaluateRecord_frame _ _))).port_frame
    · split
      · exact refuse_frame _ _
      · exact setRecord_port _ _ _
  · split
    · exact setRecord_port _ _ _
    · exact ((TableFrame.setRecord _ _ _).trans (evaluateRecord_frame _ _)).port_frame

theorem bodyRwrt_frame (f : List Text) (s : State) : PortFrame s (bodyRwrt f s).state := by
  unfold bodyRwrt
  split
  · exact refuse_frame _ _
  · split
    · exact refuse_frame _ _
    · exact refuse_frame _ _
    · split
      · exact refuse_frame _ _
      · exact writeRecord_frame _ _ _ _

theorem bodyRget_frame (f : List Text) (s : State) : PortFrame s (bodyRget f s).state := by
  refine onRecord_frame _ _ _ _ fun n => ?_
  unfold getRecord
  split
  · exact PortFrame.refl s
  · exact (checkRecord_frame n s).port_frame

theorem bodyRdrp_frame (f : List Text) (s : State) : PortFrame s (bodyRdrp f s).state := by
  refine onRecord_frame _ _ _ _ fun n => ?_
  unfold dropDraft
  split
  · exact setRecord_port _ _ _
  · exact refuse_frame _ _

theorem bodyRsus_frame (f : List Text) (s : State) : PortFrame s (bodyRsus f s).state := by
  refine onRecord_frame _ _ _ _ fun n => ?_
  unfold suspend
  split
  · exact ((leaveWindow_frame n s).trans (TableFrame.setRecord _ _ _)).port_frame
  · exact refuse_frame _ _

theorem bodyRres_frame (f : List Text) (s : State) : PortFrame s (bodyRres f s).state := by
  refine onRecord_frame _ _ _ _ fun n => ?_
  unfold resume
  split
  · exact ((setRecState_frame _ _ _).trans (evaluateRecord_frame _ _)).port_frame
  · exact refuse_frame _ _

theorem bodyRfre_frame (f : List Text) (s : State) : PortFrame s (bodyRfre f s).state := by
  refine onRecord_frame _ _ _ _ fun n => ?_
  unfold freeRecord
  split
  · exact refuse_frame _ _
  · exact ((leaveWindow_frame n s).trans (TableFrame.setRecord _ _ _)).port_frame

theorem bodyRclr_frame (f : List Text) (s : State) : PortFrame s (bodyRclr f s).state :=
  onRecord_frame _ _ _ _ fun _ => setRecord_port _ _ _

theorem bodyRprt_frame (f : List Text) (s : State) : PortFrame s (bodyRprt f s).state := by
  unfold bodyRprt
  split
  · exact refuse_frame _ _
  · split
    · split
      · split
        · exact refuse_frame _ _
        · unfold protect
          split
          · exact refuse_frame _ _
          · exact setRecord_port _ _ _
      · exact refuse_frame _ _
    · exact refuse_frame _ _

theorem bodyRfnd_frame (f : List Text) (s : State) : PortFrame s (bodyRfnd f s).state := by
  unfold bodyRfnd
  split
  · exact refuse_frame _ _
  · split
    · split
      · exact PortFrame.refl s
      · exact refuse_frame _ _
    · exact refuse_frame _ _

theorem bodyRnxt_frame (f : List Text) (s : State) : PortFrame s (bodyRnxt f s).state := by
  unfold bodyRnxt
  split
  · exact refuse_frame _ _
  · split
    · split
      · exact refuse_frame _ _
      · split
        · exact PortFrame.refl s
        · exact refuse_frame _ _
    · exact refuse_frame _ _

theorem portRequest_frame (q : Request) (s : State) : PortFrame s (portRequest q s).state := by
  unfold portRequest
  split
  · rename_i t h
    exact (request_frame q h).port_frame
  · exact refuse_frame _ _

theorem bodyCset_frame (f : List Text) (s : State) : PortFrame s (bodyCset f s).state := by
  unfold bodyCset
  split
  · exact refuse_frame _ _
  · split
    · split
      · exact portRequest_frame _ _
      · exact refuse_frame _ _
    · exact refuse_frame _ _

theorem bodyCrel_frame (f : List Text) (s : State) : PortFrame s (bodyCrel f s).state := by
  unfold bodyCrel
  split
  · exact refuse_frame _ _
  · split
    · split
      · exact accept_frame _ (selectiveRemoval_frame _ _ s).port_frame
      · exact refuse_frame _ _
    · exact refuse_frame _ _

theorem bodyGscl_frame (f : List Text) (s : State) : PortFrame s (bodyGscl f s).state := by
  unfold bodyGscl
  split
  · exact refuse_frame _ _
  · split
    · split
      · exact portRequest_frame _ _
      · exact refuse_frame _ _
    · exact refuse_frame _ _

theorem bodyClst_frame (f : List Text) (s : State) : PortFrame s (bodyClst f s).state := by
  unfold bodyClst
  split
  · exact refuse_frame _ _
  · split
    · split
      · exact PortFrame.refl s
      · exact refuse_frame _ _
    · split
      · exact PortFrame.refl s
      · exact refuse_frame _ _
    · exact refuse_frame _ _

theorem bodyIcfg_frame (f : List Text) (s : State) : PortFrame s (bodyIcfg f s).state := by
  unfold bodyIcfg
  split
  · exact refuse_frame _ _
  · split
    · split
      · exact ⟨rfl, rfl, rfl⟩
      · exact refuse_frame _ _
    · exact refuse_frame _ _

theorem bodyIget_frame (f : List Text) (s : State) : PortFrame s (bodyIget f s).state := by
  unfold bodyIget
  split
  · exact refuse_frame _ _
  · split
    · split
      · exact PortFrame.refl s
      · exact refuse_frame _ _
    · exact refuse_frame _ _

theorem bodyTrwr_frame (f : List Text) (s : State) : PortFrame s (bodyTrwr f s).state := by
  unfold bodyTrwr
  split
  · exact refuse_frame _ _
  · split
    · exact refuse_frame _ _
    · exact refuse_frame _ _
    · exact ⟨rfl, rfl, rfl⟩

theorem bodyTrgt_frame (f : List Text) (s : State) : PortFrame s (bodyTrgt f s).state := by
  unfold bodyTrgt
  split
  · exact refuse_frame _ _
  · split
    · split
      · exact PortFrame.refl s
      · exact refuse_frame _ _
    · exact refuse_frame _ _

theorem cutPulse_frame (c : Chan) (s : State) : ChannelFrame s (cutPulse c s) := by
  unfold cutPulse
  split
  · exact ChannelFrame.setChannel _ _ _
  · exact ChannelFrame.refl s

theorem pinsInactive_frame (c : Chan) (s : State) : ChannelFrame s (pinsInactive c s) := by
  unfold pinsInactive
  split
  · exact driveSteady_frame _ _ _
  · exact ChannelFrame.setChannel _ _ _

theorem freshPulse_frame (c : Chan) (s : State) : ChannelFrame s (freshPulse c s) := ChannelFrame.setChannel _ _ _

theorem republish_frame (c : Chan) (s : State) : ChannelFrame s (republish c s) := by
  unfold republish
  split
  · exact ChannelFrame.refl s
  · exact takePresent_frame _ _ _

theorem deriveNormal_frame (c : Chan) (s : State) : ChannelFrame s (deriveNormal c s) := by
  unfold deriveNormal
  split
  · exact deriveDrive_frame _ _ _
  · exact ChannelFrame.refl s

/-- An accepted CCFG stores the configuration and works on the channels and the pool alone (R125). -/
theorem configureChannel_frame (c : Chan) (k : ChannelConfig) (s : State) :
    ChannelFrame (s.setConfig c k) (configureChannel c k s) := by
  have h : ChannelFrame (s.setConfig c k) ((leavePool c (cutPulse c s)).setConfig c k) := by
    obtain ⟨_, _, _, _, _, h⟩ := (cutPulse_frame c s).trans (leavePool_frame c _)
    rw [h]
    exact ⟨_, _, _, _, _, rfl⟩
  exact h.trans ((pinsInactive_frame c _).trans ((freshPulse_frame c _).trans ((republish_frame c _).trans (deriveNormal_frame c _))))

theorem configureChannel_port (c : Chan) (k : ChannelConfig) (s : State) : PortFrame s (configureChannel c k s) :=
  PortFrame.trans (t := s.setConfig c k) ⟨rfl, rfl, rfl⟩ (configureChannel_frame c k s).port_frame

/-- An accepted CCFG drops a fault left due, and configures the channel (R125; log 35). -/
theorem dropAndConfigure_port (c : Chan) (k : ChannelConfig) (s : State) : PortFrame s (configureChannel c k (dropFault c s)) :=
  PortFrame.trans (t := dropFault c s) ⟨rfl, rfl, rfl⟩ (configureChannel_port _ _ _)

theorem bodyCcfg_frame (f : List Text) (s : State) : PortFrame s (bodyCcfg f s).state := by
  unfold bodyCcfg
  split
  · exact refuse_frame _ _
  · split
    · split
      · exact refuse_frame _ _
      · split
        · unfold tryConfigure
          split
          · exact refuse_frame _ _
          · split
            · exact refuse_frame _ _
            · exact accept_frame _ (dropAndConfigure_port _ _ _)
        · exact refuse_frame _ _
    · exact refuse_frame _ _

theorem onChannel_frame (f : List Text) (act : Chan → State → Reply) (s : State) (h : ∀ c, PortFrame s (act c s).state) :
    PortFrame s (onChannel f act s).state := by
  unfold onChannel
  split
  · exact refuse_frame _ _
  · split
    · split
      · exact h _
      · exact refuse_frame _ _
    · exact refuse_frame _ _

theorem bodyCget_frame (f : List Text) (s : State) : PortFrame s (bodyCget f s).state := onChannel_frame _ _ _ fun _ => PortFrame.refl s

theorem bodyCclr_frame (f : List Text) (s : State) : PortFrame s (bodyCclr f s).state := by
  refine onChannel_frame _ _ _ fun c => ?_
  unfold clearSwitch
  split
  · exact refuse_frame _ _
  · exact ⟨rfl, rfl, rfl⟩

theorem bodyCflt_frame (f : List Text) (s : State) : PortFrame s (bodyCflt f s).state := by
  refine onChannel_frame _ _ _ fun c => ?_
  unfold restoreChannel
  split
  · exact refuse_frame _ _
  · exact ((ChannelFrame.setChannel _ _ _).trans (deriveDrive_frame _ _ _)).port_frame

theorem freezeStep_frame (q : FreezeSeq) (k : Nat) (m : BitVec 24) (s : State) : PortFrame s (freezeStep q k m s).state := by
  unfold freezeStep
  split <;> split <;> first | exact refuse_frame _ _ | exact ⟨rfl, rfl, rfl⟩

theorem bodyFrzk_frame (f : List Text) (q : FreezeSeq) (s : State) : PortFrame s (bodyFrzk f q s).state := by
  unfold bodyFrzk
  split
  · exact refuse_frame _ _
  · split
    · split
      · exact freezeStep_frame _ _ _ _
      · exact refuse_frame _ _
    · exact refuse_frame _ _

theorem bodyDfrq_frame (f : List Text) (s : State) : PortFrame s (bodyDfrq f s).state := by
  unfold bodyDfrq
  split
  · exact refuse_frame _ _
  · split
    · split
      · exact refuse_frame _ _
      · split
        · exact ⟨rfl, rfl, rfl⟩
        · exact refuse_frame _ _
    · exact refuse_frame _ _

theorem bodyGget_frame (f : List Text) (s : State) : PortFrame s (bodyGget f s).state := by
  unfold bodyGget
  split
  · exact PortFrame.refl s
  · exact refuse_frame _ _

theorem bodyNget_frame (f : List Text) (s : State) : PortFrame s (bodyNget f s).state := by
  unfold bodyNget
  split
  · exact ⟨rfl, rfl, rfl⟩
  · exact refuse_frame _ _

theorem bodyNmsk_frame (f : List Text) (s : State) : PortFrame s (bodyNmsk f s).state := by
  unfold bodyNmsk
  split
  · exact refuse_frame _ _
  · split
    · split
      · exact ⟨rfl, rfl, rfl⟩
      · exact refuse_frame _ _
    · exact refuse_frame _ _

end Sys2Proof.Machine
end

