-- ==== Sys2Proof/Laws/Publish.lean ====
section
/-!
SUPPORT. What the channels' operations leave of the present demands, and what a publication leaves: every channel's present demand is the demand
of its claim list (R78, R127).
-/

namespace Sys2Proof.Machine

/-- Every channel has the same present demand in `t` as in `s`. -/
def SamePresent (s t : State) : Prop := ∀ c, (t.channel c).present = (s.channel c).present

namespace SamePresent

theorem refl (s : State) : SamePresent s s := fun _ => rfl

theorem trans {s t u : State} (h1 : SamePresent s t) (h2 : SamePresent t u) : SamePresent s u := fun c => (h2 c).trans (h1 c)

theorem setChannel (s : State) (c : Chan) (x : Channel) (h : x.present = (s.channel c).present) : SamePresent s (s.setChannel c x) := by
  intro d
  show (nth (upd s.channels c x) d).present = _
  rw [nth_upd]
  split
  · subst_vars; exact h
  · rfl

theorem of_channels {s t : State} (h : t.channels = s.channels) : SamePresent s t := by
  intro c
  unfold State.channel
  rw [h]

theorem setGenerator (s : State) (g : GenNo) (x : Generator) : SamePresent s (s.setGenerator g x) := refl s

theorem raise (s : State) (k : NoticeKind) (j : Nat) : SamePresent s (s.raise k j) := by
  refine of_channels ?_
  unfold State.raise
  split <;> rfl

end SamePresent

theorem countSwitch_present (c : Chan) (s : State) : SamePresent s (countSwitch c s) := by
  unfold countSwitch
  dsimp only
  split
  · exact SamePresent.trans (t := s.setSwitch c ⟨0, true⟩) (SamePresent.of_channels rfl) (SamePresent.raise _ _ _)
  · exact SamePresent.of_channels rfl

theorem driveSteady_present (c : Chan) (b : Bool) (s : State) : SamePresent s (driveSteady c b s) := SamePresent.setChannel _ _ _ rfl

theorem setLink_present (c : Chan) (l : Link) (s : State) : SamePresent s (setLink c l s) := SamePresent.setChannel _ _ _ rfl

theorem startGenerator_present (g : GenNo) (c : Chan) (p : Params) (s : State) : SamePresent s (startGenerator g c p s) :=
  (SamePresent.setGenerator _ _ _).trans (SamePresent.setChannel _ _ _ rfl)

theorem grantNext_present (g : GenNo) (s : State) : SamePresent s (grantNext g s) := by
  unfold grantNext
  split
  · exact SamePresent.refl s
  · split
    · exact startGenerator_present _ _ _ _
    · exact SamePresent.refl s

theorem requestGenerator_present (c : Chan) (p : Params) (s : State) : SamePresent s (requestGenerator c p s) := by
  unfold requestGenerator
  split
  · exact startGenerator_present _ _ _ _
  · exact ((setLink_present _ _ _).trans (driveSteady_present _ _ _)).trans (SamePresent.raise _ _ _)

theorem stage_present (g : GenNo) (p : Params) (s : State) : SamePresent s (stage g p s) := by
  unfold stage
  split
  · exact SamePresent.refl s
  · exact SamePresent.setGenerator _ _ _

theorem release_present (g : GenNo) (s : State) : SamePresent s (release g s) := by
  unfold release
  split
  · exact SamePresent.refl s
  · exact SamePresent.setGenerator _ _ _

theorem leavePool_present (c : Chan) (s : State) : SamePresent s (leavePool c s) := by
  unfold leavePool
  split
  · exact SamePresent.refl s
  · exact setLink_present _ _ _
  · exact ((setLink_present _ _ _).trans (SamePresent.setGenerator _ _ _)).trans (grantNext_present _ _)

theorem deriveSteady_present (c : Chan) (s : State) : SamePresent s (deriveSteady c s) := by
  unfold deriveSteady
  dsimp only
  split
  · exact requestGenerator_present _ _ _
  · exact stage_present _ _ _
  · exact driveSteady_present _ _ _
  · exact driveSteady_present _ _ _
  · exact release_present _ _
  · exact (setLink_present _ _ _).trans (driveSteady_present _ _ _)

theorem derivePulse_present (c : Chan) (d : Bool) (s : State) : SamePresent s (derivePulse c d s) := by
  unfold derivePulse
  dsimp only
  split
  · exact SamePresent.refl s
  · exact SamePresent.setChannel _ _ _ rfl
  · split
    · exact SamePresent.setChannel _ _ _ rfl
    · exact SamePresent.refl s
  · split
    · exact SamePresent.refl s
    · exact SamePresent.setChannel _ _ _ rfl
  · exact SamePresent.setChannel _ _ _ rfl

/-- Deriving a channel's drive leaves every present demand. -/
theorem deriveDrive_present (c : Chan) (d : Bool) (s : State) : SamePresent s (deriveDrive c d s) := by
  unfold deriveDrive
  split
  · exact derivePulse_present _ _ _
  · exact deriveSteady_present _ _
  · exact deriveSteady_present _ _

theorem faultChannel_present (c : Chan) (s : State) : SamePresent s (faultChannel c s) := by
  unfold faultChannel
  refine SamePresent.trans (SamePresent.setChannel s c _ ?_) ((leavePool_present c _).trans (SamePresent.raise _ _ _))
  rfl

theorem mismatch_present (late : Bool) (c : Chan) (s : State) : SamePresent s (mismatch late c s) := by
  unfold mismatch
  split
  · exact SamePresent.of_channels rfl
  · exact SamePresent.trans (t := { s with faultsDue := upd s.faultsDue c false }) (SamePresent.of_channels rfl) (faultChannel_present _ _)

theorem takePresent_present (c : Chan) (d : Demand) (s : State) (e : Chan) :
    ((takePresent c d s).channel e).present = if e = c then d else (s.channel e).present := by
  have h0 : ((s.setChannel c { s.channel c with present := d }).channel e).present = if e = c then d else (s.channel e).present := by
    show (nth (upd s.channels c _) e).present = _
    rw [nth_upd]
    split <;> rfl
  unfold takePresent
  dsimp only
  split
  · rw [countSwitch_present _ _ e, h0]
  · exact h0

/-- Taking a demand sets the present demand of its channel and leaves every other. -/
theorem takeDemand_present (c : Chan) (d : Demand) (s : State) (e : Chan) :
    ((takeDemand c d s).channel e).present = if e = c then d else (s.channel e).present := by
  unfold takeDemand
  dsimp only
  split
  · rw [deriveDrive_present _ _ _ e, takePresent_present]
  · exact takePresent_present c d s e

theorem demandOf_of_frame {s t : State} (h : ChannelFrame s t) (c : Chan) : demandOf t c = demandOf s c := by
  unfold demandOf
  rw [h.claimList, h.config]

theorem publishOne_present (s : State) (c e : Chan) :
    ((publishOne s c).channel e).present = if e = c then demandOf s c else (s.channel e).present := by
  unfold publishOne
  split
  · rename_i h
    split
    · subst_vars; exact h.symm
    · rfl
  · exact takeDemand_present _ _ _ _

theorem foldl_publishOne_present (l : List Chan) (s : State) (e : Chan) :
    ((l.foldl publishOne s).channel e).present = if e ∈ l then demandOf s e else (s.channel e).present := by
  induction l generalizing s with
  | nil => simp
  | cons c l ih =>
    rw [List.foldl_cons, ih, demandOf_of_frame (publishOne_frame s c), publishOne_present]
    by_cases h1 : e ∈ l <;> by_cases h2 : e = c <;> simp [h1, h2]

theorem takeOrder_mem (s : State) (c : Chan) : c ∈ (takeOrder s).1 := by
  unfold takeOrder
  split
  · exact List.mem_finRange c
  · rename_i o _ _
    simp only [channelOrder, List.mem_append, List.mem_eraseDups, List.mem_filter, List.mem_finRange, true_and]
    by_cases h : c ∈ o
    · exact Or.inl h
    · exact Or.inr (by simp [h])

/-- After the publications of an operation every channel's present demand is its demand (R78, R127). -/
theorem publish_present (s : State) (c : Chan) : ((publish s).channel c).present = demandOf s c := by
  unfold publish
  rw [foldl_publishOne_present, if_pos (takeOrder_mem s c), demandOf_of_frame (takeOrder_frame s)]

/-- The demands after the publications are those before them. -/
theorem publish_demandOf (s : State) (c : Chan) : demandOf (publish s) c = demandOf s c := demandOf_of_frame (publish_frame s) c

end Sys2Proof.Machine
end

