-- ==== Sys2Proof/Laws/Generators.lean ====
section
/-!
SUPPORT. The generator pool and its wait set (R143, R146 to R153, R166): what every operation of the channels leaves of the pool's invariant.
`Linked x e s` is the invariant but for the channels of `x`, whose condition or demand an operation has just changed, and the generators of `e`,
which it has just freed.
-/

namespace Sys2Proof.Machine

/-- The pool's invariant but for the channels of `x` and the generators of `e`. -/
def Linked (x : List Chan) (e : List GenNo) (s : State) : Prop :=
  (∀ c g, (s.channel c).link = .holding g ↔ ∃ r, s.generator g = .busy r ∧ r.channel = c)
    ∧ (∀ c, (s.channel c).link = .waiting →
        (c ∉ x → (s.channel c).condition = .normal ∧ (needs (s.config c).kind (s.channel c).present).isSome = true)
          ∧ ∀ g, g ∉ e → s.generator g ≠ .free)
    ∧ ∀ c, c ∉ x → (s.channel c).condition = .faulted → (s.channel c).link = .none

theorem generatorInv_iff (s : State) : GeneratorInv s ↔ Linked [] [] s := by
  unfold GeneratorInv Linked
  constructor
  · rintro ⟨h1, h2, h3⟩
    exact ⟨h1, fun c h => ⟨fun _ => ⟨(h2 c h).1, (h2 c h).2.1⟩, fun g _ => (h2 c h).2.2 g⟩, fun c _ => h3 c⟩
  · rintro ⟨h1, h2, h3⟩
    exact ⟨h1, fun c h => ⟨((h2 c h).1 (by simp)).1, ((h2 c h).1 (by simp)).2, fun g => (h2 c h).2 g (by simp)⟩, fun c => h3 c (by simp)⟩

/-- The invariant speaks of channels, generators and configurations alone. -/
theorem Linked.of_same {x : List Chan} {e : List GenNo} {s t : State} (hc : t.channels = s.channels) (hg : t.generators = s.generators)
    (hk : t.channelConfigs = s.channelConfigs) (h : Linked x e s) : Linked x e t := by
  unfold Linked State.channel State.generator State.config
  rw [hc, hg, hk]
  exact h

theorem Linked.raise {x : List Chan} {e : List GenNo} {s : State} (k : NoticeKind) (j : Nat) (h : Linked x e s) : Linked x e (s.raise k j) :=
  h.of_same (by simp) (by simp) (by simp)

theorem channel_setChannel (s : State) (c d : Chan) (y : Channel) : (s.setChannel c y).channel d = if d = c then y else s.channel d :=
  nth_upd _ _ _ _

theorem generator_setGenerator (s : State) (g j : GenNo) (y : Generator) : (s.setGenerator g y).generator j = if j = g then y else s.generator j :=
  nth_upd _ _ _ _

theorem Linked.weaken {x : List Chan} {e : List GenNo} {s : State} (c : Chan) (h : Linked x e s) : Linked (c :: x) e s :=
  ⟨h.1, fun d hd => ⟨fun hx => (h.2.1 d hd).1 fun hm => hx (List.mem_cons_of_mem _ hm), (h.2.1 d hd).2⟩,
    fun d hx => h.2.2 d fun hm => hx (List.mem_cons_of_mem _ hm)⟩

theorem Linked.weakenGen {x : List Chan} {e : List GenNo} {s : State} (g : GenNo) (h : Linked x e s) : Linked x (g :: e) s :=
  ⟨h.1, fun d hd => ⟨(h.2.1 d hd).1, fun j hj => (h.2.1 d hd).2 j fun hm => hj (List.mem_cons_of_mem _ hm)⟩, h.2.2⟩

/-- A channel whose link stands may change in all else, at the price of an exemption. -/
theorem Linked.setChannel {x : List Chan} {e : List GenNo} {s : State} (c : Chan) (y : Channel) (hl : y.link = (s.channel c).link)
    (h : Linked x e s) : Linked (c :: x) e (s.setChannel c y) := by
  refine ⟨fun d g => ?_, fun d hd => ?_, fun d hx => ?_⟩
  · rw [State.setChannel_generator, ← h.1 d g, channel_setChannel]
    split
    · subst_vars; rw [hl]
    · rfl
  · rw [channel_setChannel] at hd ⊢
    by_cases hdc : d = c
    · subst hdc
      rw [if_pos rfl, hl] at hd
      exact ⟨fun hx => absurd List.mem_cons_self hx, (h.2.1 d hd).2⟩
    · rw [if_neg hdc] at hd ⊢
      exact ⟨fun hx => (h.2.1 d hd).1 fun hm => hx (List.mem_cons_of_mem _ hm), (h.2.1 d hd).2⟩
  · rw [channel_setChannel]
    rw [List.mem_cons, not_or] at hx
    rw [if_neg hx.1]
    exact h.2.2 d hx.2

/-- An exempt channel whose own conditions hold needs no exemption. -/
theorem Linked.restore {x : List Chan} {e : List GenNo} {s : State} (c : Chan)
    (hw : (s.channel c).link = .waiting → (s.channel c).condition = .normal ∧ (needs (s.config c).kind (s.channel c).present).isSome = true)
    (hf : (s.channel c).condition = .faulted → (s.channel c).link = .none) (h : Linked (c :: x) e s) : Linked x e s := by
  refine ⟨h.1, fun d hd => ⟨fun hx => ?_, (h.2.1 d hd).2⟩, fun d hx => ?_⟩
  · by_cases hdc : d = c
    · subst hdc; exact hw hd
    · exact (h.2.1 d hd).1 (by simp [hdc, hx])
  · by_cases hdc : d = c
    · subst hdc; exact hf
    · exact h.2.2 d (by simp [hdc, hx])

/-- A change of a channel that leaves its link, condition and present demand. -/
theorem Linked.setChannel_same {x : List Chan} {e : List GenNo} {s : State} (c : Chan) (y : Channel) (hl : y.link = (s.channel c).link)
    (hc : y.condition = (s.channel c).condition) (hp : y.present = (s.channel c).present) (h : Linked x e s) : Linked x e (s.setChannel c y) := by
  by_cases hx : c ∈ x
  · have h1 := h.setChannel c y hl
    refine ⟨h1.1, fun d hd => ⟨fun hn => (h1.2.1 d hd).1 ?_, (h1.2.1 d hd).2⟩, fun d hn => h1.2.2 d ?_⟩
    all_goals
      rw [List.mem_cons, not_or]
      exact ⟨fun he => hn (he ▸ hx), hn⟩
  · refine (h.setChannel c y hl).restore c ?_ ?_
    · rw [channel_setChannel, if_pos rfl, hl, hc, hp]
      exact fun hw => (h.2.1 c hw).1 hx
    · rw [channel_setChannel, if_pos rfl, hl, hc]
      exact h.2.2 c hx

/-- A channel that holds no generator and leaves what it has has nothing. -/
theorem Linked.unlink {x : List Chan} {e : List GenNo} {s : State} (c : Chan) (hn : ∀ g, (s.channel c).link ≠ .holding g) (h : Linked (c :: x) e s) :
    Linked x e (setLink c .none s) := by
  unfold setLink
  refine ⟨fun d g => ?_, fun d hd => ?_, fun d hx => ?_⟩
  · rw [State.setChannel_generator, ← h.1 d g, channel_setChannel]
    split
    · subst_vars; exact ⟨nofun, fun he => absurd he (hn g)⟩
    · rfl
  · rw [channel_setChannel] at hd ⊢
    by_cases hdc : d = c
    · rw [if_pos hdc] at hd; exact nomatch hd
    · rw [if_neg hdc] at hd ⊢
      exact ⟨fun hx => (h.2.1 d hd).1 (by simp [hdc, hx]), (h.2.1 d hd).2⟩
  · rw [channel_setChannel]
    by_cases hdc : d = c
    · rw [if_pos hdc]; exact fun _ => rfl
    · rw [if_neg hdc]; exact h.2.2 d (by simp [hdc, hx])

/-- A channel that holds a generator and gives it up: the generator is FREE. -/
theorem Linked.giveUp {x : List Chan} {e : List GenNo} {s : State} (c : Chan) (g : GenNo) (hl : (s.channel c).link = .holding g)
    (h : Linked (c :: x) e s) : Linked x (g :: e) ((setLink c .none s).setGenerator g .free) := by
  unfold setLink
  refine ⟨fun d j => ?_, fun d hd => ?_, fun d hx => ?_⟩
  · rw [State.setGenerator_channel, channel_setChannel, generator_setGenerator, State.setChannel_generator]
    by_cases hdc : d = c <;> by_cases hj : j = g
    · rw [if_pos hdc, if_pos hj]; exact ⟨nofun, nofun⟩
    · rw [if_pos hdc, if_neg hj, ← h.1 d j]
      subst hdc
      exact ⟨nofun, fun he => absurd (Link.holding.inj (hl.symm.trans he)).symm hj⟩
    · rw [if_neg hdc, if_pos hj, h.1 d j, hj]
      obtain ⟨r, hr, hrc⟩ := (h.1 c g).mp hl
      refine ⟨fun ⟨r', hr', hd'⟩ => ?_, nofun⟩
      rw [hr] at hr'
      cases hr'
      exact absurd (hd'.symm.trans hrc) hdc
    · rw [if_neg hdc, if_neg hj]; exact h.1 d j
  · rw [State.setGenerator_channel, channel_setChannel] at hd ⊢
    by_cases hdc : d = c
    · rw [if_pos hdc] at hd; exact nomatch hd
    · rw [if_neg hdc] at hd ⊢
      refine ⟨fun hx => (h.2.1 d hd).1 (by simp [hdc, hx]), fun j hj => ?_⟩
      rw [List.mem_cons, not_or] at hj
      rw [generator_setGenerator, if_neg hj.1]
      exact (h.2.1 d hd).2 j hj.2
  · rw [State.setGenerator_channel, channel_setChannel]
    by_cases hdc : d = c
    · rw [if_pos hdc]; exact fun _ => rfl
    · rw [if_neg hdc]; exact h.2.2 d (by simp [hdc, hx])

/-- A FREE generator starts for a NORMAL channel that holds none. -/
theorem Linked.start {x : List Chan} {e : List GenNo} {s : State} (g : GenNo) (c : Chan) (p : Params) (hg : s.generator g = .free)
    (hn : ∀ j, (s.channel c).link ≠ .holding j) (hc : (s.channel c).condition = .normal) (h : Linked (c :: x) (g :: e) s) :
    Linked x e (startGenerator g c p s) := by
  unfold startGenerator
  dsimp only
  refine ⟨fun d j => ?_, fun d hd => ?_, fun d hx => ?_⟩
  · rw [State.setChannel_generator, generator_setGenerator, channel_setChannel, State.setGenerator_channel]
    by_cases hdc : d = c <;> by_cases hj : j = g
    · rw [if_pos hdc, if_pos hj, hdc, hj]; exact ⟨fun _ => ⟨_, rfl, rfl⟩, fun _ => rfl⟩
    · rw [if_pos hdc, if_neg hj, ← h.1 d j, hdc]
      exact ⟨fun he => absurd (Link.holding.inj he).symm hj, fun he => absurd he (hn j)⟩
    · rw [if_neg hdc, if_pos hj, State.setGenerator_channel, h.1 d j, hj, hg]
      exact ⟨nofun, fun ⟨r, hr, hd'⟩ => by cases hr; exact absurd hd'.symm hdc⟩
    · rw [if_neg hdc, if_neg hj]; exact h.1 d j
  · rw [channel_setChannel, State.setGenerator_channel] at hd ⊢
    by_cases hdc : d = c
    · rw [if_pos hdc] at hd; exact nomatch hd
    · rw [if_neg hdc] at hd ⊢
      refine ⟨fun hx => (h.2.1 d hd).1 (by simp [hdc, hx]), fun j hj => ?_⟩
      rw [State.setChannel_generator, generator_setGenerator]
      split
      · exact nofun
      · rename_i hne
        exact (h.2.1 d hd).2 j (by simp [hne, hj])
  · rw [channel_setChannel, State.setGenerator_channel]
    by_cases hdc : d = c
    · rw [if_pos hdc]
      intro hf
      exact nomatch hc.symm.trans hf
    · rw [if_neg hdc]; exact h.2.2 d (by simp [hdc, hx])

/-- A generator in use keeps its channel. -/
theorem Linked.setBusy {x : List Chan} {e : List GenNo} {s : State} (g : GenNo) (r r' : GenRun) (hg : s.generator g = .busy r)
    (hr : r'.channel = r.channel) (h : Linked x e s) : Linked x e (s.setGenerator g (.busy r')) := by
  refine ⟨fun d j => ?_, fun d hd => ⟨(h.2.1 d hd).1, fun j hj => ?_⟩, h.2.2⟩
  · rw [State.setGenerator_channel, h.1 d j, generator_setGenerator]
    split
    · subst_vars
      rw [hg]
      exact ⟨fun ⟨q, hq, hd⟩ => ⟨r', rfl, by cases hq; exact hr.trans hd⟩, fun ⟨q, hq, hd⟩ => ⟨r, rfl, by cases hq; exact hr.symm.trans hd⟩⟩
    · rfl
  · rw [generator_setGenerator]
    split
    · exact nofun
    · exact (h.2.1 d hd).2 j hj

/-! ### The pool's operations -/

theorem mem_waiters {s : State} {c : Chan} : c ∈ waiters s ↔ (s.channel c).link = .waiting := by
  unfold waiters degraded
  simp only [List.mem_flatMap, List.mem_filter, List.mem_finRange, true_and, Bool.and_eq_true, beq_iff_eq]
  constructor
  · rintro ⟨_, _, h, _⟩; exact h
  · intro h
    refine ⟨(s.config c).drivePriority, ?_, h, rfl⟩
    generalize (s.config c).drivePriority = p
    revert p
    decide

/-- The wait set stands in grant order: drive priority highest first, then channel number lowest first (R147). -/
theorem waiters_order (s : State) : (waiters s).Pairwise (fun a b => (s.config b).drivePriority < (s.config a).drivePriority
          ∨ (s.config b).drivePriority = (s.config a).drivePriority ∧ a < b) := by
  unfold waiters
  rw [List.pairwise_flatMap]
  constructor
  · intro p hp
    have : (List.finRange 24).Pairwise (fun a b => a < b) := by decide
    refine List.Pairwise.imp_of_mem ?_ (this.filter _)
    intro a b ha hb hab
    simp at ha hb
    right; exact ⟨by rw [ha.2, hb.2], hab⟩
  · have : ([3, 2, 1, 0] : List (Fin 4)).Pairwise (fun a b => b < a) := by decide
    refine this.imp ?_
    intro a b hab x hx y hy
    simp at hx hy
    left; rw [hx.2, hy.2]; exact hab

theorem grantNext_linked (g : GenNo) {s : State} (hg : s.generator g = .free) (h : Linked [] [g] s) : Linked [] [] (grantNext g s) := by
  unfold grantNext
  split
  · rename_i hw
    refine ⟨h.1, fun d hd => ?_, h.2.2⟩
    have := mem_waiters.mpr hd
    rw [hw] at this
    cases this
  · rename_i w ws hw
    have hl : (s.channel w).link = .waiting := mem_waiters.mp (by rw [hw]; exact List.mem_cons_self)
    have hn := (h.2.1 w hl).1 (by simp)
    split
    · exact (h.weaken w).start g w _ hg (fun j hj => nomatch hl.symm.trans hj) hn.1
    · rename_i hno
      rw [hno] at hn
      exact absurd hn.2 (by simp)

theorem setLink_none_link (c : Chan) (s : State) : ((setLink c .none s).channel c).link = .none := by
  unfold setLink
  rw [channel_setChannel, if_pos rfl]

theorem leavePool_linked (c : Chan) {s : State} (h : Linked [c] [] s) : Linked [] [] (leavePool c s) := by
  unfold leavePool
  split
  · rename_i hl
    exact h.restore c (fun hw => nomatch hl.symm.trans hw) fun _ => hl
  · rename_i hl
    exact h.unlink c fun g hg => nomatch hl.symm.trans hg
  · rename_i g hl
    refine grantNext_linked g ?_ (h.giveUp c g hl)
    rw [generator_setGenerator, if_pos rfl]

theorem freeGenerator_some {s : State} {g : GenNo} (h : freeGenerator s = some g) : s.generator g = .free := by
  have := List.find?_some h
  simpa using this

theorem freeGenerator_none {s : State} (h : freeGenerator s = none) (g : GenNo) : s.generator g ≠ .free := by
  have := List.find?_eq_none.mp h g (List.mem_finRange g)
  simpa using this

theorem requestGenerator_linked (c : Chan) (p : Params) {s : State} (hl : (s.channel c).link = .none) (hc : (s.channel c).condition = .normal)
    (hp : needs (s.config c).kind (s.channel c).present = some p) (h : Linked [c] [] s) : Linked [] [] (requestGenerator c p s) := by
  unfold requestGenerator
  split
  · rename_i g hg
    exact (h.weakenGen g).start g c p (freeGenerator_some hg) (fun j hj => nomatch hl.symm.trans hj) hc
  · rename_i hg
    refine Linked.raise _ _ ?_
    unfold driveSteady
    refine Linked.setChannel_same _ _ rfl rfl rfl ?_
    unfold setLink
    refine ⟨fun d j => ?_, fun d hd => ⟨fun _ => ?_, fun j _ => freeGenerator_none hg j⟩, fun d _ => ?_⟩
    · rw [State.setChannel_generator, ← h.1 d j, channel_setChannel]
      split
      · subst_vars; exact ⟨nofun, fun he => nomatch hl.symm.trans he⟩
      · rfl
    · rw [channel_setChannel, State.setChannel_config] at *
      by_cases hdc : d = c
      · rw [if_pos hdc, hdc]; exact ⟨hc, by rw [hp]; rfl⟩
      · rw [if_neg hdc] at hd ⊢
        exact (h.2.1 d hd).1 (by simp [hdc])
    · rw [channel_setChannel]
      by_cases hdc : d = c
      · rw [if_pos hdc]; exact fun hf => nomatch hc.symm.trans hf
      · rw [if_neg hdc]; exact h.2.2 d (by simp [hdc])

theorem stage_linked {x : List Chan} {e : List GenNo} (g : GenNo) (p : Params) {s : State} (h : Linked x e s) : Linked x e (stage g p s) := by
  unfold stage
  split
  · exact h
  · rename_i r hr
    exact h.setBusy g r _ hr rfl

theorem release_linked {x : List Chan} {e : List GenNo} (g : GenNo) {s : State} (h : Linked x e s) : Linked x e (release g s) := by
  unfold release
  split
  · exact h
  · rename_i r hr
    exact h.setBusy g r _ hr rfl

theorem driveSteady_linked {x : List Chan} {e : List GenNo} (c : Chan) (b : Bool) {s : State} (h : Linked x e s) : Linked x e (driveSteady c b s) :=
  h.setChannel_same c _ rfl rfl rfl

theorem deriveSteady_linked (c : Chan) {s : State} (hc : (s.channel c).condition = .normal) (h : Linked [c] [] s) : Linked [] [] (deriveSteady c s) := by
  have hf : (s.channel c).condition = .faulted → (s.channel c).link = .none := fun hx => nomatch hc.symm.trans hx
  unfold deriveSteady
  dsimp only
  split
  · rename_i p hp hl
    exact requestGenerator_linked c p hl hc hp h
  · rename_i hl
    exact stage_linked _ _ (h.restore c (fun hw => nomatch hl.symm.trans hw) hf)
  · rename_i hp hl
    exact driveSteady_linked _ _ (h.restore c (fun _ => ⟨hc, by rw [hp]; rfl⟩) hf)
  · rename_i hl
    exact driveSteady_linked _ _ (h.restore c (fun hw => nomatch hl.symm.trans hw) hf)
  · rename_i hl
    exact release_linked _ (h.restore c (fun hw => nomatch hl.symm.trans hw) hf)
  · rename_i hl
    exact driveSteady_linked _ _ (h.unlink c fun g hg => nomatch hl.symm.trans hg)

theorem derivePulse_linked {x : List Chan} {e : List GenNo} (c : Chan) (d : Bool) {s : State} (h : Linked x e s) : Linked x e (derivePulse c d s) := by
  unfold derivePulse
  dsimp only
  split
  · exact h
  · exact h.setChannel_same c _ rfl rfl rfl
  · split
    · exact h.setChannel_same c _ rfl rfl rfl
    · exact h
  · split
    · exact h
    · exact h.setChannel_same c _ rfl rfl rfl
  · exact h.setChannel_same c _ rfl rfl rfl

/-- Deriving the drive of a NORMAL channel, whose demand or condition has just changed, restores the invariant. A PULSED channel has nothing at the
pool when `hp` holds of it. -/
theorem deriveDrive_linked (c : Chan) (d : Bool) {s : State} (hc : (s.channel c).condition = .normal)
    (hp : (s.config c).kind = .pulsed → (s.channel c).link ≠ .waiting) (h : Linked [c] [] s) : Linked [] [] (deriveDrive c d s) := by
  unfold deriveDrive
  split
  · rename_i hk
    exact derivePulse_linked c d (h.restore c (fun hw => absurd hw (hp hk)) fun hx => nomatch hc.symm.trans hx)
  · exact deriveSteady_linked c hc h
  · exact deriveSteady_linked c hc h

/-- A PULSED channel does not wait: it needs no generator. -/
theorem Linked.pulsed {s : State} (h : Linked [] [] s) (c : Chan) (hk : (s.config c).kind = .pulsed) : (s.channel c).link ≠ .waiting := by
  intro hw
  have := ((h.2.1 c hw).1 (by simp)).2
  rw [hk] at this
  exact absurd this (by simp [needs])

theorem countSwitch_linked {x : List Chan} {e : List GenNo} (c : Chan) {s : State} (h : Linked x e s) : Linked x e (countSwitch c s) := by
  unfold countSwitch
  dsimp only
  split
  · exact Linked.raise _ _ (Linked.of_same (s := s) rfl rfl rfl h)
  · exact Linked.of_same (s := s) rfl rfl rfl h

theorem takePresent_linked (c : Chan) (d : Demand) {s : State} (h : Linked [] [] s) : Linked [c] [] (takePresent c d s) := by
  have h1 : Linked [c] [] (s.setChannel c { s.channel c with present := d }) := h.setChannel c _ rfl
  unfold takePresent
  dsimp only
  split
  · exact countSwitch_linked c h1
  · exact h1

theorem takePresent_channel (c : Chan) (d : Demand) (s : State) : (takePresent c d s).channel c = { s.channel c with present := d } := by
  have h1 : (s.setChannel c { s.channel c with present := d }).channel c = { s.channel c with present := d } := by
    rw [channel_setChannel, if_pos rfl]
  unfold takePresent
  dsimp only
  split
  · unfold countSwitch
    dsimp only
    split
    · rw [State.raise_channel]; exact h1
    · exact h1
  · exact h1

theorem takeDemand_linked (c : Chan) (d : Demand) {s : State} (h : Linked [] [] s) : Linked [] [] (takeDemand c d s) := by
  have h1 := takePresent_linked c d h
  unfold takeDemand
  dsimp only
  split
  · rename_i hc
    refine deriveDrive_linked c _ (by rw [takePresent_channel]; exact hc) ?_ h1
    rw [takePresent_channel, (takePresent_frame c d s).config]
    exact h.pulsed c
  · rename_i hc
    have hl : (s.channel c).link = .none := h.2.2 c (by simp) (by cases hx : (s.channel c).condition <;> simp_all)
    refine h1.restore c ?_ ?_
    · rw [takePresent_channel]; exact fun hw => nomatch hl.symm.trans hw
    · rw [takePresent_channel]; exact fun _ => hl

theorem publishOne_linked (c : Chan) {s : State} (h : Linked [] [] s) : Linked [] [] (publishOne s c) := by
  unfold publishOne
  split
  · exact h
  · exact takeDemand_linked _ _ h

theorem takeOrder_linked {x : List Chan} {e : List GenNo} {s : State} (h : Linked x e s) : Linked x e (takeOrder s).2 := by
  unfold takeOrder
  split
  · exact h
  · exact Linked.of_same (s := s) rfl rfl rfl h

/-- Publications keep the pool's invariant. -/
theorem publish_linked {s : State} (h : Linked [] [] s) : Linked [] [] (publish s) := by
  unfold publish
  generalize (takeOrder s).1 = l
  have h1 := takeOrder_linked h
  generalize (takeOrder s).2 = t at h1
  induction l generalizing t with
  | nil => exact h1
  | cons c l ih => exact ih _ (publishOne_linked c h1)

theorem completePulse_linked (c : Chan) {s : State} (h : Linked [] [] s) : Linked [] [] (completePulse c s) := by
  unfold completePulse
  dsimp only
  split
  · rename_i t _
    have h1 : Linked [] [] (countPulse c (t && (s.channel c).pulseCounts) (s.setChannel c { s.channel c with
        pulse := some (if t then .atOn else .atOff), pending := none, pulseTimer := none, pulseCounts := false })) := by
      have h0 := h.setChannel_same c { s.channel c with
        pulse := some (if t then .atOn else .atOff), pending := none, pulseTimer := none, pulseCounts := false } rfl rfl rfl
      unfold countPulse
      split
      · exact countSwitch_linked c h0
      · exact h0
    split
    · exact h1.setChannel_same c _ rfl rfl rfl
    · exact h1
  · exact h

theorem endPeriod_linked (g : GenNo) {s : State} (h : Linked [] [] s) : Linked [] [] (endPeriod g s) := by
  unfold endPeriod
  split
  · exact h
  · rename_i r hr
    split
    · have hl : (s.channel r.channel).link = .holding g := (h.1 r.channel g).mpr ⟨r, hr, rfl⟩
      have h1 := (h.weaken r.channel).giveUp r.channel g hl
      unfold endRelease
      dsimp only
      refine grantNext_linked g ?_ (driveSteady_linked _ _ (Linked.of_same (s := (setLink r.channel .none s).setGenerator g .free) rfl rfl rfl h1))
      show nth (upd s.generators g .free) g = .free
      exact nth_upd_same _ _ _
    · exact h.setBusy g r _ hr rfl

/-- A channel that is FAULTED gives up what it has at the pool (R153, R166). -/
theorem faultChannel_linked (c : Chan) {s : State} (h : Linked [] [] s) : Linked [] [] (faultChannel c s) := by
  unfold faultChannel
  dsimp only
  refine Linked.raise _ _ (leavePool_linked c ?_)
  exact h.setChannel c _ rfl

theorem mismatch_linked (late : Bool) (c : Chan) {s : State} (h : Linked [] [] s) : Linked [] [] (mismatch late c s) := by
  unfold mismatch
  split
  · exact h
  · exact faultChannel_linked c (s := { s with faultsDue := _ }) h

theorem settleCompare_linked (c : Chan) (b late : Bool) {s : State} (h : Linked [] [] s) : Linked [] [] (settleCompare c b late s) := by
  unfold settleCompare
  split
  · split
    · exact h.setChannel_same c _ rfl rfl rfl
    · exact mismatch_linked late c h
  · exact h

theorem endSettle_linked (c : Chan) (b late : Bool) {s : State} (h : Linked [] [] s) : Linked [] [] (endSettle c b late s) := by
  unfold endSettle
  split
  · split
    · exact h
    · exact faultChannel_linked c (s := { s with faultsDue := _ }) h
  · exact settleCompare_linked c b late h

theorem steadyCompare_linked (held : List PinHold) (c : Chan) {s : State} (h : Linked [] [] s) : Linked [] [] (steadyCompare held c s) := by
  unfold steadyCompare
  split
  · split
    · exact h
    · exact mismatch_linked _ c h
  · exact h

/-! ### Conditions -/

/-- Every channel has the same condition in `t` as in `s`. -/
def SameCondition (s t : State) : Prop := ∀ c, (t.channel c).condition = (s.channel c).condition

theorem SameCondition.trans {s t u : State} (h1 : SameCondition s t) (h2 : SameCondition t u) : SameCondition s u := fun c => (h2 c).trans (h1 c)

theorem SameCondition.setChannel (s : State) (c : Chan) (y : Channel) (h : y.condition = (s.channel c).condition) : SameCondition s (s.setChannel c y) := by
  intro d
  rw [channel_setChannel]
  split
  · subst_vars; exact h
  · rfl

theorem startGenerator_condition (g : GenNo) (c : Chan) (p : Params) (s : State) : SameCondition s (startGenerator g c p s) := by
  unfold startGenerator
  exact SameCondition.setChannel (s.setGenerator g _) c _ rfl

theorem deriveSteady_condition (c : Chan) (s : State) : SameCondition s (deriveSteady c s) := by
  have hd : ∀ (b : Bool) (t : State), SameCondition t (driveSteady c b t) := fun b t => SameCondition.setChannel t c _ rfl
  have hl : ∀ (k : Link) (t : State), SameCondition t (setLink c k t) := fun k t => SameCondition.setChannel t c _ rfl
  unfold deriveSteady
  dsimp only
  split
  · unfold requestGenerator
    split
    · exact startGenerator_condition _ _ _ _
    · exact ((hl _ _).trans (hd _ _)).trans fun e => by rw [State.raise_channel]
  · unfold stage
    split <;> exact fun _ => rfl
  · exact hd _ _
  · exact hd _ _
  · unfold release
    split <;> exact fun _ => rfl
  · exact (hl _ _).trans (hd _ _)

/-- Deriving a drive leaves every condition. -/
theorem deriveDrive_condition (c : Chan) (d : Bool) (s : State) : SameCondition s (deriveDrive c d s) := by
  unfold deriveDrive
  split
  · unfold derivePulse
    dsimp only
    split
    · exact fun _ => rfl
    · exact SameCondition.setChannel _ _ _ rfl
    · split
      · exact SameCondition.setChannel _ _ _ rfl
      · exact fun _ => rfl
    · split
      · exact fun _ => rfl
      · exact SameCondition.setChannel _ _ _ rfl
    · exact SameCondition.setChannel _ _ _ rfl
  · exact deriveSteady_condition c s
  · exact deriveSteady_condition c s

/-! ### The arbiter and the evaluator -/

theorem place_linked (q : Request) {s : State} (h : Linked [] [] s) : Linked [] [] (place q s) := by
  unfold place
  generalize q.targets = l
  induction l generalizing s with
  | nil => exact h
  | cons a l ih => exact ih (s := placeOne q s a) (Linked.of_same (s := s) rfl rfl rfl h)

theorem placeRecord_linked (n : RecNo) {s : State} (h : Linked [] [] s) : Linked [] [] (placeRecord n s) := by
  unfold placeRecord
  split
  · exact h
  · exact place_linked _ h

theorem request_linked {q : Request} {s t : State} (h : Linked [] [] s) (ht : request q s = some t) : Linked [] [] t := by
  unfold request at ht
  split at ht
  · cases ht
    exact publish_linked (place_linked q h)
  · cases ht

theorem setRecord_linked (n : RecNo) (r : Record) {s : State} (h : Linked [] [] s) : Linked [] [] (s.setRecord n r) :=
  Linked.of_same (s := s) rfl rfl rfl h

theorem markQuarantined_linked (n : RecNo) {s : State} (h : Linked [] [] s) : Linked [] [] (markQuarantined n s) :=
  (setRecord_linked n _ h).raise _ _

theorem serve_linked (l : List RecNo) {s : State} (h : Linked [] [] s) : Linked [] [] (serve l s) := by
  induction l generalizing s with
  | nil => exact h
  | cons n rest ih =>
    have h0 : Linked [] [] { s with waiting := rest } := Linked.of_same (s := s) rfl rfl rfl h
    unfold serve
    split
    · split
      · exact ih (setRecord_linked n _ (placeRecord_linked n h0))
      · exact h
    · exact ih (markQuarantined_linked n h0)

theorem publish_serveWaiting_linked {s : State} (h : Linked [] [] s) : Linked [] [] (publish (serveWaiting s)) :=
  publish_linked (serve_linked _ h)

theorem withdraw_linked (n : RecNo) {s : State} (h : Linked [] [] s) : Linked [] [] (withdraw n s) :=
  publish_serveWaiting_linked (Linked.of_same (s := s) rfl rfl rfl h)

theorem removeWaiting_linked (n : RecNo) {s : State} (h : Linked [] [] s) : Linked [] [] (removeWaiting n s) := by
  unfold removeWaiting
  dsimp only
  split
  · exact publish_serveWaiting_linked (Linked.of_same (s := s) rfl rfl rfl h)
  · exact Linked.of_same (s := s) rfl rfl rfl h

theorem selectiveRemoval_linked (chans : List Chan) (cond : Claim → Bool) {s : State} (h : Linked [] [] s) :
    Linked [] [] (selectiveRemoval chans cond s) := by
  unfold selectiveRemoval
  dsimp only
  split
  · exact h
  · exact publish_serveWaiting_linked (Linked.of_same (s := s) rfl rfl rfl h)

theorem holdCountdown_linked {s : State} (h : Linked [] [] s) : Linked [] [] (holdCountdown s) := by
  unfold holdCountdown
  dsimp only
  split
  · exact Linked.of_same (s := s) rfl rfl rfl h
  · exact publish_serveWaiting_linked (Linked.of_same (s := s) rfl rfl rfl h)

theorem quarantine_linked (n : RecNo) {s : State} (h : Linked [] [] s) : Linked [] [] (quarantine n s) := by
  unfold quarantine
  split
  · exact markQuarantined_linked _ (withdraw_linked _ h)
  · exact markQuarantined_linked _ (removeWaiting_linked _ h)
  · exact markQuarantined_linked _ h
  · exact markQuarantined_linked _ h
  · exact markQuarantined_linked _ h
  · exact h
  · exact h

theorem checkRecord_linked (n : RecNo) {s : State} (h : Linked [] [] s) : Linked [] [] (checkRecord n s) := by
  unfold checkRecord
  split
  · exact h
  · exact quarantine_linked n h

theorem countRecord_linked (n : RecNo) {s : State} (h : Linked [] [] s) : Linked [] [] (countRecord n s) := by
  unfold countRecord
  dsimp only
  split
  · exact (setRecord_linked n _ h).raise _ _
  · exact setRecord_linked n _ h

theorem requestOpening_linked (n : RecNo) {s : State} (h : Linked [] [] s) : Linked [] [] (requestOpening n s) := by
  unfold requestOpening
  split
  · exact publish_linked (setRecord_linked n _ (placeRecord_linked n h))
  · exact Linked.raise _ _ (setRecord_linked n _ (Linked.of_same (s := s) rfl rfl rfl h))

theorem openRecord_linked (n : RecNo) {s : State} (h : Linked [] [] s) : Linked [] [] (openRecord n s) := by
  unfold openRecord
  split
  · exact requestOpening_linked n (countRecord_linked n h)
  · exact quarantine_linked n h

theorem leaveWindow_linked (n : RecNo) {s : State} (h : Linked [] [] s) : Linked [] [] (leaveWindow n s) := by
  unfold leaveWindow
  split
  · exact withdraw_linked n h
  · exact removeWaiting_linked n h
  · exact h

theorem closeRecord_linked (n : RecNo) {s : State} (h : Linked [] [] s) : Linked [] [] (closeRecord n s) := by
  unfold closeRecord
  dsimp only
  refine setRecord_linked n _ ?_
  split
  · exact (leaveWindow_linked n h).raise _ _
  · exact leaveWindow_linked n h

theorem testArmed_linked (opens : Content → Moment → Bool) (m : Moment) (n : RecNo) {s : State} (h : Linked [] [] s) :
    Linked [] [] (testArmed opens m n s) := by
  unfold testArmed
  dsimp only
  split
  · exact h
  · split
    · split
      · exact openRecord_linked n h
      · split
        · exact (setRecord_linked n _ h).raise _ _
        · exact h
    · exact h

theorem visit_linked (k : PassKind) (m : Moment) (n : RecNo) {s : State} (h : Linked [] [] s) : Linked [] [] (visit k m n s) := by
  refine testArmed_linked _ _ _ ?_
  unfold closeIfOutside
  dsimp only
  split
  · exact closeRecord_linked n h
  · exact h

theorem evaluateRecord_linked (n : RecNo) {s : State} (h : Linked [] [] s) : Linked [] [] (evaluateRecord n s) := by
  unfold evaluateRecord
  split
  · split
    · exact testArmed_linked _ _ _ h
    · exact h
  · exact h

theorem runPass_linked (k : Nat) {s : State} (h : Linked [] [] s) : Linked [] [] (runPass k s) := by
  induction k generalizing s with
  | zero => exact h
  | succ k ih =>
    refine ih ?_
    unfold passStep
    split
    · exact Linked.of_same (s := visit _ _ _ s) rfl rfl rfl (visit_linked _ _ _ h)
    · exact h

/-- Right after a main reset the channels derive their drives from an empty pool. -/
theorem deriveAll_linked {s : State} (hc : ∀ c, (s.channel c).condition = .normal) (h : Linked [] [] s) : Linked [] [] (deriveAll s) := by
  have one : ∀ (c : Chan) {t : State}, (∀ d, (t.channel d).condition = .normal) → Linked [] [] t →
      Linked [] [] (deriveDrive c true t) := fun c t ht hl => deriveDrive_linked c true (ht c) (hl.pulsed c) (hl.weaken c)
  have cond : ∀ (c : Chan) {t : State}, (∀ d, (t.channel d).condition = .normal) → Linked [] [] t →
      ∀ d, ((deriveDrive c true t).channel d).condition = .normal := by
    intro c t ht hl d
    exact deriveDrive_condition c true t d ▸ ht d
  unfold deriveAll
  have hc1 : ∀ c, ((takeOrder s).2.channel c).condition = .normal := by
    intro c
    unfold takeOrder
    split
    · exact hc c
    · exact hc c
  have h1 := takeOrder_linked h
  generalize (takeOrder s).1 = l
  generalize (takeOrder s).2 = t at h1 hc1
  induction l generalizing t with
  | nil => exact h1
  | cons c l ih => exact ih _ (one c hc1 h1) (cond c hc1 h1)

/-! ### Configuring a channel -/

/-- The invariant but for channel `c`, which has nothing at the pool. -/
def LinkedOff (c : Chan) (s : State) : Prop := Linked [c] [] s ∧ (s.channel c).link = .none

theorem LinkedOff.setChannel {c : Chan} {s : State} (y : Channel) (hy : y.link = (s.channel c).link) (h : LinkedOff c s) :
    LinkedOff c (s.setChannel c y) := by
  have h1 := h.1.setChannel c y hy
  refine ⟨⟨h1.1, fun d hd => ⟨fun hm => (h1.2.1 d hd).1 ?_, (h1.2.1 d hd).2⟩, fun d hm => h1.2.2 d ?_⟩, ?_⟩
  · simpa using hm
  · simpa using hm
  · rw [channel_setChannel, if_pos rfl, hy]; exact h.2

theorem LinkedOff.setConfig {c : Chan} {s : State} (k : ChannelConfig) (h : LinkedOff c s) : LinkedOff c (s.setConfig c k) := by
  refine ⟨⟨h.1.1, fun d hd => ⟨fun hx => ?_, (h.1.2.1 d hd).2⟩, fun d hx => h.1.2.2 d hx⟩, h.2⟩
  have hk : (s.setConfig c k).config d = s.config d := State.setConfig_config_other _ _ (by simpa using hx)
  rw [hk]
  exact (h.1.2.1 d hd).1 hx

theorem leavePool_link (c : Chan) (s : State) : ((leavePool c s).channel c).link = .none := by
  unfold leavePool
  split
  · assumption
  · exact setLink_none_link _ _
  · rename_i g _
    have hh : (((setLink c .none s).setGenerator g .free).channel c).link = .none := setLink_none_link _ _
    unfold grantNext
    split
    · exact hh
    · rename_i w ws hw
      split
      · unfold startGenerator
        dsimp only
        rw [channel_setChannel]
        split
        · rename_i hcw
          have hm := mem_waiters.mp (show w ∈ waiters _ by rw [hw]; exact List.mem_cons_self)
          rw [← hcw, hh] at hm
          cases hm
        · exact hh
      · exact hh

theorem LinkedOff.pinsInactive {c : Chan} {s : State} (h : LinkedOff c s) : LinkedOff c (pinsInactive c s) := by
  unfold Machine.pinsInactive
  split
  · exact h.setChannel _ rfl
  · exact h.setChannel _ rfl

theorem LinkedOff.republish {c : Chan} {s : State} (h : LinkedOff c s) : LinkedOff c (republish c s) := by
  unfold Machine.republish
  split
  · exact h
  · refine ⟨?_, by rw [takePresent_channel]; exact h.2⟩
    have h1 := (h.setChannel { s.channel c with present := demandOf s c } rfl).1
    unfold takePresent
    dsimp only
    split
    · exact countSwitch_linked c h1
    · exact h1

theorem LinkedOff.derive {c : Chan} {s : State} (h : LinkedOff c s) : Linked [] [] (deriveNormal c s) := by
  have hw : (s.channel c).link ≠ .waiting := by rw [h.2]; exact nofun
  unfold deriveNormal
  split
  · rename_i hn
    exact deriveDrive_linked c true hn (fun _ => hw) h.1
  · exact h.1.restore c (fun hx => absurd hx hw) fun _ => h.2

/-- An accepted CCFG keeps the pool's invariant (R125). -/
theorem configureChannel_linked (c : Chan) (k : ChannelConfig) {s : State} (h : Linked [] [] s) : Linked [] [] (configureChannel c k s) := by
  have h1 : Linked [c] [] (cutPulse c s) := by
    unfold cutPulse
    split
    · exact h.setChannel c _ rfl
    · exact h.weaken c
  have h2 : LinkedOff c (leavePool c (cutPulse c s)) := ⟨(leavePool_linked c h1).weaken c, leavePool_link _ _⟩
  have h3 : LinkedOff c (freshPulse c (Machine.pinsInactive c ((leavePool c (cutPulse c s)).setConfig c k))) :=
    (h2.setConfig k).pinsInactive.setChannel _ rfl
  exact h3.republish.derive

/-- A CFLT that restores a channel keeps the pool's invariant (R168). -/
theorem restore_linked (c : Chan) {s : State} (hf : (s.channel c).condition = .faulted) (h : Linked [] [] s) :
    Linked [] [] (deriveDrive c true (s.setChannel c { s.channel c with condition := .normal })) := by
  have hl : (s.channel c).link = .none := h.2.2 c (by simp) hf
  refine deriveDrive_linked c true ?_ (fun _ => ?_) (h.setChannel c _ rfl)
  · rw [channel_setChannel, if_pos rfl]
  · rw [channel_setChannel, if_pos rfl]
    exact fun hw => nomatch hl.symm.trans hw

/-! ### An idle step -/

theorem GenRun.pass_channel (f : Nat) (r : GenRun) : (r.pass f).channel = r.channel := by
  unfold GenRun.pass
  dsimp only
  split
  · split
    · rfl
    · split <;> rfl
  · split
    · rfl
    · split <;> rfl

theorem Generator.pass_free (f : Nat) (g : Generator) : g.pass f = .free ↔ g = .free := by
  cases g with
  | free => exact ⟨fun _ => rfl, fun _ => rfl⟩
  | busy r => exact ⟨nofun, nofun⟩

theorem Generator.pass_busy (f : Nat) (g : Generator) (c : Chan) :
    (∃ r, g.pass f = .busy r ∧ r.channel = c) ↔ ∃ r, g = .busy r ∧ r.channel = c := by
  cases g with
  | free => exact ⟨nofun, nofun⟩
  | busy r =>
    refine ⟨fun ⟨q, hq, hc⟩ => ⟨r, rfl, ?_⟩, fun ⟨q, hq, hc⟩ => ⟨r.pass f, rfl, ?_⟩⟩
    · cases hq; exact (GenRun.pass_channel f r).symm.trans hc
    · cases hq; exact (GenRun.pass_channel f r).trans hc

/-- A microsecond of the waveforms keeps the pool's invariant. -/
theorem wavePass_linked {s : State} (h : Linked [] [] s) : Linked [] [] (wavePass s) := by
  unfold wavePass
  split
  · have hg : ∀ g, (tabulate fun g => (s.generator g).pass s.dimFreq).get g = (s.generator g).pass s.dimFreq := fun g => nth_tabulate _ _
    refine ⟨fun c g => ?_, fun c hw => ⟨(h.2.1 c hw).1, fun g hx => ?_⟩, h.2.2⟩
    · show (s.channel c).link = _ ↔ ∃ r, (tabulate fun g => (s.generator g).pass s.dimFreq).get g = _ ∧ _
      rw [hg, Generator.pass_busy]
      exact h.1 c g
    · show (tabulate fun g => (s.generator g).pass s.dimFreq).get g ≠ _
      rw [hg, ne_eq, Generator.pass_free]
      exact (h.2.1 c hw).2 g hx
  · exact h

/-- A millisecond keeps the pool's invariant. -/
theorem msPass_linked {s : State} (h : Linked [] [] s) : Linked [] [] (msPass s) := by
  unfold msPass
  dsimp only
  split
  · have hc : ∀ c, (tabulate fun c => (s.channel c).pass).get c = (s.channel c).pass := fun c => nth_tabulate _ _
    refine ⟨fun c g => ?_, fun c hw => ?_, fun c => ?_⟩
    · show ((tabulate fun c => (s.channel c).pass).get c).link = _ ↔ _
      rw [hc]
      exact h.1 c g
    · change ((tabulate fun c => (s.channel c).pass).get c).link = _ at hw
      rw [hc] at hw
      refine ⟨fun hx => ?_, (h.2.1 c hw).2⟩
      show ((tabulate fun c => (s.channel c).pass).get c).condition = _ ∧ (needs _ ((tabulate fun c => (s.channel c).pass).get c).present).isSome = _
      rw [hc]
      exact (h.2.1 c hw).1 hx
    · show c ∉ [] → ((tabulate fun c => (s.channel c).pass).get c).condition = _ → ((tabulate fun c => (s.channel c).pass).get c).link = _
      rw [hc]
      exact h.2.2 c
  · exact Linked.of_same (s := s) rfl rfl rfl h

/-- What passes on an empty queue keeps the pool's invariant. -/
theorem idle_linked {s : State} (h : Linked [] [] s) : Linked [] [] (idle s) := by
  unfold idle
  split
  · exact Linked.of_same (s := wavePass s) rfl rfl rfl (wavePass_linked h)
  · exact msPass_linked (Linked.of_same (s := wavePass s) rfl rfl rfl (wavePass_linked h))

end Sys2Proof.Machine
end

