-- ==== Sys2Proof/Laws/Notices.lean ====
section
/-!
SUPPORT. Which notices an operation can raise (R179): a raise changes the entry of its kind alone; `QuietBut l s t` says that `t` has every entry of
`s` but those of the kinds in `l`.
-/

namespace Sys2Proof.Machine

theorem NoticeKind.code_injective {a b : NoticeKind} (h : a.code = b.code) : a = b := by
  cases a <;> cases b <;> first | rfl | exact absurd h (by decide)

/-- A raise made with main power counts on the entry of its kind and on no other (R179). -/
theorem raise_notice {s : State} (h : s.mainPower = true) (k : NoticeKind) (j : Nat) (k' : NoticeKind) :
    (s.raise k j).notice k' = if k' = k then (s.notice k).raised j else s.notice k' := by
  unfold State.raise
  rw [if_pos h]
  show nth (upd s.notices k.code _) k'.code = _
  rw [nth_upd]
  by_cases hk : k' = k
  · subst hk; simp
  · rw [if_neg hk, if_neg fun e => hk (NoticeKind.code_injective e)]
    rfl

theorem raise_notice_same {s : State} (h : s.mainPower = true) (k : NoticeKind) (j : Nat) : (s.raise k j).notice k = (s.notice k).raised j := by
  rw [raise_notice h, if_pos rfl]

theorem raise_notice_other (s : State) {k k' : NoticeKind} (h : k' ≠ k) (j : Nat) : (s.raise k j).notice k' = s.notice k' := by
  by_cases hp : s.mainPower = true
  · rw [raise_notice hp, if_neg h]
  · unfold State.raise
    rw [if_neg hp]

/-- `t` has every entry of `s` but those of the kinds in `l`. -/
def QuietBut (l : List NoticeKind) (s t : State) : Prop := ∀ k, k ∉ l → t.notice k = s.notice k

namespace QuietBut

variable {l : List NoticeKind}

theorem refl (s : State) : QuietBut l s s := fun _ _ => rfl

theorem trans {s t u : State} (h1 : QuietBut l s t) (h2 : QuietBut l t u) : QuietBut l s u := fun k h => (h2 k h).trans (h1 k h)

theorem of_notices {s t : State} (h : t.notices = s.notices) : QuietBut l s t := fun k _ => by unfold State.notice; rw [h]

theorem raise (s : State) {k : NoticeKind} (j : Nat) (h : k ∈ l) : QuietBut l s (s.raise k j) :=
  fun k' hn => raise_notice_other s (fun e : k' = k => hn (e ▸ h)) j

theorem mono {l' : List NoticeKind} {s t : State} (h : QuietBut l s t) (hl : ∀ k ∈ l, k ∈ l') : QuietBut l' s t :=
  fun k hn => h k fun hk => hn (hl k hk)

theorem foldl {α : Type} {f : State → α → State} (hf : ∀ s a, QuietBut l s (f s a)) (as : List α) (s : State) :
    QuietBut l s (as.foldl f s) := by
  induction as generalizing s with
  | nil => exact refl s
  | cons a as ih => exact (hf s a).trans (ih (f s a))

end QuietBut

/-- The notices that taking a demand can raise. -/
def demandKinds : List NoticeKind := [.switchWrap, .genShort]

theorem startGenerator_quiet {l : List NoticeKind} (g : GenNo) (c : Chan) (p : Params) (s : State) : QuietBut l s (startGenerator g c p s) :=
  QuietBut.of_notices rfl

theorem grantNext_quiet {l : List NoticeKind} (g : GenNo) (s : State) : QuietBut l s (grantNext g s) := by
  unfold grantNext
  split
  · exact QuietBut.refl s
  · split
    · exact startGenerator_quiet _ _ _ _
    · exact QuietBut.refl s

theorem leavePool_quiet {l : List NoticeKind} (c : Chan) (s : State) : QuietBut l s (leavePool c s) := by
  unfold leavePool
  split
  · exact QuietBut.refl s
  · exact QuietBut.of_notices rfl
  · exact QuietBut.trans (t := (setLink c .none s).setGenerator _ .free) (QuietBut.of_notices rfl) (grantNext_quiet _ _)

theorem countSwitch_quiet (c : Chan) (s : State) : QuietBut demandKinds s (countSwitch c s) := by
  unfold countSwitch
  dsimp only
  split
  · exact QuietBut.trans (t := s.setSwitch c ⟨0, true⟩) (QuietBut.of_notices rfl) (QuietBut.raise _ _ (by decide))
  · exact QuietBut.of_notices rfl

theorem deriveSteady_quiet (c : Chan) (s : State) : QuietBut demandKinds s (deriveSteady c s) := by
  unfold deriveSteady
  dsimp only
  split
  · unfold requestGenerator
    split
    · exact startGenerator_quiet _ _ _ _
    · exact QuietBut.trans (t := driveSteady c _ (setLink c .waiting s)) (QuietBut.of_notices rfl) (QuietBut.raise _ _ (by decide))
  · unfold stage
    split <;> exact QuietBut.of_notices rfl
  · exact QuietBut.of_notices rfl
  · exact QuietBut.of_notices rfl
  · unfold release
    split <;> exact QuietBut.of_notices rfl
  · exact QuietBut.of_notices rfl

theorem derivePulse_quiet {l : List NoticeKind} (c : Chan) (d : Bool) (s : State) : QuietBut l s (derivePulse c d s) := by
  unfold derivePulse
  dsimp only
  split
  · exact QuietBut.refl s
  · exact QuietBut.of_notices rfl
  · split
    · exact QuietBut.of_notices rfl
    · exact QuietBut.refl s
  · split
    · exact QuietBut.refl s
    · exact QuietBut.of_notices rfl
  · exact QuietBut.of_notices rfl

theorem deriveDrive_quiet (c : Chan) (d : Bool) (s : State) : QuietBut demandKinds s (deriveDrive c d s) := by
  unfold deriveDrive
  split
  · exact derivePulse_quiet _ _ _
  · exact deriveSteady_quiet _ _
  · exact deriveSteady_quiet _ _

theorem takePresent_quiet (c : Chan) (d : Demand) (s : State) : QuietBut demandKinds s (takePresent c d s) := by
  unfold takePresent
  dsimp only
  split
  · exact QuietBut.trans (t := s.setChannel c _) (QuietBut.of_notices rfl) (countSwitch_quiet _ _)
  · exact QuietBut.of_notices rfl

theorem takeDemand_quiet (c : Chan) (d : Demand) (s : State) : QuietBut demandKinds s (takeDemand c d s) := by
  unfold takeDemand
  dsimp only
  split
  · exact (takePresent_quiet _ _ _).trans (deriveDrive_quiet _ _ _)
  · exact takePresent_quiet _ _ _

theorem publishOne_quiet (s : State) (c : Chan) : QuietBut demandKinds s (publishOne s c) := by
  unfold publishOne
  split
  · exact QuietBut.refl s
  · exact takeDemand_quiet _ _ _

theorem takeOrder_quiet {l : List NoticeKind} (s : State) : QuietBut l s (takeOrder s).2 := by
  unfold takeOrder
  split
  · exact QuietBut.refl s
  · exact QuietBut.of_notices rfl

/-- A publication raises SWITCH_WRAP and GEN_SHORT at most (R136, R146). -/
theorem publish_quiet (s : State) : QuietBut demandKinds s (publish s) :=
  (takeOrder_quiet s).trans (QuietBut.foldl publishOne_quiet _ _)

theorem faultChannel_quiet (c : Chan) (s : State) : QuietBut [.outputFault] s (faultChannel c s) := by
  unfold faultChannel
  refine QuietBut.trans (t := s.setChannel c _) (QuietBut.of_notices rfl) ((leavePool_quiet c _).trans (QuietBut.raise _ _ (by decide)))

theorem mismatch_quiet (late : Bool) (c : Chan) (s : State) : QuietBut [.outputFault] s (mismatch late c s) := by
  unfold mismatch
  split
  · exact QuietBut.of_notices rfl
  · exact QuietBut.trans (t := { s with faultsDue := upd s.faultsDue c false }) (QuietBut.of_notices rfl) (faultChannel_quiet _ _)

/-- A steady comparison raises OUTPUT_FAULT at most (R166). -/
theorem steadyCompare_quiet (held : List PinHold) (c : Chan) (s : State) : QuietBut [.outputFault] s (steadyCompare held c s) := by
  unfold steadyCompare
  split
  · split
    · exact QuietBut.refl s
    · exact mismatch_quiet _ _ _
  · exact QuietBut.refl s

theorem place_quiet {l : List NoticeKind} (q : Request) (s : State) : QuietBut l s (place q s) :=
  QuietBut.foldl (f := placeOne q) (fun _ _ => QuietBut.of_notices rfl) _ _

theorem placeRecord_quiet {l : List NoticeKind} (n : RecNo) (s : State) : QuietBut l s (placeRecord n s) := by
  unfold placeRecord
  split
  · exact QuietBut.refl s
  · exact place_quiet _ _

theorem markQuarantined_quiet (n : RecNo) (s : State) : QuietBut [.recordFault] s (markQuarantined n s) :=
  QuietBut.trans (t := s.setRecord n _) (QuietBut.of_notices rfl) (QuietBut.raise _ _ (by decide))

/-- The service of the waiting list raises RECORD_FAULT at most (R90). -/
theorem serve_quiet (l : List RecNo) (s : State) : QuietBut [.recordFault] s (serve l s) := by
  induction l generalizing s with
  | nil => exact QuietBut.refl s
  | cons n rest ih =>
    have h0 : QuietBut [.recordFault] s { s with waiting := rest } := QuietBut.of_notices rfl
    unfold serve
    split
    · split
      · exact (h0.trans ((placeRecord_quiet n _).trans (QuietBut.of_notices rfl))).trans (ih _)
      · exact QuietBut.refl s
    · exact (h0.trans (markQuarantined_quiet n _)).trans (ih _)

/-- The notices that a service with its publications can raise. -/
def serviceKinds : List NoticeKind := [.recordFault, .switchWrap, .genShort]

theorem publish_serveWaiting_quiet (s : State) : QuietBut serviceKinds s (publish (serveWaiting s)) :=
  ((serve_quiet _ s).mono (by decide)).trans ((publish_quiet _).mono (by decide))

end Sys2Proof.Machine
end

