-- ==== Sys2Proof/Laws/Drives.lean ====
section
/-!
SUPPORT. What the operations on one channel leave of the others: taking a demand and deriving a drive touch that channel alone (R127), a fault or
a grant touches the channel that fails and the first that waits (R147, R153); so a FAULTED channel stays as it is through them (R166, R167).
-/

namespace Sys2Proof.Machine

/-- The channel `c`, its switch counter, and every configuration stand. -/
def Off (c : Chan) (s t : State) : Prop := t.channel c = s.channel c ∧ t.switch c = s.switch c ∧ t.channelConfigs = s.channelConfigs

namespace Off

variable {c d : Chan}

theorem refl (s : State) : Off c s s := ⟨rfl, rfl, rfl⟩

theorem trans {s t u : State} (h1 : Off c s t) (h2 : Off c t u) : Off c s u := ⟨h2.1.trans h1.1, h2.2.1.trans h1.2.1, h2.2.2.trans h1.2.2⟩

theorem setChannel (h : c ≠ d) (s : State) (x : Channel) : Off c s (s.setChannel d x) :=
  ⟨(channel_setChannel s d c x).trans (if_neg h), rfl, rfl⟩

theorem setSwitch (h : c ≠ d) (s : State) (x : SwitchCounter) : Off c s (s.setSwitch d x) := ⟨rfl, nth_upd_other _ _ h, rfl⟩

theorem setGenerator (s : State) (g : GenNo) (x : Generator) : Off c s (s.setGenerator g x) := ⟨rfl, rfl, rfl⟩

theorem raise (s : State) (k : NoticeKind) (j : Nat) : Off c s (s.raise k j) := by
  unfold State.raise
  split
  · exact ⟨rfl, rfl, rfl⟩
  · exact refl s

end Off

section

variable {c d : Chan}

theorem startGenerator_off (h : c ≠ d) (g : GenNo) (p : Params) (s : State) : Off c s (startGenerator g d p s) :=
  (Off.setGenerator s g _).trans (Off.setChannel h _ _)

theorem driveSteady_off (h : c ≠ d) (b : Bool) (s : State) : Off c s (driveSteady d b s) := Off.setChannel h _ _

theorem setLink_off (h : c ≠ d) (l : Link) (s : State) : Off c s (setLink d l s) := Off.setChannel h _ _

theorem deriveSteady_off (h : c ≠ d) (s : State) : Off c s (deriveSteady d s) := by
  unfold deriveSteady
  dsimp only
  split
  · unfold requestGenerator
    split
    · exact startGenerator_off h _ _ _
    · exact ((setLink_off h .waiting s).trans (driveSteady_off h _ _)).trans (Off.raise _ _ _)
  · unfold stage
    split
    · exact Off.refl s
    · exact Off.setGenerator _ _ _
  · exact driveSteady_off h _ _
  · exact driveSteady_off h _ _
  · unfold release
    split
    · exact Off.refl s
    · exact Off.setGenerator _ _ _
  · exact (setLink_off h .none s).trans (driveSteady_off h _ _)

theorem derivePulse_off (h : c ≠ d) (b : Bool) (s : State) : Off c s (derivePulse d b s) := by
  unfold derivePulse
  dsimp only
  split
  · exact Off.refl s
  · exact Off.setChannel h _ _
  · split
    · exact Off.setChannel h _ _
    · exact Off.refl s
  · split
    · exact Off.refl s
    · exact Off.setChannel h _ _
  · exact Off.setChannel h _ _

theorem deriveDrive_off (h : c ≠ d) (b : Bool) (s : State) : Off c s (deriveDrive d b s) := by
  unfold deriveDrive
  split
  · exact derivePulse_off h b s
  · exact deriveSteady_off h s
  · exact deriveSteady_off h s

theorem takePresent_off (h : c ≠ d) (x : Demand) (s : State) : Off c s (takePresent d x s) := by
  unfold takePresent
  dsimp only
  split
  · refine (Off.setChannel h s { s.channel d with present := x }).trans ?_
    unfold countSwitch
    dsimp only
    split
    · exact (Off.setSwitch h _ _).trans (Off.raise _ _ _)
    · exact Off.setSwitch h _ _
  · exact Off.setChannel h s _

theorem takeDemand_off (h : c ≠ d) (x : Demand) (s : State) : Off c s (takeDemand d x s) := by
  unfold takeDemand
  dsimp only
  split
  · exact (takePresent_off h x s).trans (deriveDrive_off h false _)
  · exact takePresent_off h x s

theorem publishOne_off (h : c ≠ d) (s : State) : Off c s (publishOne s d) := by
  unfold publishOne
  split
  · exact Off.refl s
  · exact takeDemand_off h _ _

theorem leavePool_off (h : c ≠ d) {s : State} (hc : (s.channel c).link ≠ .waiting) : Off c s (leavePool d s) := by
  unfold leavePool
  split
  · exact Off.refl s
  · exact setLink_off h _ _
  · have o : Off c s ((setLink d .none s).setGenerator ‹GenNo› .free) := (setLink_off h .none s).trans (Off.setGenerator _ _ _)
    refine o.trans ?_
    unfold grantNext
    split
    · exact Off.refl _
    · rename_i w l hw
      split
      · refine startGenerator_off ?_ _ _ _
        rintro rfl
        have := mem_waiters.mp (hw ▸ List.mem_cons_self : c ∈ waiters _)
        rw [o.1] at this
        exact hc this
      · exact Off.refl _

theorem faultChannel_off (h : c ≠ d) {s : State} (hc : (s.channel c).link ≠ .waiting) : Off c s (faultChannel d s) := by
  have o := Off.setChannel (c := c) h s { s.channel d with condition := .faulted, feedback := .unsupervised, drive := .inactive }
  exact (o.trans (leavePool_off h (by rw [o.1]; exact hc))).trans (Off.raise _ _ _)

end

/-- Deriving a drive counts nothing, and raises GEN_SHORT at most (R130, R136). -/
theorem deriveDrive_counts (c : Chan) (b : Bool) (s : State) : QuietBut [.genShort] s (deriveDrive c b s) ∧ (deriveDrive c b s).switches = s.switches := by
  have st : QuietBut [.genShort] s (deriveSteady c s) ∧ (deriveSteady c s).switches = s.switches := by
    unfold deriveSteady
    dsimp only
    split
    · unfold requestGenerator
      split
      · exact ⟨QuietBut.of_notices rfl, rfl⟩
      · exact ⟨QuietBut.trans (t := driveSteady c _ (setLink c .waiting s)) (QuietBut.of_notices rfl) (QuietBut.raise _ _ (by decide)), State.raise_switches _ _ _⟩
    · unfold stage
      split <;> exact ⟨QuietBut.of_notices rfl, rfl⟩
    · exact ⟨QuietBut.of_notices rfl, rfl⟩
    · exact ⟨QuietBut.of_notices rfl, rfl⟩
    · unfold release
      split <;> exact ⟨QuietBut.of_notices rfl, rfl⟩
    · exact ⟨QuietBut.of_notices rfl, rfl⟩
  unfold deriveDrive
  split
  · refine ⟨derivePulse_quiet _ _ _, ?_⟩
    unfold derivePulse
    dsimp only
    split
    · rfl
    · rfl
    · split <;> rfl
    · split <;> rfl
    · rfl
  · exact st
  · exact st

/-! ### One publication -/

theorem publishOne_settled {s : State} {c : Chan} (h : (s.channel c).present = demandOf s c) : publishOne s c = s := if_pos h.symm

theorem foldl_settled {s : State} (h : ∀ e, (s.channel e).present = demandOf s e) (l : List Chan) : l.foldl publishOne s = s := by
  induction l with
  | nil => rfl
  | cons a l ih => rw [List.foldl_cons, publishOne_settled (h a), ih]

/-- A publication at which one channel's demand alone has changed is that channel's taking it, whatever the order (R78). -/
theorem publish_one {s : State} {c : Chan} (h : ∀ e, e ≠ c → (s.channel e).present = demandOf s e) (hc : (s.channel c).present ≠ demandOf s c) :
    publish s = takeDemand c (demandOf s c) (takeOrder s).2 := by
  have hm := takeOrder_mem s c
  have hd : ∀ e, demandOf (takeOrder s).2 e = demandOf s e := demandOf_of_frame (takeOrder_frame s)
  have hp : ∀ e, ((takeOrder s).2.channel e).present = (s.channel e).present := fun e => by unfold takeOrder; split <;> rfl
  unfold publish
  rw [← hd c] at hc ⊢
  rw [← hp c] at hc
  have h' : ∀ e, e ≠ c → ((takeOrder s).2.channel e).present = demandOf (takeOrder s).2 e := fun e he => by rw [hp, hd, h e he]
  generalize (takeOrder s).1 = l at hm
  generalize (takeOrder s).2 = u at hc h'
  clear hd hp h
  have hset : ∀ e, ((takeDemand c (demandOf u c) u).channel e).present = demandOf (takeDemand c (demandOf u c) u) e := fun e => by
    rw [takeDemand_present, demandOf_of_frame (takeDemand_frame c _ u)]
    by_cases he : e = c
    · subst he
      rw [if_pos rfl]
    · rw [if_neg he, h' e he]
  induction l with
  | nil => cases hm
  | cons a l ih =>
    rw [List.foldl_cons]
    by_cases ha : a = c
    · subst ha
      have e : publishOne u a = takeDemand a (demandOf u a) u := if_neg (Ne.symm hc)
      rw [e]
      exact foldl_settled hset l
    · rw [publishOne_settled (h' a ha)]
      exact ih (by simpa [Ne.symm ha] using hm)

/-! ### A FAULTED channel -/

/-- A channel that is FAULTED, drives nothing, has nothing at the pool and is not supervised (R166). -/
def OutOfDrive (c : Chan) (s : State) : Prop :=
  (s.channel c).condition = .faulted ∧ (s.channel c).drive = .inactive ∧ (s.channel c).link = .none ∧ (s.channel c).feedback = .unsupervised

theorem OutOfDrive.of_channel {c : Chan} {s t : State} (h : OutOfDrive c s) (e : t.channel c = s.channel c) : OutOfDrive c t := by
  unfold OutOfDrive
  rw [e]
  exact h

/-- A fault takes its channel out of drive (R166). -/
theorem faultChannel_outOfDrive (c : Chan) (s : State) : OutOfDrive c (faultChannel c s) := by
  unfold faultChannel
  dsimp only
  generalize hu : s.setChannel c { s.channel c with condition := .faulted, feedback := .unsupervised, drive := .inactive } = u
  have hc : (u.channel c).condition = .faulted ∧ (u.channel c).drive = .inactive ∧ (u.channel c).feedback = .unsupervised := by
    rw [← hu, channel_setChannel, if_pos rfl]
    exact ⟨rfl, rfl, rfl⟩
  refine OutOfDrive.of_channel (s := leavePool c u) ?_ (Off.raise (c := c) _ _ _).1
  have one : (setLink c .none u).channel c = { u.channel c with link := .none } := (channel_setChannel _ _ _ _).trans (if_pos rfl)
  have unlinked : OutOfDrive c (setLink c .none u) := by
    unfold OutOfDrive
    rw [one]
    exact ⟨hc.1, hc.2.1, rfl, hc.2.2⟩
  unfold leavePool
  split
  · exact ⟨hc.1, hc.2.1, by assumption, hc.2.2⟩
  · exact unlinked
  · refine OutOfDrive.of_channel unlinked ?_
    unfold grantNext
    split
    · rfl
    · rename_i w l hw
      split
      · refine (startGenerator_off ?_ _ _ _).1.trans rfl
        rintro rfl
        have := mem_waiters.mp (hw ▸ List.mem_cons_self : c ∈ waiters _)
        exact absurd (unlinked.2.2.1.symm.trans this) (by simp)
      · rfl

theorem takeDemand_outOfDrive {c : Chan} {s : State} (h : OutOfDrive c s) (d : Chan) (x : Demand) : OutOfDrive c (takeDemand d x s) := by
  by_cases e : c = d
  · subst e
    unfold takeDemand
    dsimp only
    rw [if_neg (by simp [h.1])]
    unfold OutOfDrive
    rw [takePresent_channel]
    exact h
  · exact h.of_channel (takeDemand_off e x s).1

theorem publish_outOfDrive {c : Chan} {s : State} (h : OutOfDrive c s) : OutOfDrive c (publish s) := by
  unfold publish
  have h0 : OutOfDrive c (takeOrder s).2 := by
    unfold takeOrder
    split <;> exact h
  generalize (takeOrder s).1 = l
  generalize (takeOrder s).2 = u at h0
  induction l generalizing u with
  | nil => exact h0
  | cons d l ih =>
    refine ih _ ?_
    unfold publishOne
    split
    · exact h0
    · exact takeDemand_outOfDrive h0 _ _

theorem serve_channels (l : List RecNo) (s : State) : (serve l s).channels = s.channels ∧ (serve l s).generators = s.generators
    ∧ (serve l s).switches = s.switches := by
  have pl : ∀ n u, (placeRecord n u).channels = u.channels ∧ (placeRecord n u).generators = u.generators
      ∧ (placeRecord n u).switches = u.switches := by
    intro n u
    unfold placeRecord
    split
    · exact ⟨rfl, rfl, rfl⟩
    · rename_i x _
      unfold place
      generalize (recordRequest n x).targets = ts
      clear * -
      induction ts generalizing u with
      | nil => exact ⟨rfl, rfl, rfl⟩
      | cons t ts ih => exact ih _
  induction l generalizing s with
  | nil => exact ⟨rfl, rfl, rfl⟩
  | cons n l ih =>
    unfold serve
    split
    · split
      · obtain ⟨h1, h2, h3⟩ := ih (setRecState n .opened (placeRecord n { s with waiting := l }))
        obtain ⟨p1, p2, p3⟩ := pl n { s with waiting := l }
        exact ⟨h1.trans p1, h2.trans p2, h3.trans p3⟩
      · exact ⟨rfl, rfl, rfl⟩
    · obtain ⟨h1, h2, h3⟩ := ih (markQuarantined n { s with waiting := l })
      have m : ∀ u, (markQuarantined n u).channels = u.channels ∧ (markQuarantined n u).generators = u.generators
          ∧ (markQuarantined n u).switches = u.switches := fun u => by
        unfold markQuarantined State.raise
        dsimp only
        split <;> exact ⟨rfl, rfl, rfl⟩
      obtain ⟨p1, p2, p3⟩ := m { s with waiting := l }
      exact ⟨h1.trans p1, h2.trans p2, h3.trans p3⟩

theorem publish_serveWaiting_outOfDrive {c : Chan} {s : State} (h : OutOfDrive c s) : OutOfDrive c (publish (serveWaiting s)) :=
  publish_outOfDrive (h.of_channel (congrArg (nth · c) (serve_channels s.waiting s).1))

theorem quarantine_outOfDrive {c : Chan} {s : State} (n : RecNo) (h : OutOfDrive c s) : OutOfDrive c (quarantine n s) := by
  have mark : ∀ u, OutOfDrive c u → OutOfDrive c (markQuarantined n u) := fun u hu => by
    refine hu.of_channel ?_
    unfold markQuarantined State.raise
    dsimp only
    split <;> rfl
  unfold quarantine
  split
  · exact mark _ (publish_serveWaiting_outOfDrive (s := keepClaims _ s) h)
  · refine mark _ ?_
    unfold removeWaiting
    dsimp only
    split
    · exact publish_serveWaiting_outOfDrive (s := { s with waiting := _ }) h
    · exact h
  · exact mark s h
  · exact mark s h
  · exact mark s h
  · exact h
  · exact h

theorem holdCountdown_outOfDrive {c : Chan} {s : State} (h : OutOfDrive c s) : OutOfDrive c (holdCountdown s) := by
  unfold holdCountdown
  dsimp only
  split
  · exact h
  · exact publish_serveWaiting_outOfDrive (s := { s with claims := _ }) h

theorem mismatch_outOfDrive {c : Chan} {s : State} (late : Bool) (d : Chan) (h : OutOfDrive c s) : OutOfDrive c (mismatch late d s) := by
  unfold mismatch
  split
  · exact h
  · by_cases e : c = d
    · subst e
      exact faultChannel_outOfDrive c _
    · exact h.of_channel (faultChannel_off e (s := { s with faultsDue := upd s.faultsDue d false })
        (by rw [show State.channel { s with faultsDue := upd s.faultsDue d false } c = s.channel c from rfl, h.2.2.1]; simp)).1

theorem steadyCompare_outOfDrive {c : Chan} {s : State} (held : List PinHold) (d : Chan) (h : OutOfDrive c s) :
    OutOfDrive c (steadyCompare held d s) := by
  unfold steadyCompare
  split
  · split
    · exact h
    · exact mismatch_outOfDrive _ d h
  · exact h

end Sys2Proof.Machine
end

