-- ==== Sys2Proof/Laws/Pool.lean ====
section
/-!
SUPPORT. The claim pool and its lists (R73 to R77, R80 to R86): what every operation of the arbiter, the records' checks and the evaluator leaves
of the pool's invariant.
-/

namespace Sys2Proof.Machine

theorem poolInv_iff (s : State) : PoolInv s ↔ claimTotal s ≤ 48 ∧ ∀ c, ordered (s.claimList c) ∧ oneEach (s.claimList c) := by
  unfold PoolInv freeCount Config.poolSize
  exact ⟨fun h => ⟨by omega, h.2⟩, fun h => ⟨by omega, h.2⟩⟩

theorem claimTotal_of_claims {s t : State} (h : t.claims = s.claims) : claimTotal t = claimTotal s := by
  unfold claimTotal State.claimList
  rw [h]

theorem freeCount_of_claims {s t : State} (h : t.claims = s.claims) : freeCount t = freeCount s := by
  unfold freeCount
  rw [claimTotal_of_claims h]

/-- The invariant speaks of the claim lists alone. -/
theorem poolInv_of_claims {s t : State} (h : t.claims = s.claims) (hs : PoolInv s) : PoolInv t := by
  rw [poolInv_iff] at hs ⊢
  rw [claimTotal_of_claims h]
  refine ⟨hs.1, fun c => ?_⟩
  have : t.claimList c = s.claimList c := by unfold State.claimList; rw [h]
  rw [this]
  exact hs.2 c

theorem ChannelFrame.poolInv {s t : State} (h : ChannelFrame s t) (hs : PoolInv s) : PoolInv t := poolInv_of_claims h.claims hs

/-! ### One list -/

theorem mem_insertClaim {cl x : Claim} {l : List Claim} : x ∈ insertClaim cl l ↔ x = cl ∨ x ∈ l := by
  induction l with
  | nil => simp [insertClaim]
  | cons y ys ih =>
    unfold insertClaim
    split
    · simp
    · simp only [List.mem_cons, ih]
      tauto

theorem length_insertClaim (cl : Claim) (l : List Claim) : (insertClaim cl l).length = l.length + 1 := by
  induction l with
  | nil => rfl
  | cons y ys ih =>
    unfold insertClaim
    split
    · rfl
    · simp [ih]

theorem insertClaim_ordered (cl : Claim) {l : List Claim} (h : ordered l) : ordered (insertClaim cl l) := by
  induction l with
  | nil => simp [ordered, insertClaim]
  | cons y ys ih =>
    have hy := List.pairwise_cons.mp h
    unfold insertClaim
    split
    · rename_i hle
      refine List.pairwise_cons.mpr ⟨fun x hx => ?_, h⟩
      rcases List.mem_cons.mp hx with rfl | hx
      · exact hle
      · exact le_trans (hy.1 x hx) hle
    · rename_i hlt
      refine List.pairwise_cons.mpr ⟨fun x hx => ?_, ih hy.2⟩
      rcases mem_insertClaim.mp hx with rfl | hx
      · exact le_of_lt (not_le.mp hlt)
      · exact hy.1 x hx

theorem insertClaim_oneEach {cl : Claim} {l : List Claim} (h : oneEach l) (hn : ∀ x ∈ l, x.source ≠ cl.source) :
    oneEach (insertClaim cl l) := by
  induction l with
  | nil => simp [oneEach, insertClaim]
  | cons y ys ih =>
    have hy := List.nodup_cons.mp (show (y.source :: ys.map Claim.source).Nodup from h)
    unfold insertClaim
    split
    · refine List.nodup_cons.mpr ⟨fun hx => ?_, h⟩
      obtain ⟨x, hx, he⟩ := List.mem_map.mp hx
      exact hn x hx he
    · refine List.nodup_cons.mpr ⟨fun hx => ?_, ih hy.2 fun x hx => hn x (List.mem_cons_of_mem _ hx)⟩
      obtain ⟨x, hx, he⟩ := List.mem_map.mp hx
      rcases mem_insertClaim.mp hx with rfl | hx
      · exact hn y List.mem_cons_self he.symm
      · exact hy.1 (he ▸ List.mem_map_of_mem hx)

theorem filter_ordered (p : Claim → Bool) {l : List Claim} (h : ordered l) : ordered (l.filter p) := List.Pairwise.filter p h

theorem filter_oneEach (p : Claim → Bool) {l : List Claim} (h : oneEach l) : oneEach (l.filter p) :=
  List.Nodup.sublist (List.Sublist.map _ List.filter_sublist) h

theorem putClaim_ordered (cl : Claim) {l : List Claim} (h : ordered l) : ordered (putClaim cl l) := insertClaim_ordered cl (filter_ordered _ h)

theorem putClaim_oneEach (cl : Claim) {l : List Claim} (h : oneEach l) : oneEach (putClaim cl l) :=
  insertClaim_oneEach (filter_oneEach _ h) fun x hx => by simpa using (List.mem_filter.mp hx).2

theorem hasSource_false {l : List Claim} {src : Source} (h : hasSource l src = false) : l.filter (fun x => x.source != src) = l := by
  rw [List.filter_eq_self]
  intro x hx
  have := List.any_eq_false.mp h x hx
  simpa using this

/-- A replaced claim takes no further entry; a created one takes one (R80, R81). -/
theorem length_putClaim_le (cl : Claim) (l : List Claim) :
    (putClaim cl l).length ≤ l.length + (if hasSource l cl.source then 0 else 1) := by
  unfold putClaim
  rw [length_insertClaim]
  split
  · rename_i h
    obtain ⟨x, hx, he⟩ := List.any_eq_true.mp h
    have : (l.filter fun x => x.source != cl.source).length < l.length := List.length_filter_lt_length_iff_exists.mpr ⟨x, hx, by simpa using he⟩
    omega
  · have := List.length_filter_le (fun x => x.source != cl.source) l
    omega

/-- With one claim of a source at most, a list keeps its length when that claim is replaced and grows by one when a claim is created. -/
theorem length_putClaim (cl : Claim) {l : List Claim} (h : oneEach l) :
    (putClaim cl l).length = l.length + (if hasSource l cl.source then 0 else 1) := by
  unfold putClaim
  rw [length_insertClaim]
  induction l with
  | nil => simp [hasSource]
  | cons y ys ih =>
    have hy := List.nodup_cons.mp (show (y.source :: ys.map Claim.source).Nodup from h)
    by_cases he : y.source = cl.source
    · have hno : hasSource ys cl.source = false := by
        refine List.any_eq_false.mpr fun x hx hs => hy.1 ?_
        rw [he, ← beq_iff_eq.mp hs]
        exact List.mem_map_of_mem hx
      have hys := hasSource_false hno
      simp [he, hys, hasSource]
    · have := ih hy.2
      simp only [hasSource, List.any_cons, List.filter_cons] at this ⊢
      simp [he] at this ⊢
      omega

theorem countDown_source {cl x : Claim} (h : countDown cl = some x) : x.source = cl.source ∧ x.priority = cl.priority := by
  unfold countDown at h
  split at h
  · cases h; exact ⟨rfl, rfl⟩
  · split at h
    · cases h
    · cases h; exact ⟨rfl, rfl⟩

theorem countDown_ordered {l : List Claim} (h : ordered l) : ordered (l.filterMap countDown) := by
  refine List.Pairwise.filterMap countDown (fun a b hab x hx y hy => ?_) h
  rw [(countDown_source hx).2, (countDown_source hy).2]
  exact hab

theorem countDown_sources (l : List Claim) : ((l.filterMap countDown).map Claim.source).Sublist (l.map Claim.source) := by
  induction l with
  | nil => simp
  | cons y ys ih =>
    cases hy : countDown y with
    | none => rw [List.filterMap_cons_none hy]; exact ih.cons _
    | some x =>
      rw [List.filterMap_cons_some hy, List.map_cons, List.map_cons, (countDown_source hy).1]
      exact ih.cons_cons _

theorem countDown_oneEach {l : List Claim} (h : oneEach l) : oneEach (l.filterMap countDown) := List.Nodup.sublist (countDown_sources l) h

/-! ### All lists -/

/-- The claims on a list are among the claims on all lists. -/
theorem claimTotal_setClaimList (s : State) (c : Chan) (l : List Claim) :
    claimTotal (s.setClaimList c l) + (s.claimList c).length = claimTotal s + l.length := by
  have hc : ∀ (cs : List Chan), cs.Nodup → c ∈ cs →
      (cs.map fun d => ((s.setClaimList c l).claimList d).length).sum + (s.claimList c).length
        = (cs.map fun d => (s.claimList d).length).sum + l.length := by
    intro cs hn hm
    induction cs with
    | nil => cases hm
    | cons d ds ih =>
      have hd := List.nodup_cons.mp hn
      rw [List.map_cons, List.map_cons, List.sum_cons, List.sum_cons]
      by_cases he : c = d
      · subst he
        have : (ds.map fun d => ((s.setClaimList c l).claimList d).length) = ds.map fun d => (s.claimList d).length := by
          refine List.map_congr_left fun e he => ?_
          rw [State.setClaimList_claimList_other s l (show e ≠ c from fun h => hd.1 (by rw [← h]; exact he))]
        rw [this, State.setClaimList_claimList_same]
        omega
      · have := ih hd.2 ((List.mem_cons.mp hm).resolve_left he)
        rw [State.setClaimList_claimList_other s l (Ne.symm he)]
        omega
  exact hc _ (List.nodup_finRange 24) (List.mem_finRange c)

theorem claimTotal_mono {s t : State} (h : ∀ c, (t.claimList c).length ≤ (s.claimList c).length) : claimTotal t ≤ claimTotal s := by
  unfold claimTotal
  exact List.sum_le_sum fun c _ => h c

theorem placeOne_claimList (q : Request) (s : State) (x : Chan × BitVec 8) (c : Chan) :
    (placeOne q s x).claimList c = if c = x.1 then putClaim (q.claim x.2) (s.claimList c) else s.claimList c := by
  unfold placeOne
  by_cases h : c = x.1
  · subst h; rw [State.setClaimList_claimList_same, if_pos rfl]
  · rw [State.setClaimList_claimList_other _ _ h, if_neg h]

theorem placeOne_total (q : Request) (s : State) (x : Chan × BitVec 8) :
    claimTotal (placeOne q s x) ≤ claimTotal s + (if hasSource (s.claimList x.1) q.source then 0 else 1) := by
  have h1 := claimTotal_setClaimList s x.1 (putClaim (q.claim x.2) (s.claimList x.1))
  have h2 := length_putClaim_le (q.claim x.2) (s.claimList x.1)
  unfold placeOne
  change _ ≤ _ + (if hasSource (s.claimList x.1) (q.claim x.2).source then 0 else 1)
  omega

theorem hasSource_putClaim (cl : Claim) (l : List Claim) (src : Source) (h : hasSource l src = true) : hasSource (putClaim cl l) src = true := by
  obtain ⟨x, hx, he⟩ := List.any_eq_true.mp h
  refine List.any_eq_true.mpr ?_
  by_cases hs : x.source = cl.source
  · exact ⟨cl, mem_insertClaim.mpr (Or.inl rfl), by rw [← hs]; exact he⟩
  · exact ⟨x, mem_insertClaim.mpr (Or.inr (List.mem_filter.mpr ⟨hx, by simpa using hs⟩)), he⟩

theorem foldl_placeOne_total (q : Request) (l : List (Chan × BitVec 8)) (s : State) :
    claimTotal (l.foldl (placeOne q) s) ≤ claimTotal s + (l.filter fun t => !hasSource (s.claimList t.1) q.source).length := by
  induction l generalizing s with
  | nil => simp
  | cons x xs ih =>
    rw [List.foldl_cons]
    have h1 := ih (placeOne q s x)
    have h2 := placeOne_total q s x
    have h3 : (xs.filter fun t => !hasSource ((placeOne q s x).claimList t.1) q.source).length
        ≤ (xs.filter fun t => !hasSource (s.claimList t.1) q.source).length := by
      refine List.Sublist.length_le (List.monotone_filter_right xs fun t ht => ?_)
      rw [placeOne_claimList] at ht
      split at ht
      · cases hb : hasSource (s.claimList t.1) q.source with
        | false => rfl
        | true => rw [hasSource_putClaim _ _ _ hb] at ht; exact absurd ht (by simp)
      · exact ht
    rw [List.filter_cons]
    cases hb : hasSource (s.claimList x.1) q.source <;> simp [hb] at h2 ⊢ <;> omega

/-- A placed request takes no more entries than it needs (R80, R81). -/
theorem place_total (q : Request) (s : State) : claimTotal (place q s) ≤ claimTotal s + needed q s := foldl_placeOne_total q _ s

theorem placeOne_lists (q : Request) {s : State} (x : Chan × BitVec 8) (h : ∀ c, ordered (s.claimList c) ∧ oneEach (s.claimList c)) (c : Chan) :
    ordered ((placeOne q s x).claimList c) ∧ oneEach ((placeOne q s x).claimList c) := by
  rw [placeOne_claimList]
  split
  · exact ⟨putClaim_ordered _ (h c).1, putClaim_oneEach _ (h c).2⟩
  · exact h c

theorem place_lists (q : Request) {s : State} (h : ∀ c, ordered (s.claimList c) ∧ oneEach (s.claimList c)) (c : Chan) :
    ordered ((place q s).claimList c) ∧ oneEach ((place q s).claimList c) := by
  unfold place
  generalize q.targets = l
  induction l generalizing s with
  | nil => exact h c
  | cons x xs ih => exact ih (placeOne_lists q x h)

/-- A request whose need fits keeps the pool's invariant. -/
theorem place_poolInv (q : Request) {s : State} (h : PoolInv s) (hn : needed q s ≤ freeCount s) : PoolInv (place q s) := by
  rw [poolInv_iff] at h ⊢
  have h1 := place_total q s
  unfold freeCount Config.poolSize at hn
  exact ⟨by omega, place_lists q h.2⟩

theorem request_poolInv {q : Request} {s t : State} (h : PoolInv s) (ht : request q s = some t) : PoolInv t := by
  unfold request at ht
  split at ht
  · rename_i hn
    cases ht
    exact (publish_frame _).poolInv (place_poolInv q h hn)
  · cases ht

theorem needed_le (q : Request) (s : State) : needed q s ≤ q.targets.length := List.length_filter_le _ _

theorem placeRecord_poolInv (n : RecNo) {s : State} (h : PoolInv s) (hn : (s.record n).need ≤ freeCount s) : PoolInv (placeRecord n s) := by
  unfold placeRecord
  split
  · exact h
  · rename_i c hc
    refine place_poolInv _ h (le_trans (needed_le _ _) (le_trans ?_ hn))
    simp only [recordRequest, List.length_map, Record.need, hc, Option.elim_some, toChans]
    exact List.length_filterMap_le _ _

theorem keepClaims_claimList (keep : Chan → Claim → Bool) (s : State) (c : Chan) :
    (keepClaims keep s).claimList c = (s.claimList c).filter (keep c) := nth_tabulate _ _

theorem keepClaims_poolInv (keep : Chan → Claim → Bool) {s : State} (h : PoolInv s) : PoolInv (keepClaims keep s) := by
  rw [poolInv_iff] at h ⊢
  refine ⟨le_trans (claimTotal_mono fun c => ?_) h.1, fun c => ?_⟩
  · rw [keepClaims_claimList]; exact List.length_filter_le _ _
  · rw [keepClaims_claimList]; exact ⟨filter_ordered _ (h.2 c).1, filter_oneEach _ (h.2 c).2⟩

theorem serve_poolInv (l : List RecNo) {s : State} (h : PoolInv s) : PoolInv (serve l s) := by
  induction l generalizing s with
  | nil => exact h
  | cons n rest ih =>
    unfold serve
    split
    · split
      · rename_i hn
        refine ih (poolInv_of_claims (s := placeRecord n { s with waiting := rest }) rfl ?_)
        exact placeRecord_poolInv n (poolInv_of_claims (s := s) rfl h) hn
      · exact h
    · refine ih (poolInv_of_claims (s := s) ?_ h)
      simp [markQuarantined]

theorem publish_serveWaiting_poolInv {s : State} (h : PoolInv s) : PoolInv (publish (serveWaiting s)) :=
  (publish_frame _).poolInv (serve_poolInv _ h)

theorem withdraw_poolInv (n : RecNo) {s : State} (h : PoolInv s) : PoolInv (withdraw n s) :=
  publish_serveWaiting_poolInv (keepClaims_poolInv _ h)

theorem removeWaiting_poolInv (n : RecNo) {s : State} (h : PoolInv s) : PoolInv (removeWaiting n s) := by
  unfold removeWaiting
  dsimp only
  split
  · exact publish_serveWaiting_poolInv (poolInv_of_claims (s := s) rfl h)
  · exact poolInv_of_claims (s := s) rfl h

theorem selectiveRemoval_poolInv (chans : List Chan) (cond : Claim → Bool) {s : State} (h : PoolInv s) :
    PoolInv (selectiveRemoval chans cond s) := by
  unfold selectiveRemoval
  dsimp only
  split
  · exact h
  · exact publish_serveWaiting_poolInv (keepClaims_poolInv _ h)

theorem holdCountdown_poolInv {s : State} (h : PoolInv s) : PoolInv (holdCountdown s) := by
  have h1 : PoolInv { s with claims := tabulate fun c => (s.claimList c).filterMap countDown } := by
    have hl : ∀ c, ({ s with claims := tabulate fun c => (s.claimList c).filterMap countDown } : State).claimList c
        = (s.claimList c).filterMap countDown := fun c => nth_tabulate _ _
    rw [poolInv_iff] at h ⊢
    refine ⟨le_trans (claimTotal_mono fun c => ?_) h.1, fun c => ?_⟩
    · rw [hl]; exact List.length_filterMap_le _ _
    · rw [hl]; exact ⟨countDown_ordered (h.2 c).1, countDown_oneEach (h.2 c).2⟩
  unfold holdCountdown
  dsimp only
  split
  · exact h1
  · exact publish_serveWaiting_poolInv h1

theorem setRecord_poolInv (n : RecNo) (r : Record) {s : State} (h : PoolInv s) : PoolInv (s.setRecord n r) := poolInv_of_claims (s := s) rfl h

theorem raise_poolInv (k : NoticeKind) (j : Nat) {s : State} (h : PoolInv s) : PoolInv (s.raise k j) :=
  (ChannelFrame.raise s k j).poolInv h

theorem markQuarantined_poolInv (n : RecNo) {s : State} (h : PoolInv s) : PoolInv (markQuarantined n s) :=
  raise_poolInv _ _ (setRecord_poolInv _ _ h)

theorem quarantine_poolInv (n : RecNo) {s : State} (h : PoolInv s) : PoolInv (quarantine n s) := by
  unfold quarantine
  split
  · exact markQuarantined_poolInv _ (withdraw_poolInv _ h)
  · exact markQuarantined_poolInv _ (removeWaiting_poolInv _ h)
  · exact markQuarantined_poolInv _ h
  · exact markQuarantined_poolInv _ h
  · exact markQuarantined_poolInv _ h
  · exact h
  · exact h

theorem checkRecord_poolInv (n : RecNo) {s : State} (h : PoolInv s) : PoolInv (checkRecord n s) := by
  unfold checkRecord
  split
  · exact h
  · exact quarantine_poolInv _ h

theorem checkRule_claims (n : RuleNo) (s : State) : (checkRule n s).claims = s.claims := by
  unfold checkRule
  split
  · simp
  · rfl

theorem countRecord_claims (n : RecNo) (s : State) : (countRecord n s).claims = s.claims := by
  unfold countRecord
  dsimp only
  split
  · simp
  · rfl

theorem requestOpening_poolInv (n : RecNo) {s : State} (h : PoolInv s) : PoolInv (requestOpening n s) := by
  unfold requestOpening
  split
  · rename_i hc
    exact (publish_frame _).poolInv (setRecord_poolInv _ _ (placeRecord_poolInv n h hc.2))
  · exact raise_poolInv _ _ (setRecord_poolInv _ _ (poolInv_of_claims (s := s) rfl h))

theorem openRecord_poolInv (n : RecNo) {s : State} (h : PoolInv s) : PoolInv (openRecord n s) := by
  unfold openRecord
  split
  · exact requestOpening_poolInv n (poolInv_of_claims (countRecord_claims n s) h)
  · exact quarantine_poolInv _ h

theorem leaveWindow_poolInv (n : RecNo) {s : State} (h : PoolInv s) : PoolInv (leaveWindow n s) := by
  unfold leaveWindow
  split
  · exact withdraw_poolInv _ h
  · exact removeWaiting_poolInv _ h
  · exact h

theorem closeRecord_poolInv (n : RecNo) {s : State} (h : PoolInv s) : PoolInv (closeRecord n s) := by
  unfold closeRecord
  dsimp only
  refine setRecord_poolInv _ _ ?_
  split
  · exact raise_poolInv _ _ (leaveWindow_poolInv n h)
  · exact leaveWindow_poolInv n h

theorem testArmed_poolInv (opens : Content → Moment → Bool) (m : Moment) (n : RecNo) {s : State} (h : PoolInv s) :
    PoolInv (testArmed opens m n s) := by
  unfold testArmed
  dsimp only
  split
  · exact h
  · split
    · split
      · exact openRecord_poolInv _ h
      · split
        · exact raise_poolInv _ _ (setRecord_poolInv _ _ h)
        · exact h
    · exact h

theorem visit_poolInv (k : PassKind) (m : Moment) (n : RecNo) {s : State} (h : PoolInv s) : PoolInv (visit k m n s) := by
  refine testArmed_poolInv _ _ _ ?_
  unfold closeIfOutside
  dsimp only
  split
  · exact closeRecord_poolInv _ h
  · exact h

theorem evaluateRecord_poolInv (n : RecNo) {s : State} (h : PoolInv s) : PoolInv (evaluateRecord n s) := by
  unfold evaluateRecord
  split
  · split
    · exact testArmed_poolInv _ _ _ h
    · exact h
  · exact h

theorem runPass_poolInv (k : Nat) {s : State} (h : PoolInv s) : PoolInv (runPass k s) := by
  induction k generalizing s with
  | zero => exact h
  | succ k ih =>
    refine ih ?_
    unfold passStep
    split
    · exact poolInv_of_claims (s := visit _ _ _ s) rfl (visit_poolInv _ _ _ h)
    · exact h

/-! ### What a placed request leaves on each list -/

/-- A request whose channels differ creates or replaces its claim on each of its channels and leaves every other list (R77, R81). -/
theorem place_claimList (q : Request) (s : State) (hn : (q.targets.map Prod.fst).Nodup) (c : Chan) :
    (∀ lv, (c, lv) ∈ q.targets → (place q s).claimList c = putClaim (q.claim lv) (s.claimList c))
      ∧ ((∀ lv, (c, lv) ∉ q.targets) → (place q s).claimList c = s.claimList c) := by
  unfold place
  generalize q.targets = l at hn
  induction l generalizing s with
  | nil => exact ⟨nofun, fun _ => rfl⟩
  | cons x xs ih =>
    obtain ⟨hx, hxs⟩ := List.nodup_cons.mp hn
    have ih := ih (placeOne q s x) hxs
    rw [List.foldl_cons]
    refine ⟨fun lv hm => ?_, fun hno => ?_⟩
    · rcases List.mem_cons.mp hm with rfl | hm
      · rw [ih.2 fun lv' hm' => hx (List.mem_map.mpr ⟨_, hm', rfl⟩), placeOne_claimList, if_pos rfl]
      · rw [ih.1 lv hm, placeOne_claimList, if_neg]
        rintro rfl
        exact hx (List.mem_map.mpr ⟨_, hm, rfl⟩)
    · rw [ih.2 (fun lv h => hno lv (List.mem_cons_of_mem _ h)), placeOne_claimList, if_neg]
      rintro rfl
      exact hno x.2 List.mem_cons_self

theorem claimTotal_placeOne {q : Request} {s : State} (x : Chan × BitVec 8) (h : oneEach (s.claimList x.1)) :
    claimTotal (placeOne q s x) = claimTotal s + (if hasSource (s.claimList x.1) q.source then 0 else 1) := by
  have h1 := claimTotal_setClaimList s x.1 (putClaim (q.claim x.2) (s.claimList x.1))
  have h2 := length_putClaim (q.claim x.2) h
  unfold placeOne
  change _ = _ + (if hasSource (s.claimList x.1) (q.claim x.2).source then 0 else 1)
  omega

/-- A request whose channels differ takes exactly the entries it needs (R73, R80). -/
theorem claimTotal_place {q : Request} {s : State} (hl : ∀ c, oneEach (s.claimList c)) (hn : (q.targets.map Prod.fst).Nodup) :
    claimTotal (place q s) = claimTotal s + needed q s := by
  unfold place needed
  generalize q.targets = l at hn
  induction l generalizing s with
  | nil => simp
  | cons x xs ih =>
    obtain ⟨hx, hxs⟩ := List.nodup_cons.mp hn
    have hp1 : ∀ c, oneEach ((placeOne q s x).claimList c) := by
      intro c
      rw [placeOne_claimList]
      split
      · exact putClaim_oneEach _ (hl c)
      · exact hl c
    have h3 : (xs.filter fun t => !hasSource ((placeOne q s x).claimList t.1) q.source)
        = xs.filter fun t => !hasSource (s.claimList t.1) q.source := by
      refine List.filter_congr fun t ht => ?_
      rw [placeOne_claimList, if_neg fun he => hx (List.mem_map.mpr ⟨t, ht, he⟩)]
    rw [List.foldl_cons, ih hp1 hxs, h3, claimTotal_placeOne x (hl x.1), List.filter_cons]
    cases hasSource (s.claimList x.1) q.source
    · simp; omega
    · simp

theorem toChans_nodup {l : List (BitVec 8)} (h : l.Nodup) : (toChans l).Nodup := by
  refine List.Nodup.filterMap (fun a a' b hb hb' => ?_) h
  unfold toChan at hb hb'
  simp only [Option.mem_def, Option.dite_none_right_eq_some, Option.some.injEq] at hb hb'
  obtain ⟨_, h2⟩ := hb
  obtain ⟨_, h4⟩ := hb'
  exact BitVec.eq_of_toNat_eq (by simpa using congrArg Fin.val (h2.trans h4.symm))

end Sys2Proof.Machine
end

