-- ==== Sys2Proof/Laws/Waiting.lean ====
section
/-!
SUPPORT. The waiting list (R88 to R91): what every operation of the arbiter, the records' checks and the evaluator leaves of the rule that the list
holds exactly the records in state WAITING, each once. `ListedBut x s` says so for every record but those of `x`, which an operation has taken off
the list and not yet moved to another state.
-/

namespace Sys2Proof.Machine

/-- The list holds each record once, and of the records outside `x` exactly those in state WAITING; those of `x` it does not hold. -/
def ListedBut (x : List RecNo) (s : State) : Prop :=
  s.waiting.Nodup ∧ ∀ n, n ∈ s.waiting ↔ (s.record n).state = .waiting ∧ n ∉ x

theorem ListedBut.of_frame {x : List RecNo} {s t : State} (h : ChannelFrame s t) (hs : ListedBut x s) : ListedBut x t := by
  unfold ListedBut
  rw [h.waiting]
  exact ⟨hs.1, fun n => by rw [h.record]; exact hs.2 n⟩

theorem ListedBut.of_same {x : List RecNo} {s t : State} (hw : t.waiting = s.waiting) (hr : t.records = s.records) (hs : ListedBut x s) :
    ListedBut x t := by
  unfold ListedBut State.record
  rw [hw, hr]
  exact hs

theorem record_setRecord (s : State) (n j : RecNo) (r : Record) : (s.setRecord n r).record j = if j = n then r else s.record j :=
  nth_upd _ _ _ _

/-- A record's change that leaves its state leaves the list. -/
theorem ListedBut.setRecord_same {x : List RecNo} {s : State} (n : RecNo) (r : Record) (hr : r.state = (s.record n).state) (hs : ListedBut x s) :
    ListedBut x (s.setRecord n r) := by
  refine ⟨hs.1, fun j => ?_⟩
  rw [record_setRecord]
  show j ∈ s.waiting ↔ _
  rw [hs.2 j]
  split
  · subst_vars; rw [hr]
  · rfl

/-- A record that is off the list may take any state but WAITING. -/
theorem ListedBut.setRecord_off {x : List RecNo} {s : State} (n : RecNo) (r : Record) (hr : r.state ≠ .waiting) (hn : n ∉ s.waiting)
    (hs : ListedBut x s) : ListedBut x (s.setRecord n r) := by
  refine ⟨hs.1, fun j => ?_⟩
  rw [record_setRecord]
  show j ∈ s.waiting ↔ _
  split
  · subst_vars; exact ⟨fun h => absurd h hn, fun h => absurd h.1 hr⟩
  · exact hs.2 j

/-- A record that has left the list and taken another state is as any other. -/
theorem ListedBut.settle {s : State} (n : RecNo) (r : Record) (hr : r.state ≠ .waiting) (hs : ListedBut [n] s) : ListedBut [] (s.setRecord n r) := by
  refine ⟨hs.1, fun j => ?_⟩
  rw [record_setRecord]
  show j ∈ s.waiting ↔ _
  rw [hs.2 j]
  split
  · subst_vars; simp [hr]
  · rename_i h; simp [h]

theorem ListedBut.raise {x : List RecNo} {s : State} (k : NoticeKind) (j : Nat) (hs : ListedBut x s) : ListedBut x (s.raise k j) :=
  hs.of_frame (ChannelFrame.raise s k j)

/-- Off the list and not waiting: as any record that does not wait. -/
theorem ListedBut.weaken {s : State} (n : RecNo) (hn : (s.record n).state ≠ .waiting) (hs : ListedBut [] s) : ListedBut [n] s := by
  refine ⟨hs.1, fun j => ?_⟩
  rw [hs.2 j]
  constructor
  · rintro ⟨h, -⟩
    refine ⟨h, fun hj => ?_⟩
    rw [List.mem_singleton] at hj
    subst hj
    exact hn h
  · rintro ⟨h, -⟩
    exact ⟨h, by simp⟩

theorem place_waiting (q : Request) (s : State) : (place q s).waiting = s.waiting ∧ (place q s).records = s.records := by
  unfold place
  generalize q.targets = l
  induction l generalizing s with
  | nil => exact ⟨rfl, rfl⟩
  | cons a l ih => exact ih (placeOne q s a)

theorem placeRecord_waiting (n : RecNo) (s : State) : (placeRecord n s).waiting = s.waiting ∧ (placeRecord n s).records = s.records := by
  unfold placeRecord
  split
  · exact ⟨rfl, rfl⟩
  · exact place_waiting _ _

/-- Taking the head off the list, with the head in another state, keeps the rule. -/
theorem ListedBut.pop {x : List RecNo} {s t : State} {n : RecNo} {rest : List RecNo} (hw : s.waiting = n :: rest) (hs : ListedBut x s)
    (ht : t.waiting = rest) (hn : (t.record n).state ≠ .waiting) (ho : ∀ j, j ≠ n → t.record j = s.record j) : ListedBut x t := by
  have hd := hs.1
  rw [hw] at hd
  refine ⟨by rw [ht]; exact (List.nodup_cons.mp hd).2, fun j => ?_⟩
  rw [ht]
  by_cases h : j = n
  · subst h
    exact ⟨fun h => absurd h (List.nodup_cons.mp hd).1, fun h => absurd h.1 hn⟩
  · rw [ho j h, ← hs.2 j, hw]
    simp [h]

theorem serve_listed {x : List RecNo} (l : List RecNo) {s : State} (hl : s.waiting = l) (hs : ListedBut x s) : ListedBut x (serve l s) := by
  induction l generalizing s with
  | nil => exact hs
  | cons n rest ih =>
    have hp := placeRecord_waiting n { s with waiting := rest }
    unfold serve
    split
    · split
      · refine ih hp.1 (ListedBut.pop hl hs hp.1 ?_ fun j hj => ?_)
        · unfold setRecState
          rw [record_setRecord, if_pos rfl]
          simp
        · unfold setRecState
          rw [record_setRecord, if_neg hj]
          unfold State.record
          rw [hp.2]
      · exact hs
    · refine ih (by simp [markQuarantined]) (ListedBut.pop hl hs (by simp [markQuarantined]) ?_ fun j hj => ?_)
      · simp [markQuarantined, Record.sealed]
      · simp [markQuarantined, State.setRecord_record_other _ _ hj]
        rfl

theorem publish_serveWaiting_listed {x : List RecNo} {s : State} (hs : ListedBut x s) : ListedBut x (publish (serveWaiting s)) :=
  (serve_listed _ rfl hs).of_frame (publish_frame _)

theorem withdraw_listed {x : List RecNo} (n : RecNo) {s : State} (hs : ListedBut x s) : ListedBut x (withdraw n s) :=
  publish_serveWaiting_listed (ListedBut.of_same (s := s) rfl rfl hs)

theorem selectiveRemoval_listed {x : List RecNo} (chans : List Chan) (cond : Claim → Bool) {s : State} (hs : ListedBut x s) :
    ListedBut x (selectiveRemoval chans cond s) := by
  unfold selectiveRemoval
  dsimp only
  split
  · exact hs
  · exact publish_serveWaiting_listed (ListedBut.of_same (s := s) rfl rfl hs)

theorem holdCountdown_listed {x : List RecNo} {s : State} (hs : ListedBut x s) : ListedBut x (holdCountdown s) := by
  unfold holdCountdown
  dsimp only
  split
  · exact ListedBut.of_same (s := s) rfl rfl hs
  · exact publish_serveWaiting_listed (ListedBut.of_same (s := s) rfl rfl hs)

theorem request_listed {x : List RecNo} {q : Request} {s t : State} (hs : ListedBut x s) (ht : request q s = some t) : ListedBut x t := by
  unfold request at ht
  split at ht
  · cases ht
    exact (ListedBut.of_same (place_waiting q s).1 (place_waiting q s).2 hs).of_frame (publish_frame _)
  · cases ht

/-- A record taken off the list is off it, and the rule holds for every other. -/
theorem removeWaiting_listed (n : RecNo) {s : State} (hs : ListedBut [] s) : ListedBut [n] (removeWaiting n s) := by
  have h1 : ListedBut [n] { s with waiting := s.waiting.filter fun m => m != n } := by
    refine ⟨hs.1.filter _, fun j => ?_⟩
    show j ∈ s.waiting.filter _ ↔ (s.record j).state = .waiting ∧ _
    rw [List.mem_filter, hs.2 j]
    simp
  unfold removeWaiting
  dsimp only
  split
  · exact publish_serveWaiting_listed h1
  · exact h1

/-- A record that leaves its window is off the list; the rule holds for every other. -/
theorem leaveWindow_listed (n : RecNo) {s : State} (hs : ListedBut [] s) : ListedBut [n] (leaveWindow n s) := by
  unfold leaveWindow
  split
  · rename_i h
    exact withdraw_listed n (hs.weaken n (by rw [h]; simp))
  · exact removeWaiting_listed n hs
  · rename_i h1 h2
    exact hs.weaken n h2

theorem markQuarantined_listed (n : RecNo) {s : State} (hs : ListedBut [n] s) : ListedBut [] (markQuarantined n s) :=
  (hs.settle n _ (by simp [Record.sealed])).raise _ _

theorem quarantine_listed (n : RecNo) {s : State} (hs : ListedBut [] s) : ListedBut [] (quarantine n s) := by
  unfold quarantine
  split
  · rename_i h
    exact markQuarantined_listed n (withdraw_listed n (hs.weaken n (by rw [h]; simp)))
  · exact markQuarantined_listed n (removeWaiting_listed n hs)
  · rename_i h
    exact markQuarantined_listed n (hs.weaken n (by rw [h]; simp))
  · rename_i h
    exact markQuarantined_listed n (hs.weaken n (by rw [h]; simp))
  · rename_i h
    exact markQuarantined_listed n (hs.weaken n (by rw [h]; simp))
  · exact hs
  · exact hs

theorem checkRecord_listed (n : RecNo) {s : State} (hs : ListedBut [] s) : ListedBut [] (checkRecord n s) := by
  unfold checkRecord
  split
  · exact hs
  · exact quarantine_listed n hs

theorem countRecord_listed {x : List RecNo} (n : RecNo) {s : State} (hs : ListedBut x s) : ListedBut x (countRecord n s) := by
  unfold countRecord
  dsimp only
  split
  · refine ListedBut.raise _ _ (ListedBut.setRecord_same n _ ?_ hs)
    rfl
  · refine ListedBut.setRecord_same n _ ?_ hs
    rfl

theorem countRecord_state (n : RecNo) (s : State) : ((countRecord n s).record n).state = (s.record n).state := by
  unfold countRecord
  dsimp only
  split
  · rw [State.raise_record, record_setRecord, if_pos rfl]
  · rw [record_setRecord, if_pos rfl]

theorem requestOpening_listed (n : RecNo) {s : State} (hn : (s.record n).state ≠ .waiting) (hs : ListedBut [] s) :
    ListedBut [] (requestOpening n s) := by
  have hnot : n ∉ s.waiting := fun h => hn ((hs.2 n).mp h).1
  unfold requestOpening
  split
  · refine ListedBut.of_frame (publish_frame _) (ListedBut.setRecord_off n _ (by simp) ?_ ?_)
    · rw [(placeRecord_waiting n s).1]; exact hnot
    · exact ListedBut.of_same (placeRecord_waiting n s).1 (placeRecord_waiting n s).2 hs
  · refine ListedBut.raise _ _ ⟨List.Nodup.append hs.1 (by simp) (by simpa using hnot), fun j => ?_⟩
    unfold setRecState
    rw [record_setRecord]
    show j ∈ s.waiting ++ [n] ↔ _
    split
    · subst_vars; simp
    · rename_i h
      simp only [List.mem_append, List.mem_singleton, h, or_false]
      exact hs.2 j

theorem openRecord_listed (n : RecNo) {s : State} (hn : (s.record n).state ≠ .waiting) (hs : ListedBut [] s) : ListedBut [] (openRecord n s) := by
  unfold openRecord
  split
  · exact requestOpening_listed n (by rw [countRecord_state]; exact hn) (countRecord_listed n hs)
  · exact quarantine_listed n hs

theorem closedState_not_waiting (b : Bool) : (if b then RecState.spent else RecState.armed) ≠ .waiting := by cases b <;> decide

theorem closeRecord_listed (n : RecNo) {s : State} (hs : ListedBut [] s) : ListedBut [] (closeRecord n s) := by
  unfold closeRecord
  dsimp only
  refine ListedBut.settle n _ ?_ ?_
  · exact closedState_not_waiting _
  split
  · exact (leaveWindow_listed n hs).raise _ _
  · exact leaveWindow_listed n hs

theorem testArmed_listed (opens : Content → Moment → Bool) (m : Moment) (n : RecNo) {s : State} (hs : ListedBut [] s) :
    ListedBut [] (testArmed opens m n s) := by
  unfold testArmed
  dsimp only
  split
  · exact hs
  · split
    · rename_i ha
      split
      · exact openRecord_listed n (by rw [ha]; simp) hs
      · split
        · exact ListedBut.raise _ _ ((hs.weaken n (by rw [ha]; simp)).settle n _ (by simp))
        · exact hs
    · exact hs

theorem visit_listed (k : PassKind) (m : Moment) (n : RecNo) {s : State} (hs : ListedBut [] s) : ListedBut [] (visit k m n s) := by
  refine testArmed_listed _ _ _ ?_
  unfold closeIfOutside
  dsimp only
  split
  · exact closeRecord_listed n hs
  · exact hs

theorem evaluateRecord_listed (n : RecNo) {s : State} (hs : ListedBut [] s) : ListedBut [] (evaluateRecord n s) := by
  unfold evaluateRecord
  split
  · split
    · exact testArmed_listed _ _ _ hs
    · exact hs
  · exact hs

theorem runPass_listed (k : Nat) {s : State} (hs : ListedBut [] s) : ListedBut [] (runPass k s) := by
  induction k generalizing s with
  | zero => exact hs
  | succ k ih =>
    refine ih ?_
    unfold passStep
    split
    · exact ListedBut.of_same (s := visit _ _ _ s) rfl rfl (visit_listed _ _ _ hs)
    · exact hs

/-- With main power the invariant of the waiting list is the rule for every record. -/
theorem waitingInv_powered {s : State} (h : s.mainPower = true) : WaitingInv s ↔ ListedBut [] s := by
  unfold WaitingInv ListedBut
  simp [h]

end Sys2Proof.Machine
end

