-- ==== Sys2Proof/Laws/Service.lean ====
section
/-!
SUPPORT. The service of the waiting list (R90, R91): every service, with the publications that close it, is one that `Served` describes.
-/

namespace Sys2Proof.Machine

/-! ### Grants -/

/-- The claims that records' grants leave are a function of the claims before and of the records granted. -/
theorem placeRecord_claims_congr {s t : State} (n : RecNo) (hc : s.claims = t.claims) (hn : (s.record n).content = (t.record n).content) :
    (placeRecord n s).claims = (placeRecord n t).claims := by
  unfold placeRecord
  rw [hn]
  split
  · exact hc
  · unfold place
    rename_i c _
    clear hn
    generalize recordRequest n c = q
    suffices h : ∀ (l : List (Chan × BitVec 8)) (u v : State), u.claims = v.claims → (l.foldl (placeOne q) u).claims = (l.foldl (placeOne q) v).claims from
      h _ _ _ hc
    intro l
    induction l with
    | nil => exact fun _ _ h => h
    | cons x l ih =>
      intro u v h
      refine ih _ _ ?_
      unfold placeOne State.setClaimList State.claimList
      rw [h]

theorem placeRecord_record (n j : RecNo) (s : State) : (placeRecord n s).record j = s.record j := by
  unfold State.record
  rw [(placeRecord_waiting n s).2]

/-- The grants of the records that pass their check in a given table. -/
theorem foldl_placeRecord_congr (l : List RecNo) {s t : State} (hc : s.claims = t.claims)
    (hn : ∀ n ∈ l, (s.record n).content = (t.record n).content) :
    (l.foldl (fun u n => placeRecord n u) s).claims = (l.foldl (fun u n => placeRecord n u) t).claims := by
  induction l generalizing s t with
  | nil => exact hc
  | cons n l ih =>
    refine ih (placeRecord_claims_congr n hc (hn n (by simp))) fun m hm => ?_
    rw [placeRecord_record, placeRecord_record]
    exact hn m (by simp [hm])

theorem grants_congr (l : List RecNo) {s t : State} (hc : s.claims = t.claims) (hn : ∀ n ∈ l, s.record n = t.record n) :
    (grants l s).claims = (grants l t).claims := by
  unfold grants
  rw [List.filter_congr (q := fun n => recordSound (t.record n)) fun n h => by rw [hn n h]]
  exact foldl_placeRecord_congr _ hc fun n h => by rw [hn n (List.mem_of_mem_filter h)]

theorem grants_cons_sound {n : RecNo} (l : List RecNo) {s : State} (h : recordSound (s.record n) = true) :
    grants (n :: l) s = (l.filter fun m => recordSound (s.record m)).foldl (fun u m => placeRecord m u) (placeRecord n s) := by
  unfold grants
  rw [List.filter_cons, if_pos h, List.foldl_cons]

theorem grants_cons_unsound {n : RecNo} (l : List RecNo) {s : State} (h : recordSound (s.record n) = false) : grants (n :: l) s = grants l s := by
  unfold grants
  rw [List.filter_cons, if_neg (by simp [h])]

/-! ### What a granted record holds -/

theorem recordSound_content {r : Record} (h : recordSound r = true) : ∃ c, r.content = some c ∧ contentInRange c = true := by
  unfold recordSound at h
  cases hc : r.content with
  | none => simp [hc] at h
  | some c =>
    simp only [hc, Option.elim_some, Bool.and_eq_true] at h
    exact ⟨c, rfl, h.1.2⟩

theorem recordRequest_channels (n : RecNo) (c : Content) : (recordRequest n c).targets.map Prod.fst = toChans c.channels := by
  simp [recordRequest, Function.comp_def]

theorem contentInRange_nodup {c : Content} (h : contentInRange c = true) : c.channels.Nodup := by
  unfold contentInRange channelsInRange at h
  simp only [Bool.and_eq_true, decide_eq_true_eq] at h
  exact h.1.1.1.2.1.2

/-- A granted record has its claim on each of its channels, and no other list changes (R81, R83). -/
theorem placeRecord_claimList {n : RecNo} {s : State} {c : Content} (hc : (s.record n).content = some c) (hr : contentInRange c = true) (ch : Chan) :
    (placeRecord n s).claimList ch =
      if ch ∈ toChans c.channels then insertClaim (openClaim n c) ((s.claimList ch).filter fun cl => cl.source != .record n) else s.claimList ch := by
  have hp := place_claimList (recordRequest n c) s (by rw [recordRequest_channels]; exact toChans_nodup (contentInRange_nodup hr)) ch
  unfold placeRecord
  simp only [hc]
  split
  · rename_i hm
    exact hp.1 c.level (by simp [recordRequest, hm])
  · rename_i hm
    exact hp.2 fun lv h => hm (by simp [recordRequest] at h; exact h.1)

/-- A grant leaves on every list the claims of the other sources. -/
theorem mem_placeRecord {n : RecNo} {s : State} {cl : Claim} {ch : Chan} (h : cl ∈ s.claimList ch) (hn : cl.source ≠ .record n) :
    cl ∈ (placeRecord n s).claimList ch := by
  have keep : ∀ (q : Request) (l : List (Chan × BitVec 8)) (u : State), q.source = .record n → cl ∈ u.claimList ch →
      cl ∈ (l.foldl (placeOne q) u).claimList ch := by
    intro q l
    induction l with
    | nil => exact fun _ _ h => h
    | cons x l ih =>
      intro u hq hu
      refine ih _ hq ?_
      rw [placeOne_claimList]
      split
      · subst_vars
        refine mem_insertClaim.mpr (Or.inr (List.mem_filter.mpr ⟨hu, ?_⟩))
        show (cl.source != q.source) = true
        rw [hq]
        simpa using hn
      · exact hu
  unfold placeRecord
  split
  · exact h
  · exact keep _ _ _ rfl h

theorem mem_foldl_placeRecord {cl : Claim} {ch : Chan} (l : List RecNo) {s : State} (h : cl ∈ s.claimList ch)
    (hn : ∀ n ∈ l, cl.source ≠ .record n) : cl ∈ (l.foldl (fun u n => placeRecord n u) s).claimList ch := by
  induction l generalizing s with
  | nil => exact h
  | cons n l ih => exact ih (mem_placeRecord h (hn n (by simp))) fun m hm => hn m (by simp [hm])

/-! ### The service -/

/-- What is left of a grant: the record OPEN, the list without it, the claims placed. -/
theorem granted_claims (n : RecNo) (rest : List RecNo) (s : State) :
    (setRecState n .opened (placeRecord n { s with waiting := rest })).claims = (placeRecord n s).claims :=
  placeRecord_claims_congr (s := { s with waiting := rest }) (t := s) n rfl rfl

theorem granted_record (n j : RecNo) (rest : List RecNo) (s : State) :
    (setRecState n .opened (placeRecord n { s with waiting := rest })).record j =
      if j = n then { s.record n with state := .opened } else s.record j := by
  unfold setRecState
  rw [record_setRecord]
  split
  · rw [placeRecord_record]; rfl
  · rw [placeRecord_record]; rfl

theorem quarantined_record (n j : RecNo) (rest : List RecNo) (s : State) :
    (markQuarantined n { s with waiting := rest }).record j = if j = n then (s.record n).condemned else s.record j := by
  unfold markQuarantined
  rw [State.raise_record, record_setRecord]
  rfl

theorem markQuarantined_notice {s : State} (h : s.mainPower = true) (n : RecNo) :
    (markQuarantined n s).notice .recordFault = (s.notice .recordFault).raised n.val :=
  (raise_notice_same (s := s.setRecord n _) h .recordFault n.val).trans rfl

/-- A service is one that `Served` describes (R90). -/
theorem serve_served (l : List RecNo) {s : State} (hl : s.waiting = l) (hd : l.Nodup) : Served s (serve l s) := by
  induction l generalizing s with
  | nil =>
    refine ⟨0, by simp [serve, hl], rfl, by simp, fun _ _ => rfl, by simp, by simp, Or.inl hl, fun _ => ?_⟩
    simp [Notice.raisedFor, serve]
  | cons n rest ih =>
    obtain ⟨hn, hd⟩ := List.nodup_cons.mp hd
    by_cases hs : recordSound (s.record n) = true
    · by_cases hf : (s.record n).need ≤ freeCount s
      · have e : serve (n :: rest) s = serve rest (setRecState n .opened (placeRecord n { s with waiting := rest })) := by
          rw [serve, if_pos hs, if_pos hf]
        have hw : (setRecState n .opened (placeRecord n { s with waiting := rest })).waiting = rest := (placeRecord_waiting n _).1
        have hrec : ∀ m ∈ rest, (setRecState n .opened (placeRecord n { s with waiting := rest })).record m = s.record m := fun m hm => by
          rw [granted_record, if_neg (fun h : m = n => hn (h ▸ hm))]
        have hgr : ∀ k, (grants (rest.take k) (setRecState n .opened (placeRecord n { s with waiting := rest }))).claims
            = (grants (n :: rest.take k) s).claims := fun k => by
          rw [grants_cons_sound _ hs]
          rw [grants_congr (t := placeRecord n s) _ (granted_claims n rest s) fun m hm => by
            rw [hrec m (List.mem_of_mem_take hm), placeRecord_record]]
          unfold grants
          simp only [placeRecord_record]
        obtain ⟨k, h1, h2, h3, h4, h5, h6, h7, h8⟩ := ih hw hd
        rw [hw] at h1 h2 h3 h4 h5 h6 h8
        rw [e]
        refine ⟨k + 1, ?_, ?_, ?_, ?_, ?_, ?_, h7, fun hp => ?_⟩
        · rw [hl, h1, List.drop_succ_cons]
        · rw [hl, List.take_succ_cons, h2, hgr]
        · intro m hm
          rw [hl, List.take_succ_cons] at hm
          rcases List.mem_cons.mp hm with rfl | hm
          · rw [h4 _ fun h => hn (List.mem_of_mem_take h), granted_record, if_pos rfl, if_pos hs]
          · rw [h3 m hm, hrec m (List.mem_of_mem_take hm)]
        · intro m hm
          rw [hl, List.take_succ_cons] at hm
          rw [h4 m fun h => hm (by simp [h]), granted_record, if_neg fun h => hm (by simp [h])]
        · intro i m hi hm hsm
          rw [hl] at hm
          rw [hl]
          cases i with
          | zero =>
            simp only [List.getElem?_cons_zero, Option.some.injEq] at hm
            subst hm
            exact hf
          | succ i =>
            simp only [List.getElem?_cons_succ] at hm
            have hmr : m ∈ rest := List.mem_of_getElem? hm
            have := h5 i m (by omega) hm (by rw [hrec m hmr]; exact hsm)
            rw [hrec m hmr, freeCount_of_claims (hgr i)] at this
            rw [List.take_succ_cons]
            exact this
        · intro m c hm hsm hc ch hch
          rw [hl, List.take_succ_cons] at hm
          rcases List.mem_cons.mp hm with rfl | hm
          · show _ ∈ nth (serve _ _).claims ch
            rw [h2]
            unfold grants
            refine mem_foldl_placeRecord (cl := openClaim m c) (ch := ch) _ ?_ fun j hj e => ?_
            · show _ ∈ nth (setRecState _ _ _).claims ch
              rw [granted_claims]
              obtain ⟨c', hc', hr⟩ := recordSound_content hs
              rw [hc] at hc'
              cases hc'
              show _ ∈ (placeRecord m s).claimList ch
              rw [placeRecord_claimList hc hr, if_pos hch]
              exact mem_insertClaim.mpr (Or.inl rfl)
            · cases e
              exact hn (List.mem_of_mem_take (List.mem_of_mem_filter hj))
          · have hmr := List.mem_of_mem_take hm
            exact h6 m c hm (by rw [hrec m hmr]; exact hsm) (by rw [hrec m hmr]; exact hc) ch hch
        · have hp' : (setRecState n .opened (placeRecord n { s with waiting := rest })).mainPower = true :=
            ((setRecState_frame _ _ _).mainPower.trans (placeRecord_frame _ _).mainPower).trans hp
          rw [h8 hp', hl, List.take_succ_cons, List.filter_cons, if_neg (by simp [hs])]
          have hno : (setRecState n .opened (placeRecord n { s with waiting := rest })).notice .recordFault = s.notice .recordFault :=
            placeRecord_quiet (l := []) n { s with waiting := rest } .recordFault (by simp)
          rw [hno]
          congr 2
          exact List.filter_congr fun m hm => by rw [hrec m (List.mem_of_mem_take hm)]
      · have e : serve (n :: rest) s = s := by rw [serve, if_pos hs, if_neg hf]
        rw [e]
        refine ⟨0, rfl, rfl, by simp, fun _ _ => rfl, by simp, by simp, Or.inr ⟨n, rest, hl, hs, by omega⟩, fun _ => ?_⟩
        simp [Notice.raisedFor]
    · have hs' : recordSound (s.record n) = false := by simpa using hs
      have e : serve (n :: rest) s = serve rest (markQuarantined n { s with waiting := rest }) := by rw [serve, if_neg hs]
      have hw : (markQuarantined n { s with waiting := rest }).waiting = rest := by simp [markQuarantined]
      have hrec : ∀ m ∈ rest, (markQuarantined n { s with waiting := rest }).record m = s.record m := fun m hm => by
        rw [quarantined_record, if_neg (fun h : m = n => hn (h ▸ hm))]
      have hcl : (markQuarantined n { s with waiting := rest }).claims = s.claims := by simp [markQuarantined]
      have hgr : ∀ k, (grants (rest.take k) (markQuarantined n { s with waiting := rest })).claims
          = (grants (n :: rest.take k) s).claims := fun k => by
        rw [grants_cons_unsound _ hs']
        exact grants_congr _ hcl fun m hm => hrec m (List.mem_of_mem_take hm)
      obtain ⟨k, h1, h2, h3, h4, h5, h6, h7, h8⟩ := ih hw hd
      rw [hw] at h1 h2 h3 h4 h5 h6 h8
      rw [e]
      refine ⟨k + 1, ?_, ?_, ?_, ?_, ?_, ?_, h7, fun hp => ?_⟩
      · rw [hl, h1, List.drop_succ_cons]
      · rw [hl, List.take_succ_cons, h2, hgr]
      · intro m hm
        rw [hl, List.take_succ_cons] at hm
        rcases List.mem_cons.mp hm with rfl | hm
        · rw [h4 _ fun h => hn (List.mem_of_mem_take h), quarantined_record, if_pos rfl, if_neg hs]
        · rw [h3 m hm, hrec m (List.mem_of_mem_take hm)]
      · intro m hm
        rw [hl, List.take_succ_cons] at hm
        rw [h4 m fun h => hm (by simp [h]), quarantined_record, if_neg fun h => hm (by simp [h])]
      · intro i m hi hm hsm
        rw [hl] at hm
        rw [hl]
        cases i with
        | zero =>
          simp only [List.getElem?_cons_zero, Option.some.injEq] at hm
          subst hm
          exact absurd hsm hs
        | succ i =>
          simp only [List.getElem?_cons_succ] at hm
          have hmr : m ∈ rest := List.mem_of_getElem? hm
          have := h5 i m (by omega) hm (by rw [hrec m hmr]; exact hsm)
          rw [hrec m hmr, freeCount_of_claims (hgr i)] at this
          rw [List.take_succ_cons]
          exact this
      · intro m c hm hsm hc ch hch
        rw [hl, List.take_succ_cons] at hm
        rcases List.mem_cons.mp hm with rfl | hm
        · exact absurd hsm hs
        · have hmr := List.mem_of_mem_take hm
          exact h6 m c hm (by rw [hrec m hmr]; exact hsm) (by rw [hrec m hmr]; exact hc) ch hch
      · have hp' : (markQuarantined n { s with waiting := rest }).mainPower = true := (markQuarantined_frame _ _).mainPower.trans hp
        rw [h8 hp', hl, List.take_succ_cons, List.filter_cons, if_pos (by simp [hs'])]
        rw [markQuarantined_notice (s := { s with waiting := rest }) hp]
        rw [List.filter_congr (q := fun n => !recordSound (s.record n)) fun m hm => by rw [hrec m (List.mem_of_mem_take hm)]]
        rfl

/-- `Served` speaks of records, claims, the waiting list and one notice alone. -/
theorem Served.congr {s s' t t' : State} (h : Served s t) (hw : s'.waiting = s.waiting) (hc : s'.claims = s.claims) (hr : s'.records = s.records)
    (hn : s'.notice .recordFault = s.notice .recordFault) (hp : s'.mainPower = s.mainPower) (hw' : t'.waiting = t.waiting)
    (hc' : t'.claims = t.claims) (hr' : t'.records = t.records) (hn' : t'.notice .recordFault = t.notice .recordFault) : Served s' t' := by
  have hrec : ∀ n, s'.record n = s.record n := fun n => by unfold State.record; rw [hr]
  have hrec' : ∀ n, t'.record n = t.record n := fun n => by unfold State.record; rw [hr']
  have hgr : ∀ l, (grants l s').claims = (grants l s).claims := fun l => grants_congr l hc fun n _ => hrec n
  have hcl' : ∀ ch, t'.claimList ch = t.claimList ch := fun ch => by unfold State.claimList; rw [hc']
  obtain ⟨k, h1, h2, h3, h4, h5, h6, h7, h8⟩ := h
  refine ⟨k, ?_, ?_, ?_, ?_, ?_, ?_, ?_, fun hpp => ?_⟩
  · rw [hw', hw, h1]
  · rw [hc', hw, h2, hgr]
  · intro n hn; rw [hw] at hn; rw [hrec', hrec, h3 n hn]
  · intro n hn; rw [hw] at hn; rw [hrec', hrec, h4 n hn]
  · intro i n hi hm hs; rw [hw] at hm ⊢; rw [hrec] at hs ⊢; rw [freeCount_of_claims (hgr _)]; exact h5 i n hi hm hs
  · intro n c hm hs hc0 ch hch
    rw [hw] at hm
    rw [hrec] at hs hc0
    rw [hcl']
    exact h6 n c hm hs hc0 ch hch
  · rw [hw', freeCount_of_claims hc']
    simpa only [hrec'] using h7
  · rw [hn', hn, hw]
    simp only [hrec]
    exact h8 (hp ▸ hpp)

/-- A service with the publications that close it is one that `Served` describes (R90, R91). -/
theorem publish_served {s : State} (hd : s.waiting.Nodup) : Served s (publish (serveWaiting s)) := by
  have hf := publish_frame (serveWaiting s)
  exact (serve_served s.waiting rfl hd).congr rfl rfl rfl rfl rfl hf.waiting hf.claims hf.records (publish_quiet _ _ (by decide))

/-- With nobody waiting a service does nothing. -/
theorem serveWaiting_nobody {s : State} (h : s.waiting = []) : serveWaiting s = s := by
  unfold serveWaiting
  rw [h]
  rfl

/-- A record that does not wait stands through a service. -/
theorem Served.record_off {s t : State} (h : Served s t) {n : RecNo} (hn : n ∉ s.waiting) : t.record n = s.record n := by
  obtain ⟨k, -, -, -, h4, -⟩ := h
  exact h4 n fun hm => hn (List.mem_of_mem_take hm)

/-- With nobody waiting a service leaves claims, records and list. -/
theorem Served.nobody {s t : State} (h : Served s t) (hw : s.waiting = []) :
    t.waiting = [] ∧ t.claims = s.claims ∧ ∀ n, t.record n = s.record n := by
  have ho := h
  obtain ⟨k, h1, h2, -⟩ := h
  rw [hw] at h1 h2
  refine ⟨by simpa using h1, by simpa [grants] using h2, fun n => ho.record_off (by simp [hw])⟩

/-! ### The operations that serve the list -/

/-- A withdrawal serves the list with the entries it frees (R84, R91). -/
theorem withdraw_served (n : RecNo) {s : State} (hd : s.waiting.Nodup) :
    Served { s with claims := tabulate fun ch => (s.claimList ch).filter fun cl => cl.source != .record n } (withdraw n s) :=
  publish_served (s := keepClaims (fun _ cl => cl.source != .record n) s) hd

/-- After a withdrawal every channel's present demand is the demand of its list. -/
theorem publish_settled (s : State) (c : Chan) : ((publish s).channel c).present = demandOf (publish s) c :=
  (publish_present s c).trans (publish_demandOf s c).symm

/-- The head's removal serves the list (R89, R91). -/
theorem removeWaiting_served {n : RecNo} {rest : List RecNo} {s : State} (hw : s.waiting = n :: rest) (hd : s.waiting.Nodup) :
    Served { s with waiting := rest } (removeWaiting n s) := by
  rw [hw, List.nodup_cons] at hd
  have hf : s.waiting.filter (fun m => m != n) = rest := by
    rw [hw, List.filter_cons, if_neg (by simp)]
    exact List.filter_eq_self.mpr fun m hm => by simpa using fun e : m = n => hd.1 (e ▸ hm)
  unfold removeWaiting
  rw [if_pos (by rw [hw]; rfl), hf]
  exact publish_served (s := { s with waiting := rest }) hd.2

/-- The removal of a record that is not the head only closes the list up (R89). -/
theorem removeWaiting_behind {n : RecNo} {s : State} (h : s.waiting.head? ≠ some n) :
    removeWaiting n s = { s with waiting := s.waiting.filter fun m => m != n } := by
  unfold removeWaiting
  rw [if_neg h]

/-- A selective removal that removes nothing does nothing (R85). -/
theorem selectiveRemoval_none {chans : List Chan} {cond : Claim → Bool} {s : State}
    (h : claimTotal (keepClaims (fun c cl => !(chans.contains c && cond cl)) s) = claimTotal s) : selectiveRemoval chans cond s = s := by
  unfold selectiveRemoval
  rw [if_pos h]

/-- A selective removal that removes a claim serves the list with the entries it frees (R85, R91). -/
theorem selectiveRemoval_some {chans : List Chan} {cond : Claim → Bool} {s : State}
    (h : claimTotal (keepClaims (fun c cl => !(chans.contains c && cond cl)) s) ≠ claimTotal s) :
    selectiveRemoval chans cond s = publish (serveWaiting (keepClaims (fun c cl => !(chans.contains c && cond cl)) s)) := by
  unfold selectiveRemoval
  rw [if_neg h]

end Sys2Proof.Machine
end

