-- ==== Sys2Proof/Laws/Opening.lean ====
section
/-!
SUPPORT. The opening of an ARMED record (R55, R61) and the single-record evaluation (R68): each is one that `Opens` and `Evaluated` describe.
-/

namespace Sys2Proof.Machine

theorem countRecord_record (n j : RecNo) (s : State) : (countRecord n s).record j = if j = n then (s.record n).counted else s.record j := by
  unfold countRecord Record.counted
  dsimp only
  split
  · rw [State.raise_record, record_setRecord]
  · rw [record_setRecord]

theorem countRecord_quiet (n : RecNo) (s : State) : QuietBut [.recordWrap] s (countRecord n s) := by
  unfold countRecord
  dsimp only
  split
  · exact QuietBut.trans (t := s.setRecord n _) (QuietBut.of_notices rfl) (QuietBut.raise _ _ (by decide))
  · exact QuietBut.of_notices rfl

theorem countRecord_wrap {s : State} (h : s.mainPower = true) (n : RecNo) :
    (countRecord n s).notice .recordWrap = if (s.record n).count = 9999 then (s.notice .recordWrap).raised n.val else s.notice .recordWrap := by
  unfold countRecord
  dsimp only
  split
  · exact raise_notice_same (s := s.setRecord n _) h _ _
  · rfl

/-- A counted record is a change of the record and, at a rollover, of one notice. -/
theorem countRecord_eq (n : RecNo) (s : State) : countRecord n s =
    { s with records := upd s.records n (s.record n).counted, notices := (countRecord n s).notices } := by
  unfold countRecord Record.counted
  dsimp only
  split
  · unfold State.raise
    split <;> rfl
  · rfl

theorem markQuarantined_eq (n : RecNo) (s : State) : markQuarantined n s =
    { s with records := upd s.records n (s.record n).condemned, notices := (markQuarantined n s).notices } := by
  unfold markQuarantined State.raise
  dsimp only
  split <;> rfl

theorem markQuarantined_notices {s : State} (h : s.mainPower = true) (n : RecNo) :
    (markQuarantined n s).notices = upd s.notices 5 ((s.notice .recordFault).raised n.val) := by
  unfold markQuarantined State.raise
  dsimp only
  rw [if_pos (show (s.setRecord n _).mainPower = true from h)]
  rfl

/-- The opening of an ARMED record is one that `Opens` describes (R55, R81, R82). -/
theorem openRecord_opens {n : RecNo} {s : State} {c : Content} (ha : (s.record n).state = .armed) (hc : (s.record n).content = some c) :
    Opens n c s (openRecord n s) := by
  refine ⟨fun hs => ?_, fun hs => ?_⟩
  · have e : openRecord n s = markQuarantined n s := by
      unfold openRecord quarantine
      rw [if_neg (by simp [hs])]
      simp only [ha]
    rw [e]
    exact ⟨markQuarantined_eq n s, fun hp => markQuarantined_notices hp n⟩
  · obtain ⟨c', hc', hr⟩ := recordSound_content hs
    rw [hc] at hc'
    cases hc'
    have e : openRecord n s = requestOpening n (countRecord n s) := by unfold openRecord; rw [if_pos hs]
    have hrec : ∀ j, (countRecord n s).record j = if j = n then (s.record n).counted else s.record j := fun j => countRecord_record n j s
    have hfr := countRecord_frame n s
    have hcount : (s.record n).counted.content = some c := by unfold Record.counted; split <;> exact hc
    have hwait : (countRecord n s).waiting = s.waiting := by rw [countRecord_eq]
    have hclaims : (countRecord n s).claims = s.claims := countRecord_claims n s
    have hneed : ((countRecord n s).record n).need = c.channels.length := by rw [hrec, if_pos rfl, Record.need, hcount]; rfl
    have hfree : freeCount (countRecord n s) = freeCount s := freeCount_of_claims hclaims
    rw [e]
    by_cases hg : s.waiting = [] ∧ c.channels.length ≤ freeCount s
    · have e2 : requestOpening n (countRecord n s) = publish (setRecState n .opened (placeRecord n (countRecord n s))) := by
        unfold requestOpening
        rw [if_pos ⟨hwait.trans hg.1, by rw [hneed, hfree]; exact hg.2⟩]
      rw [e2]
      have f1 := publish_frame (setRecState n .opened (placeRecord n (countRecord n s)))
      have f2 := hfr.trans ((placeRecord_frame n _).trans ((setRecState_frame n .opened _).trans f1.table))
      have hr2 : ∀ j, (publish (setRecState n .opened (placeRecord n (countRecord n s)))).record j =
          if j = n then { (s.record n).counted with state := .opened } else s.record j := fun j => by
        rw [f1.record]
        unfold setRecState
        rw [record_setRecord, placeRecord_record, placeRecord_record, hrec, hrec, if_pos rfl]
        split <;> rfl
      have hl : ∀ ch, (publish (setRecState n .opened (placeRecord n (countRecord n s)))).claimList ch = _ := fun ch =>
        (f1.claimList ch).trans (placeRecord_claimList (s := countRecord n s) (by rw [hrec, if_pos rfl]; exact hcount) hr ch)
      have hcl : ∀ ch, (countRecord n s).claimList ch = s.claimList ch := fun ch => by unfold State.claimList; rw [hclaims]
      refine ⟨fun j hj => by rw [hr2, if_neg hj], fun hp => ?_, fun _ _ => ?_, fun h => ?_⟩
      · rw [← countRecord_wrap hp n, publish_quiet _ _ (by decide)]
        exact placeRecord_quiet (l := []) n _ _ (by simp)
      · refine ⟨by rw [hr2, if_pos rfl], f1.waiting.trans ((placeRecord_waiting n _).1.trans (hwait.trans hg.1)), fun ch hm => ?_,
          fun ch hm => ?_, fun ch => ?_, f2.calendar, f2.port, f2.rules, f2.channelConfigs, f2.evaluator⟩
        · rw [hl, if_pos hm, hcl]
        · rw [hl, if_neg hm, hcl]
        · exact (publish_present _ ch).trans (publish_demandOf _ ch).symm
      · rcases h with h | h
        · exact absurd hg.1 h
        · omega
    · have e2 : requestOpening n (countRecord n s) =
          (setRecState n .waiting { countRecord n s with waiting := s.waiting ++ [n] }).raise .claimWait n.val := by
        unfold requestOpening
        rw [if_neg (by rw [hwait, hneed, hfree]; exact hg), hwait]
      have hsame : (s.record n).count ≠ 9999 → (countRecord n s).notices = s.notices := fun h => by
        unfold countRecord
        dsimp only
        rw [if_neg h]
        rfl
      rw [e2]
      refine ⟨fun j hj => ?_, fun hp => ?_, fun h1 h2 => absurd ⟨h1, h2⟩ hg, fun _ => ⟨?_, ?_, fun hp => ?_, fun h hp => ?_⟩⟩
      · unfold setRecState
        rw [State.raise_record, record_setRecord, if_neg hj]
        exact (hrec j).trans (if_neg hj)
      · rw [raise_notice_other _ (by decide), ← countRecord_wrap hp n]
        rfl
      · rw [countRecord_eq]
        unfold State.raise setRecState
        split <;> rfl
      · unfold setRecState
        rw [State.raise_record, record_setRecord, if_pos rfl]
        show ({ (countRecord n s).record n with state := .waiting } : Record) = _
        rw [hrec, if_pos rfl]
      · have hp' : (countRecord n s).mainPower = true := hfr.mainPower.trans hp
        refine (raise_notice_same (s := setRecState n .waiting { countRecord n s with waiting := s.waiting ++ [n] }) hp' .claimWait n.val).trans ?_
        show ((countRecord n s).notice .claimWait).raised _ = _
        rw [countRecord_quiet n s _ (by decide)]
      · have hp' : (countRecord n s).mainPower = true := hfr.mainPower.trans hp
        refine (congrArg State.notices (State.raise_powered (setRecState n .waiting { countRecord n s with waiting := s.waiting ++ [n] }) .claimWait n.val hp')).trans ?_
        show upd (countRecord n s).notices _ (((countRecord n s).notice .claimWait).raised _) = _
        rw [countRecord_quiet n s _ (by decide), hsame h]
        rfl

theorem datedOver_weekly {c : Content} (h : c.kind = 0) (m : Moment) : datedOver c m = false := by
  simp [datedOver, contentDated, h]

theorem datedOver_dated {c : Content} {b : BitVec 24} {d : Date} {w : Nat × Nat} (hk : c.kind = 1) (hd : c.day = .date b) (hb : dateOf b = some d)
    (hw : windowOn c d = some w) (m : Moment) : datedOver c m = decide (w.2 ≤ m.index) := by
  simp [datedOver, contentDated, hk, datedOn, hd, hb, hw]

theorem spendRecord_eq (n : RecNo) (s : State) : spendRecord n s =
    { s with records := upd s.records n { s.record n with state := .spent }, notices := (spendRecord n s).notices } := by
  unfold spendRecord State.raise setRecState
  split <;> rfl

theorem spendRecord_notices {s : State} (h : s.mainPower = true) (n : RecNo) :
    (spendRecord n s).notices = upd s.notices 1 ((s.notice .missedWindow).raised n.val) := by
  unfold spendRecord State.raise
  rw [if_pos (show (setRecState n _ s).mainPower = true from h)]
  rfl

/-- The single-record evaluation is one that `Evaluated` describes (R68). -/
theorem evaluateRecord_evaluated (n : RecNo) (s : State) : Evaluated n s (evaluateRecord n s) := by
  intro c ha hc
  refine ⟨fun h => ?_, fun m hr hm => ?_⟩
  · unfold evaluateRecord
    rcases h with h | h
    · split
      · rw [if_neg h]
      · rfl
    · rw [h]
  · have e : evaluateRecord n s = testArmed inside m n s := by
      unfold evaluateRecord
      rw [hm]
      exact if_pos hr
    have t : testArmed inside m n s = if inside c m then openRecord n s else if datedOver c m then spendRecord n s else s := by
      unfold testArmed
      simp only [hc, ha, if_true]
    rw [e, t]
    refine ⟨fun hi => ?_, fun hi hk => ?_, fun b d w hi hk hd hb hw => ⟨fun hle => ?_, fun hlt => ?_⟩⟩
    · rw [if_pos hi]
      exact openRecord_opens ha hc
    · rw [if_neg (by simp [hi]), if_neg (by simp [datedOver_weekly hk])]
    · rw [if_neg (by simp [hi]), if_pos (by rw [datedOver_dated hk hd hb hw]; simpa using hle)]
      exact ⟨spendRecord_eq n s, fun hp => spendRecord_notices hp n⟩
    · rw [if_neg (by simp [hi]), if_neg (by rw [datedOver_dated hk hd hb hw]; simpa using hlt)]

end Sys2Proof.Machine
end

