-- ==== Sys2Proof/Laws/Ticks.lean ====
section
/-!
SUPPORT. What the work of a second tick can change, in whatever order it is done (R4, R86, R108, R159, R165): the table and the channels, the
trigger rules, the inputs, the scrub position and what is due; everything else stands.
-/

namespace Sys2Proof.Machine

/-- `t` differs from `s` at most in what the work of a second tick changes. -/
def TickFrame (s t : State) : Prop :=
  ∃ re ru cl wa hd ins he ch gs sw no po sc sd cd fd, t = { s with
    records := re, rules := ru, claims := cl, waiting := wa, holdsDue := hd, inputs := ins, heldDue := he, channels := ch, generators := gs,
    switches := sw, notices := no, publishOrders := po, scrub := sc, scrubDue := sd, compareDue := cd, faultsDue := fd }

theorem TableFrame.tick {s t : State} (h : TableFrame s t) : TickFrame s t := by
  obtain ⟨_, _, _, _, _, _, _, _, rfl⟩ := h
  exact ⟨_, _, _, _, _, _, _, _, _, _, _, _, _, _, _, _, rfl⟩

theorem FaultFrame.tick {s t : State} (h : FaultFrame s t) : TickFrame s t := by
  obtain ⟨_, _, _, _, _, _, rfl⟩ := h
  exact ⟨_, _, _, _, _, _, _, _, _, _, _, _, _, _, _, _, rfl⟩

namespace TickFrame

theorem refl (s : State) : TickFrame s s := (TableFrame.refl s).tick

theorem trans {s t u : State} (h1 : TickFrame s t) (h2 : TickFrame t u) : TickFrame s u := by
  obtain ⟨_, _, _, _, _, _, _, _, _, _, _, _, _, _, _, _, rfl⟩ := h1
  obtain ⟨_, _, _, _, _, _, _, _, _, _, _, _, _, _, _, _, rfl⟩ := h2
  exact ⟨_, _, _, _, _, _, _, _, _, _, _, _, _, _, _, _, rfl⟩

theorem setInput (s : State) (i : InputNo) (x : Input) : TickFrame s (s.setInput i x) :=
  ⟨_, _, _, _, _, _, _, _, _, _, _, _, _, _, _, _, rfl⟩

theorem setRule (s : State) (n : RuleNo) (x : Rule) : TickFrame s (s.setRule n x) := ⟨_, _, _, _, _, _, _, _, _, _, _, _, _, _, _, _, rfl⟩

theorem raise (s : State) (k : NoticeKind) (j : Nat) : TickFrame s (s.raise k j) := (TableFrame.raise s k j).tick

theorem foldl {α : Type} {f : State → α → State} (hf : ∀ s a, TickFrame s (f s a)) (l : List α) (s : State) :
    TickFrame s (l.foldl f s) := by
  induction l generalizing s with
  | nil => exact refl s
  | cons a l ih => exact (hf s a).trans (ih (f s a))

theorem times {f : State → State} (hf : ∀ s, TickFrame s (f s)) (k : Nat) (s : State) : TickFrame s (Machine.times f k s) := by
  induction k generalizing s with
  | zero => exact refl s
  | succ k ih => exact (hf s).trans (ih (f s))

variable {s t : State}

theorem calendar (h : TickFrame s t) : t.calendar = s.calendar := by obtain ⟨_, _, _, _, _, _, _, _, _, _, _, _, _, _, _, _, rfl⟩ := h; rfl
theorem evaluator (h : TickFrame s t) : t.evaluator = s.evaluator := by obtain ⟨_, _, _, _, _, _, _, _, _, _, _, _, _, _, _, _, rfl⟩ := h; rfl
theorem port (h : TickFrame s t) : t.port = s.port := by obtain ⟨_, _, _, _, _, _, _, _, _, _, _, _, _, _, _, _, rfl⟩ := h; rfl
theorem channelConfigs (h : TickFrame s t) : t.channelConfigs = s.channelConfigs := by
  obtain ⟨_, _, _, _, _, _, _, _, _, _, _, _, _, _, _, _, rfl⟩ := h; rfl
theorem inputConfigs (h : TickFrame s t) : t.inputConfigs = s.inputConfigs := by
  obtain ⟨_, _, _, _, _, _, _, _, _, _, _, _, _, _, _, _, rfl⟩ := h; rfl
theorem freezeMask (h : TickFrame s t) : t.freezeMask = s.freezeMask := by
  obtain ⟨_, _, _, _, _, _, _, _, _, _, _, _, _, _, _, _, rfl⟩ := h; rfl
theorem mask (h : TickFrame s t) : t.mask = s.mask := by obtain ⟨_, _, _, _, _, _, _, _, _, _, _, _, _, _, _, _, rfl⟩ := h; rfl
theorem events (h : TickFrame s t) : t.events = s.events := by obtain ⟨_, _, _, _, _, _, _, _, _, _, _, _, _, _, _, _, rfl⟩ := h; rfl
theorem mainPower (h : TickFrame s t) : t.mainPower = s.mainPower := by
  obtain ⟨_, _, _, _, _, _, _, _, _, _, _, _, _, _, _, _, rfl⟩ := h; rfl
theorem pending (h : TickFrame s t) : t.pending = s.pending := by obtain ⟨_, _, _, _, _, _, _, _, _, _, _, _, _, _, _, _, rfl⟩ := h; rfl

end TickFrame

theorem takeHoldTick_frame (s : State) : TickFrame s (takeHoldTick s) := by
  unfold takeHoldTick
  split
  · exact TickFrame.refl s
  · exact TickFrame.trans (t := { s with holdsDue := s.holdsDue - 1 }) ⟨_, _, _, _, _, _, _, _, _, _, _, _, _, _, _, _, rfl⟩
      (holdCountdown_frame _).tick

theorem countHeld_frame (s : State) (i : InputNo) : TickFrame s (countHeld s i) := by
  unfold countHeld
  dsimp only
  split
  · split
    · exact (TickFrame.setInput _ _ _).trans (TickFrame.raise _ _ _)
    · exact TickFrame.setInput _ _ _
  · exact TickFrame.refl s

theorem takeHeldTick_frame (s : State) : TickFrame s (takeHeldTick s) := by
  unfold takeHeldTick
  split
  · exact TickFrame.refl s
  · exact TickFrame.trans (t := { s with heldDue := s.heldDue - 1 }) ⟨_, _, _, _, _, _, _, _, _, _, _, _, _, _, _, _, rfl⟩
      (TickFrame.foldl countHeld_frame _ _)

theorem checkRule_frame (n : RuleNo) (s : State) : TickFrame s (checkRule n s) := by
  unfold checkRule
  split
  · exact (TickFrame.setRule _ _ _).trans (TickFrame.raise _ _ _)
  · exact TickFrame.refl s

theorem scrubStep_frame (s : State) : TickFrame s (scrubStep s) := by
  have last : ∀ u v, TickFrame s u → TickFrame s { u with scrub := v } := fun u v h =>
    h.trans ⟨_, _, _, _, _, _, _, _, _, _, _, _, _, _, _, _, rfl⟩
  unfold scrubStep
  refine last _ _ ?_
  split
  · exact (checkRecord_frame _ _).tick
  · exact checkRule_frame _ _

theorem takeScrubTick_frame (s : State) : TickFrame s (takeScrubTick s) := by
  unfold takeScrubTick
  split
  · exact TickFrame.refl s
  · exact TickFrame.trans (t := { s with scrubDue := s.scrubDue - 1 }) ⟨_, _, _, _, _, _, _, _, _, _, _, _, _, _, _, _, rfl⟩ (scrubStep_frame _)

theorem takeCompareTick_frame (held : List PinHold) (c : Chan) (s : State) : TickFrame s (takeCompareTick held c s) := by
  unfold takeCompareTick
  split
  · exact TickFrame.trans (t := { s with compareDue := upd s.compareDue c false }) ⟨_, _, _, _, _, _, _, _, _, _, _, _, _, _, _, _, rfl⟩
      (steadyCompare_frame _ _ _).tick
  · exact TickFrame.refl s

theorem tickWork_frame (held : List PinHold) (s : State) (w : TickWork) : TickFrame s (tickWork held s w) := by
  cases w with
  | holds => exact TickFrame.times takeHoldTick_frame _ _
  | held => exact TickFrame.times takeHeldTick_frame _ _
  | scrub => exact TickFrame.times takeScrubTick_frame _ _
  | compare c => exact takeCompareTick_frame held c s

/-- The work of a second tick, in any order, changes nothing outside what `TickFrame` lets differ. -/
theorem tickWorks_frame (held : List PinHold) (o : TickOrder) (s : State) : TickFrame s (tickWorks held o s) := by
  unfold tickWorks
  split
  · exact TickFrame.foldl (tickWork_frame held) _ _
  · exact TickFrame.refl s

/-! ### The order of the work -/

theorem mem_allWork (w : TickWork) : w ∈ allWork := by
  cases w <;> simp [allWork]

/-- The work of a tick is everything that is not left for later. -/
theorem mem_workOrder (o : TickOrder) (w : TickWork) : w ∈ workOrder o ↔ w ∉ o.later := by
  simp only [workOrder, List.mem_filter, List.mem_append, List.mem_eraseDups, mem_allWork, true_and, Bool.not_eq_true', List.contains_eq_mem,
    decide_eq_false_iff_not]
  constructor
  · exact fun h => h.2
  · exact fun h => ⟨by by_cases hf : w ∈ o.first <;> simp [hf], h⟩

theorem allWork_nodup : allWork.Nodup := by decide

/-- No piece of a tick's work is done twice. -/
theorem workOrder_nodup (o : TickOrder) : (workOrder o).Nodup := by
  unfold workOrder
  refine List.Nodup.filter _ (List.Nodup.append (nodup_eraseDups _) (allWork_nodup.filter _) ?_)
  intro w h1 h2
  simp only [List.mem_eraseDups, List.mem_filter] at h1 h2
  simp [h1] at h2

/-! ### What each piece of the work leaves to the others -/

/-- The work on the holds leaves the inputs, the rules, the scrub and what is due to the others. -/
def HoldsOnly (s t : State) : Prop :=
  t.inputs = s.inputs ∧ t.heldDue = s.heldDue ∧ t.rules = s.rules ∧ t.scrub = s.scrub ∧ t.scrubDue = s.scrubDue
    ∧ t.compareDue = s.compareDue ∧ QuietBut serviceKinds s t

/-- The work on the held counts changes inputs, notices and what is due of its own. -/
def HeldOnly (s t : State) : Prop :=
  t = { s with inputs := t.inputs, notices := t.notices, heldDue := t.heldDue } ∧ QuietBut [.inputStuck] s t

/-- The scrub leaves the inputs and what is due to the others. -/
def ScrubOnly (s t : State) : Prop :=
  t.inputs = s.inputs ∧ t.heldDue = s.heldDue ∧ t.holdsDue = s.holdsDue ∧ t.compareDue = s.compareDue
    ∧ QuietBut (.ruleFault :: serviceKinds) s t

/-- The comparison of a channel leaves the table, the rules, the inputs, the scrub and what is due to the others. -/
def CompareOnly (c : Chan) (s t : State) : Prop :=
  t.inputs = s.inputs ∧ t.heldDue = s.heldDue ∧ t.holdsDue = s.holdsDue ∧ t.rules = s.rules ∧ t.scrub = s.scrub
    ∧ t.scrubDue = s.scrubDue ∧ t.records = s.records ∧ t.claims = s.claims ∧ t.waiting = s.waiting
    ∧ (∀ d, d ≠ c → nth t.compareDue d = nth s.compareDue d) ∧ QuietBut [.outputFault] s t

theorem TableFrame.holdsOnly {s t : State} (h : TableFrame s t) (hq : QuietBut serviceKinds s t) : HoldsOnly s t := by
  obtain ⟨_, _, _, _, _, _, _, _, e⟩ := h
  rw [e] at hq ⊢
  exact ⟨rfl, rfl, rfl, rfl, rfl, rfl, hq⟩

theorem HoldsOnly.trans {s t u : State} (h1 : HoldsOnly s t) (h2 : HoldsOnly t u) : HoldsOnly s u := by
  obtain ⟨a1, a2, a3, a4, a5, a6, a7⟩ := h1
  obtain ⟨b1, b2, b3, b4, b5, b6, b7⟩ := h2
  exact ⟨b1.trans a1, b2.trans a2, b3.trans a3, b4.trans a4, b5.trans a5, b6.trans a6, a7.trans b7⟩

theorem HeldOnly.trans {s t u : State} (h1 : HeldOnly s t) (h2 : HeldOnly t u) : HeldOnly s u := by
  obtain ⟨a1, a2⟩ := h1
  obtain ⟨b1, b2⟩ := h2
  refine ⟨?_, a2.trans b2⟩
  rw [b1, a1]

theorem ScrubOnly.trans {s t u : State} (h1 : ScrubOnly s t) (h2 : ScrubOnly t u) : ScrubOnly s u := by
  obtain ⟨a1, a2, a3, a4, a5⟩ := h1
  obtain ⟨b1, b2, b3, b4, b5⟩ := h2
  exact ⟨b1.trans a1, b2.trans a2, b3.trans a3, b4.trans a4, a5.trans b5⟩

/-- What holds of doing nothing and of each doing, and of one after another, holds of a number of doings. -/
theorem times_rel {R : State → State → Prop} {f : State → State} (hr : ∀ s, R s s) (ht : ∀ s t u, R s t → R t u → R s u) (hf : ∀ s, R s (f s))
    (k : Nat) (s : State) : R s (times f k s) := by
  induction k generalizing s with
  | zero => exact hr s
  | succ k ih => exact ht _ _ _ (hf s) (ih (f s))

theorem holdCountdown_quiet (s : State) : QuietBut serviceKinds s (holdCountdown s) := by
  unfold holdCountdown
  dsimp only
  split
  · exact QuietBut.of_notices rfl
  · exact QuietBut.trans (t := { s with claims := tabulate fun c => (s.claimList c).filterMap countDown }) (QuietBut.of_notices rfl)
      (publish_serveWaiting_quiet _)

theorem takeHoldTick_only (s : State) : HoldsOnly s (takeHoldTick s) := by
  unfold takeHoldTick
  split
  · exact (TableFrame.refl s).holdsOnly (QuietBut.refl s)
  · exact HoldsOnly.trans (t := { s with holdsDue := s.holdsDue - 1 }) ⟨rfl, rfl, rfl, rfl, rfl, rfl, QuietBut.of_notices rfl⟩
      ((holdCountdown_frame _).holdsOnly (holdCountdown_quiet _))

theorem TableFrame.holdsDue {s t : State} (h : TableFrame s t) : t.holdsDue = s.holdsDue := by
  obtain ⟨_, _, _, _, _, _, _, _, rfl⟩ := h
  rfl

theorem takeHoldTick_due (s : State) : (takeHoldTick s).holdsDue = s.holdsDue - 1 := by
  unfold takeHoldTick
  split
  · omega
  · exact (holdCountdown_frame _).holdsDue

theorem holds_only (held : List PinHold) (s : State) : HoldsOnly s (tickWork held s .holds) :=
  times_rel (fun s => (TableFrame.refl s).holdsOnly (QuietBut.refl s)) (fun _ _ _ => HoldsOnly.trans) takeHoldTick_only _ _

theorem times_due {due : State → Nat} {f : State → State} (h : ∀ s, due (f s) = due s - 1) (k : Nat) (s : State) :
    due (times f k s) = due s - k := by
  induction k generalizing s with
  | zero => rfl
  | succ k ih =>
    show due (times f k (f s)) = _
    rw [ih, h]
    omega

theorem holds_due (held : List PinHold) (s : State) : (tickWork held s .holds).holdsDue = 0 :=
  (times_due (due := State.holdsDue) takeHoldTick_due _ _).trans (Nat.sub_self _)

theorem countHeld_only (s : State) (i : InputNo) : HeldOnly s (countHeld s i) := by
  unfold countHeld
  dsimp only
  split
  · split
    · refine ⟨?_, QuietBut.trans (t := s.setInput i _) (QuietBut.of_notices rfl) (QuietBut.raise _ _ (by decide))⟩
      unfold State.raise
      split <;> rfl
    · exact ⟨rfl, QuietBut.of_notices rfl⟩
  · exact ⟨rfl, QuietBut.refl s⟩

theorem foldl_countHeld_only (l : List InputNo) (s : State) : HeldOnly s (l.foldl countHeld s) := by
  induction l generalizing s with
  | nil => exact ⟨rfl, QuietBut.refl s⟩
  | cons i l ih => exact (countHeld_only s i).trans (ih _)

theorem takeHeldTick_only (s : State) : HeldOnly s (takeHeldTick s) := by
  unfold takeHeldTick
  split
  · exact ⟨rfl, QuietBut.refl s⟩
  · exact HeldOnly.trans (t := { s with heldDue := s.heldDue - 1 }) ⟨rfl, QuietBut.of_notices rfl⟩ (foldl_countHeld_only _ _)

theorem countHeld_due (s : State) (i : InputNo) : (countHeld s i).heldDue = s.heldDue := by
  unfold countHeld
  dsimp only
  split
  · split
    · exact State.raise_heldDue _ _ _
    · rfl
  · rfl

theorem foldl_countHeld_due (l : List InputNo) (s : State) : (l.foldl countHeld s).heldDue = s.heldDue := by
  induction l generalizing s with
  | nil => rfl
  | cons i l ih => exact (ih _).trans (countHeld_due s i)

theorem takeHeldTick_due (s : State) : (takeHeldTick s).heldDue = s.heldDue - 1 := by
  unfold takeHeldTick
  split
  · omega
  · exact foldl_countHeld_due _ _

theorem held_only (held : List PinHold) (s : State) : HeldOnly s (tickWork held s .held) :=
  times_rel (R := HeldOnly) (fun s => ⟨rfl, QuietBut.refl s⟩) (fun _ _ _ => HeldOnly.trans) takeHeldTick_only _ _

theorem held_due (held : List PinHold) (s : State) : (tickWork held s .held).heldDue = 0 :=
  (times_due (due := State.heldDue) takeHeldTick_due _ _).trans (Nat.sub_self _)

theorem quarantine_quiet (n : RecNo) (s : State) : QuietBut serviceKinds s (quarantine n s) := by
  have mark : ∀ u, QuietBut serviceKinds u (markQuarantined n u) := fun u => (markQuarantined_quiet n u).mono (by decide)
  unfold quarantine
  split
  · exact QuietBut.trans (t := withdraw n s)
      (QuietBut.trans (t := keepClaims (fun _ cl => cl.source != .record n) s) (QuietBut.of_notices rfl) (publish_serveWaiting_quiet _)) (mark _)
  · refine QuietBut.trans (t := removeWaiting n s) ?_ (mark _)
    unfold removeWaiting
    dsimp only
    split
    · exact QuietBut.trans (t := { s with waiting := s.waiting.filter fun m => m != n }) (QuietBut.of_notices rfl) (publish_serveWaiting_quiet _)
    · exact QuietBut.of_notices rfl
  · exact mark s
  · exact mark s
  · exact mark s
  · exact QuietBut.refl s
  · exact QuietBut.refl s

theorem checkRecord_quiet (n : RecNo) (s : State) : QuietBut serviceKinds s (checkRecord n s) := by
  unfold checkRecord
  split
  · exact QuietBut.refl s
  · exact quarantine_quiet n s

theorem checkRule_quiet (n : RuleNo) (s : State) : QuietBut [.ruleFault] s (checkRule n s) := by
  unfold checkRule
  split
  · exact QuietBut.trans (t := s.setRule n _) (QuietBut.of_notices rfl) (QuietBut.raise _ _ (by decide))
  · exact QuietBut.refl s

theorem scrubStep_only (s : State) : ScrubOnly s (scrubStep s) := by
  have last : ∀ u v, ScrubOnly s u → ScrubOnly s { u with scrub := v } := fun u v h =>
    h.trans ⟨rfl, rfl, rfl, rfl, QuietBut.of_notices rfl⟩
  unfold scrubStep
  refine last _ _ ?_
  split
  · have hq := (checkRecord_quiet ⟨s.scrub.val, by assumption⟩ s).mono (l' := .ruleFault :: serviceKinds) (by decide)
    obtain ⟨_, _, _, _, _, _, _, _, e⟩ := checkRecord_frame ⟨s.scrub.val, by assumption⟩ s
    refine ⟨?_, ?_, ?_, ?_, hq⟩ <;> rw [e]
  · have hq := (checkRule_quiet ⟨s.scrub.val - 96, by omega⟩ s).mono (l' := .ruleFault :: serviceKinds) (by decide)
    unfold checkRule at *
    split
    · rename_i h
      rw [if_pos h] at hq
      exact ⟨by simp, by simp, by simp, by simp, hq⟩
    · exact ⟨rfl, rfl, rfl, rfl, QuietBut.refl s⟩

theorem scrubStep_due (s : State) : (scrubStep s).scrubDue = s.scrubDue := by
  unfold scrubStep
  dsimp only
  split
  · obtain ⟨_, _, _, _, _, _, _, _, e⟩ := checkRecord_frame ⟨s.scrub.val, by assumption⟩ s
    rw [e]
  · unfold checkRule
    split
    · simp
    · rfl

theorem takeScrubTick_only (s : State) : ScrubOnly s (takeScrubTick s) := by
  unfold takeScrubTick
  split
  · exact ⟨rfl, rfl, rfl, rfl, QuietBut.refl s⟩
  · exact ScrubOnly.trans (t := { s with scrubDue := s.scrubDue - 1 }) ⟨rfl, rfl, rfl, rfl, QuietBut.of_notices rfl⟩ (scrubStep_only _)

theorem takeScrubTick_due (s : State) : (takeScrubTick s).scrubDue = s.scrubDue - 1 := by
  unfold takeScrubTick
  split
  · omega
  · exact scrubStep_due _

theorem scrub_only (held : List PinHold) (s : State) : ScrubOnly s (tickWork held s .scrub) :=
  times_rel (R := ScrubOnly) (fun s => ⟨rfl, rfl, rfl, rfl, QuietBut.refl s⟩) (fun _ _ _ => ScrubOnly.trans) takeScrubTick_only _ _

theorem scrub_due (held : List PinHold) (s : State) : (tickWork held s .scrub).scrubDue = 0 :=
  (times_due (due := State.scrubDue) takeScrubTick_due _ _).trans (Nat.sub_self _)

theorem compare_only (held : List PinHold) (c : Chan) (s : State) : CompareOnly c s (tickWork held s (.compare c)) := by
  show CompareOnly c s (takeCompareTick held c s)
  unfold takeCompareTick
  split
  · have hq := steadyCompare_quiet held c { s with compareDue := upd s.compareDue c false }
    obtain ⟨_, _, _, _, _, _, e⟩ := steadyCompare_frame held c { s with compareDue := upd s.compareDue c false }
    rw [e] at hq ⊢
    exact ⟨rfl, rfl, rfl, rfl, rfl, rfl, rfl, rfl, rfl, fun d hd => nth_upd_other _ _ hd, hq⟩
  · exact ⟨rfl, rfl, rfl, rfl, rfl, rfl, rfl, rfl, rfl, fun _ _ => rfl, QuietBut.refl s⟩

theorem compare_due (held : List PinHold) (c : Chan) (s : State) : nth (tickWork held s (.compare c)).compareDue c = false := by
  show nth (takeCompareTick held c s).compareDue c = false
  unfold takeCompareTick
  split
  · obtain ⟨_, _, _, _, _, _, e⟩ := steadyCompare_frame held c { s with compareDue := upd s.compareDue c false }
    rw [e]
    exact nth_upd_same _ _ _
  · simpa using ‹¬nth s.compareDue c = true›

/-! ### One piece among the others -/

/-- What no piece of a list touches stands. -/
theorem foldl_untouched {β : Type} (π : State → β) (held : List PinHold) {l : List TickWork} (h : ∀ w ∈ l, ∀ u, π (tickWork held u w) = π u)
    (s : State) : π (l.foldl (tickWork held) s) = π s := by
  induction l generalizing s with
  | nil => rfl
  | cons w l ih => exact (ih (fun w' hw => h w' (by simp [hw])) _).trans (h w (by simp) s)

/-- What one piece alone touches becomes what that piece makes of it, wherever the piece stands in the order. -/
theorem foldl_once {β : Type} (π : State → β) (F : β → β) (held : List PinHold) {l : List TickWork} {w : TickWork} (hw : w ∈ l) (hd : l.Nodup)
    (h : ∀ u, π (tickWork held u w) = F (π u)) (ho : ∀ w' ∈ l, w' ≠ w → ∀ u, π (tickWork held u w') = π u) (s : State) :
    π (l.foldl (tickWork held) s) = F (π s) := by
  induction l generalizing s with
  | nil => cases hw
  | cons a l ih =>
    obtain ⟨ha, hd⟩ := List.nodup_cons.mp hd
    rw [List.foldl_cons]
    by_cases e : a = w
    · subst e
      rw [foldl_untouched π held (fun w' hw' u => ho w' (by simp [hw']) (fun e => ha (e ▸ hw')) u), h]
    · have hwl : w ∈ l := by simpa [Ne.symm e] using hw
      rw [ih hwl hd (fun w' hw' => ho w' (by simp [hw'])), ho a (by simp) e]

/-- The notices that the work of a second tick can raise. -/
def tickKinds : List NoticeKind := .outputFault :: .inputStuck :: .ruleFault :: serviceKinds

theorem tickWork_quiet (held : List PinHold) (w : TickWork) (s : State) : QuietBut tickKinds s (tickWork held s w) := by
  cases w with
  | holds => exact (holds_only held s).2.2.2.2.2.2.mono (by decide)
  | held => exact (held_only held s).2.mono (by decide)
  | scrub => exact (scrub_only held s).2.2.2.2.mono (by decide)
  | compare c => exact (compare_only held c s).2.2.2.2.2.2.2.2.2.2.mono (by decide)

theorem tickWorks_quiet (held : List PinHold) (o : TickOrder) (s : State) : QuietBut tickKinds s (tickWorks held o s) := by
  unfold tickWorks
  split
  · exact QuietBut.foldl (fun u w => tickWork_quiet held w u) _ _
  · exact QuietBut.refl s

/-- What is due after the work of a tick: what was left for later is due as before, and nothing else is (log 5). -/
theorem tickWorks_due (held : List PinHold) (o : TickOrder) {s : State} (hp : s.mainPower = true) :
    (.held ∈ o.later → (tickWorks held o s).inputs = s.inputs ∧ (tickWorks held o s).heldDue = s.heldDue)
    ∧ (.held ∉ o.later → (tickWorks held o s).heldDue = 0)
    ∧ (.scrub ∈ o.later → (tickWorks held o s).scrub = s.scrub ∧ (tickWorks held o s).scrubDue = s.scrubDue ∧ (tickWorks held o s).rules = s.rules)
    ∧ (.scrub ∉ o.later → (tickWorks held o s).scrubDue = 0)
    ∧ (.holds ∈ o.later → (tickWorks held o s).holdsDue = s.holdsDue)
    ∧ (.holds ∉ o.later → (tickWorks held o s).holdsDue = 0)
    ∧ (∀ c, .compare c ∈ o.later → nth (tickWorks held o s).compareDue c = nth s.compareDue c)
    ∧ (∀ c, .compare c ∉ o.later → nth (tickWorks held o s).compareDue c = false) := by
  have e : tickWorks held o s = (workOrder o).foldl (tickWork held) s := if_pos hp
  rw [e]
  have hH : ∀ w, w ≠ .held → ∀ u, (tickWork held u w).inputs = u.inputs ∧ (tickWork held u w).heldDue = u.heldDue := by
    intro w hw u
    cases w with
    | holds => exact ⟨(holds_only held u).1, (holds_only held u).2.1⟩
    | held => exact absurd rfl hw
    | scrub => exact ⟨(scrub_only held u).1, (scrub_only held u).2.1⟩
    | compare c => exact ⟨(compare_only held c u).1, (compare_only held c u).2.1⟩
  have hS : ∀ w, w ≠ .scrub → ∀ u, (tickWork held u w).scrub = u.scrub ∧ (tickWork held u w).scrubDue = u.scrubDue ∧ (tickWork held u w).rules = u.rules := by
    intro w hw u
    cases w with
    | holds => have h := holds_only held u; exact ⟨h.2.2.2.1, h.2.2.2.2.1, h.2.2.1⟩
    | held => have h := (held_only held u).1; rw [h]; exact ⟨rfl, rfl, rfl⟩
    | scrub => exact absurd rfl hw
    | compare c => have h := compare_only held c u; exact ⟨h.2.2.2.2.1, h.2.2.2.2.2.1, h.2.2.2.1⟩
  have hD : ∀ w, w ≠ .holds → ∀ u, (tickWork held u w).holdsDue = u.holdsDue := by
    intro w hw u
    cases w with
    | holds => exact absurd rfl hw
    | held => have h := (held_only held u).1; rw [h]
    | scrub => exact (scrub_only held u).2.2.1
    | compare c => exact (compare_only held c u).2.2.1
  have hC : ∀ c w, w ≠ .compare c → ∀ u, nth (tickWork held u w).compareDue c = nth u.compareDue c := by
    intro c w hw u
    cases w with
    | holds => rw [(holds_only held u).2.2.2.2.2.1]
    | held => have h := (held_only held u).1; rw [h]
    | scrub => rw [(scrub_only held u).2.2.2.1]
    | compare d => exact (compare_only held d u).2.2.2.2.2.2.2.2.2.1 c (fun h => hw (by rw [h]))
  have hne : ∀ w w', w ∈ o.later → w' ∈ workOrder o → w' ≠ w := fun w w' h h' e => (mem_workOrder o w').mp h' (e ▸ h)
  refine ⟨fun h => ⟨?_, ?_⟩, fun h => ?_, fun h => ⟨?_, ?_, ?_⟩, fun h => ?_, fun h => ?_, fun h => ?_, fun c h => ?_, fun c h => ?_⟩
  · exact foldl_untouched State.inputs held (fun w hw u => (hH w (hne _ w h hw) u).1) s
  · exact foldl_untouched State.heldDue held (fun w hw u => (hH w (hne _ w h hw) u).2) s
  · exact foldl_once State.heldDue (fun _ => 0) held ((mem_workOrder o _).mpr h) (workOrder_nodup o) (fun u => held_due held u) (fun w _ hw u => (hH w hw u).2) s
  · exact foldl_untouched State.scrub held (fun w hw u => (hS w (hne _ w h hw) u).1) s
  · exact foldl_untouched State.scrubDue held (fun w hw u => (hS w (hne _ w h hw) u).2.1) s
  · exact foldl_untouched State.rules held (fun w hw u => (hS w (hne _ w h hw) u).2.2) s
  · exact foldl_once State.scrubDue (fun _ => 0) held ((mem_workOrder o _).mpr h) (workOrder_nodup o) (fun u => scrub_due held u) (fun w _ hw u => (hS w hw u).2.1) s
  · exact foldl_untouched State.holdsDue held (fun w hw u => hD w (hne _ w h hw) u) s
  · exact foldl_once State.holdsDue (fun _ => 0) held ((mem_workOrder o _).mpr h) (workOrder_nodup o) (fun u => holds_due held u) (fun w _ hw u => hD w hw u) s
  · exact foldl_untouched (fun u => nth u.compareDue c) held (fun w hw u => hC c w (hne _ w h hw) u) s
  · exact foldl_once (fun u => nth u.compareDue c) (fun _ => false) held ((mem_workOrder o _).mpr h) (workOrder_nodup o) (fun u => compare_due held c u) (fun w _ hw u => hC c w hw u) s

/-! ### The held counts -/

/-- An input counts a second tick (R108). -/
theorem countHeld_input (s : State) (i j : InputNo) :
    (countHeld s i).input j = if j = i then (s.input i).afterTick else s.input j := by
  have set : ∀ x, (s.setInput i x).input j = if j = i then x else s.input j := fun x => nth_upd _ _ _ _
  unfold countHeld Input.afterTick Config.stuckTicks
  dsimp only
  split
  · split
    · rw [State.raise_input, set]
    · exact set _
  · split
    · rename_i h; rw [h]
    · rfl

/-- An input reaches 120 at the next second tick (R108). -/
def reachesStuck (s : State) (i : InputNo) : Bool :=
  ((s.input i).state == .pressed || (s.input i).state == .longHeld) && decide (120 ≤ (s.input i).heldCount.getD 0 + 1)

theorem stuckAtTick_eq (s : State) : stuckAtTick s = (List.finRange 8).filter (reachesStuck s) := rfl

/-- An input that reaches 120 raises INPUT_STUCK, and no other does (R108). -/
theorem countHeld_notices {s : State} (h : s.mainPower = true) (i : InputNo) :
    (countHeld s i).notices = if reachesStuck s i then upd s.notices 8 ((s.notice .inputStuck).raised i.val) else s.notices := by
  unfold countHeld reachesStuck Config.stuckTicks
  dsimp only
  by_cases h1 : (s.input i).state = .pressed ∨ (s.input i).state = .longHeld
  · by_cases h2 : 120 ≤ (s.input i).heldCount.getD 0 + 1
    · rw [if_pos h1, if_pos h2, if_pos (by simp [h1, h2])]
      exact congrArg State.notices (State.raise_powered (s.setInput i _) .inputStuck i.val h)
    · rw [if_pos h1, if_neg h2, if_neg (by simp [h2])]
      rfl
  · rw [if_neg h1, if_neg (by simpa using fun h => absurd h h1)]

theorem reachesStuck_congr {s t : State} {i : InputNo} (h : t.input i = s.input i) : reachesStuck t i = reachesStuck s i := by
  unfold reachesStuck
  rw [h]

/-- The inputs of a list, each once, count a second tick: each is as after a tick. -/
theorem foldl_countHeld_input {l : List InputNo} (hl : l.Nodup) (s : State) (j : InputNo) :
    (l.foldl countHeld s).input j = if j ∈ l then (s.input j).afterTick else s.input j := by
  induction l generalizing s with
  | nil => rfl
  | cons i l ih =>
    obtain ⟨hi, hl⟩ := List.nodup_cons.mp hl
    rw [List.foldl_cons, ih hl, countHeld_input]
    by_cases e : j = i
    · subst e
      simp [hi]
    · simp [e]

/-- Those that reach 120 raise INPUT_STUCK in the order of the list. -/
theorem foldl_countHeld_notices {l : List InputNo} (hl : l.Nodup) {s : State} (h : s.mainPower = true) :
    (l.foldl countHeld s).notices =
      upd s.notices 8 ((s.notice .inputStuck).raisedFor ((l.filter (reachesStuck s)).map Fin.val)) := by
  induction l generalizing s with
  | nil => exact (upd_self s.notices 8).symm
  | cons i l ih =>
    obtain ⟨hi, hl⟩ := List.nodup_cons.mp hl
    have hf : l.filter (reachesStuck (countHeld s i)) = l.filter (reachesStuck s) :=
      List.filter_congr fun j hj => reachesStuck_congr (by
        rw [countHeld_input, if_neg]
        rintro rfl
        exact hi hj)
    have hn : (countHeld s i).notice .inputStuck =
        if reachesStuck s i then (s.notice .inputStuck).raised i.val else s.notice .inputStuck := by
      show nth (countHeld s i).notices 8 = _
      rw [countHeld_notices h]
      split
      · exact nth_upd_same _ _ _
      · rfl
    rw [List.foldl_cons, ih hl ((countHeld_frame s i).mainPower.trans h), hf, countHeld_notices h, List.filter_cons, hn]
    split
    · rw [upd_upd]
      rfl
    · rfl

/-- The input monitor takes a second tick (R108). -/
theorem heldTick_input (s : State) (i : InputNo) : (heldTick s).input i = (s.input i).afterTick :=
  (foldl_countHeld_input (List.nodup_finRange 8) s i).trans (if_pos (List.mem_finRange i))

theorem heldTick_notices {s : State} (h : s.mainPower = true) :
    (heldTick s).notices = upd s.notices 8 ((s.notice .inputStuck).raisedFor ((stuckAtTick s).map Fin.val)) :=
  foldl_countHeld_notices (List.nodup_finRange 8) h

end Sys2Proof.Machine
end

