-- ==== Sys2Proof/Laws/TickTable.lean ====
section
/-!
SUPPORT. What the work of a second tick makes of the records, the claim lists and the trigger rules while no record waits, in whatever order
it is done (R86, R159 to R163); and what it makes of a channel found FAULTED (R166).
-/

namespace Sys2Proof.Machine

/-! ### One piece, with nobody waiting -/

/-- A publication after a service that found nobody waiting leaves claims, records and list. -/
theorem publish_serveWaiting_nobody {s : State} (h : s.waiting = []) :
    (publish (serveWaiting s)).claims = s.claims ∧ (publish (serveWaiting s)).records = s.records
      ∧ (publish (serveWaiting s)).waiting = [] ∧ QuietBut demandKinds s (publish (serveWaiting s)) := by
  rw [serveWaiting_nobody h]
  have f := publish_frame s
  exact ⟨f.claims, f.records, f.waiting.trans h, publish_quiet s⟩

/-- The hold countdown with nobody waiting (R86). -/
theorem holdCountdown_nobody {s : State} (h : s.waiting = []) :
    (∀ ch, (holdCountdown s).claimList ch = (s.claimList ch).filterMap Claim.afterTick)
    ∧ (holdCountdown s).records = s.records ∧ (holdCountdown s).waiting = [] ∧ QuietBut demandKinds s (holdCountdown s) := by
  unfold holdCountdown
  dsimp only
  split
  · exact ⟨fun ch => by simp only [State.claimList, nth_tabulate]; rfl, rfl, h, QuietBut.of_notices rfl⟩
  · obtain ⟨h1, h2, h3, h4⟩ := publish_serveWaiting_nobody
      (s := { s with claims := tabulate fun c => (s.claimList c).filterMap countDown }) h
    refine ⟨fun ch => ?_, h2, h3, QuietBut.trans (t := { s with claims := tabulate fun c => (s.claimList c).filterMap countDown })
      (QuietBut.of_notices rfl) h4⟩
    exact (congrArg (nth · ch) h1).trans (nth_tabulate _ _)

/-- A check of a record with nobody waiting: a record that fails it is quarantined with RECORD_FAULT, and an OPEN one gives its claims up (R161). -/
theorem checkRecord_nobody (n : RecNo) {s : State} (h : s.waiting = []) :
    (∀ j, (checkRecord n s).record j = if j = n ∧ failsCheck (s.record n) = true then (s.record n).condemned else s.record j)
    ∧ (∀ ch, (checkRecord n s).claimList ch = if (s.record n).state = .opened ∧ failsCheck (s.record n) = true then
        (s.claimList ch).filter fun cl => cl.source != .record n else s.claimList ch)
    ∧ (checkRecord n s).waiting = []
    ∧ (s.mainPower = true → (checkRecord n s).notice .recordFault =
        if failsCheck (s.record n) then (s.notice .recordFault).raised n.val else s.notice .recordFault) := by
  have same : ∀ u, u = s → failsCheck (s.record n) = false →
      (∀ j, u.record j = if j = n ∧ failsCheck (s.record n) = true then (s.record n).condemned else s.record j)
      ∧ (∀ ch, u.claimList ch = if (s.record n).state = .opened ∧ failsCheck (s.record n) = true then
          (s.claimList ch).filter fun cl => cl.source != .record n else s.claimList ch)
      ∧ u.waiting = [] ∧ (s.mainPower = true → u.notice .recordFault =
          if failsCheck (s.record n) then (s.notice .recordFault).raised n.val else s.notice .recordFault) := by
    intro u hu hf
    subst hu
    simp [hf, h]
  have mark : ∀ u, (∀ j, u.record j = s.record j) → u.waiting = [] → u.mainPower = s.mainPower → u.notice .recordFault = s.notice .recordFault →
      failsCheck (s.record n) = true → (∀ ch, u.claimList ch = if (s.record n).state = .opened then
          (s.claimList ch).filter fun cl => cl.source != .record n else s.claimList ch) →
      (∀ j, (markQuarantined n u).record j = if j = n ∧ failsCheck (s.record n) = true then (s.record n).condemned else s.record j)
      ∧ (∀ ch, (markQuarantined n u).claimList ch = if (s.record n).state = .opened ∧ failsCheck (s.record n) = true then
          (s.claimList ch).filter fun cl => cl.source != .record n else s.claimList ch)
      ∧ (markQuarantined n u).waiting = [] ∧ (s.mainPower = true → (markQuarantined n u).notice .recordFault =
          if failsCheck (s.record n) then (s.notice .recordFault).raised n.val else s.notice .recordFault) := by
    intro u hr hw hm hn hf hc
    have e := markQuarantined_eq n u
    refine ⟨fun j => ?_, fun ch => ?_, ?_, fun hp => ?_⟩
    · rw [e]
      unfold State.record
      rw [nth_upd]
      by_cases hj : j = n
      · rw [if_pos hj, if_pos ⟨hj, hf⟩]
        exact congrArg Record.condemned (hr n)
      · rw [if_neg hj, if_neg fun x => hj x.1]
        exact hr j
    · rw [e]
      refine (hc ch).trans ?_
      simp only [hf, and_true]
    · rw [e]
      exact hw
    · rw [if_pos hf, ← hn]
      unfold markQuarantined
      exact raise_notice_same (s := u.setRecord n _) (hm.trans hp) _ _
  unfold checkRecord
  by_cases hs : recordSound (s.record n) = true
  · rw [if_pos hs]
    exact same s rfl (by simp [failsCheck, hs])
  · rw [if_neg hs]
    have hs' : recordSound (s.record n) = false := by simpa using hs
    have fails : (s.record n).state ≠ .free → (s.record n).state ≠ .quarantined → failsCheck (s.record n) = true := by
      intro h1 h2
      simp [failsCheck, hs', h1, h2]
    have cover : ∀ st : RecState, st = .free ∨ st = .quarantined ∨ st = .armed ∨ st = .suspended ∨ st = .spent ∨ st = .waiting ∨ st = .opened := by
      intro st; cases st <;> simp
    rcases cover (s.record n).state with hst | hst | hst | hst | hst | hst | hst
    · rw [(show quarantine n s = s from by simp only [quarantine, hst])]
      exact same s rfl (by simp [failsCheck, hst])
    · rw [(show quarantine n s = s from by simp only [quarantine, hst])]
      exact same s rfl (by simp [failsCheck, hst])
    · rw [(show quarantine n s = markQuarantined n s from by simp only [quarantine, hst])]
      exact mark s (fun _ => rfl) h rfl rfl (fails (by simp [hst]) (by simp [hst])) (fun _ => by rw [if_neg (by simp [hst])])
    · rw [(show quarantine n s = markQuarantined n s from by simp only [quarantine, hst])]
      exact mark s (fun _ => rfl) h rfl rfl (fails (by simp [hst]) (by simp [hst])) (fun _ => by rw [if_neg (by simp [hst])])
    · rw [(show quarantine n s = markQuarantined n s from by simp only [quarantine, hst])]
      exact mark s (fun _ => rfl) h rfl rfl (fails (by simp [hst]) (by simp [hst])) (fun _ => by rw [if_neg (by simp [hst])])
    · have e : removeWaiting n s = s := by
        rw [removeWaiting_behind (by simp [h]), show (s.waiting.filter fun m => m != n) = s.waiting from by rw [h]; rfl]
      rw [(show quarantine n s = markQuarantined n (removeWaiting n s) from by simp only [quarantine, hst]), e]
      exact mark s (fun _ => rfl) h rfl rfl (fails (by simp [hst]) (by simp [hst])) (fun _ => by rw [if_neg (by simp [hst])])
    · obtain ⟨h1, h2, h3, h4⟩ := publish_serveWaiting_nobody (s := keepClaims (fun _ cl => cl.source != .record n) s) h
      rw [(show quarantine n s = markQuarantined n (withdraw n s) from by simp only [quarantine, hst])]
      refine mark (withdraw n s) (fun j => ?_) h3 (withdraw_frame n s).mainPower (h4 _ (by decide))
        (fails (by simp [hst]) (by simp [hst])) (fun ch => ?_)
      · unfold State.record
        exact congrArg (nth · j) h2
      · rw [if_pos hst]
        refine (congrArg (nth · ch) h1).trans ?_
        exact keepClaims_claimList _ _ _

/-! ### The table after the whole work, with nobody waiting -/

/-- The records that a scrub step finds OPEN and failing their check: one at most, that at the scrub position. -/
def scrubFinds (s : State) : List RecNo :=
  (List.finRange 96).filter fun n => s.scrub.val == n.val && (s.record n).state == .opened && !recordSound (s.record n)

/-- The claim lists after a scrub step, when it is made. -/
def scrubClaims (made : Bool) (s : State) (l : List Claim) : List Claim :=
  l.filter fun cl => (if made then scrubFinds s else []).all fun n => cl.source != .record n

/-- The claim lists after a hold countdown, when it is made. -/
def holdClaims (made : Bool) (l : List Claim) : List Claim := l.filterMap fun cl => if made then cl.afterTick else some cl

/-- A record after a scrub step, when it is made. -/
def scrubRecord (made : Bool) (s : State) (n : RecNo) : Record :=
  if made = true ∧ s.scrub.val = n.val ∧ failsCheck (s.record n) = true then (s.record n).condemned else s.record n

/-- The entry of RECORD_FAULT after a scrub step, when it is made. -/
def scrubNotice (made : Bool) (s : State) : Notice :=
  if h : s.scrub.val < 96 then
    if made = true ∧ failsCheck (s.record ⟨s.scrub.val, h⟩) = true then (s.notice .recordFault).raised s.scrub.val else s.notice .recordFault
  else s.notice .recordFault

theorem scrub_congr {s t : State} (hs : t.scrub = s.scrub) (hr : ∀ n, t.record n = s.record n)
    (hn : t.notice .recordFault = s.notice .recordFault) (made : Bool) :
    (∀ n, scrubRecord made t n = scrubRecord made s n) ∧ (∀ l, scrubClaims made t l = scrubClaims made s l)
      ∧ scrubNotice made t = scrubNotice made s := by
  refine ⟨fun n => by unfold scrubRecord; rw [hs, hr], fun l => ?_, ?_⟩
  · have : scrubFinds t = scrubFinds s := by unfold scrubFinds; simp only [hs, hr]
    unfold scrubClaims
    rw [this]
  · unfold scrubNotice
    simp only [hs, hr, hn]

theorem scrubFinds_all {s : State} (cl : Claim) : ((scrubFinds s).all fun n => cl.source != .record n) = true ↔
    ∀ n : RecNo, s.scrub.val = n.val → (s.record n).state = .opened → recordSound (s.record n) = false → cl.source ≠ .record n := by
  simp only [scrubFinds, List.all_eq_true, List.mem_filter, List.mem_finRange, true_and, Bool.and_eq_true, beq_iff_eq, bne_iff_ne, ne_eq,
    Bool.not_eq_true', and_imp]

/-- The scrub step that is due, with nobody waiting (R159, R161). -/
theorem scrub_nobody (held : List PinHold) {s : State} (h : s.waiting = []) (hd : s.scrubDue = 1) :
    (∀ n, (tickWork held s .scrub).record n = scrubRecord true s n)
    ∧ (∀ ch, (tickWork held s .scrub).claimList ch = scrubClaims true s (s.claimList ch))
    ∧ (tickWork held s .scrub).waiting = []
    ∧ (s.mainPower = true → (tickWork held s .scrub).notice .recordFault = scrubNotice true s) := by
  have e : tickWork held s .scrub = scrubStep { s with scrubDue := 0 } := by
    show times takeScrubTick s.scrubDue s = _
    rw [hd]
    show takeScrubTick s = _
    unfold takeScrubTick
    rw [if_neg (by omega), hd]
  rw [e]
  unfold scrubStep
  dsimp only
  split
  · rename_i hlt
    have hn : ∀ n : RecNo, s.scrub.val = n.val ↔ n = ⟨s.scrub.val, hlt⟩ := fun n => by rw [Fin.ext_iff]; exact eq_comm
    obtain ⟨h1, h2, h3, h4⟩ := checkRecord_nobody (s := { s with scrubDue := 0 }) ⟨s.scrub.val, hlt⟩ h
    refine ⟨fun n => ?_, fun ch => ?_, h3, fun hp => ?_⟩
    · refine (h1 n).trans ?_
      unfold scrubRecord
      simp only [hn]
      split
      · rename_i hc
        obtain ⟨rfl, hc⟩ := hc
        rw [if_pos ⟨trivial, rfl, hc⟩]
        rfl
      · rename_i hc
        rw [if_neg]
        · rfl
        · rintro ⟨-, rfl, hx⟩
          exact hc ⟨rfl, hx⟩
    · refine (h2 ch).trans ?_
      have hall : ∀ cl : Claim, ((scrubFinds s).all fun n => cl.source != .record n) =
          !(decide ((s.record ⟨s.scrub.val, hlt⟩).state = .opened ∧ failsCheck (s.record ⟨s.scrub.val, hlt⟩) = true)
            && cl.source == .record ⟨s.scrub.val, hlt⟩) := by
        intro cl
        rw [Bool.eq_iff_iff, scrubFinds_all]
        simp only [hn, forall_eq, failsCheck, Bool.not_eq_true', Bool.and_eq_false_iff, decide_eq_false_iff_not, beq_eq_false_iff_ne, ne_eq,
          Bool.and_eq_true, bne_iff_ne]
        constructor
        · intro hx
          by_cases ho : (s.record ⟨s.scrub.val, hlt⟩).state = .opened ∧ recordSound (s.record ⟨s.scrub.val, hlt⟩) = false
          · exact Or.inr (hx ho.1 ho.2)
          · exact Or.inl fun hy => ho ⟨hy.1, hy.2.2⟩
        · rintro (hx | hx) h1 h2
          · exact absurd ⟨h1, ⟨by simp [h1], by simp [h1]⟩, h2⟩ hx
          · exact hx
      unfold scrubClaims
      simp only [if_true, hall]
      split
      · rename_i hc
        have hc' : (s.record ⟨s.scrub.val, hlt⟩).state = .opened ∧ failsCheck (s.record ⟨s.scrub.val, hlt⟩) = true := hc
        simp only [hc', and_self, decide_true, Bool.true_and]
        rfl
      · rename_i hc
        have hc' : ¬((s.record ⟨s.scrub.val, hlt⟩).state = .opened ∧ failsCheck (s.record ⟨s.scrub.val, hlt⟩) = true) := hc
        simp only [hc', decide_false, Bool.false_and, Bool.not_false]
        exact (List.filter_eq_self.mpr fun _ _ => rfl).symm
    · refine (h4 hp).trans ?_
      unfold scrubNotice
      simp only [hlt, dite_true, true_and]
      rfl
  · rename_i hge
    have hno : ∀ n : RecNo, s.scrub.val ≠ n.val := fun n => by omega
    have hk : ∀ r : RuleNo, ∀ u : State, (checkRule r u).records = u.records ∧ (checkRule r u).claims = u.claims
        ∧ (checkRule r u).waiting = u.waiting ∧ (checkRule r u).notice .recordFault = u.notice .recordFault := fun r u => by
      refine ⟨?_, ?_, ?_, checkRule_quiet r u _ (by decide)⟩ <;> (unfold checkRule; split <;> simp)
    obtain ⟨h1, h2, h3, h4⟩ := hk ⟨s.scrub.val - 96, by omega⟩ { s with scrubDue := 0 }
    refine ⟨fun n => ?_, fun ch => ?_, h3.trans h, fun _ => h4.trans ?_⟩
    · unfold scrubRecord
      rw [if_neg (by simp [hno])]
      exact congrArg (nth · n) h1
    · have hf : scrubFinds s = [] := by
        unfold scrubFinds
        rw [List.filter_eq_nil_iff]
        simp [hno]
      unfold scrubClaims
      simp only [if_true, hf, List.all_nil]
      exact (congrArg (nth · ch) h2).trans (List.filter_eq_self.mpr fun _ _ => rfl).symm
    · unfold scrubNotice
      rw [dif_neg hge]
      rfl

/-- The hold countdowns that are due, with nobody waiting (R86). -/
theorem holds_nobody (held : List PinHold) {s : State} (h : s.waiting = []) :
    (s.holdsDue = 1 → ∀ ch, (tickWork held s .holds).claimList ch = holdClaims true (s.claimList ch))
    ∧ (tickWork held s .holds).records = s.records ∧ (tickWork held s .holds).waiting = []
    ∧ (tickWork held s .holds).notice .recordFault = s.notice .recordFault := by
  refine ⟨fun hd => ?_, ?_⟩
  · have e : tickWork held s .holds = holdCountdown { s with holdsDue := 0 } := by
      show times takeHoldTick s.holdsDue s = _
      rw [hd]
      show takeHoldTick s = _
      unfold takeHoldTick
      rw [if_neg (by omega), hd]
    rw [e]
    exact (holdCountdown_nobody (s := { s with holdsDue := 0 }) h).1
  · show (times takeHoldTick s.holdsDue s).records = _ ∧ (times takeHoldTick s.holdsDue s).waiting = _
      ∧ (times takeHoldTick s.holdsDue s).notice .recordFault = _
    generalize s.holdsDue = k
    induction k generalizing s with
    | zero => exact ⟨rfl, h, rfl⟩
    | succ k ih =>
      have one : (takeHoldTick s).records = s.records ∧ (takeHoldTick s).waiting = []
          ∧ (takeHoldTick s).notice .recordFault = s.notice .recordFault := by
        unfold takeHoldTick
        split
        · exact ⟨rfl, h, rfl⟩
        · obtain ⟨-, h2, h3, h4⟩ := holdCountdown_nobody (s := { s with holdsDue := s.holdsDue - 1 }) h
          exact ⟨h2, h3, h4 _ (by decide)⟩
      obtain ⟨i1, i2, i3⟩ := ih one.2.1
      exact ⟨i1.trans one.1, i2, i3.trans one.2.2⟩

/-- A claim keeps its source through a countdown, so a countdown and a removal by source may be done in either order. -/
theorem filter_filterMap_afterTick (p : Source → Bool) (l : List Claim) :
    (l.filterMap Claim.afterTick).filter (fun cl => p cl.source) = (l.filter fun cl => p cl.source).filterMap Claim.afterTick := by
  have src : ∀ cl d : Claim, cl.afterTick = some d → d.source = cl.source := by
    intro cl d h
    unfold Claim.afterTick at h
    split at h
    · cases h; rfl
    · split at h
      · cases h
      · cases h; rfl
  induction l with
  | nil => rfl
  | cons a l ih =>
    cases ha : a.afterTick with
    | none =>
      rw [List.filterMap_cons_none ha, List.filter_cons]
      split
      · rw [List.filterMap_cons_none ha, ih]
      · exact ih
    | some d =>
      rw [List.filterMap_cons_some ha, List.filter_cons, List.filter_cons, src a d ha]
      split
      · rw [List.filterMap_cons_some ha, ih]
      · exact ih

/-- `t` has the table that the work of `l`, each piece once, leaves of that of `s`, with nobody waiting and one scrub step due: the claim lists
when one hold countdown is due. -/
def TableWorked (l : List TickWork) (s t : State) : Prop :=
  (∀ n, t.record n = scrubRecord (decide (.scrub ∈ l)) s n)
    ∧ ((.holds ∈ l → s.holdsDue = 1) →
        ∀ ch, t.claimList ch = holdClaims (decide (.holds ∈ l)) (scrubClaims (decide (.scrub ∈ l)) s (s.claimList ch)))
    ∧ t.waiting = []
    ∧ t.notice .recordFault = scrubNotice (decide (.scrub ∈ l)) s

/-- The work of a second tick, each piece at most once, with nobody waiting and one scrub step due: what becomes of the table does not depend on the
order. -/
theorem works_nobody (held : List PinHold) {l : List TickWork} (hl : l.Nodup) {s : State} (h : s.waiting = []) (hp : s.mainPower = true)
    (h1 : .scrub ∈ l → s.scrubDue = 1) : TableWorked l s (l.foldl (tickWork held) s) := by
  induction l generalizing s with
  | nil =>
    refine ⟨fun n => by simp [scrubRecord], fun _ ch => ?_, h, ?_⟩
    · simp [holdClaims, scrubClaims]
    · simp [scrubNotice]
  | cons w l ih =>
    obtain ⟨hw, hd⟩ := List.nodup_cons.mp hl
    have hp' : (tickWork held s w).mainPower = true := (tickWork_frame held s w).mainPower.trans hp
    rw [List.foldl_cons]
    have plain : w ≠ .holds → w ≠ .scrub → (tickWork held s w).records = s.records → (tickWork held s w).claims = s.claims →
        (tickWork held s w).waiting = s.waiting → (tickWork held s w).scrub = s.scrub → (tickWork held s w).scrubDue = s.scrubDue →
        (tickWork held s w).holdsDue = s.holdsDue → (tickWork held s w).notice .recordFault = s.notice .recordFault →
        TableWorked (w :: l) s (l.foldl (tickWork held) (tickWork held s w)) := by
      intro n1 n2 e1 e2 e3 e4 e5 e6 e7
      obtain ⟨i1, i2, i3, i4⟩ := ih hd (e3.trans h) hp' (fun hm => e5.trans (h1 (by simp [hm])))
      obtain ⟨c1, c2, c3⟩ := scrub_congr e4 (fun n => congrArg (nth · n) e1) e7 (decide (.scrub ∈ l))
      have m1 : decide (TickWork.scrub ∈ w :: l) = decide (TickWork.scrub ∈ l) := by simp [Ne.symm n2]
      have m2 : decide (TickWork.holds ∈ w :: l) = decide (TickWork.holds ∈ l) := by simp [Ne.symm n1]
      unfold TableWorked
      rw [m1, m2]
      refine ⟨fun n => (i1 n).trans (c1 n), fun h2 ch => (i2 (fun hm => e6.trans (h2 (by simp [hm]))) ch).trans ?_, i3, i4.trans c3⟩
      rw [c2, show (tickWork held s w).claimList ch = s.claimList ch from congrArg (nth · ch) e2]
    cases w with
    | held =>
      have x := (held_only held s)
      have y := x.1
      refine plain (by decide) (by decide) ?_ ?_ ?_ ?_ ?_ ?_ (x.2 _ (by decide)) <;> rw [y]
    | compare c =>
      obtain ⟨-, -, x3, -, x5, x6, x7, x8, x9, -, x11⟩ := compare_only held c s
      exact plain (by simp) (by simp) x7 x8 x9 x5 x6 x3 (x11 _ (by decide))
    | holds =>
      obtain ⟨y1, y2, y3, y4⟩ := holds_nobody held h
      obtain ⟨-, -, -, x4, x5, -, -⟩ := holds_only held s
      obtain ⟨i1, i2, i3, i4⟩ := ih hd y3 hp' (fun hm => x5.trans (h1 (by simp [hm])))
      obtain ⟨c1, c2, c3⟩ := scrub_congr x4 (fun n => congrArg (nth · n) y2) y4 (decide (.scrub ∈ l))
      have m1 : decide (TickWork.scrub ∈ TickWork.holds :: l) = decide (TickWork.scrub ∈ l) := by simp
      unfold TableWorked
      rw [m1]
      refine ⟨fun n => (i1 n).trans (c1 n), fun h2 ch => (i2 (fun hm => absurd hm hw) ch).trans ?_, i3, i4.trans c3⟩
      rw [c2, y1 (h2 (by simp))]
      simp only [hw, decide_false, List.mem_cons, true_or, decide_true]
      have f : ∀ l : List Claim, holdClaims false l = l := fun l => by simp [holdClaims]
      rw [f]
      exact filter_filterMap_afterTick (fun src => (if decide (TickWork.scrub ∈ l) = true then scrubFinds s else []).all fun n => src != .record n) _
    | scrub =>
      obtain ⟨y1, y2, y3, y4⟩ := scrub_nobody held h (h1 (by simp))
      obtain ⟨-, -, x3, -, -⟩ := scrub_only held s
      obtain ⟨i1, i2, i3, i4⟩ := ih hd y3 hp' (fun hm => absurd hm hw)
      have m2 : decide (TickWork.holds ∈ TickWork.scrub :: l) = decide (TickWork.holds ∈ l) := by simp
      unfold TableWorked
      rw [m2]
      simp only [hw, decide_false, List.mem_cons, true_or, decide_true] at i1 i2 i4 ⊢
      refine ⟨fun n => (i1 n).trans ?_, fun h2 ch => (i2 (fun hm => x3.trans (h2 (by simp [hm]))) ch).trans ?_, i3, i4.trans ?_⟩
      · rw [show scrubRecord false (tickWork held s .scrub) n = (tickWork held s .scrub).record n from by simp [scrubRecord], y1]
      · rw [y2]
        have f : ∀ l : List Claim, scrubClaims false (tickWork held s .scrub) l = l := fun l => by simp [scrubClaims]
        rw [f]
      · rw [show scrubNotice false (tickWork held s .scrub) = (tickWork held s .scrub).notice .recordFault from by simp [scrubNotice], y4 hp]

/-! ### The trigger rules -/

/-- The scrub step that is due: the position moves on, and the rule it stands at, when it fails its check, becomes FAULTED with RULE_FAULT
(R159, R163). -/
theorem scrub_rules (held : List PinHold) {s : State} (hd : s.scrubDue = 1) :
    (tickWork held s .scrub).scrub = s.scrub + 1
    ∧ (∀ r, (tickWork held s .scrub).rule r =
        if s.scrub.val = 96 + r.val ∧ ruleFailsCheck (s.rule r) = true then { s.rule r with state := .faulted } else s.rule r)
    ∧ (s.mainPower = true → ∀ r : RuleNo, s.scrub.val = 96 + r.val → (tickWork held s .scrub).notice .ruleFault =
        if ruleFailsCheck (s.rule r) then (s.notice .ruleFault).raised r.val else s.notice .ruleFault) := by
  have e : tickWork held s .scrub = scrubStep { s with scrubDue := 0 } := by
    show times takeScrubTick s.scrubDue s = _
    rw [hd]
    show takeScrubTick s = _
    unfold takeScrubTick
    rw [if_neg (by omega), hd]
  rw [e]
  unfold scrubStep
  dsimp only
  refine ⟨rfl, ?_⟩
  split
  · rename_i hlt
    have hno : ∀ r : RuleNo, s.scrub.val ≠ 96 + r.val := fun r => by omega
    refine ⟨fun r => ?_, fun _ r hr => absurd hr (hno r)⟩
    rw [if_neg fun x => hno r x.1]
    exact congrArg (nth · r) (checkRecord_frame ⟨s.scrub.val, hlt⟩ { s with scrubDue := 0 }).rules
  · have hr : ∀ r : RuleNo, s.scrub.val = 96 + r.val ↔ r = ⟨s.scrub.val - 96, by omega⟩ := fun r => by
      rw [Fin.ext_iff]
      dsimp only
      omega
    have fails : ∀ x : Rule, ruleFailsCheck x = true ↔ x.state = .active ∧ ruleSound x = false := fun x => by simp [ruleFailsCheck]
    have set : ∀ (u : State) (r j : RuleNo) x, (u.setRule r x).rule j = if j = r then x else u.rule j := fun _ _ _ _ => nth_upd _ _ _ _
    simp only [hr, fails]
    generalize (⟨s.scrub.val - 96, by omega⟩ : RuleNo) = n
    unfold checkRule
    split
    · rename_i hx
      replace hx : (s.rule n).state = .active ∧ ruleSound (s.rule n) = false := hx
      refine ⟨fun r => ?_, fun hp r e => ?_⟩
      · refine (congrArg (nth · r) (State.raise_rules _ _ _)).trans ((set _ _ _ _).trans ?_)
        by_cases hj : r = n
        · subst hj
          rw [if_pos rfl, if_pos ⟨rfl, hx⟩]
          rfl
        · rw [if_neg hj, if_neg fun x => hj x.1]
          rfl
      · subst e
        rw [if_pos hx]
        show (((State.setRule { s with scrubDue := 0 } r { s.rule r with state := .faulted }).raise .ruleFault r.val).notice .ruleFault) = _
        exact raise_notice_same (s := State.setRule { s with scrubDue := 0 } r { s.rule r with state := .faulted }) hp _ _
    · rename_i hx
      replace hx : ¬((s.rule n).state = .active ∧ ruleSound (s.rule n) = false) := hx
      refine ⟨fun r => ?_, fun hp r e => ?_⟩
      · rw [if_neg]
        · rfl
        · rintro ⟨rfl, h⟩
          exact hx h
      · subst e
        rw [if_neg hx]
        rfl

/-! ### The channels -/

theorem times_keeps {P : State → Prop} {f : State → State} (hf : ∀ s, P s → P (f s)) (k : Nat) {s : State} (h : P s) : P (times f k s) := by
  induction k generalizing s with
  | zero => exact h
  | succ k ih => exact ih (hf s h)

/-- A channel out of drive stays so through the work of a second tick (R166, R167). -/
theorem tickWork_outOfDrive {c : Chan} (held : List PinHold) (w : TickWork) {s : State} (h : OutOfDrive c s) :
    OutOfDrive c (tickWork held s w) := by
  cases w with
  | holds =>
    refine times_keeps (fun u hu => ?_) _ h
    unfold takeHoldTick
    split
    · exact hu
    · exact holdCountdown_outOfDrive (s := { u with holdsDue := _ }) hu
  | held =>
    refine h.of_channel ?_
    rw [(held_only held s).1]
    rfl
  | scrub =>
    refine times_keeps (fun u hu => ?_) _ h
    unfold takeScrubTick
    split
    · exact hu
    · unfold scrubStep
      dsimp only
      have hu' : OutOfDrive c { u with scrubDue := u.scrubDue - 1 } := hu
      split
      · unfold checkRecord
        split
        · exact hu'
        · exact quarantine_outOfDrive _ hu'
      · unfold checkRule
        split
        · refine hu'.of_channel ?_
          unfold State.raise
          split <;> rfl
        · exact hu'
  | compare d =>
    show OutOfDrive c (takeCompareTick held d s)
    unfold takeCompareTick
    split
    · exact steadyCompare_outOfDrive held d (s := { s with compareDue := _ }) h
    · exact h

/-- An entry of OUTPUT_FAULT once counted stays above 0 through the work of a second tick. -/
theorem tickWork_outputFault (held : List PinHold) (w : TickWork) {s : State} (h : (s.notice .outputFault).count ≠ 0) :
    ((tickWork held s w).notice .outputFault).count ≠ 0 := by
  have rs : ∀ (u : State) (d : Chan), (u.notice .outputFault).count ≠ 0 → ((faultChannel d u).notice .outputFault).count ≠ 0 := by
    intro u d hu
    unfold faultChannel
    dsimp only
    generalize hv : leavePool d (u.setChannel d _) = v
    have e : v.notice .outputFault = u.notice .outputFault := by
      rw [← hv, leavePool_quiet (l := []) d _ _ (by simp)]
      rfl
    by_cases hp : v.mainPower = true
    · rw [raise_notice_same hp, e]
      unfold Notice.raised
      dsimp only
      split
      · decide
      · bv_omega
    · unfold State.raise
      rw [if_neg hp, e]
      exact hu
  cases w with
  | holds => rw [(holds_only held s).2.2.2.2.2.2 _ (by decide)]; exact h
  | held => rw [(held_only held s).2 _ (by decide)]; exact h
  | scrub => rw [(scrub_only held s).2.2.2.2 _ (by decide)]; exact h
  | compare d =>
    show ((takeCompareTick held d s).notice .outputFault).count ≠ 0
    unfold takeCompareTick
    split
    · unfold steadyCompare
      split
      · split
        · exact h
        · unfold mismatch
          split
          · exact h
          · exact rs { s with compareDue := _, faultsDue := _ } d h
      · exact h
    · exact h

/-! ### A tick that finds nothing to act on -/

/-- `t` has the channels, generators, counters, records and rules of `s`, its power and configurations, and its notices but INPUT_STUCK. -/
def Untouched (s t : State) : Prop :=
  t.channels = s.channels ∧ t.generators = s.generators ∧ t.switches = s.switches ∧ t.records = s.records ∧ t.rules = s.rules
    ∧ t.channelConfigs = s.channelConfigs ∧ t.mainPower = s.mainPower ∧ QuietBut [.inputStuck] s t

theorem Untouched.refl (s : State) : Untouched s s := ⟨rfl, rfl, rfl, rfl, rfl, rfl, rfl, QuietBut.refl s⟩

theorem Untouched.trans {s t u : State} (h1 : Untouched s t) (h2 : Untouched t u) : Untouched s u := by
  obtain ⟨a1, a2, a3, a4, a5, a6, a7, a8⟩ := h1
  obtain ⟨b1, b2, b3, b4, b5, b6, b7, b8⟩ := h2
  exact ⟨b1.trans a1, b2.trans a2, b3.trans a3, b4.trans a4, b5.trans a5, b6.trans a6, b7.trans a7, a8.trans b8⟩

/-- What a readback depends on. -/
theorem readback_congr {s t : State} (held : List PinHold) (h1 : t.channels = s.channels) (h2 : t.generators = s.generators)
    (h3 : t.channelConfigs = s.channelConfigs) (h4 : t.mainPower = s.mainPower) (p : Pin) : readback held t p = readback held s p := by
  have hc : ∀ c, t.config c = s.config c := fun c => congrArg (nth · c) h3
  have hx : ∀ c, t.channel c = s.channel c := fun c => congrArg (nth · c) h1
  have hg : ∀ g, t.generator g = s.generator g := fun g => congrArg (nth · g) h2
  have ho : pinOwner t p = pinOwner s p := by unfold pinOwner; simp only [hc]
  have ha : ∀ c, pinAActive t c = pinAActive s c := fun c => by unfold pinAActive; simp only [hx, hg]
  have hb : ∀ c, pinBActive t c = pinBActive s c := fun c => by unfold pinBActive; simp only [hx]
  unfold readback pinHigh
  rw [h4, ho]
  simp only [hc, ha, hb]

/-- A hold countdown at which no hold reaches 0 changes the claims alone (R86). -/
theorem holdCountdown_none {s : State} (h : ∀ ch, ∀ cl ∈ s.claimList ch, cl.afterTick ≠ none) :
    holdCountdown s = { s with claims := tabulate fun c => (s.claimList c).filterMap countDown } := by
  have len : ∀ l : List Claim, (∀ cl ∈ l, cl.afterTick ≠ none) → (l.filterMap countDown).length = l.length := by
    intro l hl
    induction l with
    | nil => rfl
    | cons a l ih =>
      cases ha : countDown a with
      | none => exact absurd ha (hl a (by simp))
      | some d =>
        rw [List.filterMap_cons_some ha]
        simp [ih fun cl hm => hl cl (by simp [hm])]
  unfold holdCountdown
  dsimp only
  rw [if_pos]
  unfold claimTotal
  congr 1
  refine List.map_congr_left fun c _ => ?_
  rw [← len _ (h c)]
  simp only [State.claimList, nth_tabulate]

/-- The work of a tick that finds nothing to act on touches no channel, record or rule. -/
theorem works_untouched (held : List PinHold) {l : List TickWork} (hl : l.Nodup) {s : State}
    (h1 : .scrub ∈ l → s.scrubDue = 1 ∧ (∀ n : RecNo, s.scrub.val = n.val → failsCheck (s.record n) = false)
      ∧ ∀ r : RuleNo, s.scrub.val = 96 + r.val → ruleFailsCheck (s.rule r) = false)
    (h2 : .holds ∈ l → s.holdsDue = 1 ∧ ∀ ch, ∀ cl ∈ s.claimList ch, cl.afterTick ≠ none)
    (h3 : ∀ c h, (s.channel c).feedback = .watched h → readback held s (s.config c).pinA = h) :
    Untouched s (l.foldl (tickWork held) s) := by
  induction l generalizing s with
  | nil => exact Untouched.refl s
  | cons w l ih =>
    obtain ⟨hw, hd⟩ := List.nodup_cons.mp hl
    rw [List.foldl_cons]
    have h3' : ∀ t, Untouched s t → ∀ c h, (t.channel c).feedback = .watched h → readback held t (t.config c).pinA = h := by
      rintro t ⟨e1, e2, -, -, -, e6, e7, -⟩ c h hf
      rw [readback_congr held e1 e2 e6 e7, show t.config c = s.config c from congrArg (nth · c) e6]
      exact h3 c h ((congrArg (fun v => (nth v c).feedback) e1).symm.trans hf)
    cases w with
    | held =>
      have x := held_only held s
      have e : Untouched s (tickWork held s .held) := by
        rw [x.1] at *
        exact ⟨rfl, rfl, rfl, rfl, rfl, rfl, rfl, x.2⟩
      refine e.trans (ih hd (fun hm => ?_) (fun hm => ?_) (h3' _ e))
      · rw [x.1]
        exact h1 (by simp [hm])
      · rw [x.1]
        exact h2 (by simp [hm])
    | compare c =>
      have e : ∃ v, tickWork held s (.compare c) = { s with compareDue := v } := by
        show ∃ v, takeCompareTick held c s = _
        unfold takeCompareTick
        split
        · refine ⟨upd s.compareDue c false, ?_⟩
          unfold steadyCompare
          split
          · rename_i h hf
            exact if_pos (h3 c h hf)
          · rfl
        · exact ⟨s.compareDue, rfl⟩
      obtain ⟨v, e⟩ := e
      rw [e]
      have q : Untouched s { s with compareDue := v } := ⟨rfl, rfl, rfl, rfl, rfl, rfl, rfl, QuietBut.of_notices rfl⟩
      exact q.trans (ih hd (fun hm => h1 (by simp [hm])) (fun hm => h2 (by simp [hm])) (h3' _ q))
    | holds =>
      obtain ⟨hdue, hcl⟩ := h2 (by simp)
      have e : tickWork held s .holds = holdCountdown { s with holdsDue := 0 } := by
        show times takeHoldTick s.holdsDue s = _
        rw [hdue]
        show takeHoldTick s = _
        unfold takeHoldTick
        rw [if_neg (by omega), hdue]
      rw [e, holdCountdown_none (s := { s with holdsDue := 0 }) hcl]
      refine Untouched.trans (t := { s with holdsDue := 0, claims := tabulate fun c => (s.claimList c).filterMap countDown })
        ⟨rfl, rfl, rfl, rfl, rfl, rfl, rfl, QuietBut.of_notices rfl⟩ (ih hd (fun hm => h1 (by simp [hm])) (fun hm => absurd hm hw) ?_)
      exact h3' _ ⟨rfl, rfl, rfl, rfl, rfl, rfl, rfl, QuietBut.of_notices rfl⟩
    | scrub =>
      obtain ⟨hdue, hrec, hrule⟩ := h1 (by simp)
      have e : tickWork held s .scrub = { s with scrubDue := 0, scrub := s.scrub + 1 } := by
        show times takeScrubTick s.scrubDue s = _
        rw [hdue]
        show takeScrubTick s = _
        unfold takeScrubTick
        rw [if_neg (by omega), hdue]
        unfold scrubStep
        dsimp only
        split
        · rename_i hlt
          have hf := hrec ⟨s.scrub.val, hlt⟩ rfl
          have : checkRecord ⟨s.scrub.val, hlt⟩ { s with scrubDue := 1 - 1 } = { s with scrubDue := 0 } := by
            unfold checkRecord
            split
            · rfl
            · rename_i hs
              replace hs : ¬recordSound (s.record ⟨s.scrub.val, hlt⟩) = true := hs
              have hst : (s.record ⟨s.scrub.val, hlt⟩).state = .free ∨ (s.record ⟨s.scrub.val, hlt⟩).state = .quarantined := by
                cases hx : (s.record ⟨s.scrub.val, hlt⟩).state <;> simp_all [failsCheck]
              unfold quarantine
              rcases hst with hst | hst
              · rw [show (State.record { s with scrubDue := 1 - 1 } ⟨s.scrub.val, hlt⟩).state = .free from hst]
              · rw [show (State.record { s with scrubDue := 1 - 1 } ⟨s.scrub.val, hlt⟩).state = .quarantined from hst]
          rw [this]
        · rename_i hge
          have hf := hrule ⟨s.scrub.val - 96, by omega⟩ (by dsimp only; omega)
          have : checkRule ⟨s.scrub.val - 96, by omega⟩ { s with scrubDue := 1 - 1 } = { s with scrubDue := 0 } := by
            unfold checkRule
            rw [if_neg]
            intro hx
            replace hx : (s.rule ⟨s.scrub.val - 96, by omega⟩).state = .active ∧ ruleSound (s.rule ⟨s.scrub.val - 96, by omega⟩) = false := hx
            simp [ruleFailsCheck, hx.1, hx.2] at hf
          rw [this]
      rw [e]
      refine Untouched.trans (t := { s with scrubDue := 0, scrub := s.scrub + 1 })
        ⟨rfl, rfl, rfl, rfl, rfl, rfl, rfl, QuietBut.of_notices rfl⟩ (ih hd (fun hm => absurd hm hw) (fun hm => h2 (by simp [hm])) ?_)
      exact h3' _ ⟨rfl, rfl, rfl, rfl, rfl, rfl, rfl, QuietBut.of_notices rfl⟩

end Sys2Proof.Machine
end

