-- ==== Sys2Proof/Laws/Comparisons.lean ====
section
/-!
SUPPORT. The comparisons of a second tick, in whatever order its work is done, when nothing else of that work reaches a channel (R165, R166).
-/

namespace Sys2Proof.Machine

/-- A channel that a mismatch has faulted, and that held no generator (R166). -/
def Channel.mismatched (x : Channel) : Channel :=
  { x with condition := .faulted, drive := .inactive, link := .none, feedback := .unsupervised }

/-- No two channels name the pin that one of them has as pin A (R123). -/
def OwnPins (s : State) : Prop :=
  ∀ c d, (s.config d).pinA = (s.config c).pinA ∨ (s.config d).kind = .pulsed ∧ (s.config d).pinB = some (s.config c).pinA → d = c

theorem OwnPins.owner {s : State} (h : OwnPins s) (c : Chan) : pinOwner s (s.config c).pinA = some c := by
  unfold pinOwner
  cases hf : (List.finRange 24).find? fun d => (s.config d).namesPin (s.config c).pinA with
  | none =>
    have := List.find?_eq_none.mp hf c (List.mem_finRange c)
    simp [ChannelConfig.namesPin] at this
  | some d =>
    have hd := List.find?_some hf
    rw [h c d (by simpa [ChannelConfig.namesPin] using hd)]

/-- A readback depends on the channel of the pin alone, when the pins are distinct. -/
theorem readback_own {s t : State} (held : List PinHold) (h : OwnPins s) (c : Chan) (hx : t.channel c = s.channel c) (hg : t.generators = s.generators)
    (hk : t.channelConfigs = s.channelConfigs) (hp : t.mainPower = s.mainPower) :
    readback held t (t.config c).pinA = readback held s (s.config c).pinA := by
  have e : ∀ d, t.config d = s.config d := fun d => congrArg (nth · d) hk
  have ht : OwnPins t := by
    unfold OwnPins
    simp only [e]
    exact h
  have eg : ∀ g, t.generator g = s.generator g := fun g => congrArg (nth · g) hg
  unfold readback pinHigh
  rw [ht.owner, h.owner, hp]
  dsimp only
  rw [e]
  unfold pinAActive
  simp only [hx, eg, if_true]

/-- The fault of a channel that holds no generator reaches no other channel (R148, R166). -/
theorem faultChannel_unlinked {c : Chan} {v : State} (hl : ∀ g, (v.channel c).link ≠ .holding g) :
    faultChannel c v = (v.setChannel c (v.channel c).mismatched).raise .outputFault c.val := by
  obtain ⟨u, hu⟩ : ∃ u, u = v.setChannel c { v.channel c with condition := .faulted, feedback := .unsupervised, drive := .inactive } := ⟨_, rfl⟩
  have hlp : leavePool c u = u.setChannel c (v.channel c).mismatched := by
    have ul : (u.channel c).link = (v.channel c).link := by rw [hu, State.setChannel_channel_same]
    unfold leavePool
    cases hx : (u.channel c).link with
    | holding g => exact absurd (ul.symm.trans hx) (hl g)
    | waiting =>
      dsimp only
      unfold setLink
      rw [hu, State.setChannel_channel_same]
      rfl
    | none =>
      have : u.channel c = (v.channel c).mismatched := by
        rw [hx] at ul
        rw [hu, State.setChannel_channel_same]
        unfold Channel.mismatched
        rw [ul]
      rw [← this]
      unfold State.setChannel State.channel
      rw [upd_self]
  unfold faultChannel
  dsimp only
  rw [← hu, hlp, hu]
  unfold State.setChannel
  rw [upd_upd]

/-- Where a fault is due, or a settle comparison finds a mismatch, the fault is taken unless it is left (R154, R165). -/
theorem endSettle_fault {c : Chan} {readback : Bool} {s : State}
    (h : nth s.faultsDue c = true ∨ ∃ high ms, (s.channel c).feedback = .settling high ms ∧ readback ≠ high) :
    endSettle c readback false s = takeFault c s := by
  unfold endSettle
  by_cases hd : nth s.faultsDue c = true
  · rw [if_pos hd]
    rfl
  · obtain ⟨high, ms, hf, hr⟩ := h.resolve_left hd
    rw [if_neg hd]
    unfold settleCompare
    rw [hf]
    dsimp only
    rw [if_neg hr]
    rfl

/-- The comparison of one channel that has no generator (R165, R166). -/
theorem compare_step (held : List PinHold) (c : Chan) {s : State} (hp : s.mainPower = true)
    (hl : ∀ h g, (s.channel c).feedback = .watched h → (s.channel c).link ≠ .holding g) :
    ∃ x, (tickWork held s (.compare c)).channels = upd s.channels c x
      ∧ (tickWork held s (.compare c)).generators = s.generators
      ∧ (tickWork held s (.compare c)).channelConfigs = s.channelConfigs
      ∧ (tickWork held s (.compare c)).mainPower = s.mainPower
      ∧ ((∀ h, (s.channel c).feedback ≠ .watched h) ∨ nth s.compareDue c = false → x = s.channel c)
      ∧ ∀ h, (s.channel c).feedback = .watched h → nth s.compareDue c = true →
        (readback held s (s.config c).pinA = h → x = s.channel c)
        ∧ (readback held s (s.config c).pinA ≠ h → lateOn held (s.config c).pinA = false → x = (s.channel c).mismatched
          ∧ ((tickWork held s (.compare c)).notice .outputFault).count ≠ 0)
        ∧ (readback held s (s.config c).pinA ≠ h → lateOn held (s.config c).pinA = true → x = s.channel c
          ∧ nth (tickWork held s (.compare c)).faultsDue c = true) := by
  have same : ∀ u, u = s ∨ u = { s with compareDue := upd s.compareDue c false } → u.channels = upd s.channels c (s.channel c)
      ∧ u.generators = s.generators ∧ u.channelConfigs = s.channelConfigs ∧ u.mainPower = s.mainPower := by
    rintro u (rfl | rfl) <;> exact ⟨(upd_self _ _).symm, rfl, rfl, rfl⟩
  show ∃ x, (takeCompareTick held c s).channels = _ ∧ (takeCompareTick held c s).generators = _ ∧ (takeCompareTick held c s).channelConfigs = _
    ∧ (takeCompareTick held c s).mainPower = _ ∧ (_ ∨ _ → _) ∧ ∀ h, _ → _ → _ ∧ (_ → _ → _ ∧ ((takeCompareTick held c s).notice .outputFault).count ≠ 0)
      ∧ (_ → _ → _ ∧ nth (takeCompareTick held c s).faultsDue c = true)
  unfold takeCompareTick
  by_cases hd : nth s.compareDue c = true
  · rw [if_pos hd]
    obtain ⟨v, hv⟩ : ∃ v, v = ({ s with compareDue := upd s.compareDue c false } : State) := ⟨_, rfl⟩
    rw [← hv]
    have vx : v.channel c = s.channel c := by rw [hv]; rfl
    have vr : readback held v (v.config c).pinA = readback held s (s.config c).pinA := by
      rw [show v.config c = s.config c by rw [hv]; rfl]
      exact readback_congr held (by rw [hv]) (by rw [hv]) (by rw [hv]) (by rw [hv]) _
    have vk : v.config c = s.config c := by rw [hv]; rfl
    unfold steadyCompare
    rw [vx, vr, vk]
    cases hf : (s.channel c).feedback with
    | watched h =>
      dsimp only
      by_cases hr : readback held s (s.config c).pinA = h
      · rw [if_pos hr]
        obtain ⟨e1, e2, e3, e4⟩ := same v (.inr hv)
        exact ⟨_, e1, e2, e3, e4, fun _ => rfl, fun _ h1 _ => ⟨fun _ => rfl, fun h2 => absurd (by cases h1; exact hr) h2,
          fun h2 => absurd (by cases h1; exact hr) h2⟩⟩
      · rw [if_neg hr]
        unfold mismatch
        cases hlate : lateOn held (s.config c).pinA with
        | true =>
          rw [if_pos rfl, hv]
          exact ⟨s.channel c, (upd_self _ _).symm, rfl, rfl, rfl, fun _ => rfl, fun h' h1 _ => ⟨fun h2 => absurd (by cases h1; exact h2) hr,
            fun _ h3 => (by cases h3), fun _ _ => ⟨rfl, nth_upd_same _ _ _⟩⟩⟩
        | false =>
        rw [if_neg (by simp)]
        have ef : takeFault c v = ({ v with faultsDue := upd v.faultsDue c false }.setChannel c (s.channel c).mismatched).raise .outputFault c.val := by
          rw [← vx]
          exact faultChannel_unlinked (fun g hg => hl h g hf (by rw [← hg, ← vx]; rfl))
        rw [ef]
        refine ⟨(s.channel c).mismatched, ?_, ?_, ?_, ?_, ?_, fun h' h1 _ => ⟨fun h2 => absurd (by cases h1; exact h2) hr, fun _ _ => ⟨rfl, ?_⟩,
          fun _ h3 => by cases h3⟩⟩
        · rw [State.raise_channels, hv]
          rfl
        · rw [State.raise_generators, hv]
          rfl
        · rw [State.raise_channelConfigs, hv]
          rfl
        · rw [State.raise_mainPower, hv]
          rfl
        · rintro (h1 | h1)
          · exact absurd rfl (h1 h)
          · rw [hd] at h1; cases h1
        · rw [raise_notice_same (by rw [hv]; exact hp)]
          unfold Notice.raised
          dsimp only
          split
          · decide
          · bv_omega
    | unsupervised =>
      obtain ⟨e1, e2, e3, e4⟩ := same v (.inr hv)
      exact ⟨_, e1, e2, e3, e4, fun _ => rfl, fun _ h1 => by cases h1⟩
    | settling h n =>
      obtain ⟨e1, e2, e3, e4⟩ := same v (.inr hv)
      exact ⟨_, e1, e2, e3, e4, fun _ => rfl, fun _ h1 => by cases h1⟩
  · rw [if_neg hd]
    obtain ⟨e1, e2, e3, e4⟩ := same s (.inl rfl)
    exact ⟨_, e1, e2, e3, e4, fun _ => rfl, fun _ _ h2 => absurd h2 hd⟩

/-- The work of a tick other than the comparisons, when no hold runs out and the scrub finds no record at fault, leaves the channels, the
generators and the records, and the claims unless it counts holds down. -/
theorem tickWork_spares (held : List PinHold) {w : TickWork} (hw : ∀ c, w ≠ .compare c) {s : State}
    (h1 : w = .scrub → s.scrubDue = 1 ∧ ∀ n : RecNo, s.scrub.val = n.val → failsCheck (s.record n) = false)
    (h2 : w = .holds → s.holdsDue = 1 ∧ ∀ ch, ∀ cl ∈ s.claimList ch, cl.afterTick ≠ none) :
    (tickWork held s w).channels = s.channels ∧ (tickWork held s w).generators = s.generators ∧ (tickWork held s w).records = s.records
      ∧ (w ≠ .holds → (tickWork held s w).claims = s.claims) := by
  cases w with
  | held => rw [(held_only held s).1]; exact ⟨rfl, rfl, rfl, fun _ => rfl⟩
  | compare c => exact absurd rfl (hw c)
  | holds =>
    obtain ⟨hdue, hcl⟩ := h2 rfl
    have e : tickWork held s .holds = holdCountdown { s with holdsDue := 0 } := by
      show times takeHoldTick s.holdsDue s = _
      rw [hdue]
      show takeHoldTick s = _
      unfold takeHoldTick
      rw [if_neg (by omega), hdue]
    rw [e, holdCountdown_none (s := { s with holdsDue := 0 }) hcl]
    exact ⟨rfl, rfl, rfl, fun h => absurd rfl h⟩
  | scrub =>
    obtain ⟨hdue, hrec⟩ := h1 rfl
    have e : tickWork held s .scrub = scrubStep { s with scrubDue := 0 } := by
      show times takeScrubTick s.scrubDue s = _
      rw [hdue]
      show takeScrubTick s = _
      unfold takeScrubTick
      rw [if_neg (by omega), hdue]
    rw [e]
    unfold scrubStep
    dsimp only
    split
    · rename_i hlt
      have hf := hrec ⟨s.scrub.val, hlt⟩ rfl
      have : checkRecord ⟨s.scrub.val, hlt⟩ { s with scrubDue := 0 } = { s with scrubDue := 0 } := by
        unfold checkRecord
        split
        · rfl
        · rename_i hs
          replace hs : ¬recordSound (s.record ⟨s.scrub.val, hlt⟩) = true := hs
          have hst : (s.record ⟨s.scrub.val, hlt⟩).state = .free ∨ (s.record ⟨s.scrub.val, hlt⟩).state = .quarantined := by
            cases hx : (s.record ⟨s.scrub.val, hlt⟩).state <;> simp_all [failsCheck]
          unfold quarantine
          rcases hst with hst | hst
          · rw [show (State.record { s with scrubDue := 0 } ⟨s.scrub.val, hlt⟩).state = .free from hst]
          · rw [show (State.record { s with scrubDue := 0 } ⟨s.scrub.val, hlt⟩).state = .quarantined from hst]
      rw [this]
      exact ⟨rfl, rfl, rfl, fun _ => rfl⟩
    · unfold checkRule
      split
      · exact ⟨by rw [State.raise_channels]; rfl, by rw [State.raise_generators]; rfl, by rw [State.raise_records]; rfl,
          fun _ => by rw [State.raise_claims]; rfl⟩
      · exact ⟨rfl, rfl, rfl, fun _ => rfl⟩

/-- The work of a tick other than the comparison of a channel leaves its fault due, or not due (R166; log 35). -/
theorem tickWork_faultsDue (held : List PinHold) {w : TickWork} {c : Chan} (hw : w ≠ .compare c) (s : State) :
    nth (tickWork held s w).faultsDue c = nth s.faultsDue c := by
  have tf : ∀ {u v : State}, TableFrame u v → v.faultsDue = u.faultsDue := by
    rintro u v ⟨_, _, _, _, _, _, _, _, rfl⟩
    rfl
  cases w with
  | held => rw [(held_only held s).1]
  | holds =>
    refine times_keeps (P := fun u => nth u.faultsDue c = nth s.faultsDue c) (fun u hu => ?_) _ rfl
    unfold takeHoldTick
    split
    · exact hu
    · rw [tf (holdCountdown_frame _)]
      exact hu
  | scrub =>
    refine times_keeps (P := fun u => nth u.faultsDue c = nth s.faultsDue c) (fun u hu => ?_) _ rfl
    unfold takeScrubTick
    split
    · exact hu
    · unfold scrubStep
      dsimp only
      split
      · rw [tf (checkRecord_frame _ _)]
        exact hu
      · unfold checkRule
        split
        · rw [State.raise_faultsDue]
          exact hu
        · exact hu
  | compare d =>
    have hd : c ≠ d := fun e => hw (by rw [e])
    show nth (takeCompareTick held d s).faultsDue c = _
    unfold takeCompareTick
    split
    · unfold steadyCompare
      split
      · split
        · rfl
        · unfold mismatch
          split
          · exact nth_upd_other _ _ hd
          · obtain ⟨_, _, _, _, _, e⟩ := faultChannel_frame d { s with compareDue := upd s.compareDue d false, faultsDue := upd s.faultsDue d false }
            show nth (faultChannel d { s with compareDue := upd s.compareDue d false, faultsDue := upd s.faultsDue d false }).faultsDue c = _
            rw [e]
            exact nth_upd_other _ _ hd
      · rfl
    · rfl

/-- An entry of OUTPUT_FAULT once counted stays above 0. -/
theorem foldl_outputFault (held : List PinHold) (l : List TickWork) {s : State} (h : (s.notice .outputFault).count ≠ 0) :
    ((l.foldl (tickWork held) s).notice .outputFault).count ≠ 0 := by
  induction l generalizing s with
  | nil => exact h
  | cons w l ih => exact ih (tickWork_outputFault held w h)

/-- What the comparisons of the work `l` of a second tick make of each channel (R165, R166). -/
theorem works_compared (held : List PinHold) {l : List TickWork} (nd : l.Nodup) {s : State} (hp : s.mainPower = true)
    (h1 : .scrub ∈ l → s.scrubDue = 1 ∧ ∀ n : RecNo, s.scrub.val = n.val → failsCheck (s.record n) = false)
    (h2 : .holds ∈ l → s.holdsDue = 1 ∧ ∀ ch, ∀ cl ∈ s.claimList ch, cl.afterTick ≠ none)
    (own : OwnPins s) (hl : ∀ c h g, (s.channel c).feedback = .watched h → (s.channel c).link ≠ .holding g) (c : Chan) :
    ((∀ h, (s.channel c).feedback ≠ .watched h) → (l.foldl (tickWork held) s).channel c = s.channel c)
    ∧ ∀ h, (s.channel c).feedback = .watched h →
      (.compare c ∉ l ∨ nth s.compareDue c = false → (l.foldl (tickWork held) s).channel c = s.channel c)
      ∧ (.compare c ∈ l → nth s.compareDue c = true →
        (readback held s (s.config c).pinA = h → (l.foldl (tickWork held) s).channel c = s.channel c)
        ∧ (readback held s (s.config c).pinA ≠ h → lateOn held (s.config c).pinA = false →
          (l.foldl (tickWork held) s).channel c = (s.channel c).mismatched ∧ ((l.foldl (tickWork held) s).notice .outputFault).count ≠ 0)
        ∧ (readback held s (s.config c).pinA ≠ h → lateOn held (s.config c).pinA = true →
          (l.foldl (tickWork held) s).channel c = s.channel c ∧ nth (l.foldl (tickWork held) s).faultsDue c = true)) := by
  induction l generalizing s with
  | nil => exact ⟨fun _ => rfl, fun h _ => ⟨fun _ => rfl, fun hm => absurd hm (by simp)⟩⟩
  | cons w l ih =>
    obtain ⟨hw, hnd⟩ := List.nodup_cons.mp nd
    rw [List.foldl_cons]
    by_cases hc : ∃ d, w = .compare d
    · obtain ⟨d, rfl⟩ := hc
      obtain ⟨x, e1, e2, e3, e4, e5, e6⟩ := compare_step held d hp (hl d)
      have only := compare_only held d s
      obtain ⟨u, hu⟩ : ∃ u, u = tickWork held s (.compare d) := ⟨_, rfl⟩
      rw [← hu] at e1 e2 e3 e4 e6 only ⊢
      obtain ⟨-, -, o3, -, o5, o6, o7, o8, -, o10, -⟩ := only
      have ux : ∀ e, u.channel e = if e = d then x else s.channel e := fun e => by
        show nth u.channels e = _
        rw [e1, nth_upd]
        rfl
      have uk : ∀ e, u.config e = s.config e := fun e => congrArg (nth · e) e3
      have ur : ∀ n, u.record n = s.record n := fun n => congrArg (nth · n) o7
      have ul : ∀ n, u.claimList n = s.claimList n := fun n => congrArg (nth · n) o8
      have xcases : x = s.channel d ∨ x = (s.channel d).mismatched := by
        by_cases hd : nth s.compareDue d = true
        · cases hf : (s.channel d).feedback with
          | watched h =>
            by_cases hr : readback held s (s.config d).pinA = h
            · exact .inl ((e6 h hf hd).1 hr)
            · cases hla : lateOn held (s.config d).pinA with
              | false => exact .inr ((e6 h hf hd).2.1 hr hla).1
              | true => exact .inl ((e6 h hf hd).2.2 hr hla).1
          | unsupervised => exact .inl (e5 (.inl (by simp [hf])))
          | settling _ _ => exact .inl (e5 (.inl (by simp [hf])))
        · exact .inl (e5 (.inr (by simpa using hd)))
      have IH := ih hnd (s := u) (e4.trans hp)
        (fun hm => by
          obtain ⟨a, b⟩ := h1 (List.mem_cons_of_mem _ hm)
          exact ⟨o6.trans a, fun n hn => by rw [ur]; exact b n (by rw [← o5]; exact hn)⟩)
        (fun hm => by
          obtain ⟨a, b⟩ := h2 (List.mem_cons_of_mem _ hm)
          exact ⟨o3.trans a, fun ch cl hcl => b ch cl (by rw [← ul]; exact hcl)⟩)
        (by unfold OwnPins; simp only [uk]; exact own)
        (fun e h g hf => by
          rw [ux] at hf ⊢
          split at hf
          · rename_i he
            rw [if_pos he]
            rcases xcases with rfl | rfl
            · exact hl d h g hf
            · simp [Channel.mismatched]
          · rename_i he
            rw [if_neg he]
            exact hl e h g hf)
      by_cases he : c = d
      · subst he
        have uc : u.channel c = x := by rw [ux, if_pos rfl]
        have keep : u.channel c = s.channel c → (l.foldl (tickWork held) u).channel c = s.channel c := fun hx => by
          cases hf : (u.channel c).feedback with
          | watched h => exact ((IH.2 h hf).1 (.inl hw)).trans hx
          | unsupervised => exact (IH.1 (by simp [hf])).trans hx
          | settling _ _ => exact (IH.1 (by simp [hf])).trans hx
        refine ⟨fun hn => keep (uc.trans (e5 (.inl hn))), fun h hf => ⟨fun ho => ?_, fun _ hd => ⟨fun hr => ?_, fun hr hla => ?_, fun hr hla => ?_⟩⟩⟩
        · rcases ho with ho | ho
          · exact absurd List.mem_cons_self ho
          · exact keep (uc.trans (e5 (.inr ho)))
        · exact keep (uc.trans ((e6 h hf hd).1 hr))
        · obtain ⟨hx, hn⟩ := (e6 h hf hd).2.1 hr hla
          have hm : u.channel c = (s.channel c).mismatched := uc.trans hx
          refine ⟨(IH.1 (by rw [hm]; simp [Channel.mismatched])).trans hm, ?_⟩
          exact foldl_outputFault held l hn
        · obtain ⟨hx, hn⟩ := (e6 h hf hd).2.2 hr hla
          refine ⟨keep (uc.trans hx), ?_⟩
          rw [foldl_untouched (fun v => nth v.faultsDue c) held (fun w hm v => tickWork_faultsDue held (fun e => hw (e ▸ hm)) v) u]
          exact hn
      · have uc : u.channel c = s.channel c := by rw [ux, if_neg he]
        have ud : nth u.compareDue c = nth s.compareDue c := o10 c he
        have urb : readback held u (u.config c).pinA = readback held s (s.config c).pinA := readback_own held own c uc e2 e3 e4
        rw [uc, ud, urb, uk c] at IH
        refine ⟨IH.1, fun h hf => ⟨fun ho => (IH.2 h hf).1 (ho.imp_left fun hn hm => hn (List.mem_cons_of_mem _ hm)), fun hm => ?_⟩⟩
        refine (IH.2 h hf).2 ((List.mem_cons.mp hm).resolve_left ?_)
        rintro he'
        cases he'
        exact he rfl
    · have hnc : ∀ d, w ≠ .compare d := fun d h => hc ⟨d, h⟩
      obtain ⟨e1, e2, e3, e4⟩ := tickWork_spares held hnc (fun h => h1 (by simp [h])) (fun h => h2 (by simp [h]))
      have fr := tickWork_frame held s w
      have due : (tickWork held s w).compareDue = s.compareDue
          ∧ (.scrub ∈ l → (tickWork held s w).scrubDue = s.scrubDue ∧ (tickWork held s w).scrub = s.scrub)
          ∧ (.holds ∈ l → (tickWork held s w).holdsDue = s.holdsDue) := by
        cases w with
        | compare d => exact absurd rfl (hnc d)
        | held => rw [(held_only held s).1]; exact ⟨rfl, fun _ => ⟨rfl, rfl⟩, fun _ => rfl⟩
        | holds =>
          obtain ⟨-, -, -, a, b, d, -⟩ := holds_only held s
          exact ⟨d, fun _ => ⟨b, a⟩, fun hm => absurd hm hw⟩
        | scrub =>
          obtain ⟨-, -, a, d, -⟩ := scrub_only held s
          exact ⟨d, fun hm => absurd hm hw, fun _ => a⟩
      have hnh : .holds ∈ l → w ≠ .holds := fun hm h => hw (h ▸ hm)
      obtain ⟨u, hu⟩ : ∃ u, u = tickWork held s w := ⟨_, rfl⟩
      rw [← hu] at e1 e2 e3 e4 fr due ⊢
      have ux : ∀ e, u.channel e = s.channel e := fun e => congrArg (nth · e) e1
      have uk : ∀ e, u.config e = s.config e := fun e => congrArg (nth · e) fr.channelConfigs
      have ur : ∀ n, u.record n = s.record n := fun n => congrArg (nth · n) e3
      have IH := ih hnd (s := u) (fr.mainPower.trans hp)
        (fun hm => by
          obtain ⟨a, b⟩ := h1 (List.mem_cons_of_mem _ hm)
          exact ⟨(due.2.1 hm).1.trans a, fun n hn => by rw [ur]; exact b n (by rw [← (due.2.1 hm).2]; exact hn)⟩)
        (fun hm => by
          obtain ⟨a, b⟩ := h2 (List.mem_cons_of_mem _ hm)
          exact ⟨(due.2.2 hm).trans a, fun ch cl hcl => b ch cl (by
            rw [← show u.claimList ch = s.claimList ch from congrArg (nth · ch) (e4 (hnh hm))]; exact hcl)⟩)
        (by unfold OwnPins; simp only [uk]; exact own)
        (fun e h g hf => by rw [ux] at hf ⊢; exact hl e h g hf)
      rw [ux, readback_own held own c (ux c) e2 fr.channelConfigs fr.mainPower, due.1, uk c] at IH
      refine ⟨IH.1, fun h hf => ⟨fun ho => (IH.2 h hf).1 (ho.imp_left fun hn hm => hn (List.mem_cons_of_mem _ hm)), fun hm => ?_⟩⟩
      exact (IH.2 h hf).2 ((List.mem_cons.mp hm).resolve_left fun he => hnc c he.symm)

end Sys2Proof.Machine
end

