-- ==== Sys2Proof/Laws/Dates.lean ====
section
/-!
SUPPORT. The order of the dates (R1, R3): the day after and the day before a valid date, and that a valid date is told by its day number.
-/

namespace Sys2Proof.Machine

theorem validDate_iff (d : Date) :
    validDate d = true ↔ d.year ≤ 99 ∧ 1 ≤ d.month ∧ d.month ≤ 12 ∧ 1 ≤ d.day ∧ d.day ≤ monthLength d.year d.month := by
  simp [validDate, and_assoc]

theorem leap_eq (y : Nat) : leap y = decide (y % 4 = 0) := by simp [leap, beq_eq_decide]

theorem monthLength_bounds (y m : Nat) : 28 ≤ monthLength y m ∧ monthLength y m ≤ 31 := by
  unfold monthLength
  split
  · split <;> omega
  · split <;> omega

theorem daysBefore_succ (y : Nat) {m : Nat} (h : 1 ≤ m) : daysBefore y (m + 1) = daysBefore y m + monthLength y m := by
  obtain ⟨k, rfl⟩ := Nat.exists_eq_add_of_le' h
  rfl

theorem daysBefore_mono (y : Nat) {m k : Nat} (h : 1 ≤ m) (hk : m < k) : daysBefore y m + monthLength y m ≤ daysBefore y k := by
  induction k, hk using Nat.le_induction with
  | base => rw [daysBefore_succ y h]
  | succ k hk ih => rw [daysBefore_succ y (by omega)]; omega

theorem daysBefore_december (y : Nat) : daysBefore y 12 + 31 = if leap y then 366 else 365 := by
  simp only [daysBefore, monthLength]
  cases leap y <;> simp

/-- The days of a year up to the day before a date. -/
theorem yearDay_lt {d : Date} (h : validDate d = true) : daysBefore d.year d.month + (d.day - 1) < if leap d.year then 366 else 365 := by
  rw [validDate_iff] at h
  rw [← daysBefore_december]
  by_cases hm : d.month < 12
  · have := daysBefore_mono d.year h.2.1 hm
    omega
  · have : d.month = 12 := by omega
    have h31 : monthLength d.year 12 = 31 := rfl
    rw [this] at h ⊢
    rw [h31] at h
    omega

/-- A date that is earlier by year, month and day has a smaller day number. -/
theorem dayIndex_lt {d e : Date} (hd : validDate d = true) (he : validDate e = true)
    (h : d.year < e.year ∨ d.year = e.year ∧ (d.month < e.month ∨ d.month = e.month ∧ d.day < e.day)) : dayIndex d < dayIndex e := by
  have hy := yearDay_lt hd
  have hd' := (validDate_iff d).mp hd
  have he' := (validDate_iff e).mp he
  unfold dayIndex
  rcases h with h | ⟨hye, h | ⟨hm, h⟩⟩
  · rw [leap_eq] at hy
    simp only [decide_eq_true_eq] at hy
    split at hy <;> omega
  · have := daysBefore_mono d.year hd'.2.1 h
    rw [hye] at this hd' ⊢
    omega
  · rw [hm, hye]
    omega

/-- A valid date is told by its day number. -/
theorem dayIndex_injective {d e : Date} (hd : validDate d = true) (he : validDate e = true) (h : dayIndex d = dayIndex e) : d = e := by
  by_contra hne
  have : d.year ≠ e.year ∨ d.month ≠ e.month ∨ d.day ≠ e.day := by
    by_contra hall
    push Not at hall
    exact hne (by cases d; cases e; simp_all)
  by_cases hl : d.year < e.year ∨ d.year = e.year ∧ (d.month < e.month ∨ d.month = e.month ∧ d.day < e.day)
  · have := dayIndex_lt hd he hl
    omega
  · have := dayIndex_lt he hd (by omega)
    omega

theorem nextDate_spec {d e : Date} (hd : validDate d = true) (h : nextDate d = some e) : validDate e = true ∧ dayIndex e = dayIndex d + 1 := by
  have hv := (validDate_iff d).mp hd
  have hdec := daysBefore_december d.year
  unfold nextDate at h
  rw [validDate_iff]
  split at h
  · cases h
    exact ⟨by dsimp only; omega, by unfold dayIndex; dsimp only; omega⟩
  · split at h
    · cases h
      have := daysBefore_succ d.year hv.2.1
      have hl := monthLength_bounds d.year (d.month + 1)
      exact ⟨by dsimp only; omega, by unfold dayIndex; dsimp only; omega⟩
    · split at h
      · cases h
        have h12 : d.month = 12 := by omega
        have h31 : monthLength d.year 12 = 31 := rfl
        have h1 : monthLength (d.year + 1) 1 = 31 := rfl
        have h0 : daysBefore (d.year + 1) 1 = 0 := rfl
        rw [leap_eq] at hdec
        simp only [decide_eq_true_eq] at hdec
        refine ⟨by dsimp only; omega, ?_⟩
        unfold dayIndex
        dsimp only
        rename_i hday _ _
        rw [h12] at hv hday ⊢
        rw [h31] at hv hday
        rw [h0]
        split at hdec <;> omega
      · cases h

/-- Only the last date of the calendar has no day after it. -/
theorem nextDate_none {d : Date} (hd : validDate d = true) (h : nextDate d = none) : d = ⟨99, 12, 31⟩ := by
  have hv := (validDate_iff d).mp hd
  unfold nextDate at h
  split at h
  · cases h
  · split at h
    · cases h
    · split at h
      · cases h
      · have h12 : d.month = 12 := by omega
        have h31 : monthLength d.year 12 = 31 := rfl
        rename_i hday _ _
        rw [h12] at hv hday
        rw [h31] at hv hday
        obtain ⟨y, m, k⟩ := d
        simp only [Date.mk.injEq] at *
        omega

/-- No valid date lies after the last. -/
theorem dayIndex_le_last {d : Date} (hd : validDate d = true) : dayIndex d ≤ dayIndex ⟨99, 12, 31⟩ := by
  by_cases h : d = ⟨99, 12, 31⟩
  · rw [h]
  · have hv := (validDate_iff d).mp hd
    have hl := monthLength_bounds d.year d.month
    refine Nat.le_of_lt (dayIndex_lt hd (by decide) ?_)
    obtain ⟨y, m, k⟩ := d
    simp only [Date.mk.injEq] at *
    omega

theorem prevDate_spec {d e : Date} (hd : validDate d = true) (h : prevDate d = some e) : validDate e = true ∧ dayIndex d = dayIndex e + 1 := by
  have hv := (validDate_iff d).mp hd
  unfold prevDate at h
  rw [validDate_iff]
  split at h
  · cases h
    exact ⟨by dsimp only; omega, by unfold dayIndex; dsimp only; omega⟩
  · split at h
    · cases h
      have := daysBefore_succ d.year (m := d.month - 1) (by omega)
      rw [show d.month - 1 + 1 = d.month by omega] at this
      have hl := monthLength_bounds d.year (d.month - 1)
      exact ⟨by dsimp only; omega, by unfold dayIndex; dsimp only; omega⟩
    · split at h
      · cases h
        have hdec := daysBefore_december (d.year - 1)
        have h31 : monthLength (d.year - 1) 12 = 31 := rfl
        have h1 : d.month = 1 := by omega
        have h0 : daysBefore d.year 1 = 0 := rfl
        rw [leap_eq] at hdec
        simp only [decide_eq_true_eq] at hdec
        refine ⟨by dsimp only; omega, ?_⟩
        unfold dayIndex
        dsimp only
        rw [h1, h0]
        split at hdec <;> omega
      · cases h

/-- Only the first date of the calendar has no day before it. -/
theorem prevDate_none {d : Date} (hd : validDate d = true) (h : prevDate d = none) : dayIndex d = 0 := by
  have hv := (validDate_iff d).mp hd
  unfold prevDate at h
  split at h
  · cases h
  · split at h
    · cases h
    · split at h
      · cases h
      · have h1 : d.month = 1 := by omega
        have h0 : daysBefore d.year 1 = 0 := rfl
        unfold dayIndex
        rw [h1, h0]
        omega

/-- The valid dates from one on, by their day numbers. -/
theorem mem_datesFrom {k : Nat} {d e : Date} (hd : validDate d = true) :
    e ∈ datesFrom d k ↔ validDate e = true ∧ dayIndex d ≤ dayIndex e ∧ dayIndex e < dayIndex d + k := by
  induction k generalizing d with
  | zero => simp only [datesFrom, List.not_mem_nil, false_iff]; omega
  | succ k ih =>
    rw [datesFrom, List.mem_cons]
    have hin : e = d ↔ validDate e = true ∧ dayIndex e = dayIndex d :=
      ⟨fun h => by rw [h]; exact ⟨hd, rfl⟩, fun h => dayIndex_injective h.1 hd h.2⟩
    cases hn : nextDate d with
    | none =>
      rw [hin, Option.elim_none]
      have hlast := nextDate_none hd hn
      constructor
      · rintro (h | h)
        · exact ⟨h.1, by omega, by omega⟩
        · simp at h
      · rintro ⟨h1, h2, -⟩
        have := dayIndex_le_last h1
        rw [← hlast] at this
        exact Or.inl ⟨h1, by omega⟩
    | some f =>
      obtain ⟨hf, hi⟩ := nextDate_spec hd hn
      rw [hin, Option.elim_some, ih hf]
      constructor
      · rintro (h | h)
        · exact ⟨h.1, by omega, by omega⟩
        · exact ⟨h.1, by omega, by omega⟩
      · rintro ⟨h1, h2, h3⟩
        by_cases he : dayIndex e = dayIndex d
        · exact Or.inl ⟨h1, he⟩
        · exact Or.inr ⟨h1, by omega, by omega⟩

/-- The day before a date and the dates from it on, by their day numbers. -/
theorem mem_spanDates {d e : Date} (hd : validDate d = true) :
    e ∈ spanDates d ↔ validDate e = true ∧ dayIndex d ≤ dayIndex e + 1 ∧ dayIndex e < dayIndex d + 9 := by
  unfold spanDates
  rw [List.mem_append, mem_datesFrom hd]
  cases hp : prevDate d with
  | none =>
    have := prevDate_none hd hp
    simp only [Option.toList_none, List.not_mem_nil, false_or]
    exact and_congr_right fun _ => by omega
  | some f =>
    obtain ⟨hf, hi⟩ := prevDate_spec hd hp
    have hin : e = f ↔ validDate e = true ∧ dayIndex e = dayIndex f :=
      ⟨fun h => by rw [h]; exact ⟨hf, rfl⟩, fun h => dayIndex_injective h.1 hf h.2⟩
    simp only [Option.toList_some, List.mem_singleton]
    rw [hin]
    constructor
    · rintro (h | h)
      · exact ⟨h.1, by omega, by omega⟩
      · exact ⟨h.1, by omega, by omega⟩
    · rintro ⟨h1, h2, h3⟩
      by_cases he : dayIndex e = dayIndex f
      · exact Or.inl ⟨h1, he⟩
      · exact Or.inr ⟨h1, by omega, by omega⟩

end Sys2Proof.Machine
end

