-- ==== Sys2Proof/Laws/Demands.lean ====
section
/-!
SUPPORT. What a channel makes of a demand it takes: its switch counter, its drive, and its place at the generators (R127 to R133, R136, R146,
R149, R151, R152, R167).
-/

namespace Sys2Proof.Machine

/-- A report is that of a steady level (R164). -/
theorem report_steadyAt (f : Feedback) (h : Bool) : f.report h = f.steadyAt h := by
  cases f <;> simp [Feedback.report, Feedback.steadyAt, Feedback.commanded, Config.settleMs]

/-- What a channel makes of a demand it takes, said of the state before (R127 to R133, R136, R146, R149, R151, R152, R167). -/
theorem takeDemand_effect (w : State) (hp : w.mainPower = true) (c : Chan) (d : Demand) (k : ChannelConfig) (x y : Channel) (steady waits : Channel)
    (hk : k = w.config c) (hx : x = w.channel c) (hy : y = { x with present := d })
    (hs : steady = { y with
      drive := if d.level = 0 then .inactive else .active
      feedback := x.feedback.steadyAt ((d.level != 0) != k.activeLow) })
    (hw : waits = { y with
      link := .waiting
      drive := if k.kind = .switched ∨ 128 ≤ d.level.toNat then .active else .inactive
      feedback := x.feedback.steadyAt (decide (k.kind = .switched ∨ 128 ≤ d.level.toNat) != k.activeLow) })
    (t : State) (ht : t = takeDemand c d w) :
      (∀ j, j ≠ .switchWrap → j ≠ .genShort → t.notice j = w.notice j)
      ∧ (x.condition = .normal ∧ k.kind ≠ .pulsed ∧ x.present.level = 0 ∧ d.level ≠ 0 →
        ((w.switch c).count ≠ 9999 → t.switch c = { w.switch c with count := (w.switch c).count + 1 }
          ∧ t.notice .switchWrap = w.notice .switchWrap)
        ∧ ((w.switch c).count = 9999 → t.switch c = ⟨0, true⟩ ∧ t.notice .switchWrap = (w.notice .switchWrap).raised c.val))
      ∧ (¬ (x.condition = .normal ∧ k.kind ≠ .pulsed ∧ x.present.level = 0 ∧ d.level ≠ 0) →
        t.switch c = w.switch c ∧ t.notice .switchWrap = w.notice .switchWrap)
      ∧ (x.condition = .faulted → t.channel c = y ∧ t.generators = w.generators ∧ t.notice .genShort = w.notice .genShort)
      ∧ (x.condition = .normal → k.kind ≠ .pulsed → needs k.kind d = none → t.notice .genShort = w.notice .genShort
        ∧ (x.link = .none → t.channel c = steady ∧ t.generators = w.generators)
        ∧ (x.link = .waiting → t.channel c = { steady with link := .none } ∧ t.generators = w.generators)
        ∧ (∀ g r, x.link = .holding g → w.generator g = .busy r → t.channel c = y
          ∧ t.generators = upd w.generators g (.busy { r with releasing := true, staged := none })))
      ∧ (∀ p, x.condition = .normal → k.kind ≠ .pulsed → needs k.kind d = some p →
        (∀ g, x.link = .none → (∀ j : GenNo, j < g → w.generator j ≠ .free) → w.generator g = .free →
          t.channel c = { y with link := .holding g, drive := .generator, feedback := .unsupervised }
          ∧ t.generators = upd w.generators g (.busy ⟨false, c, p, none, 0, p.blink.map fun _ => 0⟩)
          ∧ t.notice .genShort = w.notice .genShort)
        ∧ (x.link = .none → (∀ g, w.generator g ≠ .free) → t.channel c = waits ∧ t.generators = w.generators
          ∧ t.notice .genShort = (w.notice .genShort).raised c.val)
        ∧ (x.link = .waiting → t.channel c = waits ∧ t.generators = w.generators ∧ t.notice .genShort = w.notice .genShort)
        ∧ (∀ g r, x.link = .holding g → w.generator g = .busy r → t.channel c = y
          ∧ t.generators = upd w.generators g (.busy { r with releasing := false, staged := some p })
          ∧ t.notice .genShort = w.notice .genShort))
      ∧ (∀ z, x.condition = .normal → k.kind = .pulsed →
        z = { y with pulse := some (.pulsing (d.level != 0)), pending := none, pulseTimer := some (k.pulseLength.toNat * 10), pulseCounts := true } →
        t.generators = w.generators ∧ t.notice .genShort = w.notice .genShort
        ∧ (x.pulse = some .unknown → t.channel c = z)
        ∧ (x.pulse = some .atOff → t.channel c = if d.level = 0 then y else z)
        ∧ (x.pulse = some .atOn → t.channel c = if d.level = 0 then z else y)
        ∧ (∀ on, x.pulse = some (.pulsing on) → t.channel c =
            { y with pending := if (d.level != 0) = on then none else some (d.level != 0) })) := by
  -- the demand is present, and counted when it rises from 0
  have hu : ∃ u, u = takePresent c d w ∧ u.channel c = y ∧ u.generators = w.generators ∧ u.channelConfigs = w.channelConfigs ∧ u.mainPower = true
      ∧ QuietBut [.switchWrap] w u
      ∧ (x.condition = .normal ∧ k.kind ≠ .pulsed ∧ x.present.level = 0 ∧ d.level ≠ 0 →
        ((w.switch c).count ≠ 9999 → u.switch c = { w.switch c with count := (w.switch c).count + 1 }
          ∧ u.notice .switchWrap = w.notice .switchWrap)
        ∧ ((w.switch c).count = 9999 → u.switch c = ⟨0, true⟩ ∧ u.notice .switchWrap = (w.notice .switchWrap).raised c.val))
      ∧ (¬ (x.condition = .normal ∧ k.kind ≠ .pulsed ∧ x.present.level = 0 ∧ d.level ≠ 0) →
        u.switch c = w.switch c ∧ u.notice .switchWrap = w.notice .switchWrap) := by
    refine ⟨_, rfl, ?_, ?_⟩
    · rw [takePresent_channel, hy, hx]
    have hcr : countsRise (w.config c).kind (w.channel c) d = true ↔ (x.condition = .normal ∧ k.kind ≠ .pulsed ∧ x.present.level = 0 ∧ d.level ≠ 0) := by
      rw [hx, hk]; simp [countsRise, Demand.on, and_assoc]
    unfold takePresent
    dsimp only
    by_cases hc : countsRise (w.config c).kind (w.channel c) d = true
    · rw [if_pos hc]
      unfold countSwitch
      dsimp only
      by_cases h9 : (w.switch c).count = 9999
      · have h9' : ((w.setChannel c { w.channel c with present := d }).switch c).count = 9999 := h9
        rw [if_pos h9']
        refine ⟨by simp, by simp, by simpa using hp, ?_, fun _ => ⟨fun h => absurd h9 h, fun _ => ⟨?_, ?_⟩⟩, fun h => absurd (hcr.mp hc) h⟩
        · exact QuietBut.trans (t := (w.setChannel c { w.channel c with present := d }).setSwitch c ⟨0, true⟩) (QuietBut.of_notices rfl) (QuietBut.raise _ _ (by decide))
        · rw [State.raise_switch]; exact nth_upd_same _ _ _
        · exact raise_notice_same (s := (w.setChannel c { w.channel c with present := d }).setSwitch c ⟨0, true⟩) hp _ _
      · have h9' : ¬((w.setChannel c { w.channel c with present := d }).switch c).count = 9999 := h9
        rw [if_neg h9']
        exact ⟨rfl, rfl, hp, QuietBut.of_notices rfl, fun _ => ⟨fun _ => ⟨nth_upd_same _ _ _, rfl⟩, fun h => absurd h h9⟩, fun h => absurd (hcr.mp hc) h⟩
    · rw [if_neg hc]
      exact ⟨rfl, rfl, hp, QuietBut.of_notices rfl, fun h => absurd (hcr.mpr h) hc, fun _ => ⟨rfl, rfl⟩⟩
  obtain ⟨u, hu, ux, ug, uc, um, uq, us1, us2⟩ := hu
  have htt : t = if x.condition = .normal then deriveDrive c false u else u := by rw [ht, hx, hu]; rfl
  have hcfg : u.config c = k := by rw [hk]; exact congrArg (nth · c) uc
  have hq : QuietBut [.genShort] u t ∧ t.switches = u.switches := by
    rw [htt]
    split
    · exact deriveDrive_counts _ _ _
    · exact ⟨QuietBut.refl _, rfl⟩
  have tsw : t.switch c = u.switch c := congrArg (nth · c) hq.2
  have tn : t.notice .switchWrap = u.notice .switchWrap := hq.1 _ (by decide)
  have ugs : u.notice .genShort = w.notice .genShort := uq _ (by decide)
  refine ⟨fun j h1 h2 => (hq.1 j (by simpa using h2)).trans (uq j (by simpa using h1)), by rw [tsw, tn]; exact us1,
    by rw [tsw, tn]; exact us2, fun hf => ?_, fun hn hkk hnd => ?_, fun p hn hkk hnd => ?_, fun z hn hkk hz => ?_⟩
  · rw [htt, if_neg (by simp [hf])]
    exact ⟨ux, ug, ugs⟩
  · rw [if_pos hn] at htt
    have e1 : deriveDrive c false u = deriveSteady c u := by
      unfold deriveDrive; rw [hcfg]; cases hkx : k.kind <;> simp_all
    have yl : y.link = x.link := by rw [hy]
    have yp : y.present = d := by rw [hy]
    have yf : y.feedback = x.feedback := by rw [hy]
    have set : ∀ (s : State) z, (s.setChannel c z).channel c = z := fun s z => (channel_setChannel _ _ _ _).trans (if_pos rfl)
    have hon : d.on = (d.level != 0) := rfl
    have st : ∀ v : State, v.config c = k → ∀ x' : Channel, v.channel c = x' → x'.feedback = x.feedback →
        (driveSteady c d.on v).channel c = { x' with
          drive := if d.level = 0 then .inactive else .active
          feedback := x.feedback.steadyAt ((d.level != 0) != k.activeLow) } := by
      intro v hv x' hx' hxf
      unfold driveSteady
      dsimp only
      rw [set, hx', hv, report_steadyAt, hxf, level, hon]
      by_cases h0 : d.level = 0 <;> simp [h0]
    have e2 : deriveSteady c u = match (none : Option Params), x.link with
      | some p, .none => requestGenerator c p u
      | some p, .holding g => stage g p u
      | some _, .waiting => driveSteady c (degradedOn k.kind d) u
      | none, .none => driveSteady c d.on u
      | none, .holding g => release g u
      | none, .waiting => driveSteady c d.on (setLink c .none u) := by
      unfold deriveSteady
      dsimp only
      cases hl : x.link <;> simp only [hcfg, ux, yp, hnd, yl.trans hl]
    rw [htt, e1, e2]
    refine ⟨?_, fun hl => ?_, fun hl => ?_, fun g r hl hg => ?_⟩
    · rw [← ugs]
      cases hl : x.link with
      | none => rfl
      | waiting => rfl
      | holding g => dsimp only; unfold release; split <;> rfl
    · rw [hl]; exact ⟨(st u hcfg y ux yf).trans hs.symm, ug⟩
    · rw [hl]
      refine ⟨(st (setLink c .none u) hcfg { y with link := .none } (by unfold setLink; rw [set, ux]) yf).trans ?_, ug⟩
      rw [hs]
    · rw [hl]
      dsimp only
      unfold release
      rw [show u.generator g = .busy r from (congrArg (nth · g) ug).trans hg]
      exact ⟨ux, congrArg (fun v => upd v g _) ug⟩
  · rw [if_pos hn] at htt
    have e1 : deriveDrive c false u = deriveSteady c u := by
      unfold deriveDrive; rw [hcfg]; cases hkx : k.kind <;> simp_all
    have yl : y.link = x.link := by rw [hy]
    have yp : y.present = d := by rw [hy]
    have yf : y.feedback = x.feedback := by rw [hy]
    have set : ∀ (s : State) z, (s.setChannel c z).channel c = z := fun s z => (channel_setChannel _ _ _ _).trans (if_pos rfl)
    have hdeg : degradedOn k.kind d = decide (k.kind = .switched ∨ 128 ≤ d.level.toNat) := by
      cases k with | mk a b c d e f g => cases a <;> simp_all [degradedOn]
    have st : ∀ v : State, v.config c = k → ∀ x' : Channel, v.channel c = x' → x'.feedback = x.feedback →
        (driveSteady c (degradedOn k.kind d) v).channel c = { x' with
          drive := if k.kind = .switched ∨ 128 ≤ d.level.toNat then .active else .inactive
          feedback := x.feedback.steadyAt (decide (k.kind = .switched ∨ 128 ≤ d.level.toNat) != k.activeLow) } := by
      intro v hv x' hx' hxf
      unfold driveSteady
      dsimp only
      rw [set, hx', hv, report_steadyAt, hxf, level, hdeg]
      by_cases h0 : k.kind = .switched ∨ 128 ≤ d.level.toNat <;> simp [h0]
    have e2 : deriveSteady c u = match (some p : Option Params), x.link with
      | some p, .none => requestGenerator c p u
      | some p, .holding g => stage g p u
      | some _, .waiting => driveSteady c (degradedOn k.kind d) u
      | none, .none => driveSteady c d.on u
      | none, .holding g => release g u
      | none, .waiting => driveSteady c d.on (setLink c .none u) := by
      unfold deriveSteady
      dsimp only
      cases hl : x.link <;> simp only [hcfg, ux, yp, hnd, yl.trans hl]
    have gu : ∀ g, u.generator g = w.generator g := fun g => congrArg (nth · g) ug
    rw [htt, e1, e2]
    refine ⟨fun g hl hlow hg => ?_, fun hl hg => ?_, fun hl => ?_, fun g r hl hg => ?_⟩
    · rw [hl]
      dsimp only
      have hfg : freeGenerator u = some g := by
        unfold freeGenerator
        refine (List.find?_eq_some_iff_getElem).mpr ⟨by rw [gu, hg]; rfl, g.val, by simp, by simp, fun j hj => ?_⟩
        have := hlow ⟨j, by omega⟩ hj
        simp only [List.getElem_finRange, Fin.cast_mk, Bool.not_eq_true', beq_eq_false_iff_ne]
        rw [gu]
        exact this
      unfold requestGenerator
      rw [hfg]
      refine ⟨?_, ?_, ugs⟩
      · unfold startGenerator
        dsimp only
        rw [set, show (u.setGenerator g _).channel c = y from ux]
      · exact congrArg (fun v => upd v g _) ug
    · rw [hl]
      dsimp only
      have hfg : freeGenerator u = none := by
        cases hf : freeGenerator u with
        | none => rfl
        | some g => exact absurd ((gu g).symm.trans (freeGenerator_some hf)) (hg g)
      unfold requestGenerator
      rw [hfg]
      dsimp only
      have e3 : (setLink c .waiting u).channel c = { y with link := .waiting } := by unfold setLink; rw [set, ux]
      rw [e3, show (setLink c .waiting u).config c = k from hcfg]
      dsimp only
      rw [yp]
      refine ⟨?_, ?_, ?_⟩
      · rw [State.raise_channel]
        refine (st (setLink c .waiting u) hcfg _ e3 yf).trans ?_
        rw [hw]
      · rw [State.raise_generators]; exact ug
      · rw [raise_notice_same (by exact um)]
        exact congrArg (Notice.raised · _) ugs
    · rw [hl]
      refine ⟨(st u hcfg y ux yf).trans ?_, ug, ugs⟩
      rw [hw]
      have : y.link = .waiting := yl.trans hl
      rw [← this]
    · rw [hl]
      dsimp only
      unfold stage
      rw [show u.generator g = .busy r from (gu g).trans hg]
      exact ⟨ux, congrArg (fun v => upd v g _) ug, ugs⟩
  · rw [if_pos hn] at htt
    have e1 : deriveDrive c false u = derivePulse c false u := by
      unfold deriveDrive; rw [hcfg, hkk]
    have yl : y.pulse = x.pulse := by rw [hy]
    have yp : y.present = d := by rw [hy]
    have set : ∀ (s : State) z, (s.setChannel c z).channel c = z := fun s z => (channel_setChannel _ _ _ _).trans (if_pos rfl)
    have hz' : z = { y with pulse := some (.pulsing (d.level != 0)), pending := none, pulseTimer := some (k.pulseLength.toNat * 10), pulseCounts := true } := hz
    have sp : (startPulse c (d.level != 0) true u).channel c = z := by
      unfold startPulse; rw [set, ux, hcfg, hz]
    have hon : d.on = (d.level != 0) := rfl
    rw [htt, e1]
    unfold derivePulse
    dsimp only
    rw [ux, yl, yp, hon]
    refine ⟨?_, ?_, fun h => ?_, fun h => ?_, fun h => ?_, fun on h => ?_⟩
    · split
      · exact ug
      · exact ug
      · split <;> exact ug
      · split <;> exact ug
      · exact ug
    · split
      · exact ugs
      · exact ugs
      · split <;> exact ugs
      · split <;> exact ugs
      · exact ugs
    · rw [h]; exact sp
    · rw [h]
      by_cases h0 : d.level = 0
      · simp [h0, ux]
      · have : (d.level != 0) = true := by simpa using h0
        simp only [this, if_true, if_neg h0]
        rw [this] at sp
        exact sp
    · rw [h]
      by_cases h0 : d.level = 0
      · have : (d.level != 0) = false := by simpa using h0
        simp only [this, if_pos h0, Bool.false_eq_true, if_false]
        rw [this] at sp
        exact sp
      · have : (d.level != 0) = true := by simpa using h0
        simp only [this, if_true, if_neg h0]
        exact ux
    · rw [h]
      exact set _ _

end Sys2Proof.Machine
end

