-- ==== Sys2Proof/Laws/Derivations.lean ====
section
/-!
SUPPORT. What a channel that has nothing at the generator pool derives from its present demand (R127 to R132, R146), and what it gives back when it
leaves the pool (R148, R153).
-/

namespace Sys2Proof.Machine

variable {c : Chan} {u : State} {k : ChannelConfig} {x : Channel}

theorem setChannel_twice (s : State) (c : Chan) (x y : Channel) : (s.setChannel c x).setChannel c y = s.setChannel c y := by
  unfold State.setChannel
  rw [upd_upd]

theorem driveSteady_eq (hk : u.config c = k) (hx : u.channel c = x) (on : Bool) : driveSteady c on u = u.setChannel c { x with
    drive := if on then .active else .inactive
    feedback := x.feedback.steadyAt (on != k.activeLow) } := by
  unfold driveSteady
  dsimp only
  rw [hx, hk, report_steadyAt]
  rfl

theorem deriveDrive_steady (hk : u.config c = k) (h : k.kind ≠ .pulsed) (b : Bool) : deriveDrive c b u = deriveSteady c u := by
  unfold deriveDrive
  rw [hk]
  cases hk : k.kind <;> simp_all

/-- A demand that needs no generator is driven steadily (R127 to R129). -/
theorem deriveDrive_plain (hk : u.config c = k) (hx : u.channel c = x) (h : k.kind ≠ .pulsed) (hl : x.link = .none) (b : Bool)
    (hn : needs k.kind x.present = none) : deriveDrive c b u = u.setChannel c { x with
      drive := if x.present.level = 0 then .inactive else .active
      feedback := x.feedback.steadyAt ((x.present.level != 0) != k.activeLow) } := by
  rw [deriveDrive_steady hk h]
  unfold deriveSteady
  simp only [hk, hx, hn, hl]
  rw [driveSteady_eq hk hx]
  unfold Demand.on
  by_cases h0 : x.present.level = 0 <;> simp [h0, hl]

/-- The lowest FREE generator is granted (R146). -/
theorem deriveDrive_granted (hk : u.config c = k) (hx : u.channel c = x) (h : k.kind ≠ .pulsed) (hl : x.link = .none) (b : Bool) {p : Params}
    (hn : needs k.kind x.present = some p) {g : GenNo} (hlow : ∀ j : GenNo, j < g → u.generator j ≠ .free) (hg : u.generator g = .free) :
    deriveDrive c b u = { u with
      generators := upd u.generators g (.busy ⟨false, c, p, none, 0, p.blink.map fun _ => 0⟩)
      channels := upd u.channels c { x with link := .holding g, drive := .generator, feedback := .unsupervised } } := by
  have hfg : freeGenerator u = some g := by
    unfold freeGenerator
    refine (List.find?_eq_some_iff_getElem).mpr ⟨by rw [hg]; rfl, g.val, by simp, by simp, fun j hj => ?_⟩
    have := hlow ⟨j, by omega⟩ hj
    simpa using this
  rw [deriveDrive_steady hk h]
  unfold deriveSteady
  simp only [hk, hx, hn, hl]
  unfold requestGenerator
  rw [hfg]
  unfold startGenerator
  dsimp only
  rw [show (u.setGenerator g _).channel c = x from hx]
  rfl

/-- With none FREE the channel waits at its degraded level, with GEN_SHORT (R130, R146). -/
theorem deriveDrive_waits (hk : u.config c = k) (hx : u.channel c = x) (h : k.kind ≠ .pulsed) (hl : x.link = .none) (b : Bool)
    (hn : needs k.kind x.present ≠ none) (hg : ∀ g, u.generator g ≠ .free) : deriveDrive c b u = (u.setChannel c { x with
      link := .waiting
      drive := if k.kind = .switched ∨ 128 ≤ x.present.level.toNat then .active else .inactive
      feedback := x.feedback.steadyAt (decide (k.kind = .switched ∨ 128 ≤ x.present.level.toNat) != k.activeLow) }).raise .genShort c.val := by
  have hfg : freeGenerator u = none := by
    cases hf : freeGenerator u with
    | none => rfl
    | some g => exact absurd (freeGenerator_some hf) (hg g)
  have hdeg : degradedOn k.kind x.present = decide (k.kind = .switched ∨ 128 ≤ x.present.level.toNat) := by
    cases hkk : k.kind <;> simp_all [degradedOn]
  obtain ⟨p, hp⟩ := Option.ne_none_iff_exists'.mp hn
  rw [deriveDrive_steady hk h]
  unfold deriveSteady
  simp only [hk, hx, hp, hl]
  unfold requestGenerator
  rw [hfg]
  dsimp only
  have e : (setLink c .waiting u).channel c = { x with link := .waiting } := by
    unfold setLink
    rw [hx]
    exact State.setChannel_channel_same _ _ _
  rw [driveSteady_eq (show (setLink c .waiting u).config c = k from hk) e, e, show (setLink c .waiting u).config c = k from hk]
  dsimp only
  rw [hdeg]
  unfold setLink
  rw [setChannel_twice]
  by_cases h0 : k.kind = .switched ∨ 128 ≤ x.present.level.toNat <;> simp [h0]

/-- A PULSED channel that is UNKNOWN starts a pulse (R132). -/
theorem deriveDrive_pulse (hk : u.config c = k) (hx : u.channel c = x) (h : k.kind = .pulsed) (hu : x.pulse = some .unknown) (b : Bool) :
    deriveDrive c b u = u.setChannel c { x with
      pulse := some (.pulsing (x.present.level != 0)), pending := none, pulseCounts := !b, pulseTimer := some (k.pulseLength.toNat * 10) } := by
  unfold deriveDrive
  rw [hk, h]
  dsimp only
  unfold derivePulse
  dsimp only
  rw [hx, hu]
  dsimp only
  unfold startPulse Demand.on
  rw [hx, hk]

/-! ### Leaving the pool -/

/-- The generators once a channel has left the pool: a held one is FREE, or runs for the first waiter (R148, R153). -/
def LeftPool (c : Chan) (s : State) (gs : Vector Generator 6) : Prop :=
  (s.channel c).link = .none ∧ gs = s.generators
    ∨ (s.channel c).link = .waiting ∧ gs = s.generators
    ∨ (∃ g, (s.channel c).link = .holding g ∧ waiters s = [] ∧ gs = upd s.generators g .free)
    ∨ ∃ g w others p, (s.channel c).link = .holding g ∧ waiters s = w :: others ∧ needs (s.config w).kind (s.channel w).present = some p
        ∧ gs = upd s.generators g (.busy ⟨false, w, p, none, 0, p.blink.map fun _ => 0⟩)

theorem waiters_congr {s t : State} (h1 : ∀ c, ((s.channel c).link = .waiting) ↔ (t.channel c).link = .waiting)
    (h2 : s.channelConfigs = t.channelConfigs) : waiters s = waiters t := by
  unfold waiters degraded
  congr 1
  funext p
  refine List.filter_congr fun c _ => ?_
  have hc : s.config c = t.config c := congrArg (nth · c) h2
  rw [hc]
  congr 1
  have := h1 c
  by_cases h : (s.channel c).link = .waiting <;> by_cases h' : (t.channel c).link = .waiting <;> simp_all

/-- Leaving the pool counts nothing and raises nothing. -/
theorem leavePool_counts (c : Chan) (s : State) : (leavePool c s).switches = s.switches ∧ (leavePool c s).notices = s.notices := by
  unfold leavePool grantNext
  split
  · exact ⟨rfl, rfl⟩
  · exact ⟨rfl, rfl⟩
  · split
    · exact ⟨rfl, rfl⟩
    · split <;> exact ⟨rfl, rfl⟩

/-- The channel, the generators and the others once a channel has left the pool (R148, R153). -/
theorem leavePool_effect (s : State) (c : Chan) :
    (leavePool c s).channel c = { s.channel c with link := .none }
    ∧ (∀ gs, LeftPool c s gs → (leavePool c s).generators = gs)
    ∧ (∀ g w others, (s.channel c).link = .holding g → waiters s = w :: others → needs (s.config w).kind (s.channel w).present ≠ none →
        (leavePool c s).channel w = { s.channel w with link := .holding g, drive := .generator, feedback := .unsupervised })
    ∧ (∀ e, e ≠ c → ((s.channel c).link = .none ∨ (s.channel c).link = .waiting ∨ (waiters s).head? ≠ some e) →
        (leavePool c s).channel e = s.channel e) := by
  unfold LeftPool
  cases hl : (s.channel c).link with
  | none =>
    have e : leavePool c s = s := by unfold leavePool; rw [hl]
    rw [e]
    refine ⟨by rw [← hl], ?_, by simp, fun _ _ _ => rfl⟩
    rintro gs (⟨-, rfl⟩ | ⟨h, -⟩ | ⟨_, h, -⟩ | ⟨_, _, _, _, h, -⟩)
    · rfl
    all_goals cases h
  | waiting =>
    have e : leavePool c s = setLink c .none s := by unfold leavePool; rw [hl]
    rw [e]
    refine ⟨State.setChannel_channel_same _ _ _, ?_, by simp, fun e he _ => State.setChannel_channel_other _ _ he⟩
    rintro gs (⟨h, -⟩ | ⟨-, rfl⟩ | ⟨_, h, -⟩ | ⟨_, _, _, _, h, -⟩)
    · cases h
    · rfl
    all_goals cases h
  | holding g =>
    obtain ⟨v, hv⟩ : ∃ v, v = (setLink c .none s).setGenerator g .free := ⟨_, rfl⟩
    have e : leavePool c s = grantNext g v := by unfold leavePool; rw [hl, hv]
    have vc : v.channel c = { s.channel c with link := .none } := by rw [hv]; exact State.setChannel_channel_same _ _ _
    have vo : ∀ e, e ≠ c → v.channel e = s.channel e := fun e he => by rw [hv]; exact State.setChannel_channel_other _ _ he
    have vk : v.channelConfigs = s.channelConfigs := by rw [hv]; rfl
    have vg : v.generators = upd s.generators g .free := by rw [hv]; rfl
    have vw : waiters v = waiters s := waiters_congr (fun e => by
      by_cases he : e = c
      · subst he; rw [vc, hl]; simp
      · rw [vo e he]) vk
    rw [e]
    cases hw : waiters s with
    | nil =>
      have e2 : grantNext g v = v := by unfold grantNext; rw [vw, hw]
      rw [e2]
      refine ⟨vc, ?_, by simp, fun e he _ => vo e he⟩
      rintro gs (⟨h, -⟩ | ⟨h, -⟩ | ⟨g', h, -, rfl⟩ | ⟨_, _, _, _, -, h, -⟩)
      · cases h
      · cases h
      · cases h; exact vg
      · cases h
    | cons w others =>
      have hwl : (s.channel w).link = .waiting := mem_waiters.mp (hw ▸ List.mem_cons_self)
      have hwc : w ≠ c := by rintro rfl; rw [hl] at hwl; cases hwl
      have vwc : v.config w = s.config w := congrArg (nth · w) vk
      cases hn : needs (s.config w).kind (s.channel w).present with
      | none =>
        have e2 : grantNext g v = v := by unfold grantNext; rw [vw, hw]; simp only [vwc, vo w hwc, hn]
        rw [e2]
        refine ⟨vc, ?_, ?_, fun e he _ => vo e he⟩
        · rintro gs (⟨h, -⟩ | ⟨h, -⟩ | ⟨_, -, h, -⟩ | ⟨_, w', _, p, -, h1, h2, -⟩)
          · cases h
          · cases h
          · cases h
          · cases h1; rw [hn] at h2; cases h2
        · intro g' w' others' _ h1 h2
          cases h1
          exact absurd hn h2
      | some p =>
        have e2 : grantNext g v = startGenerator g w p v := by unfold grantNext; rw [vw, hw]; simp only [vwc, vo w hwc, hn]
        rw [e2]
        have so : ∀ e, e ≠ w → (startGenerator g w p v).channel e = v.channel e := fun e he => (State.setChannel_channel_other _ _ he)
        refine ⟨(so c (Ne.symm hwc)).trans vc, ?_, ?_, fun e he hh => ?_⟩
        · rintro gs (⟨h, -⟩ | ⟨h, -⟩ | ⟨_, -, h, -⟩ | ⟨g', w', _, p', h0, h1, h2, rfl⟩)
          · cases h
          · cases h
          · cases h
          · cases h0; cases h1; rw [hn] at h2; cases h2
            show upd v.generators g _ = _
            rw [vg, upd_upd]
        · intro g' w' others' h0 h1 _
          cases h0; cases h1
          refine (State.setChannel_channel_same _ _ _).trans ?_
          rw [show (v.setGenerator g _).channel w = s.channel w from vo w hwc]
        · have hew : e ≠ w := by
            rintro rfl
            rcases hh with h | h | h
            · cases h
            · cases h
            · exact h rfl
          exact (so e hew).trans (vo e he)

end Sys2Proof.Machine
end

