-- ==== Sys2Proof/Laws/Operands.lean ====
section
/-!
SUPPORT. The digit check (R178 order 3): a field that reads as a number, a time, a date, a channel or a channel set holds hexadecimal digits
alone; a line whose fields do passes the check of every command.
-/

namespace Sys2Proof.Machine

/-- A field of hexadecimal digits alone. -/
def allHex (f : Text) : Prop := ∀ b ∈ f, isHex b = true

theorem hexRun_allHex {acc v : Nat} {f : Text} (h : hexRun acc f = some v) : allHex f := by
  induction f generalizing acc with
  | nil => intro b hb; cases hb
  | cons b rest ih =>
    unfold hexRun at h
    cases hv : hexVal b with
    | none => simp [hv] at h
    | some x =>
      rw [hv, Option.bind_some] at h
      intro c hc
      rcases List.mem_cons.mp hc with rfl | hc
      · simp [isHex, hv]
      · exact ih h c hc

theorem number_allHex {m v : Nat} {f : Text} (h : number m f = some v) : allHex f := by
  unfold number at h
  split at h
  · exact hexRun_allHex (Option.filter_eq_some_iff.mp h).1
  · cases h

theorem number_le {m v : Nat} {f : Text} (h : number m f = some v) : v ≤ m := by
  unfold number at h
  split at h
  · simpa using (Option.filter_eq_some_iff.mp h).2
  · cases h

theorem fixedNumber_allHex {w m v : Nat} {f : Text} (h : fixedNumber w m f = some v) : allHex f := by
  unfold fixedNumber at h
  split at h
  · exact number_allHex h
  · cases h

theorem twoDigits_allHex {m v : Nat} {f : Text} (h : twoDigits m f = some v) : allHex f := fixedNumber_allHex h

theorem map_allHex {α : Type} {o : Option Nat} {g : Nat → α} {f : Text} {x : α} (hf : ∀ v, o = some v → allHex f)
    (h : o.map g = some x) : allHex f := by
  cases ho : o with
  | none => simp [ho] at h
  | some v => exact hf v ho

theorem recordNumber_allHex {f : Text} {n : RecNo} (h : recordNumber f = some n) : allHex f := map_allHex (fun _ => number_allHex) h
theorem channelNumber_allHex {f : Text} {c : Chan} (h : channelNumber f = some c) : allHex f := map_allHex (fun _ => twoDigits_allHex) h
theorem priorityField_allHex {f : Text} {p : Fin 4} (h : priorityField f = some p) : allHex f := map_allHex (fun _ => number_allHex) h
theorem levelField_allHex {f : Text} {l : BitVec 8} (h : levelField f = some l) : allHex f := map_allHex (fun _ => number_allHex) h
theorem inputNumber_allHex {f : Text} {i : InputNo} (h : inputNumber f = some i) : allHex f := map_allHex (fun _ => number_allHex) h
theorem ruleNumber_allHex {f : Text} {r : RuleNo} (h : ruleNumber f = some r) : allHex f := map_allHex (fun _ => number_allHex) h
theorem plainChannel_allHex {f : Text} {c : Chan} (h : plainChannel f = some c) : allHex f := map_allHex (fun _ => number_allHex) h
theorem channelSetField_allHex {f : Text} {m : BitVec 24} (h : channelSetField f = some m) : allHex f :=
  map_allHex (fun _ => fixedNumber_allHex) h
theorem word16_allHex {f : Text} {w : BitVec 16} (h : word16 f = some w) : allHex f := map_allHex (fun _ => fixedNumber_allHex) h

theorem rangeField_allHex {a b v : Nat} {f : Text} (h : rangeField a b f = some v) : allHex f :=
  number_allHex (Option.filter_eq_some_iff.mp h).1

theorem timeField_allHex {f : Text} {w : BitVec 16} (h : timeField f = some w) : allHex f :=
  word16_allHex (Option.filter_eq_some_iff.mp h).1

theorem dateField_allHex {f : Text} {w : BitVec 24} (h : dateField f = some w) : allHex f :=
  map_allHex (fun _ => fixedNumber_allHex) (Option.filter_eq_some_iff.mp h).1

theorem maskField_allHex {f : Text} {m : BitVec 12} (h : maskField f = some m) : allHex f := by
  unfold maskField at h
  split at h
  · exact map_allHex (fun _ => number_allHex) h
  · cases h

theorem offsetField_allHex {f : Text} {n : Nat} (h : offsetField f = some n) : allHex f := by
  have h1 := (Option.filter_eq_some_iff.mp h).1
  cases ho : twoDigits 255 f with
  | none => simp [ho] at h1
  | some v => exact twoDigits_allHex ho

theorem holdField_hexOrDash {f : Text} {x : Option (BitVec 16)} (h : holdField f = some x) : f = dash ∨ allHex f := by
  unfold holdField at h
  split at h
  · exact Or.inl ‹_›
  · cases ho : number 0xFFFF f with
    | none => simp [ho] at h
    | some v => exact Or.inr (number_allHex ho)

theorem orAny_hexOrDash {α : Type} {read : Text → Option α} {f : Text} {x : Option α} (hr : ∀ v, read f = some v → allHex f)
    (h : orAny read f = some x) : f = dash ∨ allHex f := by
  unfold orAny at h
  split at h
  · exact Or.inl ‹_›
  · cases ho : read f with
    | none => simp [ho] at h
    | some v => exact Or.inr (hr v ho)

/-! ### The digit check -/

/-- A line passes the digit check exactly when each of its fields does. -/
theorem bad_false_iff (r : DigitRule) (fields : List Text) :
    r.bad fields = false ↔ ∀ p ∈ fields.zipIdx, r.fieldOk p.2 p.1 = true := by
  simp [DigitRule.bad, List.any_eq_false]

theorem fieldOk_of_allHex (r : DigitRule) (i : Nat) {f : Text} (h : allHex f) : r.fieldOk i f = true := by
  have : (f.all fun b => isHex b || (r.commaAt == some i && b == comma)) = true := by
    rw [List.all_eq_true]
    intro b hb
    simp [h b hb]
  simp [DigitRule.fieldOk, this]

/-- A line of digits alone passes the digit check of every command. -/
theorem bad_of_allHex (r : DigitRule) {fields : List Text} (h : ∀ f ∈ fields, allHex f) : r.bad fields = false := by
  rw [bad_false_iff]
  intro p hp
  exact fieldOk_of_allHex r p.2 (h p.1 (List.fst_mem_of_mem_zipIdx hp))

theorem strict_fieldOk_iff (i : Nat) (f : Text) : DigitRule.strict.fieldOk i f = true ↔ allHex f := by
  simp [DigitRule.fieldOk, DigitRule.strict, allHex]

/-- A command none of whose fields may be "-" passes the digit check exactly when every character is a digit. -/
theorem strict_bad_false_iff (fields : List Text) : DigitRule.strict.bad fields = false ↔ ∀ f ∈ fields, allHex f := by
  refine ⟨fun h f hf => ?_, bad_of_allHex _⟩
  obtain ⟨i, hi, rfl⟩ := List.mem_iff_getElem.mp hf
  have hm : (fields[i], i) ∈ fields.zipIdx := by simp [List.mem_zipIdx_iff_getElem?, hi]
  exact (strict_fieldOk_iff i _).mp ((bad_false_iff _ _).mp h _ hm)

theorem strict_bad_true {fields : List Text} (h : ∃ f ∈ fields, ∃ b ∈ f, isHex b = false) : DigitRule.strict.bad fields = true := by
  cases hb : DigitRule.strict.bad fields with
  | true => rfl
  | false =>
    obtain ⟨f, hf, b, hbf, hx⟩ := h
    have := (strict_bad_false_iff fields).mp hb f hf b hbf
    simp [hx] at this

theorem strict_bad_one {f : Text} (h : allHex f) : DigitRule.strict.bad [f] = false := by
  rw [strict_bad_false_iff]
  simpa using h

theorem strict_bad_two {f g : Text} (hf : allHex f) (hg : allHex g) : DigitRule.strict.bad [f, g] = false := by
  rw [strict_bad_false_iff]
  simp [hf, hg]

theorem fieldOk_dash (r : DigitRule) {i : Nat} (h : i ∈ r.dashAt) : r.fieldOk i dash = true := by
  simp [DigitRule.fieldOk, h]

/-- A field of digits or "-" passes where "-" is allowed. -/
theorem fieldOk_hexOrDash (r : DigitRule) {i : Nat} {f : Text} (hi : i ∈ r.dashAt) (h : f = dash ∨ allHex f) : r.fieldOk i f = true := by
  rcases h with rfl | h
  · exact fieldOk_dash r hi
  · exact fieldOk_of_allHex r i h

/-! ### Channel lists -/

theorem mem_splitAt {sep b : Byte} {f : Text} (h : b ∈ f) : b = sep ∨ ∃ w ∈ splitAt sep f, b ∈ w := by
  induction f with
  | nil => cases h
  | cons x xs ih =>
    unfold splitAt
    by_cases hx : x = sep
    · rw [if_pos hx]
      rcases List.mem_cons.mp h with rfl | h
      · exact Or.inl hx
      · rcases ih h with h | ⟨w, hw, hb⟩
        · exact Or.inl h
        · exact Or.inr ⟨w, List.mem_cons_of_mem _ hw, hb⟩
    · rw [if_neg hx]
      cases hs : splitAt sep xs with
      | nil =>
        rcases List.mem_cons.mp h with rfl | h
        · exact Or.inr ⟨[b], List.mem_cons_self, List.mem_cons_self⟩
        · rcases ih h with h | ⟨w, hw, _⟩
          · exact Or.inl h
          · rw [hs] at hw; cases hw
      | cons w ws =>
        rcases List.mem_cons.mp h with rfl | h
        · exact Or.inr ⟨b :: w, List.mem_cons_self, List.mem_cons_self⟩
        · rcases ih h with h | ⟨v, hv, hb⟩
          · exact Or.inl h
          · rw [hs] at hv
            rcases List.mem_cons.mp hv with rfl | hv
            · exact Or.inr ⟨x :: v, List.mem_cons_self, List.mem_cons_of_mem _ hb⟩
            · exact Or.inr ⟨v, List.mem_cons_of_mem _ hv, hb⟩

theorem allSome_mem {α : Type} {l : List (Option α)} {r : List α} (h : allSome l = some r) : ∀ o ∈ l, ∃ a, o = some a := by
  induction l generalizing r with
  | nil => nofun
  | cons o os ih =>
    cases o with
    | none => cases h
    | some a =>
      unfold allSome at h
      obtain ⟨r', hr', _⟩ := Option.map_eq_some_iff.mp h
      intro x hx
      rcases List.mem_cons.mp hx with rfl | hx
      · exact ⟨a, rfl⟩
      · exact ih hr' x hx

/-- A field that reads as a channel list holds digits and commas alone, and passes the digit check where the channel list stands. -/
theorem fieldOk_channelList (r : DigitRule) {i : Nat} {f : Text} {l : List (BitVec 8)} (hi : r.commaAt = some i) (h : channelListField f = some l) :
    r.fieldOk i f = true := by
  have h1 := (Option.filter_eq_some_iff.mp h).1
  obtain ⟨ns, hns, _⟩ := Option.map_eq_some_iff.mp h1
  have : (f.all fun b => isHex b || (r.commaAt == some i && b == comma)) = true := by
    rw [List.all_eq_true]
    intro b hb
    rcases mem_splitAt (sep := comma) hb with rfl | ⟨w, hw, hbw⟩
    · simp [hi]
    · obtain ⟨v, hv⟩ := allSome_mem hns _ (List.mem_map_of_mem hw)
      simp [twoDigits_allHex hv b hbw]
  simp [DigitRule.fieldOk, this]

/-- A channel list that reads names distinct channels. -/
theorem channelListField_nodup {f : Text} {l : List (BitVec 8)} (h : channelListField f = some l) : l.Nodup := by
  have := (Option.filter_eq_some_iff.mp h).2
  simp only [channelsInRange, Bool.and_eq_true, decide_eq_true_eq] at this
  exact this.1.2

/-! ### A record command on its record, a channel command on its channel -/

/-- What a command of one record number does, once its number reads and no freeze locks the record. -/
theorem onRecord_reads {guarded : Bool} {f : Text} {act : RecNo → State → Reply} {s : State} {n : RecNo} (h : recordNumber f = some n) :
    onRecord guarded [f] act s = if guarded && lockedRecord n s then refuse .frozen s else act n s := by
  unfold onRecord
  rw [strict_bad_one (recordNumber_allHex h)]
  simp [h]

theorem onChannel_reads {f : Text} {act : Chan → State → Reply} {s : State} {c : Chan} (h : channelNumber f = some c) :
    onChannel [f] act s = act c s := by
  unfold onChannel
  rw [strict_bad_one (channelNumber_allHex h)]
  simp [h]

end Sys2Proof.Machine
end

