-- ==== Sys2Proof/Laws/Forms.lean ====
section
/-!
SUPPORT. The fields of a line and the values they write (Table 9-2, Table 2-3): each reader reads exactly the texts its form allows, and a response
writes its fields in Safety's forms.
-/

namespace Sys2Proof.Machine

/-! ### Digits -/

theorem hexVal_hexDigit (n : Nat) : hexVal (hexDigit n) = some (n % 16) := by
  have h : ∀ k : Fin 16, hexVal (hexDigit k.val) = some k.val := by decide
  have e : hexDigit n = hexDigit (n % 16) := by unfold hexDigit; rw [Nat.mod_mod]
  rw [e]
  exact h ⟨n % 16, Nat.mod_lt _ (by decide)⟩

theorem hexVal_some {b : Byte} {x : Nat} (h : hexVal b = some x) : x < 16 ∧ b = hexDigit x := by
  have key : ∀ b : Byte, (hexVal b).all (fun x => decide (x < 16) && b == hexDigit x) = true := by decide
  have := key b
  rw [h] at this
  simpa using this

theorem hexRun_append (acc : Nat) (f g : Text) : hexRun acc (f ++ g) = (hexRun acc f).bind fun v => hexRun v g := by
  induction f generalizing acc with
  | nil => rfl
  | cons b f ih =>
    rw [List.cons_append, hexRun, hexRun]
    cases hexVal b with
    | none => rfl
    | some v => exact ih _

@[simp] theorem hexText_length (w n : Nat) : (hexText w n).length = w := by
  induction w generalizing n with
  | zero => rfl
  | succ w ih => unfold hexText; simp [ih]

@[simp] theorem decText_length (w n : Nat) : (decText w n).length = w := by
  induction w generalizing n with
  | zero => rfl
  | succ w ih => unfold decText; simp [ih]

theorem hexRun_hexText (w n : Nat) : hexRun 0 (hexText w n) = some (n % 16 ^ w) := by
  induction w generalizing n with
  | zero => simp [hexText, hexRun, Nat.mod_one]
  | succ w ih =>
    unfold hexText
    rw [hexRun_append, ih, Option.bind_some]
    unfold hexRun hexRun
    rw [hexVal_hexDigit, Option.bind_some, pow_succ']
    congr 1
    rw [Nat.mod_mul]
    omega

theorem hexRun_some {f : Text} {v : Nat} (h : hexRun 0 f = some v) : v < 16 ^ f.length ∧ f = hexText f.length v := by
  induction f using List.reverseRecOn generalizing v with
  | nil => cases h; exact ⟨by simp, rfl⟩
  | append_singleton f b ih =>
    rw [hexRun_append] at h
    cases hf : hexRun 0 f with
    | none => rw [hf] at h; cases h
    | some u =>
      rw [hf, Option.bind_some] at h
      unfold hexRun hexRun at h
      cases hb : hexVal b with
      | none => rw [hb] at h; cases h
      | some x =>
        rw [hb, Option.bind_some] at h
        obtain ⟨hx, rfl⟩ := hexVal_some hb
        obtain ⟨hu, he⟩ := ih hf
        obtain rfl : u * 16 + x = v := by simpa using h
        rw [List.length_append, List.length_singleton]
        refine ⟨by rw [pow_succ]; omega, ?_⟩
        unfold hexText
        rw [show (u * 16 + x) / 16 = u by omega, ← he]
        congr 2
        unfold hexDigit
        rw [show (u * 16 + x) % 16 = x % 16 by omega]

/-- A number of a fixed width, read: its digits. -/
theorem fixedNumber_iff {w m v : Nat} {f : Text} (h1 : 1 ≤ w) (h8 : w ≤ 8) :
    fixedNumber w m f = some v ↔ f = hexText w v ∧ v < 16 ^ w ∧ v ≤ m := by
  unfold fixedNumber number
  constructor
  · intro h
    split at h
    · rename_i hl
      split at h
      · obtain ⟨hr, hm⟩ := Option.filter_eq_some_iff.mp h
        obtain ⟨hv, he⟩ := hexRun_some hr
        rw [hl] at hv he
        exact ⟨he, hv, by simpa using hm⟩
      · cases h
    · cases h
  · rintro ⟨rfl, hv, hm⟩
    rw [if_pos (hexText_length _ _), if_pos (by rw [hexText_length]; omega), hexRun_hexText, Nat.mod_eq_of_lt hv]
    simp [hm]

theorem hexText_inj {w a b : Nat} (ha : a < 16 ^ w) (hb : b < 16 ^ w) (h : hexText w a = hexText w b) : a = b := by
  have := congrArg (hexRun 0) h
  rw [hexRun_hexText, hexRun_hexText, Nat.mod_eq_of_lt ha, Nat.mod_eq_of_lt hb] at this
  simpa using this

/-- Two decimal digits are the hexadecimal digits of their BCD value. -/
theorem decText_two (x : Nat) (h : x < 100) : decText 2 x = hexText 2 (x / 10 * 16 + x % 10) := by
  have key : ∀ y : Fin 100, decText 2 y.val = hexText 2 (y.val / 10 * 16 + y.val % 10) := by decide
  exact key ⟨x, h⟩

theorem bcd2_some {n x : Nat} (h : bcd2 n = some x) : x < 100 ∧ n = x / 10 * 16 + x % 10 := by
  unfold bcd2 at h
  split at h
  · simp only [Option.some.injEq] at h; omega
  · cases h

theorem bcd2_bcd {x : Nat} (h : x < 100) : bcd2 (x / 10 * 16 + x % 10) = some x := by
  unfold bcd2
  rw [if_pos (by omega)]
  simp only [Option.some.injEq]
  omega

/-- A number's digits, split: those of its upper part, then those of its lower part. -/
theorem hexText_add (a b n : Nat) : hexText (a + b) n = hexText a (n / 16 ^ b) ++ hexText b (n % 16 ^ b) := by
  induction b generalizing n with
  | zero => simp [hexText]
  | succ b ih =>
    rw [← Nat.add_assoc, hexText, ih, hexText, List.append_assoc, Nat.div_div_eq_div_mul, pow_succ', Nat.mod_mul]
    have h1 : (n % 16 + 16 * (n / 16 % 16 ^ b)) / 16 = n / 16 % 16 ^ b := by omega
    have h2 : hexDigit (n % 16 + 16 * (n / 16 % 16 ^ b)) = hexDigit n := by
      unfold hexDigit
      rw [show (n % 16 + 16 * (n / 16 % 16 ^ b)) % 16 = n % 16 by omega]
    rw [h1, h2]

theorem hexText_four (n : Nat) : hexText 4 n = hexText 2 (n / 256) ++ hexText 2 (n % 256) := hexText_add 2 2 n

theorem hexText_six (n : Nat) : hexText 6 n = hexText 2 (n / 65536) ++ (hexText 2 (n / 256 % 256) ++ hexText 2 (n % 256)) := by
  rw [show 6 = 2 + 4 from rfl, hexText_add, hexText_four]
  have h1 : n % 16 ^ 4 / 256 = n / 256 % 256 := by omega
  have h2 : n % 16 ^ 4 % 256 = n % 256 := by omega
  rw [h1, h2]
  rfl

theorem word16_iff {f : Text} {w : BitVec 16} : word16 f = some w ↔ f = hexText 4 w.toNat := by
  unfold word16
  rw [Option.map_eq_some_iff]
  constructor
  · rintro ⟨v, hv, rfl⟩
    obtain ⟨he, hl, -⟩ := (fixedNumber_iff (by decide) (by decide)).mp hv
    rw [BitVec.toNat_ofNat, Nat.mod_eq_of_lt (by omega)]
    exact he
  · rintro he
    refine ⟨w.toNat, (fixedNumber_iff (by decide) (by decide)).mpr ⟨he, ?_, ?_⟩, by simp⟩ <;> have := w.isLt <;> omega

/-- Two two-digit runs are equal when they are equal digit by digit. -/
theorem pair_inj {a b c d : Nat} (ha : a < 256) (hb : b < 256) (hc : c < 256) (hd : d < 256)
    (h : hexText 2 a ++ hexText 2 b = hexText 2 c ++ hexText 2 d) : a = c ∧ b = d := by
  obtain ⟨h1, h2⟩ := List.append_inj h (by simp)
  exact ⟨hexText_inj (by omega) (by omega) h1, hexText_inj (by omega) (by omega) h2⟩

theorem timeField_iff {f : Text} {w : BitVec 16} : timeField f = some w ↔ TimeForm f w := by
  unfold timeField TimeForm
  rw [Option.filter_eq_some_iff, word16_iff]
  refine and_congr_right fun he => ?_
  have hw := w.isLt
  rw [he, hexText_four]
  unfold timeOf
  constructor
  · intro h
    split at h
    · rename_i x y h1 h2
      split at h
      · obtain ⟨hx, e1⟩ := bcd2_some h1
        obtain ⟨hy, e2⟩ := bcd2_some h2
        exact ⟨x, y, by omega, by omega, by rw [decText_two x hx, decText_two y hy, e1, e2]⟩
      · simp at h
    · simp at h
  · rintro ⟨x, y, hx, hy, h⟩
    rw [decText_two x (by omega), decText_two y (by omega)] at h
    obtain ⟨e1, e2⟩ := pair_inj (by omega) (by omega) (by omega) (by omega) h
    rw [e1, e2, bcd2_bcd (by omega), bcd2_bcd (by omega)]
    simp [hx, hy]

theorem monthDays (m : Nat) (h1 : 1 ≤ m) (h2 : m ≤ 12) :
    monthLength 0 m = [31, 29, 31, 30, 31, 30, 31, 31, 30, 31, 30, 31].getD (m - 1) 0 := by
  interval_cases m <;> decide

theorem monthDayField_iff {f : Text} {w : BitVec 16} : monthDayField f = some w ↔ MonthDayForm f w := by
  unfold monthDayField MonthDayForm
  rw [Option.filter_eq_some_iff, word16_iff]
  refine and_congr_right fun he => ?_
  have hw := w.isLt
  rw [he, hexText_four]
  unfold monthDayOf
  constructor
  · intro h
    split at h
    · rename_i x y h1 h2
      split at h
      · rename_i hr
        obtain ⟨hx, e1⟩ := bcd2_some h1
        obtain ⟨hy, e2⟩ := bcd2_some h2
        refine ⟨x, y, hr.1, hr.2.2.1, ?_, by rw [decText_two x hx, decText_two y hy, e1, e2]⟩
        rw [← monthDays x hr.1 hr.2.1]
        exact hr.2.2.2
      · simp at h
    · simp at h
  · rintro ⟨x, y, hx, hy, hl, h⟩
    have hx2 : x ≤ 12 := by
      by_contra hc
      rw [List.getD_eq_default _ _ (by simp; omega)] at hl
      omega
    rw [← monthDays x hx hx2] at hl
    have := (monthLength_bounds 0 x).2
    rw [decText_two x (by omega), decText_two y (by omega)] at h
    obtain ⟨e1, e2⟩ := pair_inj (by omega) (by omega) (by omega) (by omega) h
    rw [e1, e2, bcd2_bcd (by omega), bcd2_bcd (by omega)]
    simp [hx, hy, hl, hx2]

theorem dateField_iff {f : Text} {w : BitVec 24} : dateField f = some w ↔ DateForm f w := by
  unfold dateField DateForm
  rw [Option.filter_eq_some_iff, Option.map_eq_some_iff]
  have hread : (∃ v, fixedNumber 6 0xFFFFFF f = some v ∧ BitVec.ofNat 24 v = w) ↔ f = hexText 6 w.toNat := by
    constructor
    · rintro ⟨v, hv, rfl⟩
      obtain ⟨he, hl, -⟩ := (fixedNumber_iff (by decide) (by decide)).mp hv
      rw [BitVec.toNat_ofNat, Nat.mod_eq_of_lt (by omega)]
      exact he
    · intro he
      refine ⟨w.toNat, (fixedNumber_iff (by decide) (by decide)).mpr ⟨he, ?_, ?_⟩, by simp⟩ <;> have := w.isLt <;> omega
  rw [hread]
  refine and_congr_right fun he => ?_
  have hw := w.isLt
  rw [he, hexText_six]
  unfold dateOf
  constructor
  · intro h
    split at h
    · rename_i x y z h1 h2 h3
      split at h
      · rename_i hv
        obtain ⟨hx, e1⟩ := bcd2_some h1
        obtain ⟨hy, e2⟩ := bcd2_some h2
        obtain ⟨hz, e3⟩ := bcd2_some h3
        refine ⟨⟨z, y, x⟩, hv, ?_⟩
        dsimp only
        rw [decText_two x hx, decText_two y hy, decText_two z hz, e1, e2, e3]
      · simp at h
    · simp at h
  · rintro ⟨d, hv, h⟩
    have hd := (validDate_iff d).mp hv
    have := (monthLength_bounds d.year d.month).2
    rw [decText_two d.day (by omega), decText_two d.month (by omega), decText_two d.year (by omega)] at h
    obtain ⟨h1, h23⟩ := List.append_inj h (by simp)
    have e1 := hexText_inj (by omega) (by omega) h1
    obtain ⟨e2, e3⟩ := pair_inj (by omega) (by omega) (by omega) (by omega) h23
    rw [e1, e2, e3, bcd2_bcd (by omega), bcd2_bcd (by omega), bcd2_bcd (by omega)]
    simp [hv]

/-! ### Optional values -/

theorem dash_eq : dash = text "-" := rfl

theorem blinkField_iff {f : Text} {b : Option Blink} : blinkField f = some b ↔ BlinkForm f b := by
  unfold blinkField
  by_cases hf : f = dash
  · subst hf
    rw [if_pos rfl]
    cases b with
    | none => exact ⟨fun _ => rfl, fun _ => rfl⟩
    | some b =>
      refine ⟨fun h => (by cases h), fun h => ?_⟩
      have := congrArg List.length h.1
      simp [dash] at this
  · rw [if_neg hf]
    rw [Option.bind_eq_some_iff]
    constructor
    · rintro ⟨w, hw, h⟩
      dsimp only at h
      split at h
      · rename_i hr
        cases h
        have hl := w.isLt
        simp only [blinkInRange, Bool.and_eq_true, decide_eq_true_eq] at hr
        refine ⟨?_, hr.1.1, hr.1.2, hr.2⟩
        rw [word16_iff.mp hw, hexText_four]
        dsimp only
        rw [BitVec.toNat_ofNat, BitVec.toNat_ofNat, Nat.mod_eq_of_lt (show w.toNat / 256 < 2 ^ 8 by omega),
          Nat.mod_eq_of_lt (show w.toNat % 256 < 2 ^ 8 by omega)]
      · cases h
    · intro h
      cases b with
      | none => exact absurd h hf
      | some b =>
        obtain ⟨he, h1, h2, h3⟩ := h
        have hp := b.period.isLt
        have ho := b.onTime.isLt
        have hn : b.period.toNat * 256 + b.onTime.toNat < 65536 := by omega
        have hd : (b.period.toNat * 256 + b.onTime.toNat) / 256 = b.period.toNat := by omega
        have hm : (b.period.toNat * 256 + b.onTime.toNat) % 256 = b.onTime.toNat := by omega
        refine ⟨BitVec.ofNat 16 (b.period.toNat * 256 + b.onTime.toNat), word16_iff.mpr ?_, ?_⟩
        · rw [BitVec.toNat_ofNat, Nat.mod_eq_of_lt hn, hexText_four, hd, hm]
          exact he
        · rw [BitVec.toNat_ofNat, Nat.mod_eq_of_lt hn, hd, hm]
          simp [blinkInRange, h1, h2, h3]

theorem dash_not_number {m v : Nat} : number m dash ≠ some v := by
  intro h
  have := number_allHex h 0x2D (by simp [dash])
  exact absurd this (by decide)

theorem holdField_iff {f : Text} {h : Option (BitVec 16)} : holdField f = some h ↔ HoldForm f h := by
  unfold holdField
  by_cases hf : f = dash
  · subst hf
    rw [if_pos rfl]
    cases h with
    | none => exact ⟨fun _ => rfl, fun _ => rfl⟩
    | some h => exact ⟨fun e => (by cases e), fun e => absurd e.2 dash_not_number⟩
  · rw [if_neg hf, Option.bind_eq_some_iff]
    constructor
    · rintro ⟨n, hn, e⟩
      split at e
      · cases e
      · rename_i h0
        cases e
        have hl := number_le hn
        refine ⟨fun e0 => h0 ?_, ?_⟩
        · have := congrArg BitVec.toNat e0
          simp only [BitVec.toNat_ofNat, BitVec.ofNat_eq_ofNat] at this
          omega
        · rw [BitVec.toNat_ofNat, Nat.mod_eq_of_lt (by omega)]
          exact hn
    · intro e
      cases h with
      | none => exact absurd e hf
      | some h =>
        refine ⟨h.toNat, e.2, ?_⟩
        rw [if_neg (fun e0 => e.1 (by simpa using congrArg (BitVec.ofNat 16) e0))]
        simp

/-! ### Values of a narrower type -/

theorem map_fin_iff {k : Nat} {o : Option Nat} {x : Fin (k + 1)} (hle : ∀ v, o = some v → v ≤ k) :
    (o.map fun n => (⟨n % (k + 1), Nat.mod_lt _ (Nat.succ_pos k)⟩ : Fin (k + 1))) = some x ↔ o = some x.val := by
  rw [Option.map_eq_some_iff]
  constructor
  · rintro ⟨v, hv, rfl⟩
    have := hle v hv
    dsimp only
    rw [Nat.mod_eq_of_lt (by omega)]
    exact hv
  · intro h
    exact ⟨x.val, h, Fin.ext (Nat.mod_eq_of_lt x.isLt)⟩

theorem map_bits_iff {w : Nat} {o : Option Nat} {x : BitVec w} (hle : ∀ v, o = some v → v < 2 ^ w) :
    o.map (BitVec.ofNat w) = some x ↔ o = some x.toNat := by
  rw [Option.map_eq_some_iff]
  constructor
  · rintro ⟨v, hv, rfl⟩
    rw [BitVec.toNat_ofNat, Nat.mod_eq_of_lt (hle v hv)]
    exact hv
  · intro h
    exact ⟨x.toNat, h, by simp⟩

theorem recordNumber_iff {f : Text} {n : RecNo} : recordNumber f = some n ↔ number 95 f = some n.val := map_fin_iff fun _ h => number_le h
theorem priorityField_iff {f : Text} {p : Fin 4} : priorityField f = some p ↔ number 3 f = some p.val := map_fin_iff fun _ h => number_le h
theorem inputNumber_iff {f : Text} {i : InputNo} : inputNumber f = some i ↔ number 7 f = some i.val := map_fin_iff fun _ h => number_le h
theorem ruleNumber_iff {f : Text} {r : RuleNo} : ruleNumber f = some r ↔ number 15 f = some r.val := map_fin_iff fun _ h => number_le h
theorem plainChannel_iff {f : Text} {c : Chan} : plainChannel f = some c ↔ number 23 f = some c.val := map_fin_iff fun _ h => number_le h
theorem pinField_iff {f : Text} {p : Pin} : pinField f = some p ↔ number 31 f = some p.val := map_fin_iff fun _ h => number_le h
theorem levelField_iff {f : Text} {l : BitVec 8} : levelField f = some l ↔ number 255 f = some l.toNat :=
  map_bits_iff fun _ h => by have := number_le h; omega

theorem rangeField_iff {a b n : Nat} {f : Text} : rangeField a b f = some n ↔ a ≤ n ∧ number b f = some n := by
  unfold rangeField
  rw [Option.filter_eq_some_iff]
  simp [and_comm]

/-! ### Sets and lists -/

theorem weekdayBit (b : Byte) (h1 : 0x31 ≤ b.toNat) (h2 : b.toNat ≤ 0x37) (acc : BitVec 7) (k : Nat) (hk : k < 7) :
    (acc ||| BitVec.ofNat 7 (2 ^ (b.toNat - 0x31))).getLsbD k = (acc.getLsbD k || decide (b = BitVec.ofNat 8 (0x31 + k))) := by
  rw [BitVec.getLsbD_or, BitVec.getLsbD_ofNat]
  congr 1
  rw [decide_eq_true hk, Bool.true_and, Nat.testBit_two_pow]
  refine decide_eq_decide.mpr ⟨fun h => ?_, fun h => ?_⟩
  · apply BitVec.eq_of_toNat_eq
    rw [BitVec.toNat_ofNat]
    omega
  · have := congrArg BitVec.toNat h
    rw [BitVec.toNat_ofNat] at this
    omega

theorem weekdayRun_iff {f : Text} {acc r : BitVec 7} : weekdayRun acc f = some r ↔
    f.Nodup ∧ (∀ b ∈ f, 0x31 ≤ b.toNat ∧ b.toNat ≤ 0x37 ∧ acc.getLsbD (b.toNat - 0x31) = false)
      ∧ ∀ k, k < 7 → (r.getLsbD k = true ↔ acc.getLsbD k = true ∨ BitVec.ofNat 8 (0x31 + k) ∈ f) := by
  induction f generalizing acc with
  | nil =>
    simp only [weekdayRun, Option.some.injEq, List.nodup_nil, List.not_mem_nil, or_false, true_and, false_implies, implies_true]
    constructor
    · rintro rfl k _; exact Iff.rfl
    · intro h
      apply BitVec.eq_of_getLsbD_eq
      intro k hk
      exact (Bool.eq_iff_iff.mpr (h k hk)).symm
  | cons b f ih =>
    rw [weekdayRun]
    split
    · rename_i hb
      rw [ih]
      have hbit : ∀ k, k < 7 → ((acc ||| BitVec.ofNat 7 (2 ^ (b.toNat - 0x31))).getLsbD k = true
          ↔ acc.getLsbD k = true ∨ b = BitVec.ofNat 8 (0x31 + k)) := by
        intro k hk
        rw [weekdayBit b hb.1 hb.2.1 acc k hk]
        simp
      have hsame : ∀ c : Byte, 0x31 ≤ c.toNat → c.toNat ≤ 0x37 → (b = BitVec.ofNat 8 (0x31 + (c.toNat - 0x31)) ↔ c = b) := by
        intro c h1 h2
        have : BitVec.ofNat 8 (0x31 + (c.toNat - 0x31)) = c := by
          apply BitVec.eq_of_toNat_eq
          rw [BitVec.toNat_ofNat]
          omega
        rw [this]
        exact eq_comm
      constructor
      · rintro ⟨hn, ha, hk⟩
        refine ⟨List.nodup_cons.mpr ⟨fun hm => ?_, hn⟩, fun c hc => ?_, fun k hlt => ?_⟩
        · obtain ⟨h1, h2, h3⟩ := ha b hm
          rw [(hbit _ (by omega)).mpr (Or.inr ((hsame b h1 h2).mpr rfl))] at h3
          cases h3
        · rcases List.mem_cons.mp hc with rfl | hc
          · exact ⟨hb.1, hb.2.1, hb.2.2⟩
          · obtain ⟨h1, h2, h3⟩ := ha c hc
            refine ⟨h1, h2, ?_⟩
            by_contra hne
            rw [(hbit _ (by omega)).mpr (Or.inl (by simpa using hne))] at h3
            cases h3
        · rw [hk k hlt, hbit k hlt, List.mem_cons, or_assoc, eq_comm (a := b)]
      · rintro ⟨hn, ha, hk⟩
        obtain ⟨hnm, hn⟩ := List.nodup_cons.mp hn
        refine ⟨hn, fun c hc => ?_, fun k hlt => ?_⟩
        · obtain ⟨h1, h2, h3⟩ := ha c (List.mem_cons_of_mem _ hc)
          refine ⟨h1, h2, ?_⟩
          by_contra hne
          rcases (hbit (c.toNat - 0x31) (by omega)).mp ((Bool.not_eq_false _).mp hne) with h | h
          · rw [h3] at h; cases h
          · exact hnm ((hsame c h1 h2).mp h ▸ hc)
        · rw [hk k hlt, hbit k hlt, List.mem_cons, or_assoc, eq_comm (a := b)]
    · rename_i hb
      refine ⟨fun h => (by cases h), fun ⟨_, ha, _⟩ => ?_⟩
      exact absurd (ha b List.mem_cons_self) hb

theorem weekdayField_iff {f : Text} {set : BitVec 7} : weekdayField f = some set ↔ WeekdaysForm f set := by
  unfold weekdayField WeekdaysForm
  by_cases hf : f = []
  · simp [hf]
  · rw [if_neg hf, weekdayRun_iff]
    simp [hf]

theorem splitAt_ne_nil (c : Byte) (f : Text) : splitAt c f ≠ [] := by
  cases f with
  | nil => simp [splitAt]
  | cons b f =>
    unfold splitAt
    split
    · simp
    · split <;> simp

theorem intercalate_cons {α : Type} (sep a : List α) (l : List (List α)) (h : l ≠ []) :
    List.intercalate sep (a :: l) = a ++ (sep ++ List.intercalate sep l) := by
  cases l with
  | nil => exact absurd rfl h
  | cons b l => simp [List.intercalate]

/-- A text is its pieces joined again. -/
theorem splitAt_join (c : Byte) (f : Text) : List.intercalate [c] (splitAt c f) = f := by
  induction f with
  | nil => rfl
  | cons b f ih =>
    unfold splitAt
    split
    · rename_i h
      rw [intercalate_cons _ _ _ (splitAt_ne_nil c f), ih, h]
      rfl
    · cases hs : splitAt c f with
      | nil => exact absurd hs (splitAt_ne_nil c f)
      | cons w ws =>
        rw [hs] at ih
        dsimp only
        cases ws with
        | nil => rw [← ih]; simp [List.intercalate]
        | cons v vs => rw [intercalate_cons _ _ _ (by simp)] at ih ⊢; rw [← ih]; rfl

/-- Pieces that hold no separator, joined, split into themselves. -/
theorem splitAt_intercalate (c : Byte) (ws : List Text) (h : ws ≠ []) (hc : ∀ w ∈ ws, c ∉ w) : splitAt c (List.intercalate [c] ws) = ws := by
  induction ws with
  | nil => exact absurd rfl h
  | cons w ws ih =>
    have hw : ∀ (w : Text), c ∉ w → ∀ rest v vs, splitAt c rest = v :: vs → splitAt c (w ++ rest) = (w ++ v) :: vs := by
      intro w
      induction w with
      | nil => intro _ rest v vs hr; exact hr
      | cons b w ihw =>
        intro hcw rest v vs hr
        rw [List.cons_append, splitAt, if_neg (fun e : b = c => hcw (by rw [e]; exact List.mem_cons_self)),
          ihw (fun hm => hcw (List.mem_cons_of_mem _ hm)) rest v vs hr]
        rfl
    cases ws with
    | nil =>
      have := hw w (hc w List.mem_cons_self) [] [] [] rfl
      simpa [List.intercalate] using this
    | cons v vs =>
      rw [intercalate_cons _ _ _ (by simp)]
      have := hw w (hc w List.mem_cons_self) ([c] ++ List.intercalate [c] (v :: vs)) [] (v :: vs) (by
        rw [List.singleton_append, splitAt, if_pos rfl, ih (by simp) fun x hx => hc x (List.mem_cons_of_mem _ hx)])
      simpa using this

theorem allSome_iff {α : Type} {l : List (Option α)} {r : List α} : allSome l = some r ↔ l = r.map some := by
  induction l generalizing r with
  | nil => cases r <;> simp [allSome]
  | cons o l ih =>
    cases o with
    | none => cases r <;> simp [allSome]
    | some a => cases r <;> simp [allSome, ih, and_comm]

/-- A flag, an optional value and a blink as a response writes them. -/
theorem flagText_eq : flagText = shownFlag := by
  funext b
  cases b <;> decide

theorem orDash_eq {α : Type} (f : α → Text) (a : Option α) : orDash f a = shownOr f a := by cases a <;> rfl

theorem blinkText_eq (b : Option Blink) : blinkText b = shownBlink b := by cases b <;> rfl

/-- A channel list as a response writes it. -/
theorem channelListText_eq (l : List (BitVec 8)) : channelListText l = shownList l := by
  induction l with
  | nil => rfl
  | cons c l ih =>
    cases l with
    | nil => simp [channelListText, shownList, List.intercalate, hex2]
    | cons d l =>
      unfold shownList at ih ⊢
      rw [List.map_cons, intercalate_cons _ _ _ (by simp), channelListText, ih]
      rfl
      simp

theorem hexText_allHex (w n : Nat) : allHex (hexText w n) := hexRun_allHex (hexRun_hexText w n)

theorem channelListField_iff {f : Text} {l : List (BitVec 8)} : channelListField f = some l ↔ ListForm f l := by
  unfold channelListField ListForm
  have htwo : ∀ (g : Text) (v : Nat), twoDigits 23 g = some v ↔ g = hexText 2 v ∧ v ≤ 23 := by
    intro g v
    unfold twoDigits
    rw [fixedNumber_iff (by decide) (by decide)]
    constructor
    · rintro ⟨h1, -, h3⟩; exact ⟨h1, h3⟩
    · rintro ⟨h1, h3⟩; exact ⟨h1, by omega, h3⟩
  rw [Option.filter_eq_some_iff, Option.map_eq_some_iff]
  constructor
  · rintro ⟨⟨ns, hns, rfl⟩, hr⟩
    have hall := allSome_iff.mp hns
    have hlen : ∀ n ∈ ns, n ≤ 23 := by
      intro n hn
      have : some n ∈ (splitAt comma f).map (twoDigits 23) := by rw [hall]; exact List.mem_map_of_mem hn
      obtain ⟨g, -, hg⟩ := List.mem_map.mp this
      exact ((htwo g n).mp hg).2
    simp only [channelsInRange, Bool.and_eq_true, decide_eq_true_eq, List.all_eq_true] at hr
    refine ⟨?_, hr.1.1.1, hr.1.1.2, hr.1.2, fun c hc => by have := hr.2 c hc; omega⟩
    have hpieces : splitAt comma f = ns.map fun n => hexText 2 n := by
      have : ∀ (gs : List Text) (ns : List Nat), gs.map (twoDigits 23) = ns.map some → gs = ns.map fun n => hexText 2 n := by
        intro gs
        induction gs with
        | nil => intro ns h; cases ns <;> simp_all
        | cons g gs ih =>
          intro ns h
          cases ns with
          | nil => simp at h
          | cons n ns =>
            simp only [List.map_cons, List.cons.injEq] at h ⊢
            exact ⟨((htwo g n).mp h.1).1, ih ns h.2⟩
      exact this _ _ hall
    conv_lhs => rw [← splitAt_join comma f, hpieces]
    unfold shownList
    rw [List.map_map]
    congr 1
    refine List.map_congr_left fun n hn => ?_
    have := hlen n hn
    simp only [Function.comp_apply, BitVec.toNat_ofNat]
    rw [Nat.mod_eq_of_lt (by omega)]
  · rintro ⟨rfl, h1, h4, hn, hb⟩
    refine ⟨⟨l.map BitVec.toNat, allSome_iff.mpr ?_, by simp [Function.comp_def]⟩, ?_⟩
    · rw [shownList, show ([0x2C] : Text) = [comma] from rfl, splitAt_intercalate comma]
      · rw [List.map_map, List.map_map]
        refine List.map_congr_left fun c hc => ?_
        exact (htwo _ _).mpr ⟨rfl, by have := hb c hc; omega⟩
      · intro h
        rw [List.map_eq_nil_iff] at h
        simp [h] at h1
      · intro w hw hcm
        obtain ⟨c, -, rfl⟩ := List.mem_map.mp hw
        exact absurd (hexText_allHex _ _ _ hcm) (by decide)
    · simp only [channelsInRange, Bool.and_eq_true, decide_eq_true_eq, List.all_eq_true]
      exact ⟨⟨⟨h1, h4⟩, hn⟩, fun c hc => by have := hb c hc; omega⟩

end Sys2Proof.Machine
end

