-- ==== Sys2Proof/Laws/FormLines.lean ====
section
/-!
SUPPORT. The readers of the five commands that write a table read exactly the lines of `RwrtLine`, `CsetLine`, `IcfgLine`, `TrwrLine` and `CcfgLine`, and
the digit check of a line is `BadDigits`.
-/

namespace Sys2Proof.Machine

/-! ### RWRT -/

theorem MonthDayForm.not_dash {f : Text} {w : BitVec 16} (h : MonthDayForm f w) : f ≠ dash := by
  intro e
  have := congrArg List.length (h.1.symm.trans e)
  simp [dash] at this

theorem dayFields_iff {kind day lo hi : Text} {k : BitVec 4} {dd : DayField} {ss : Option Season} :
    dayFields kind day lo hi = some (k, dd, ss) ↔ number 1 kind = some k.toNat
      ∧ (match dd with
        | .days set => k = 0 ∧ WeekdaysForm day set
        | .date w => k = 1 ∧ DateForm day w ∧ ss = none)
      ∧ (match ss with
        | none => lo = text "-" ∧ hi = text "-"
        | some x => MonthDayForm lo x.fromDay ∧ MonthDayForm hi x.untilDay) := by
  constructor
  · intro h
    unfold dayFields at h
    split at h
    · rename_i hk
      split at h
      · cases h
      · rename_i set hs
        split at h
        · rename_i hd
          cases h
          exact ⟨hk, ⟨rfl, weekdayField_iff.mp hs⟩, hd⟩
        · split at h
          · rename_i a b ha hb
            cases h
            exact ⟨hk, ⟨rfl, weekdayField_iff.mp hs⟩, monthDayField_iff.mp ha, monthDayField_iff.mp hb⟩
          · cases h
    · rename_i v hv hk
      have hv1 : v = 1 := by have := number_le hk; have h0 : v ≠ 0 := hv; omega
      subst hv1
      split at h
      · cases h
      · rename_i w hw
        split at h
        · rename_i hd
          cases h
          exact ⟨hk, ⟨rfl, dateField_iff.mp hw, rfl⟩, hd⟩
        · cases h
    · cases h
  · rintro ⟨hk, hd, hs⟩
    unfold dayFields
    cases dd with
    | days set =>
      obtain ⟨rfl, hw⟩ := hd
      rw [hk]
      rw [show (0 : BitVec 4).toNat = 0 from rfl]
      rw [weekdayField_iff.mpr hw]
      dsimp only
      cases ss with
      | none => exact if_pos (show lo = dash ∧ hi = dash from hs)
      | some x => rw [if_neg fun e => hs.1.not_dash e.1, monthDayField_iff.mpr hs.1, monthDayField_iff.mpr hs.2]; rfl
    | date w =>
      obtain ⟨rfl, hw, rfl⟩ := hd
      rw [hk, show (1 : BitVec 4).toNat = 1 from rfl]
      rw [dateField_iff.mpr hw]
      dsimp only
      exact if_pos (show lo = dash ∧ hi = dash from hs)

theorem timeFields_iff {f g : Text} {a b : BitVec 16} : timeFields f g = some (a, b) ↔ TimeForm f a ∧ TimeForm g b ∧ a ≠ b := by
  unfold timeFields
  constructor
  · intro h
    split at h
    · rename_i x y hx hy
      split at h
      · cases h
      · rename_i hne
        cases h
        exact ⟨timeField_iff.mp hx, timeField_iff.mp hy, hne⟩
    · cases h
  · rintro ⟨h1, h2, hne⟩
    rw [timeField_iff.mpr h1, timeField_iff.mpr h2]
    exact if_neg hne

theorem contentFields_iff {fk fc fl fb fp f0 f1 fd lo hi : Text} {c : Content} : contentFields fk fc fl fb fp f0 f1 fd lo hi = some c ↔
    number 1 fk = some c.kind.toNat ∧ ListForm fc c.channels ∧ number 0xFF fl = some c.level.toNat ∧ BlinkForm fb c.blink
      ∧ number 3 fp = some c.priority.toNat ∧ TimeForm f0 c.start ∧ TimeForm f1 c.stop ∧ c.start ≠ c.stop ∧ DayForm fd lo hi c := by
  constructor
  · intro h
    unfold contentFields at h
    split at h
    · rename_i d ch l b p t hd hch hl hb hp ht
      cases h
      obtain ⟨k, dd, ss⟩ := d
      obtain ⟨a, e⟩ := t
      obtain ⟨h1, h2, h3⟩ := dayFields_iff.mp hd
      obtain ⟨h4, h5, h6⟩ := timeFields_iff.mp ht
      refine ⟨h1, channelListField_iff.mp hch, levelField_iff.mp hl, blinkField_iff.mp hb, ?_, h4, h5, h6, h2, h3⟩
      have hpl := p.isLt
      rw [BitVec.toNat_ofNat, Nat.mod_eq_of_lt (by omega)]
      exact priorityField_iff.mp hp
    · cases h
  · rintro ⟨h1, h2, h3, h4, h5, h6, h7, h8, h9, h10⟩
    have hp := number_le h5
    have e5 : priorityField fp = some ⟨c.priority.toNat, by omega⟩ := priorityField_iff.mpr h5
    unfold contentFields
    rw [dayFields_iff.mpr ⟨h1, h9, h10⟩, channelListField_iff.mpr h2, levelField_iff.mpr h3, blinkField_iff.mpr h4, e5,
      timeFields_iff.mpr ⟨h6, h7, h8⟩]
    simp

theorem rwrtFields_iff {fields : List Text} {n : RecNo} {c : Content} {now : Bool} :
    rwrtFields fields = some (some (n, c, now)) ↔ RwrtLine fields n c now := by
  constructor
  · intro h
    unfold rwrtFields at h
    split at h
    · rename_i fn fk fc fl fb fp f0 f1 fd lo hi
      simp only [Option.some.injEq, Option.bind_eq_some_iff, Option.map_eq_some_iff, Prod.mk.injEq] at h
      obtain ⟨r, hr, c', hc, rfl, rfl, rfl⟩ := h
      exact ⟨fn, fk, fc, fl, fb, fp, f0, f1, fd, lo, hi, rfl, recordNumber_iff.mp hr, contentFields_iff.mp hc⟩
    · rename_i fn fk fc fl fb fp f0 f1 fd lo hi w
      split at h
      · rename_i hw
        simp only [Option.some.injEq, Option.bind_eq_some_iff, Option.map_eq_some_iff, Prod.mk.injEq] at h
        obtain ⟨r, hr, c', hc, rfl, rfl, rfl⟩ := h
        exact ⟨fn, fk, fc, fl, fb, fp, f0, f1, fd, lo, hi, by rw [hw]; rfl, recordNumber_iff.mp hr, contentFields_iff.mp hc⟩
      · cases h
    · cases h
  · rintro ⟨fn, fk, fc, fl, fb, fp, f0, f1, fd, lo, hi, rfl, hr, hc⟩
    cases now with
    | false =>
      simp only [Bool.false_eq_true, if_false, List.append_nil]
      dsimp only [rwrtFields]
      rw [recordNumber_iff.mpr hr, contentFields_iff.mpr hc]
      rfl
    | true =>
      simp only [if_true, List.cons_append, List.nil_append]
      dsimp only [rwrtFields]
      rw [if_pos (show text "NOW" = nowWord from rfl), recordNumber_iff.mpr hr, contentFields_iff.mpr hc]
      rfl

/-- RWRT's line has eleven fields, or twelve; the reader's outer answer is their number (R28, R29). -/
theorem rwrtFields_none {fields : List Text} : rwrtFields fields = none ↔ fields.length ≠ 11 ∧ fields.length ≠ 12 := by
  unfold rwrtFields
  split
  · simp
  · simp
  · rename_i h1 h2
    refine ⟨fun _ => ⟨fun h => ?_, fun h => ?_⟩, fun _ => rfl⟩
    · match fields, h with
      | [a, b, c, d, e, f, g, i, j, k, l], _ => exact h1 _ _ _ _ _ _ _ _ _ _ _ rfl
    · match fields, h with
      | [a, b, c, d, e, f, g, i, j, k, l, m], _ => exact h2 _ _ _ _ _ _ _ _ _ _ _ _ rfl

/-! ### CSET -/

theorem csetRequest_iff {fc fp fl fb fh : Text} {q : Request} : csetRequest fc fp fl fb fh = some q ↔
    ∃ chans prio lv blink hold, CsetLine [fc, fp, fl, fb, fh] chans prio lv blink hold
      ∧ q = ⟨.port, (toChans chans).map fun c => (c, lv), prio, blink, hold⟩ := by
  constructor
  · intro h
    unfold csetRequest at h
    split at h
    · rename_i ch p l b hd h1 h2 h3 h4 h5
      cases h
      exact ⟨ch, p, l, b, hd, ⟨fc, fp, fl, fb, fh, rfl, channelListField_iff.mp h1, priorityField_iff.mp h2, levelField_iff.mp h3, blinkField_iff.mp h4,
        holdField_iff.mp h5⟩, rfl⟩
    · cases h
  · rintro ⟨ch, p, l, b, hd, ⟨gc, gp, gl, gb, gh, he, h1, h2, h3, h4, h5⟩, rfl⟩
    cases he
    unfold csetRequest
    rw [channelListField_iff.mpr h1, priorityField_iff.mpr h2, levelField_iff.mpr h3, blinkField_iff.mpr h4, holdField_iff.mpr h5]

/-! ### ICFG -/

theorem bool_number {f : Text} {p : Nat} (h : number 1 f = some p) : number 1 f = some (p == 1).toNat := by
  have := number_le h
  have : p = 0 ∨ p = 1 := by omega
  rcases this with rfl | rfl <;> exact h

theorem icfgConfig_iff {fk fp fd fl : Text} {k : InputConfig} : icfgConfig fk fp fd fl = some k ↔ number 1 fp = some k.activeLow.toNat
    ∧ match k.kind with
      | .off => number 2 fk = some 0 ∧ fd = text "-" ∧ fl = text "-" ∧ k.debounce = none ∧ k.long = none
      | .push => number 2 fk = some 1 ∧ ∃ d l, 1 ≤ d ∧ number 0x64 fd = some d ∧ k.debounce = some d
          ∧ 1 ≤ l ∧ number 0x64 fl = some l ∧ k.long = some l
      | .level => number 2 fk = some 2 ∧ (∃ d, 1 ≤ d ∧ number 0x64 fd = some d ∧ k.debounce = some d) ∧ fl = text "-" ∧ k.long = none := by
  constructor
  · intro h
    unfold icfgConfig at h
    split at h
    · rename_i p hk hp
      split at h
      · rename_i hd
        cases h
        exact ⟨bool_number hp, hk, hd.1, hd.2, rfl, rfl⟩
      · cases h
    · rename_i p hk hp
      split at h
      · rename_i d l hd hl
        cases h
        exact ⟨bool_number hp, hk, d, l, (rangeField_iff.mp hd).1, (rangeField_iff.mp hd).2, rfl, (rangeField_iff.mp hl).1, (rangeField_iff.mp hl).2, rfl⟩
      · cases h
    · rename_i v p h0 h1 hk hp
      have hv : v = 2 := by
        have := number_le hk
        have h0' : v ≠ 0 := h0
        have h1' : v ≠ 1 := h1
        omega
      subst hv
      split at h
      · rename_i hl
        obtain ⟨d, hd, rfl⟩ := Option.map_eq_some_iff.mp h
        exact ⟨bool_number hp, hk, ⟨d, (rangeField_iff.mp hd).1, (rangeField_iff.mp hd).2, rfl⟩, hl, rfl⟩
      · cases h
    · cases h
  · rintro ⟨hp, h⟩
    obtain ⟨kind, low, deb, long⟩ := k
    dsimp only at hp h
    have hlow : (low.toNat == 1) = low := by cases low <;> rfl
    unfold icfgConfig
    cases kind with
    | off =>
      obtain ⟨hk, h1, h2, rfl, rfl⟩ := h
      simp only [hk, hp]
      rw [if_pos (show fd = dash ∧ fl = dash from ⟨h1, h2⟩), hlow]
    | push =>
      obtain ⟨hk, d, l, hd1, hd, rfl, hl1, hl, rfl⟩ := h
      simp only [hk, hp]
      rw [rangeField_iff.mpr ⟨hd1, hd⟩, rangeField_iff.mpr ⟨hl1, hl⟩]
      simp only [hlow]
    | level =>
      obtain ⟨hk, ⟨d, hd1, hd, rfl⟩, hl, rfl⟩ := h
      simp only [hk, hp]
      rw [if_pos (show fl = dash from hl), rangeField_iff.mpr ⟨hd1, hd⟩]
      simp only [Option.map_some, hlow]

theorem icfg_iff {fi fk fp fd fl : Text} {i : InputNo} {k : InputConfig} :
    (inputNumber fi = some i ∧ icfgConfig fk fp fd fl = some k) ↔ IcfgLine [fi, fk, fp, fd, fl] i k := by
  rw [inputNumber_iff, icfgConfig_iff]
  constructor
  · rintro ⟨h1, h2, h3⟩
    exact ⟨fi, fk, fp, fd, fl, rfl, h1, h2, h3⟩
  · rintro ⟨_, _, _, _, _, he, h1, h2, h3⟩
    cases he
    exact ⟨h1, h2, h3⟩

/-! ### TRWR -/

theorem two_bits {a : BitVec 4} : a = 2 ↔ a.toNat = 2 := by
  constructor
  · rintro rfl; rfl
  · intro h; exact BitVec.eq_of_toNat_eq h

theorem actionFields_iff {fa fl fb fh : Text} {a : BitVec 4} {lv : Option (BitVec 8)} {b : Option Blink} {hd : Option (BitVec 16)} :
    actionFields fa fl fb fh = some (a, lv, b, hd) ↔ number 2 fa = some a.toNat
      ∧ (a = 2 → fl = text "-" ∧ fb = text "-" ∧ fh = text "-" ∧ lv = none ∧ b = none ∧ hd = none)
      ∧ (a ≠ 2 → (∃ x, lv = some x ∧ number 0xFF fl = some x.toNat ∧ (a = 1 → x ≠ 0)) ∧ BlinkForm fb b ∧ HoldForm fh hd) := by
  constructor
  · intro h
    unfold actionFields at h
    split at h
    · cases h
    · rename_i hk
      split at h
      · rename_i hd'
        cases h
        exact ⟨hk, fun _ => ⟨hd'.1, hd'.2.1, hd'.2.2, rfl, rfl, rfl⟩, fun hn => absurd rfl hn⟩
      · cases h
    · rename_i v hv hk
      have hle := number_le hk
      have hv2 : v ≠ 2 := fun e => hv (by rw [e])
      split at h
      · rename_i x y z h1 h2 h3
        split at h
        · cases h
        · rename_i h0
          cases h
          have ht : (BitVec.ofNat 4 v).toNat = v := by rw [BitVec.toNat_ofNat, Nat.mod_eq_of_lt (by omega)]
          refine ⟨by rw [ht]; exact hk, fun e => absurd (ht.symm.trans (two_bits.mp e)) hv2, fun _ =>
            ⟨⟨x, rfl, levelField_iff.mp h1, fun e1 e0 => h0 ⟨?_, e0⟩⟩, blinkField_iff.mp h2, holdField_iff.mp h3⟩⟩
          rw [← ht, e1]
          rfl
      · cases h
  · rintro ⟨hk, h2, hn2⟩
    unfold actionFields
    rw [hk]
    by_cases ha : a = 2
    · obtain ⟨e1, e2, e3, rfl, rfl, rfl⟩ := h2 ha
      subst ha
      rw [show (2 : BitVec 4).toNat = 2 from rfl]
      exact if_pos (show fl = dash ∧ fb = dash ∧ fh = dash from ⟨e1, e2, e3⟩)
    · obtain ⟨⟨x, rfl, hl, h0⟩, hb, hh⟩ := hn2 ha
      have hn : a.toNat ≠ 2 := fun e => ha (two_bits.mpr e)
      split
      · rename_i e; cases e
      · rename_i e; exact absurd (Option.some.inj e) hn
      · rename_i v hv e
        obtain rfl := Option.some.inj e
        rw [levelField_iff.mpr hl, blinkField_iff.mpr hb, holdField_iff.mpr hh]
        dsimp only
        rw [if_neg fun e1 => h0 (BitVec.eq_of_toNat_eq e1.1) e1.2]
        simp

theorem trwrRule_iff {fi fe fa fc fp fl fb fh : Text} {r : RuleFields} : trwrRule fi fe fa fc fp fl fb fh = some r ↔
    number 7 fi = some r.input.toNat ∧ number 4 fe = some r.event.toNat ∧ number 2 fa = some r.action.toNat ∧ ListForm fc r.channels
      ∧ number 3 fp = some r.priority.toNat
      ∧ (r.action = 2 → fl = text "-" ∧ fb = text "-" ∧ fh = text "-" ∧ r.level = none ∧ r.blink = none ∧ r.hold = none)
      ∧ (r.action ≠ 2 → (∃ lv, r.level = some lv ∧ number 0xFF fl = some lv.toNat ∧ (r.action = 1 → lv ≠ 0))
        ∧ BlinkForm fb r.blink ∧ HoldForm fh r.hold) := by
  constructor
  · intro h
    unfold trwrRule at h
    split at h
    · rename_i i e a ch p h1 h2 h3 h4 h5
      cases h
      obtain ⟨a, lv, b, hd⟩ := a
      obtain ⟨g1, g2, g3⟩ := actionFields_iff.mp h3
      have hi := i.isLt
      have hp := p.isLt
      have he := number_le h2
      refine ⟨?_, ?_, g1, channelListField_iff.mp h4, ?_, g2, g3⟩
      · rw [BitVec.toNat_ofNat, Nat.mod_eq_of_lt (by omega)]; exact inputNumber_iff.mp h1
      · rw [BitVec.toNat_ofNat, Nat.mod_eq_of_lt (by omega)]; exact h2
      · rw [BitVec.toNat_ofNat, Nat.mod_eq_of_lt (by omega)]; exact priorityField_iff.mp h5
    · cases h
  · rintro ⟨h1, h2, h3, h4, h5, h6, h7⟩
    have hi := number_le h1
    have hp := number_le h5
    have e1 : inputNumber fi = some ⟨r.input.toNat, by omega⟩ := inputNumber_iff.mpr h1
    have e5 : priorityField fp = some ⟨r.priority.toNat, by omega⟩ := priorityField_iff.mpr h5
    unfold trwrRule
    rw [e1, h2, actionFields_iff.mpr ⟨h3, h6, h7⟩, channelListField_iff.mpr h4, e5]
    simp

theorem trwrFields_iff {fields : List Text} {n : RuleNo} {r : Option RuleFields} :
    trwrFields fields = some (some (n, r)) ↔ TrwrLine fields n r := by
  constructor
  · intro h
    unfold trwrFields at h
    split at h
    · rename_i fn x
      split at h
      · rename_i hx
        simp only [Option.some.injEq, Option.map_eq_some_iff, Prod.mk.injEq] at h
        obtain ⟨m, hm, rfl, rfl⟩ := h
        exact ⟨fn, by rw [hx]; rfl, ruleNumber_iff.mp hm⟩
      · cases h
    · rename_i fn fi fe fa fc fp fl fb fh
      simp only [Option.some.injEq, Option.bind_eq_some_iff, Option.map_eq_some_iff, Prod.mk.injEq] at h
      obtain ⟨m, hm, f, hf, rfl, rfl⟩ := h
      exact ⟨fn, fi, fe, fa, fc, fp, fl, fb, fh, rfl, ruleNumber_iff.mp hm, trwrRule_iff.mp hf⟩
    · cases h
  · cases r with
    | none =>
      rintro ⟨fn, rfl, hn⟩
      dsimp only [trwrFields]
      rw [if_pos dash_eq.symm, ruleNumber_iff.mpr hn]
      rfl
    | some f =>
      rintro ⟨fn, fi, fe, fa, fc, fp, fl, fb, fh, rfl, hn, hf⟩
      dsimp only [trwrFields]
      rw [ruleNumber_iff.mpr hn, trwrRule_iff.mpr hf]
      rfl

/-- TRWR's line has nine fields, or two with "-" second; the reader's outer answer is that (R116). -/
theorem trwrFields_none {fields : List Text} : trwrFields fields = none ↔ fields.length ≠ 9 ∧ ∀ f, fields ≠ [f, text "-"] := by
  unfold trwrFields
  split
  · rename_i n x
    split
    · rename_i hx
      simp [hx, dash_eq]
    · rename_i hx
      simp only [true_iff]
      exact ⟨by simp, fun f e => hx (by cases e; rfl)⟩
  · simp
  · rename_i h2 h9
    refine ⟨fun _ => ⟨fun h => ?_, fun f h => h2 _ _ h⟩, fun _ => rfl⟩
    match fields, h with
    | [a, b, c, d, e, f, g, i, j], _ => exact h9 _ _ _ _ _ _ _ _ _ rfl

/-! ### CCFG -/

theorem kindOf_iff {f : Text} {v : Nat} {k : ChanKind} (h : number 2 f = some v) :
    kindOf v = k ↔ number 2 f = some (match k with | .switched => 0 | .dimmed => 1 | .pulsed => 2) := by
  have := number_le h
  have hv : v = 0 ∨ v = 1 ∨ v = 2 := by omega
  rcases hv with rfl | rfl | rfl <;> cases k <;> simp [kindOf, h]

theorem lengthField_iff {held v : BitVec 8} {f : Text} :
    lengthField held f = some v ↔ f = text "-" ∧ v = held ∨ v ≠ 0 ∧ number 0xFF f = some v.toNat := by
  unfold lengthField
  by_cases hf : f = dash
  · subst hf
    rw [if_pos rfl]
    constructor
    · intro h; cases h; exact Or.inl ⟨rfl, rfl⟩
    · rintro (⟨-, rfl⟩ | ⟨-, h⟩)
      · rfl
      · exact absurd h dash_not_number
  · rw [if_neg hf, Option.bind_eq_some_iff]
    constructor
    · rintro ⟨n, hn, h⟩
      split at h
      · cases h
      · rename_i h0
        cases h
        have hl := number_le hn
        refine Or.inr ⟨fun e => h0 ?_, ?_⟩
        · have := congrArg BitVec.toNat e
          simp only [BitVec.toNat_ofNat, BitVec.ofNat_eq_ofNat] at this
          omega
        · rw [BitVec.toNat_ofNat, Nat.mod_eq_of_lt (by omega)]
          exact hn
    · rintro (⟨h, -⟩ | ⟨h0, h⟩)
      · exact absurd h hf
      · refine ⟨v.toNat, h, ?_⟩
        rw [if_neg fun e : v.toNat = 0 => h0 (BitVec.eq_of_toNat_eq e)]
        simp

theorem pulseFields_iff {kind : ChanKind} {held v : BitVec 8} {pinA : Pin} {pb : Option Pin} {fb fl : Text} :
    pulseFields kind held pinA fb fl = some (pb, v) ↔
      (kind = .pulsed → (∃ b, pb = some b ∧ number 0x1F fb = some b.val ∧ b ≠ pinA)
        ∧ (fl = text "-" ∧ v = held ∨ v ≠ 0 ∧ number 0xFF fl = some v.toNat))
      ∧ (kind ≠ .pulsed → fb = text "-" ∧ fl = text "-" ∧ pb = none ∧ v = held) := by
  have hplain : ∀ k : ChanKind, k ≠ .pulsed → pulseFields k held pinA fb fl = if fb = dash ∧ fl = dash then some (none, held) else none := by
    intro k hk
    cases k <;> first | rfl | exact absurd rfl hk
  by_cases hk : kind = .pulsed
  · subst hk
    simp only [true_implies, ne_eq, not_true_eq_false, false_implies, and_true]
    rw [← lengthField_iff]
    unfold pulseFields
    dsimp only
    constructor
    · intro h
      split at h
      · rename_i b l hb hl
        split at h
        · cases h
        · rename_i hne
          cases h
          exact ⟨⟨b, rfl, pinField_iff.mp hb, hne⟩, hl⟩
      · cases h
    · rintro ⟨⟨b, rfl, hb, hne⟩, hl⟩
      rw [pinField_iff.mpr hb, hl]
      exact if_neg hne
  · rw [hplain kind hk]
    simp only [hk, false_implies, true_and, ne_eq, not_false_eq_true, true_implies]
    constructor
    · intro h
      split at h
      · rename_i hd
        cases h
        exact ⟨hd.1, hd.2, rfl, rfl⟩
      · cases h
    · rintro ⟨h1, h2, rfl, rfl⟩
      rw [if_pos ⟨h1, h2⟩]

theorem ccfg_iff {held : BitVec 8} {fc fk fr fp fo fa fb fl : Text} {c : Chan} {k : ChannelConfig} :
    (plainChannel fc = some c ∧ ccfgConfig held fk fr fp fo fa fb fl = some k) ↔ CcfgLine held [fc, fk, fr, fp, fo, fa, fb, fl] c k := by
  constructor
  · rintro ⟨hc, h⟩
    unfold ccfgConfig at h
    split at h
    · rename_i v r p l a h1 h2 h3 h4 h5
      obtain ⟨x, hx, rfl⟩ := Option.map_eq_some_iff.mp h
      obtain ⟨g1, g2⟩ := pulseFields_iff.mp hx
      exact ⟨fc, fk, fr, fp, fo, fa, fb, fl, rfl, plainChannel_iff.mp hc, (kindOf_iff h1).mp rfl, levelField_iff.mp h2, priorityField_iff.mp h3,
        bool_number h4, pinField_iff.mp h5, g1, g2⟩
    · cases h
  · rintro ⟨_, _, _, _, _, _, _, _, he, hc, h1, h2, h3, h4, h5, g1, g2⟩
    cases he
    refine ⟨plainChannel_iff.mpr hc, ?_⟩
    unfold ccfgConfig
    rw [h1, levelField_iff.mpr h2, priorityField_iff.mpr h3, h4, pinField_iff.mpr h5]
    dsimp only
    rw [(kindOf_iff h1).mpr h1, pulseFields_iff.mpr ⟨g1, g2⟩]
    have hlow : (k.activeLow.toNat == 1) = k.activeLow := by cases k.activeLow <;> rfl
    rw [hlow]
    rfl

/-! ### The digit check -/

theorem fieldsText_length (fields : List Text) : fields.length ≤ (Text.fieldsText fields).length := by
  induction fields with
  | nil => simp
  | cons f fields ih =>
    unfold Text.fieldsText at ih ⊢
    rw [List.flatMap_cons, List.length_append, List.length_cons, List.length_cons]
    omega

/-- A line of a four-letter command that the host can write has 75 fields at most. -/
theorem lineTaken_fields {word : Text} {fields : List Text} {s : State} (h : lineTaken word fields s = true) (hw : word.length = 4) :
    fields.length ≤ everyField := by
  simp only [lineTaken, Bool.and_eq_true, decide_eq_true_eq, lineText, List.length_append, Config.lineMax] at h
  have := fieldsText_length fields
  have := h.1.2
  unfold everyField
  omega

/-- The digit check of a command whose every field may be "-". -/
theorem bad_iff {list word : Option Nat} {fields : List Text} (hl : fields.length ≤ everyField) :
    (⟨list, List.range everyField, word⟩ : DigitRule).bad fields = true ↔ BadDigits list word fields := by
  unfold DigitRule.bad BadDigits
  rw [List.any_eq_true]
  constructor
  · rintro ⟨⟨f, i⟩, hm, hb⟩
    have hget := List.mem_zipIdx_iff_getElem?.mp hm
    dsimp only at hget
    have hi : i < fields.length := (List.getElem?_eq_some_iff.mp hget).1
    simp only [DigitRule.fieldOk, Bool.not_or, Bool.and_eq_true, Bool.not_eq_true', beq_eq_false_iff_ne, ne_eq, Bool.and_eq_false_iff,
      List.all_eq_false, Bool.or_eq_true, not_or] at hb
    obtain ⟨⟨hw, hd⟩, b, hbm, hx, hcm⟩ := hb
    refine ⟨i, f, b, hget, hw, ?_, hbm, by simpa using hx, by simpa [comma] using hcm⟩
    rcases hd with h | h
    · rw [List.contains_eq_mem, decide_eq_false_iff_not, List.mem_range] at h
      omega
    · exact h
  · rintro ⟨i, f, b, hget, hw, hd, hbm, hx, hcm⟩
    refine ⟨(f, i), List.mem_zipIdx_iff_getElem?.mpr hget, ?_⟩
    simp only [DigitRule.fieldOk, Bool.not_or, Bool.and_eq_true, Bool.not_eq_true', beq_eq_false_iff_ne, ne_eq, Bool.and_eq_false_iff,
      List.all_eq_false, Bool.or_eq_true, not_or]
    exact ⟨⟨hw, Or.inr hd⟩, b, hbm, by simp [hx], by simpa [comma] using hcm⟩

theorem not_bad_iff {list word : Option Nat} {fields : List Text} (hl : fields.length ≤ everyField) :
    (⟨list, List.range everyField, word⟩ : DigitRule).bad fields = false ↔ ¬ BadDigits list word fields := by
  rw [← bad_iff hl, Bool.not_eq_true]

/-! ### A line of the form passes the digit check -/

theorem ListForm.ok {r : DigitRule} {i : Nat} {f : Text} {l : List (BitVec 8)} (hi : r.commaAt = some i) (h : ListForm f l) : r.fieldOk i f = true :=
  fieldOk_channelList r hi (channelListField_iff.mpr h)

theorem BlinkForm.hexOrDash {f : Text} {b : Option Blink} (h : BlinkForm f b) : f = dash ∨ allHex f := by
  cases b with
  | none => exact Or.inl h
  | some b =>
    right
    rw [h.1]
    intro x hx
    rcases List.mem_append.mp hx with hx | hx <;> exact hexText_allHex _ _ x hx

theorem HoldForm.hexOrDash {f : Text} {h : Option (BitVec 16)} (hf : HoldForm f h) : f = dash ∨ allHex f := holdField_hexOrDash (holdField_iff.mpr hf)

theorem MonthDayForm.allHex {f : Text} {w : BitVec 16} (h : MonthDayForm f w) : Machine.allHex f := by rw [h.1]; exact hexText_allHex _ _

theorem DayForm.hexOrDash {fd lo hi : Text} {c : Content} (h : DayForm fd lo hi c) :
    allHex fd ∧ (lo = dash ∨ allHex lo) ∧ (hi = dash ∨ allHex hi) := by
  obtain ⟨h1, h2⟩ := h
  refine ⟨?_, ?_⟩
  · cases hd : c.day with
    | days set =>
      rw [hd] at h1
      intro b hb
      have hr := h1.2.2.2.1 b hb
      have : (hexVal b).isSome = true := by
        unfold hexVal
        rw [if_pos (by omega)]
        rfl
      exact this
    | date w =>
      rw [hd] at h1
      rw [h1.2.1.1]
      exact hexText_allHex _ _
  · cases hs : c.season with
    | none => rw [hs] at h2; exact ⟨Or.inl h2.1, Or.inl h2.2⟩
    | some x => rw [hs] at h2; exact ⟨Or.inr h2.1.allHex, Or.inr h2.2.allHex⟩

/-- A field of digits or "-" passes where every field may be "-". -/
theorem dashOk (list word : Option Nat) {i : Nat} {f : Text} (hi : i < everyField) (h : f = dash ∨ allHex f) :
    (⟨list, List.range everyField, word⟩ : DigitRule).fieldOk i f = true := fieldOk_hexOrDash _ (List.mem_range.mpr hi) h

theorem RwrtLine.digits {fields : List Text} {n : RecNo} {c : Content} {now : Bool} (h : RwrtLine fields n c now) : rwrtDigits.bad fields = false := by
  obtain ⟨fn, fk, fc, fl, fb, fp, f0, f1, fd, lo, hi, rfl, h1, h2, h3, h4, h5, h6, h7, h8, -, h9⟩ := h
  obtain ⟨g1, g2, g3⟩ := h9.hexOrDash
  have hx : ∀ {i f}, allHex f → rwrtDigits.fieldOk i f = true := fun h => fieldOk_of_allHex _ _ h
  have hb := dashOk (some 2) (some 11) (i := 4) (by decide) h5.hexOrDash
  have hl := dashOk (some 2) (some 11) (i := 9) (by decide) g2
  have hu := dashOk (some 2) (some 11) (i := 10) (by decide) g3
  have h0 : allHex f0 := by rw [h7.1]; exact hexText_allHex _ _
  have he : allHex f1 := by rw [h8.1]; exact hexText_allHex _ _
  have hc : rwrtDigits.fieldOk 2 fc = true := h3.ok rfl
  rw [bad_false_iff]
  cases now with
  | false =>
    simp only [Bool.false_eq_true, if_false, List.append_nil, List.zipIdx_cons, List.zipIdx_nil, List.forall_mem_cons, List.not_mem_nil, false_implies,
      implies_true, and_true, Nat.zero_add, Nat.reduceAdd]
    exact ⟨hx (number_allHex h1), hx (number_allHex h2), hc, hx (number_allHex h4), hb, hx (number_allHex h6), hx h0, hx he, hx g1, hl, hu⟩
  | true =>
    simp only [if_true, List.cons_append, List.nil_append, List.zipIdx_cons, List.zipIdx_nil, List.forall_mem_cons, List.not_mem_nil, false_implies,
      implies_true, and_true, Nat.zero_add, Nat.reduceAdd]
    exact ⟨hx (number_allHex h1), hx (number_allHex h2), hc, hx (number_allHex h4), hb, hx (number_allHex h6), hx h0, hx he, hx g1, hl, hu, rfl⟩

theorem CsetLine.digits {fields : List Text} {l : List (BitVec 8)} {p : Fin 4} {lv : BitVec 8} {b : Option Blink} {h : Option (BitVec 16)}
    (hl : CsetLine fields l p lv b h) : (DigitRule.dashes (some 0) everyField).bad fields = false := by
  obtain ⟨fc, fp, fl, fb, fh, rfl, h1, h2, h3, h4, h5⟩ := hl
  rw [bad_false_iff]
  simp only [List.zipIdx_cons, List.zipIdx_nil, List.forall_mem_cons, List.not_mem_nil, false_implies, implies_true, and_true, Nat.zero_add, Nat.reduceAdd]
  exact ⟨h1.ok rfl, fieldOk_of_allHex _ _ (number_allHex h2), fieldOk_of_allHex _ _ (number_allHex h3), dashOk _ _ (by decide) h4.hexOrDash,
    dashOk _ _ (by decide) h5.hexOrDash⟩

theorem IcfgLine.digits {fields : List Text} {i : InputNo} {k : InputConfig} (h : IcfgLine fields i k) :
    (⟨none, [3, 4], none⟩ : DigitRule).bad fields = false := by
  obtain ⟨fi, fk, fp, fd, fl, rfl, h1, h2, h3⟩ := h
  have h4 : (∃ v, number 2 fk = some v) ∧ (fd = dash ∨ allHex fd) ∧ (fl = dash ∨ allHex fl) := by
    cases hk : k.kind with
    | off => rw [hk] at h3; exact ⟨⟨_, h3.1⟩, Or.inl h3.2.1, Or.inl h3.2.2.1⟩
    | push =>
      rw [hk] at h3
      obtain ⟨g, d, l, -, hd, -, -, hl, -⟩ := h3
      exact ⟨⟨_, g⟩, Or.inr (number_allHex hd), Or.inr (number_allHex hl)⟩
    | level =>
      rw [hk] at h3
      obtain ⟨g, ⟨d, -, hd, -⟩, hl, -⟩ := h3
      exact ⟨⟨_, g⟩, Or.inr (number_allHex hd), Or.inl hl⟩
  obtain ⟨⟨v, h5⟩, h6, h7⟩ := h4
  rw [bad_false_iff]
  simp only [List.zipIdx_cons, List.zipIdx_nil, List.forall_mem_cons, List.not_mem_nil, false_implies, implies_true, and_true, Nat.zero_add, Nat.reduceAdd]
  exact ⟨fieldOk_of_allHex _ _ (number_allHex h1), fieldOk_of_allHex _ _ (number_allHex h5), fieldOk_of_allHex _ _ (number_allHex h2),
    fieldOk_hexOrDash _ (by simp) h6, fieldOk_hexOrDash _ (by simp) h7⟩

theorem TrwrLine.digits {fields : List Text} {n : RuleNo} {r : Option RuleFields} (h : TrwrLine fields n r) :
    (DigitRule.dashes (some 4) everyField).bad fields = false := by
  rw [bad_false_iff]
  cases r with
  | none =>
    obtain ⟨fn, rfl, h1⟩ := h
    simp only [List.zipIdx_cons, List.zipIdx_nil, List.forall_mem_cons, List.not_mem_nil, false_implies, implies_true, and_true, Nat.zero_add, Nat.reduceAdd]
    exact ⟨fieldOk_of_allHex _ _ (number_allHex h1), dashOk _ _ (by decide) (Or.inl rfl)⟩
  | some r =>
    obtain ⟨fn, fi, fe, fa, fc, fp, fl, fb, fh, rfl, h1, h2, h3, h4, h5, h6, h7, h8⟩ := h
    have h9 : (fl = dash ∨ allHex fl) ∧ (fb = dash ∨ allHex fb) ∧ (fh = dash ∨ allHex fh) := by
      by_cases ha : r.action = 2
      · exact ⟨Or.inl (h7 ha).1, Or.inl (h7 ha).2.1, Or.inl (h7 ha).2.2.1⟩
      · obtain ⟨⟨lv, -, hl, -⟩, hb, hh⟩ := h8 ha
        exact ⟨Or.inr (number_allHex hl), hb.hexOrDash, hh.hexOrDash⟩
    simp only [List.zipIdx_cons, List.zipIdx_nil, List.forall_mem_cons, List.not_mem_nil, false_implies, implies_true, and_true, Nat.zero_add, Nat.reduceAdd]
    exact ⟨fieldOk_of_allHex _ _ (number_allHex h1), fieldOk_of_allHex _ _ (number_allHex h2), fieldOk_of_allHex _ _ (number_allHex h3),
      fieldOk_of_allHex _ _ (number_allHex h4), h5.ok rfl, fieldOk_of_allHex _ _ (number_allHex h6), dashOk _ _ (by decide) h9.1,
      dashOk _ _ (by decide) h9.2.1, dashOk _ _ (by decide) h9.2.2⟩

theorem CcfgLine.digits {held : BitVec 8} {fields : List Text} {c : Chan} {k : ChannelConfig} (h : CcfgLine held fields c k) :
    (DigitRule.dashes none everyField).bad fields = false := by
  obtain ⟨fc, fk, fr, fp, fo, fa, fb, fl, rfl, h1, h2, h3, h4, h5, h6, h7, h8⟩ := h
  have h9 : (fb = dash ∨ allHex fb) ∧ (fl = dash ∨ allHex fl) := by
    by_cases hk : k.kind = .pulsed
    · obtain ⟨⟨b, -, hb, -⟩, hl⟩ := h7 hk
      exact ⟨Or.inr (number_allHex hb), hl.elim (fun h => Or.inl h.1) fun h => Or.inr (number_allHex h.2)⟩
    · exact ⟨Or.inl (h8 hk).1, Or.inl (h8 hk).2.1⟩
  rw [bad_false_iff]
  simp only [List.zipIdx_cons, List.zipIdx_nil, List.forall_mem_cons, List.not_mem_nil, false_implies, implies_true, and_true, Nat.zero_add, Nat.reduceAdd]
  exact ⟨fieldOk_of_allHex _ _ (number_allHex h1), fieldOk_of_allHex _ _ (number_allHex h2), fieldOk_of_allHex _ _ (number_allHex h3),
    fieldOk_of_allHex _ _ (number_allHex h4), fieldOk_of_allHex _ _ (number_allHex h5), fieldOk_of_allHex _ _ (number_allHex h6),
    dashOk _ _ (by decide) h9.1, dashOk _ _ (by decide) h9.2⟩

/-! ### What a body makes of its line -/

/-- RWRT's reading of a line: the checks of R29 in their order, then the lock of R43 and the write. -/
theorem bodyRwrt_cases {fields : List Text} (hl : fields.length ≤ everyField) (s : State) :
    (BadDigits (some 2) (some 11) fields → bodyRwrt fields s = refuse .badDigit s)
    ∧ (¬ BadDigits (some 2) (some 11) fields →
      (fields.length ≠ 11 → fields.length ≠ 12 → bodyRwrt fields s = refuse .fieldCount s)
      ∧ (fields.length = 11 ∨ fields.length = 12 → (∀ n c now, ¬ RwrtLine fields n c now) → bodyRwrt fields s = refuse .range s))
    ∧ ∀ n c now, RwrtLine fields n c now →
      bodyRwrt fields s = if lockedRecord n s then refuse .frozen s else writeRecord n c now s := by
  have hiff : rwrtDigits.bad fields = true ↔ BadDigits (some 2) (some 11) fields := bad_iff hl
  refine ⟨fun h => ?_, fun h => ⟨fun h1 h2 => ?_, fun h1 h2 => ?_⟩, fun n c now h => ?_⟩ <;> unfold bodyRwrt
  · rw [if_pos (hiff.mpr h)]
  · rw [if_neg (fun e => h (hiff.mp e)), rwrtFields_none.mpr ⟨h1, h2⟩]
  · rw [if_neg (fun e => h (hiff.mp e))]
    cases hr : rwrtFields fields with
    | none => have := rwrtFields_none.mp hr; omega
    | some o =>
      cases o with
      | none => rfl
      | some v => exact absurd (rwrtFields_iff.mp hr) (h2 v.1 v.2.1 v.2.2)
  · rw [if_neg (by rw [h.digits]; simp), rwrtFields_iff.mpr h]

theorem length_five {fields : List Text} (h : fields.length = 5) : ∃ a b c d e, fields = [a, b, c, d, e] := by
  match fields, h with
  | [a, b, c, d, e], _ => exact ⟨a, b, c, d, e, rfl⟩

theorem length_eight {fields : List Text} (h : fields.length = 8) : ∃ a b c d e f g i, fields = [a, b, c, d, e, f, g, i] := by
  match fields, h with
  | [a, b, c, d, e, f, g, i], _ => exact ⟨a, b, c, d, e, f, g, i, rfl⟩

/-- CSET's reading of a line (R93), then its request (R94). -/
theorem bodyCset_cases {fields : List Text} (hl : fields.length ≤ everyField) (s : State) :
    (BadDigits (some 0) none fields → bodyCset fields s = refuse .badDigit s)
    ∧ (¬ BadDigits (some 0) none fields →
      (fields.length ≠ 5 → bodyCset fields s = refuse .fieldCount s)
      ∧ (fields.length = 5 → (∀ l p lv b h, ¬ CsetLine fields l p lv b h) → bodyCset fields s = refuse .range s))
    ∧ ∀ l p lv b h, CsetLine fields l p lv b h →
      bodyCset fields s = portRequest ⟨.port, (toChans l).map fun c => (c, lv), p, b, h⟩ s := by
  have hiff : (DigitRule.dashes (some 0) everyField).bad fields = true ↔ BadDigits (some 0) none fields := bad_iff hl
  refine ⟨fun h => ?_, fun h => ⟨fun h1 => ?_, fun h1 h2 => ?_⟩, fun l p lv b hd h => ?_⟩ <;> unfold bodyCset
  · rw [if_pos (hiff.mpr h)]
  · rw [if_neg (fun e => h (hiff.mp e))]
    split
    · exact absurd rfl h1
    · rfl
  · rw [if_neg (fun e => h (hiff.mp e))]
    obtain ⟨a, b, c, d, e, rfl⟩ := length_five h1
    dsimp only
    cases hr : csetRequest a b c d e with
    | none => rfl
    | some q =>
      obtain ⟨l, p, lv, bl, hd, hq, -⟩ := csetRequest_iff.mp hr
      exact absurd hq (h2 _ _ _ _ _)
  · rw [if_neg (by rw [h.digits]; simp)]
    have h' := h
    obtain ⟨a, b', c, d, e, rfl, -⟩ := h'
    dsimp only
    rw [csetRequest_iff.mpr ⟨l, p, lv, b, hd, h, rfl⟩]

/-- The digit check of ICFG: "-" passes as debounce time and long threshold (R118; log 15). -/
theorem icfg_bad_iff {fields : List Text} : (⟨none, [3, 4], none⟩ : DigitRule).bad fields = true ↔
    ∃ i f b, fields[i]? = some f ∧ ¬ (f = text "-" ∧ (i = 3 ∨ i = 4)) ∧ b ∈ f ∧ isHex b = false := by
  unfold DigitRule.bad
  rw [List.any_eq_true]
  constructor
  · rintro ⟨⟨f, i⟩, hm, hb⟩
    have hget := List.mem_zipIdx_iff_getElem?.mp hm
    simp [DigitRule.fieldOk] at hb
    obtain ⟨hd, b, hbm, hx⟩ := hb
    exact ⟨i, f, b, hget, fun e => hd.elim (fun h => e.2.elim h.1 h.2) fun h => h e.1, hbm, hx⟩
  · rintro ⟨i, f, b, hget, hd, hbm, hx⟩
    refine ⟨(f, i), List.mem_zipIdx_iff_getElem?.mpr hget, ?_⟩
    simp [DigitRule.fieldOk]
    refine ⟨?_, b, hbm, hx⟩
    by_cases hf : f = dash
    · exact Or.inl ⟨fun h => hd ⟨hf, Or.inl h⟩, fun h => hd ⟨hf, Or.inr h⟩⟩
    · exact Or.inr hf

/-- ICFG's reading of a line, then its effect (R118). -/
theorem bodyIcfg_cases {fields : List Text} {bad : Prop} (s : State)
    (hb : bad = ∃ i f b, fields[i]? = some f ∧ ¬ (f = text "-" ∧ (i = 3 ∨ i = 4)) ∧ b ∈ f ∧ isHex b = false) :
    (bad → bodyIcfg fields s = refuse .badDigit s)
    ∧ (¬ bad →
      (fields.length ≠ 5 → bodyIcfg fields s = refuse .fieldCount s)
      ∧ (fields.length = 5 → (∀ i k, ¬ IcfgLine fields i k) → bodyIcfg fields s = refuse .range s))
    ∧ ∀ i k, IcfgLine fields i k → bodyIcfg fields s = accept [] (configureInput i k s) := by
  have hiff : (⟨none, [3, 4], none⟩ : DigitRule).bad fields = true ↔ bad := by rw [hb]; exact icfg_bad_iff
  refine ⟨fun h => ?_, fun h => ⟨fun h1 => ?_, fun h1 h2 => ?_⟩, fun i k h => ?_⟩ <;> unfold bodyIcfg
  · rw [if_pos (hiff.mpr h)]
  · rw [if_neg (fun e => h (hiff.mp e))]
    split
    · exact absurd rfl h1
    · rfl
  · rw [if_neg (fun e => h (hiff.mp e))]
    obtain ⟨a, b, c, d, e, rfl⟩ := length_five h1
    dsimp only
    split
    · rename_i i k hi hk
      exact absurd (icfg_iff.mp ⟨hi, hk⟩) (h2 i k)
    · rfl
  · rw [if_neg (by rw [h.digits]; simp)]
    have h' := h
    obtain ⟨a, b', c, d, e, rfl, -⟩ := h'
    dsimp only
    rw [(icfg_iff.mpr h).1, (icfg_iff.mpr h).2]

/-- TRWR's reading of a line, then its effect (R116). -/
theorem bodyTrwr_cases {fields : List Text} (hl : fields.length ≤ everyField) (s : State) :
    (BadDigits (some 4) none fields → bodyTrwr fields s = refuse .badDigit s)
    ∧ (¬ BadDigits (some 4) none fields →
      (fields.length ≠ 9 → (∀ f, fields ≠ [f, text "-"]) → bodyTrwr fields s = refuse .fieldCount s)
      ∧ ((fields.length = 9 ∨ ∃ f, fields = [f, text "-"]) → (∀ n r, ¬ TrwrLine fields n r) → bodyTrwr fields s = refuse .range s))
    ∧ ∀ n r, TrwrLine fields n r → bodyTrwr fields s = accept [] (s.setRule n (Rule.written r)) := by
  have hiff : (DigitRule.dashes (some 4) everyField).bad fields = true ↔ BadDigits (some 4) none fields := bad_iff hl
  refine ⟨fun h => ?_, fun h => ⟨fun h1 h2 => ?_, fun h1 h2 => ?_⟩, fun n r h => ?_⟩ <;> unfold bodyTrwr
  · rw [if_pos (hiff.mpr h)]
  · rw [if_neg (fun e => h (hiff.mp e)), trwrFields_none.mpr ⟨h1, h2⟩]
  · rw [if_neg (fun e => h (hiff.mp e))]
    cases hr : trwrFields fields with
    | none =>
      obtain ⟨h3, h4⟩ := trwrFields_none.mp hr
      rcases h1 with h1 | ⟨f, h1⟩
      · exact absurd h1 h3
      · exact absurd h1 (h4 f)
    | some o =>
      cases o with
      | none => rfl
      | some v => exact absurd (trwrFields_iff.mp hr) (h2 v.1 v.2)
  · rw [if_neg (by rw [h.digits]; simp), trwrFields_iff.mpr h]

/-- CCFG's reading of a line, then its state conditions and its effect (R124). -/
theorem bodyCcfg_cases {fields : List Text} (hl : fields.length ≤ everyField) (s : State) :
    (BadDigits none none fields → bodyCcfg fields s = refuse .badDigit s)
    ∧ (¬ BadDigits none none fields →
      (fields.length ≠ 8 → bodyCcfg fields s = refuse .fieldCount s)
      ∧ (fields.length = 8 → (∀ c k, ¬ CcfgLine (s.config c).pulseLength fields c k) → bodyCcfg fields s = refuse .range s))
    ∧ ∀ c k, CcfgLine (s.config c).pulseLength fields c k → bodyCcfg fields s = tryConfigure c k s := by
  have hiff : (DigitRule.dashes none everyField).bad fields = true ↔ BadDigits none none fields := bad_iff hl
  refine ⟨fun h => ?_, fun h => ⟨fun h1 => ?_, fun h1 h2 => ?_⟩, fun c k h => ?_⟩ <;> unfold bodyCcfg
  · rw [if_pos (hiff.mpr h)]
  · rw [if_neg (fun e => h (hiff.mp e))]
    split
    · exact absurd rfl h1
    · rfl
  · rw [if_neg (fun e => h (hiff.mp e))]
    obtain ⟨a, b, c, d, e, f, g, i, rfl⟩ := length_eight h1
    dsimp only
    cases hc : plainChannel a with
    | none => rfl
    | some ch =>
      dsimp only
      split
      · rename_i k hk
        exact absurd (ccfg_iff.mp ⟨hc, hk⟩) (h2 ch k)
      · rfl
  · rw [if_neg (by rw [h.digits]; simp)]
    have h' := h
    obtain ⟨a, b, d, e, f, g, i, j, rfl, -⟩ := h'
    dsimp only
    rw [(ccfg_iff.mpr h).1]
    dsimp only
    rw [(ccfg_iff.mpr h).2]

end Sys2Proof.Machine
end

