-- ==== Sys2Proof/Laws/Passes.lean ====
section
/-!
SUPPORT. A record that leaves its window, and one visit of a pass (R56, R57, R61): leaving is one that `Leaves` describes, a close is a leaving
with the draft applied, and a visit leaves a record alone, closes it, opens it or makes it SPENT.
-/

namespace Sys2Proof.Machine

/-! ### Leaving a window -/

theorem TableFrame.only {s t : State} (h : TableFrame s t) : t = { s with
    records := t.records, claims := t.claims, waiting := t.waiting, channels := t.channels, generators := t.generators
    switches := t.switches, notices := t.notices, publishOrders := t.publishOrders } := by
  obtain ⟨_, _, _, _, _, _, _, _, rfl⟩ := h
  rfl

theorem withdraw_quiet (n : RecNo) (s : State) : QuietBut serviceKinds s (withdraw n s) :=
  publish_serveWaiting_quiet (keepClaims _ s)

theorem removeWaiting_quiet (n : RecNo) (s : State) : QuietBut serviceKinds s (removeWaiting n s) := by
  unfold removeWaiting
  dsimp only
  split
  · exact publish_serveWaiting_quiet { s with waiting := s.waiting.filter fun m => m != n }
  · exact QuietBut.of_notices rfl

theorem leaveWindow_quiet (n : RecNo) (s : State) : QuietBut serviceKinds s (leaveWindow n s) := by
  unfold leaveWindow
  split
  · exact withdraw_quiet n s
  · exact removeWaiting_quiet n s
  · exact QuietBut.refl s

theorem leaveWindow_record {n : RecNo} {s : State} (h : Listed n s) : (leaveWindow n s).record n = s.record n := by
  unfold leaveWindow
  split
  · rename_i ho
    obtain ⟨hd, hn⟩ := h.2 ho
    exact (withdraw_served n hd).record_off hn
  · by_cases hh : s.waiting.head? = some n
    · have hd := h.1 hh
      cases hw : s.waiting with
      | nil => rw [hw] at hh; cases hh
      | cons j rest =>
        rw [hw] at hh
        obtain rfl : j = n := by simpa using hh
        exact (removeWaiting_served hw hd).record_off (List.nodup_cons.mp (hw ▸ hd)).1
    · rw [removeWaiting_behind hh]; rfl
  · rfl

/-- Whatever leaves its window does so as `Leaves` describes. -/
theorem leaveWindow_leaves {n : RecNo} {s : State} (h : Listed n s) : Leaves n s (leaveWindow n s) := by
  refine ⟨leaveWindow_record h, (leaveWindow_frame n s).only, fun k h1 h2 h3 => leaveWindow_quiet n s k (by simp [serviceKinds, h1, h2, h3]),
    fun ho => ?_, fun hw => ⟨fun rest hr => ?_, fun hh => ?_⟩⟩
  · have e : leaveWindow n s = withdraw n s := by unfold leaveWindow; rw [ho]
    rw [e]
    exact ⟨withdraw_served n (h.2 ho).1, fun ch => publish_settled _ ch⟩
  · have e : leaveWindow n s = removeWaiting n s := by unfold leaveWindow; rw [hw]
    rw [e]
    refine ⟨removeWaiting_served hr (h.1 (by rw [hr]; rfl)), fun ch => ?_⟩
    unfold removeWaiting
    rw [if_pos (by rw [hr]; rfl)]
    exact publish_settled _ ch
  · have e : leaveWindow n s = removeWaiting n s := by unfold leaveWindow; rw [hw]
    rw [e, removeWaiting_behind hh]

/-! ### Closing -/

theorem applyDraft_dated {r x : Record} {e : Content} (hx : x = r.applyDraft) (he : x.content = some e) : r.applyDraft.dated = contentDated e := by
  subst hx
  unfold Record.dated
  rw [he]
  rfl

/-- The close of an OPEN record (R56). -/
theorem closeRecord_opened {n : RecNo} {s : State} {e : Content} (h : Listed n s) (ho : (s.record n).state = .opened)
    (he : (s.record n).applyDraft.content = some e) :
    closeRecord n s = (leaveWindow n s).setRecord n { (s.record n).applyDraft with state := if contentDated e then .spent else .armed } := by
  unfold closeRecord
  dsimp only
  rw [if_neg (by simp [ho]), leaveWindow_record h, applyDraft_dated rfl he]

/-- The close of a WAITING record, with MISSED_WINDOW (R56). -/
theorem closeRecord_waiting {n : RecNo} {s : State} {e : Content} (h : Listed n s) (hw : (s.record n).state = .waiting)
    (he : (s.record n).applyDraft.content = some e) :
    closeRecord n s = ((leaveWindow n s).raise .missedWindow n.val).setRecord n
      { (s.record n).applyDraft with state := if contentDated e then .spent else .armed } := by
  unfold closeRecord
  dsimp only
  rw [if_pos hw, State.raise_record, leaveWindow_record h, applyDraft_dated rfl he]

/-! ### One visit -/

theorem passStep_some {s : State} {p : Pass} {m : Moment} (hp : s.evaluator.pass = some p) (hm : s.evaluator.minute = some m) :
    passStep s = { visit p.kind m p.next s with evaluator := { s.evaluator with pass := p.advance } } := by
  unfold passStep
  rw [hp, hm]
  dsimp only
  rw [(visit_frame p.kind m p.next s).evaluator, hm]

/-- No pass, no visit. -/
theorem runPass_none {s : State} (h : s.evaluator.pass = none) (v : Nat) : runPass v s = s := by
  induction v with
  | zero => rfl
  | succ v ih =>
    have : passStep s = s := by unfold passStep; rw [h]
    rw [runPass, this, ih]

/-- A pass in progress goes on from record `n` to record `n + v`, or ends after record 95; its minute and the pending events stand (R53). -/
theorem runPass_evaluator {s : State} {k : PassKind} {n : RecNo} {m : Moment} (hp : s.evaluator.pass = some ⟨k, n⟩)
    (hm : s.evaluator.minute = some m) (v : Nat) : (runPass v s).evaluator =
      { s.evaluator with pass := if h : n.val + v < 96 then some ⟨k, ⟨n.val + v, h⟩⟩ else none } := by
  induction v generalizing s n with
  | zero =>
    rw [dif_pos (show n.val + 0 < 96 from n.isLt)]
    show s.evaluator = { s.evaluator with pass := some ⟨k, n⟩ }
    rw [← hp]
  | succ v ih =>
    rw [runPass]
    have hs := passStep_some hp hm
    by_cases h : n.val + 1 < 96
    · have ha : (⟨k, n⟩ : Pass).advance = some ⟨k, ⟨n.val + 1, h⟩⟩ := dif_pos h
      have he : (passStep s).evaluator = { s.evaluator with pass := some ⟨k, ⟨n.val + 1, h⟩⟩ } := by rw [hs, ha]
      rw [ih (by rw [he]) (by rw [he]; exact hm), he]
      dsimp only
      simp only [Nat.add_assoc, Nat.add_comm 1 v]
    · have ha : (⟨k, n⟩ : Pass).advance = none := dif_neg h
      have he : (passStep s).evaluator = { s.evaluator with pass := none } := by rw [hs, ha]
      rw [runPass_none (by rw [he]), he, dif_neg (by omega)]

/-- The command of a pass in progress makes its visits (R53; log 6). -/
theorem passCommand_going {s : State} {k : PassKind} {n : RecNo} (hp : s.evaluator.pass = some ⟨k, n⟩) (v : Nat) : passCommand k v s = runPass v s := by
  have ht : takeEvent k s = s := by unfold takeEvent; rw [hp]
  unfold passCommand
  dsimp only
  rw [ht, if_pos (by simp [passOf, hp])]

/-- The command of one visit makes it, and the pass goes on to the next record (R52, R53). -/
theorem passCommand_one {s : State} {k : PassKind} {n : RecNo} {m : Moment} (hp : s.evaluator.pass = some ⟨k, n⟩)
    (hm : s.evaluator.minute = some m) : passCommand k 1 s =
      { visit k m n s with evaluator := { s.evaluator with pass := (⟨k, n⟩ : Pass).advance } } := by
  rw [passCommand_going hp, runPass, runPass, passStep_some hp hm]

theorem closeIfOutside_stays {m : Moment} {n : RecNo} {s : State}
    (h : (s.record n).state.standing = false ∨ ∃ c, (s.record n).content = some c ∧ inside c m = true) : closeIfOutside m n s = s := by
  unfold closeIfOutside
  dsimp only
  rw [if_neg]
  rcases h with h | ⟨c, hc, hi⟩
  · simp [h]
  · simp [hc, hi]

theorem closeIfOutside_closes {m : Moment} {n : RecNo} {s : State} {c : Content} (h : (s.record n).state.standing = true)
    (hc : (s.record n).content = some c) (hi : inside c m = false) : closeIfOutside m n s = closeRecord n s := by
  unfold closeIfOutside
  dsimp only
  rw [if_pos (by simp [h, hc, hi])]

theorem testArmed_other {opens : Content → Moment → Bool} {m : Moment} {n : RecNo} {s : State} (h : (s.record n).state ≠ .armed) :
    testArmed opens m n s = s := by
  unfold testArmed
  dsimp only
  split
  · rfl
  · rw [if_neg h]

theorem testArmed_armed {opens : Content → Moment → Bool} {m : Moment} {n : RecNo} {s : State} {c : Content} (h : (s.record n).state = .armed)
    (hc : (s.record n).content = some c) :
    testArmed opens m n s = if opens c m then openRecord n s else if datedOver c m then spendRecord n s else s := by
  unfold testArmed
  simp only [hc, h, if_true]

theorem datedOver_undated {c : Content} (h : contentDated c = false) (m : Moment) : datedOver c m = false := by
  unfold datedOver
  rw [h]
  rfl

/-- The test of a record just closed: SPENT it stays, ARMED it opens or stays (R57, R58, R61). -/
theorem testArmed_closed {opens : Content → Moment → Bool} {m : Moment} {n : RecNo} {w : State} {r : Record} {e : Content}
    (hr : w.record n = { r with state := if contentDated e then .spent else .armed }) (he : r.content = some e) :
    testArmed opens m n w = if contentDated e = false ∧ opens e m = true then openRecord n w else w := by
  cases hd : contentDated e with
  | true => rw [if_neg (by simp)]; exact testArmed_other (by rw [hr, hd]; simp)
  | false =>
    rw [testArmed_armed (by rw [hr, hd]; rfl) (by rw [hr]; exact he), datedOver_undated hd]
    simp

end Sys2Proof.Machine
end

