-- ==== Sys2Proof/Laws/Restart.lean ====
section
/-!
SUPPORT. How the channels derive their drives at a main reset (R141, R156): from rest levels, with every generator FREE, in whatever order.
-/

namespace Sys2Proof.Machine

/-- The order in which the channels take what reaches them together names no channel twice. -/
theorem takeOrder_nodup (s : State) : (takeOrder s).1.Nodup := by
  unfold takeOrder
  split
  · exact List.nodup_finRange 24
  · refine List.Nodup.append (nodup_eraseDups _) ((List.nodup_finRange 24).filter _) ?_
    intro c h1 h2
    simp only [List.mem_eraseDups, List.mem_filter] at h1 h2
    simp [h1] at h2

/-- A channel at rest with configuration `k` that needs no generator, or waits for one: its pin driven steadily and settling (R130, R141, R164). -/
def Channel.resting (k : ChannelConfig) (l : Link) (active : Bool) : Channel :=
  ⟨⟨k.rest, none⟩, .normal, if active then .active else .inactive, l, none, none, none, false, .settling (active != k.activeLow) 20⟩

/-- What a channel has once it has derived its drive from its rest level (R140, R141): a pulse that does not count, a steady drive, a generator,
or a place in the wait set with every generator taken. -/
def Derived (c : Chan) (s : State) : Prop :=
  let k := s.config c
  (k.kind = .pulsed → s.channel c = ⟨⟨k.rest, none⟩, .normal, .inactive, .none,
      some (.pulsing (k.rest != 0)), none, some (k.pulseLength.toNat * 10), false, .unsupervised⟩)
  ∧ (k.kind ≠ .pulsed → needs k.kind ⟨k.rest, none⟩ = none → s.channel c = Channel.resting k .none (k.rest != 0))
  ∧ ∀ p, k.kind ≠ .pulsed → needs k.kind ⟨k.rest, none⟩ = some p →
      (∃ g, s.channel c = ⟨⟨k.rest, none⟩, .normal, .generator, .holding g, none, none, none, false, .unsupervised⟩
        ∧ s.generator g = .busy ⟨false, c, p, none, 0, p.blink.map fun _ => 0⟩)
      ∨ (∀ g, s.generator g ≠ .free) ∧ s.channel c = Channel.resting k .waiting (decide (128 ≤ k.rest.toNat))

/-- A channel asks for a generator at its rest level. -/
def asksAtRest (s : State) (c : Chan) : Bool := (needs (s.config c).kind ⟨(s.config c).rest, none⟩).isSome

/-- Part of the channels, those of `done`, have derived their drives from rest, beginning with `s0`. -/
structure Deriving (s0 : State) (done : List Chan) (s : State) : Prop where
  powered : s.mainPower = true
  configs : s.channelConfigs = s0.channelConfigs
  derived : ∀ c ∈ done, Derived c s
  others : ∀ c, c ∉ done → s.channel c = Channel.fresh (s.config c)
  generators : ∀ g : GenNo, s.generator g ≠ .free ↔ g.val < (done.filter (asksAtRest s0)).length
  short : (s.notice .genShort).count.toNat = (done.filter fun c => (s.channel c).link == .waiting).length
  quiet : QuietBut [.genShort] s0 s

/-- What deriving from rest makes of its channel, the generators and the notices (R130, R141, R146). -/
theorem deriveDrive_fresh {a : Chan} {s : State} (h : s.channel a = Channel.fresh (s.config a)) :
    ((s.config a).kind = .pulsed → deriveDrive a true s = s.setChannel a ⟨⟨(s.config a).rest, none⟩, .normal, .inactive, .none,
        some (.pulsing ((s.config a).rest != 0)), none, some ((s.config a).pulseLength.toNat * 10), false, .unsupervised⟩)
    ∧ ((s.config a).kind ≠ .pulsed → needs (s.config a).kind ⟨(s.config a).rest, none⟩ = none →
        deriveDrive a true s = s.setChannel a (Channel.resting (s.config a) .none ((s.config a).rest != 0)))
    ∧ ∀ p, (s.config a).kind ≠ .pulsed → needs (s.config a).kind ⟨(s.config a).rest, none⟩ = some p →
        (∀ g, freeGenerator s = some g → deriveDrive a true s =
          (s.setGenerator g (.busy ⟨false, a, p, none, 0, p.blink.map fun _ => 0⟩)).setChannel a
            ⟨⟨(s.config a).rest, none⟩, .normal, .generator, .holding g, none, none, none, false, .unsupervised⟩)
        ∧ (freeGenerator s = none → ∃ u : State, u.channels = upd (upd s.channels a { s.channel a with link := .waiting }) a
              (Channel.resting (s.config a) .waiting (decide (128 ≤ (s.config a).rest.toNat)))
            ∧ u.channelConfigs = s.channelConfigs ∧ u.generators = s.generators ∧ u.notices = s.notices ∧ u.mainPower = s.mainPower
            ∧ u.switches = s.switches ∧ deriveDrive a true s = u.raise .genShort a.val) := by
  generalize hk : s.config a = k at h ⊢
  have set : ∀ (u : State) z, (u.setChannel a z).channel a = z := fun u z => (channel_setChannel u a a z).trans (if_pos rfl)
  have steady : k.kind ≠ .pulsed → deriveDrive a true s = deriveSteady a s := fun hn => by
    unfold deriveDrive
    rw [hk]
    cases hkk : k.kind with
    | pulsed => exact absurd hkk hn
    | switched => rfl
    | dimmed => rfl
  refine ⟨fun hp => ?_, fun hn hz => ?_, fun p hn hz => ⟨fun g hg => ?_, fun hg => ?_⟩⟩
  · unfold deriveDrive derivePulse startPulse
    simp only [hk, h, hp, Channel.fresh, if_true]
    rfl
  · have hpl : (if k.kind = .pulsed then some PulseState.unknown else none) = none := if_neg hn
    rw [steady hn]
    unfold deriveSteady driveSteady
    simp only [hk, h, Channel.fresh, hz, hpl]
    rfl
  · have hpl : (if k.kind = .pulsed then some PulseState.unknown else none) = none := if_neg hn
    rw [steady hn]
    unfold deriveSteady requestGenerator startGenerator
    simp only [hk, h, Channel.fresh, hz, hg]
    rw [show (s.setGenerator g _).channel a = s.channel a from rfl, h]
    simp only [Channel.fresh, hpl]
  · have hpl : (if k.kind = .pulsed then some PulseState.unknown else none) = none := if_neg hn
    have hd : degradedOn k.kind ⟨k.rest, none⟩ = decide (128 ≤ k.rest.toNat) := by
      cases hkk : k.kind with
      | pulsed => exact absurd hkk hn
      | dimmed => rfl
      | switched =>
        rw [hkk] at hz
        simp [needs] at hz
    rw [steady hn]
    unfold deriveSteady requestGenerator
    simp only [hk, h, Channel.fresh, hz, hg]
    refine ⟨driveSteady a (degradedOn ((setLink a .waiting s).config a).kind ((setLink a .waiting s).channel a).present) (setLink a .waiting s),
      ?_, rfl, rfl, rfl, rfl, rfl, rfl⟩
    have e1 : (setLink a .waiting s).channel a = { Channel.fresh k with link := .waiting } := by
      unfold setLink
      rw [set, h]
    rw [e1, show (setLink a .waiting s).config a = k from hk]
    show upd (upd s.channels a _) a _ = _
    rw [e1, show (setLink a .waiting s).config a = k from hk, h]
    show upd (upd s.channels a _) a _ = _
    simp only [Channel.fresh, hd, hpl]
    rfl

theorem Derived.of_same {c : Chan} {s t : State} (h : Derived c s) (hc : t.channel c = s.channel c) (hk : t.channelConfigs = s.channelConfigs)
    (hg : ∀ g, s.generator g ≠ .free → t.generator g = s.generator g) : Derived c t := by
  have hk' : t.config c = s.config c := congrArg (nth · c) hk
  unfold Derived at *
  rw [hk', hc]
  obtain ⟨h1, h2, h3⟩ := h
  refine ⟨h1, h2, fun p hn hp => ?_⟩
  rcases h3 p hn hp with ⟨g, e1, e2⟩ | ⟨e1, e2⟩
  · exact .inl ⟨g, e1, (hg g (by simp [e2])).trans e2⟩
  · exact .inr ⟨fun g => by rw [hg g (e1 g)]; exact e1 g, e2⟩

theorem freeGenerator_lowest {s : State} {g : GenNo} {k : Nat} (h : freeGenerator s = some g) (hk : ∀ j : GenNo, s.generator j ≠ .free ↔ j.val < k) :
    g.val = k := by
  have hg : ¬ g.val < k := fun hlt => (hk g).mpr hlt (freeGenerator_some h)
  by_contra hne
  have hlt : k < g.val := by omega
  obtain ⟨-, i, hi, rfl, hlow⟩ := List.find?_eq_some_iff_getElem.mp h
  simp only [List.getElem_finRange, Fin.val_cast] at hlt
  have := hlow k hlt
  simp only [List.getElem_finRange, Bool.not_eq_true', beq_eq_false_iff_ne, ne_eq] at this
  exact absurd ((hk _).mp this) (by simp)

/-- One more channel derives its drive from rest. -/
theorem Deriving.step {s0 s : State} {done : List Chan} {a : Chan} (h : Deriving s0 done s) (hd : (done ++ [a]).Nodup) :
    Deriving s0 (done ++ [a]) (deriveDrive a true s) := by
  have hna : a ∉ done := fun hm => (List.nodup_append.mp hd).2.2 a hm a (by simp) rfl
  have hlen : (done ++ [a]).length ≤ 24 := by
    have := hd.length_le_card
    simpa using this
  obtain ⟨h1, h2, h3⟩ := deriveDrive_fresh (h.others a hna)
  have cfg0 : ∀ c, s.config c = s0.config c := fun c => congrArg (nth · c) h.configs
  have off : ∀ c, c ≠ a → Off c s (deriveDrive a true s) := fun c hc => deriveDrive_off hc true s
  have dne : ∀ c ∈ done, c ≠ a := fun c hc e => hna (e ▸ hc)
  -- what is left to show once the channel, the generators and the notices are known
  have close : ∀ t, t = deriveDrive a true s → Derived a t → (∀ g, s.generator g ≠ .free → t.generator g = s.generator g) →
      (∀ g : GenNo, t.generator g ≠ .free ↔ g.val < (done.filter (asksAtRest s0)).length + (if asksAtRest s0 a then 1 else 0)) →
      (t.notice .genShort).count.toNat = (s.notice .genShort).count.toNat + (if (t.channel a).link == .waiting then 1 else 0) →
      QuietBut [.genShort] s t → Deriving s0 (done ++ [a]) t := by
    intro t ht hda hg hgen hshort hq
    have fr : ChannelFrame s t := ht ▸ deriveDrive_frame a true s
    have toff : ∀ c, c ≠ a → Off c s t := fun c hc => ht ▸ off c hc
    refine ⟨fr.mainPower.trans h.powered, fr.channelConfigs.trans h.configs, fun c hc => ?_, fun c hc => ?_, fun g => ?_, ?_, h.quiet.trans hq⟩
    · rcases List.mem_append.mp hc with hc | hc
      · exact (h.derived c hc).of_same (toff c (dne c hc)).1 fr.channelConfigs hg
      · rw [List.mem_singleton.mp hc]
        exact hda
    · simp only [List.mem_append, List.mem_singleton, not_or] at hc
      rw [(toff c hc.2).1, h.others c hc.1, show t.config c = s.config c from congrArg (nth · c) fr.channelConfigs]
    · rw [hgen g, List.filter_append, List.length_append, List.filter_cons]
      cases asksAtRest s0 a <;> simp
    · rw [hshort, h.short, List.filter_append, List.length_append, List.filter_cons]
      have e : (done.filter fun c => (t.channel c).link == .waiting) = done.filter fun c => (s.channel c).link == .waiting :=
        List.filter_congr fun c hc => by rw [(toff c (dne c hc)).1]
      rw [e]
      cases (t.channel a).link == .waiting <;> simp
  have set : ∀ (u : State) z, (u.setChannel a z).channel a = z := fun u z => (channel_setChannel u a a z).trans (if_pos rfl)
  have plain : ∀ x : Channel, x.link = .none → deriveDrive a true s = s.setChannel a x → Derived a (s.setChannel a x) →
      asksAtRest s0 a = false → Deriving s0 (done ++ [a]) (deriveDrive a true s) := by
    intro x hx e hda hask
    refine close _ rfl (e ▸ hda) (fun g _ => by rw [e]; rfl) (fun g => ?_) ?_ (by rw [e]; exact QuietBut.of_notices rfl)
    · rw [e, hask]
      exact h.generators g
    · rw [e, set, hx]
      rfl
  by_cases hp : (s.config a).kind = .pulsed
  · refine plain _ rfl (h1 hp) ?_ ?_
    · unfold Derived
      rw [set, State.setChannel_config]
      exact ⟨fun _ => rfl, fun hn => absurd hp hn, fun p hn => absurd hp hn⟩
    · unfold asksAtRest
      rw [← cfg0, hp]
      rfl
  · cases hz : needs (s.config a).kind ⟨(s.config a).rest, none⟩ with
    | none =>
      refine plain _ rfl (h2 hp hz) ?_ ?_
      · unfold Derived
        rw [set, State.setChannel_config]
        exact ⟨fun hx => absurd hx hp, fun _ _ => rfl, fun p _ hx => absurd (hz.symm.trans hx) (by simp)⟩
      · unfold asksAtRest
        rw [← cfg0, hz]
        rfl
    | some p =>
      have hask : asksAtRest s0 a = true := by
        unfold asksAtRest
        rw [← cfg0, hz]
        rfl
      obtain ⟨hs, hn⟩ := h3 p hp hz
      cases hf : freeGenerator s with
      | some g =>
        have e := hs g hf
        have hgv := freeGenerator_lowest hf h.generators
        have gen : ∀ j, (deriveDrive a true s).generator j = if j = g then .busy ⟨false, a, p, none, 0, p.blink.map fun _ => 0⟩ else s.generator j :=
          fun j => by rw [e]; exact generator_setGenerator s g j _
        refine close _ rfl ?_ (fun j hj => ?_) (fun j => ?_) ?_ (by rw [e]; exact QuietBut.of_notices rfl)
        · unfold Derived
          have ce : (deriveDrive a true s).config a = s.config a := by rw [e]; rfl
          have xe := set (s.setGenerator g (.busy ⟨false, a, p, none, 0, p.blink.map fun _ => 0⟩))
            ⟨⟨(s.config a).rest, none⟩, .normal, .generator, .holding g, none, none, none, false, .unsupervised⟩
          rw [← e] at xe
          rw [ce, xe]
          refine ⟨fun hx => absurd hx hp, fun _ hx => absurd (hz.symm.trans hx) (by simp), fun q _ hq => .inl ⟨g, rfl, ?_⟩⟩
          obtain rfl : p = q := Option.some.inj (hz.symm.trans hq)
          rw [gen, if_pos rfl]
        · rw [gen, if_neg]
          rintro rfl
          exact hj (freeGenerator_some hf)
        · rw [gen, hask]
          by_cases hj : j = g
          · subst hj
            simp [hgv]
          · rw [if_neg hj, h.generators j, if_pos rfl]
            have : j.val ≠ g.val := fun e => hj (Fin.ext e)
            omega
        · rw [e, set]
          rfl
      | none =>
        obtain ⟨u, u1, u2, u3, u4, u5, u6, e⟩ := hn hf
        have full : ∀ g, s.generator g ≠ .free := freeGenerator_none hf
        have tg : (deriveDrive a true s).generators = s.generators := by rw [e, State.raise_generators, u3]
        have tc : (deriveDrive a true s).channel a = Channel.resting (s.config a) .waiting (decide (128 ≤ (s.config a).rest.toNat)) := by
          rw [e, State.raise_channel]
          show nth u.channels a = _
          rw [u1, nth_upd_same]
        have un : ∀ k, u.notice k = s.notice k := fun k => congrArg (nth · k.code) u4
        refine close _ rfl ?_ (fun j _ => congrArg (nth · j) tg) (fun j => ?_) ?_ ?_
        · unfold Derived
          have ce : (deriveDrive a true s).config a = s.config a := congrArg (nth · a) (deriveDrive_frame a true s).channelConfigs
          rw [ce, tc]
          refine ⟨fun hx => absurd hx hp, fun _ hx => absurd (hz.symm.trans hx) (by simp), fun q _ hq => .inr ⟨fun g => ?_, rfl⟩⟩
          rw [show (deriveDrive a true s).generator g = s.generator g from congrArg (nth · g) tg]
          exact full g
        · rw [show (deriveDrive a true s).generator j = s.generator j from congrArg (nth · j) tg, hask, h.generators j]
          have := fun j => (h.generators j).mp (full j)
          have := this j
          simp only [if_true]
          omega
        · rw [tc]
          have hc : (s.notice .genShort).count.toNat ≤ 24 := by
            rw [h.short]
            have := List.length_filter_le (fun c => (s.channel c).link == Link.waiting) done
            simp only [List.length_append, List.length_singleton] at hlen
            omega
          rw [e, raise_notice_same (u5.trans h.powered), un]
          unfold Notice.raised
          dsimp only [Channel.resting]
          rw [if_neg (by intro hx; rw [hx] at hc; exact absurd hc (by decide))]
          simp only [beq_self_eq_true, if_true]
          rw [BitVec.toNat_add]
          have : (1 : BitVec 8).toNat = 1 := rfl
          omega
        · rw [e]
          exact QuietBut.trans (QuietBut.of_notices u4) (QuietBut.raise _ _ (by decide))

/-- Every channel derives its drive from rest (R141, R156). -/
theorem deriveAll_deriving {s : State} (hp : s.mainPower = true) (hc : ∀ c, s.channel c = Channel.fresh (s.config c)) (hg : ∀ g, s.generator g = .free)
    (hn : s.notice .genShort = ⟨0, none⟩) : ∃ l : List Chan, l.Nodup ∧ (∀ c, c ∈ l) ∧ Deriving s l (deriveAll s) := by
  have hnd := takeOrder_nodup s
  have hm := takeOrder_mem s
  have h0 : Deriving s [] (takeOrder s).2 := by
    have e : ∃ po, (takeOrder s).2 = { s with publishOrders := po } := by unfold takeOrder; split <;> exact ⟨_, rfl⟩
    obtain ⟨po, e⟩ := e
    rw [e]
    exact ⟨hp, rfl, fun _ h => (by simp at h), fun c _ => hc c, fun g => ⟨fun h => absurd (hg g) h, fun h => absurd h (by simp)⟩,
      by rw [show State.notice { s with publishOrders := po } .genShort = _ from hn]; rfl,
      QuietBut.of_notices rfl⟩
  unfold deriveAll
  generalize (takeOrder s).2 = u at h0
  have go : ∀ (l done : List Chan) (u : State), Deriving s done u → (done ++ l).Nodup →
      Deriving s (done ++ l) (l.foldl (fun t c => deriveDrive c true t) u) := by
    intro l
    induction l with
    | nil => exact fun done u h _ => by simpa using h
    | cons a l ih =>
      intro done u h hd
      have hd' : ((done ++ [a]) ++ l).Nodup := by simpa using hd
      have := ih (done ++ [a]) _ (h.step (List.nodup_append.mp hd').1) hd'
      simpa using this
  exact ⟨(takeOrder s).1, hnd, hm, by simpa using go _ [] u h0 (by simpa using hnd)⟩

/-- A main reset counts no switching (R136). -/
theorem deriveAll_switches (s : State) : (deriveAll s).switches = s.switches := by
  have h : ∀ (l : List Chan) (u : State), (l.foldl (fun t c => deriveDrive c true t) u).switches = u.switches := by
    intro l
    induction l with
    | nil => exact fun _ => rfl
    | cons a l ih => exact fun u => (ih _).trans (deriveDrive_counts a true u).2
  unfold deriveAll
  rw [h]
  unfold takeOrder
  split <;> rfl

end Sys2Proof.Machine
end

