-- ==== Sys2Proof/Laws/Rules.lean ====
section
/-!
SUPPORT. What a rule does: its request is one that `RuleRequests` describes (R81, R82, R113, R114).
-/

namespace Sys2Proof.Machine

theorem filter_insertClaim {cl : Claim} {src : Source} (h : cl.source = src) (l : List Claim) :
    (insertClaim cl l).filter (fun x => x.source != src) = l.filter fun x => x.source != src := by
  induction l with
  | nil => simp [insertClaim, h]
  | cons x xs ih =>
    unfold insertClaim
    split
    · simp [h]
    · simp only [List.filter_cons, ih]

theorem putClaim_twice (cl : Claim) (l : List Claim) : putClaim cl (putClaim cl l) = putClaim cl l := by
  unfold putClaim
  rw [filter_insertClaim rfl, List.filter_filter]
  simp

/-- A request with one level for all its channels leaves the claim on each of them, however often the list names it (R77, R81). -/
theorem place_level {q : Request} {chans : List Chan} {lv : BitVec 8} (h : q.targets = chans.map fun c => (c, lv)) (s : State) (c : Chan) :
    (place q s).claimList c = if c ∈ chans then putClaim (q.claim lv) (s.claimList c) else s.claimList c := by
  unfold place
  rw [h]
  clear h
  induction chans generalizing s with
  | nil => simp
  | cons x xs ih =>
    rw [List.map_cons, List.foldl_cons, ih, placeOne_claimList]
    by_cases hx : c = x <;> by_cases hm : c ∈ xs <;> simp [hx, hm, putClaim_twice]

theorem raise_notices {s : State} {k : NoticeKind} {n : Nat} : s.raise k n = { s with notices := (s.raise k n).notices } := by
  unfold State.raise
  split <;> rfl

/-- The request of a rule is one that `RuleRequests` describes. -/
theorem makeRuleRequest_requests (n : RuleNo) (i : InputNo) (f : RuleFields) (lv : BitVec 8) (s : State) :
    RuleRequests n i f lv s (makeRuleRequest n i f lv s) := by
  intro p need hp hneed
  have hpr : toPriority f.priority = p := Fin.ext (by have := p.isLt; show f.priority.toNat % 4 = _; omega)
  have hq : needed (ruleRequest i f lv) s = need := by
    rw [hneed]
    unfold needed ruleRequest
    dsimp only
    rw [List.filter_map, List.length_map]
    congr 1
    refine List.filter_congr fun c _ => ?_
    unfold hasSource
    simp [List.all_eq_not_any_not, bne]
  unfold makeRuleRequest request
  rw [hq]
  refine ⟨fun hfit => ?_, fun hno => ?_⟩
  · rw [if_pos hfit, Option.getD_some]
    have f1 := publish_frame (place (ruleRequest i f lv) s)
    have f2 := place_frame (ruleRequest i f lv) s
    have hl : ∀ c, (publish (place (ruleRequest i f lv) s)).claimList c =
        if c ∈ toChans f.channels then putClaim ((ruleRequest i f lv).claim lv) (s.claimList c) else s.claimList c :=
      fun c => (f1.claimList c).trans (place_level rfl s c)
    have hc : (ruleRequest i f lv).claim lv = ⟨.input i, p, lv, f.blink, f.hold⟩ := by rw [← hpr]; rfl
    refine ⟨fun c hm => ?_, fun c hm => ?_, fun c => publish_settled _ c, fun hinv hd => ?_, ?_,
      f1.records.trans (place_waiting _ s).2, f1.waiting.trans (place_waiting _ s).1, f1.rules.trans f2.rules,
      f1.calendar.trans f2.calendar, f1.table.port.trans f2.port, f1.channelConfigs.trans f2.channelConfigs,
      f1.table.evaluator.trans f2.evaluator⟩
    · rw [hl, if_pos hm, hc]
      rfl
    · rw [hl, if_neg hm]
    · have h1 : claimTotal (publish (place (ruleRequest i f lv) s)) = claimTotal (place (ruleRequest i f lv) s) := claimTotal_of_claims f1.claims
      have h2 := claimTotal_place (q := ruleRequest i f lv) (s := s) (fun c => (hinv.2 c).2) (by simpa [ruleRequest, Function.comp_def] using hd)
      have h3 := ((poolInv_iff s).mp hinv).1
      unfold freeCount Config.poolSize at *
      omega
    · exact ((place_quiet _ s : QuietBut demandKinds s _).trans (publish_quiet _)) _ (by decide)
  · rw [if_neg (by omega), Option.getD_none]
    exact ⟨raise_notices, fun hpw => by rw [State.raise_powered _ _ _ hpw]; rfl⟩

/-! ### The steps of an event -/

/-- A step of an event goes on to the next rule, or keeps a TOGGLE's reading for its request (R112, R114). -/
theorem applyStep_applying {s : State} {a : Applying} (h : s.applying = some a) :
    (applyStep s).applying = a.advance ∨ a.toggle = none ∧ ∃ t, (applyStep s).applying = some { a with toggle := some t } := by
  unfold applyStep
  rw [h]
  dsimp only
  cases ht : a.toggle with
  | some t => exact Or.inl rfl
  | none =>
    dsimp only
    split
    · split
      · split
        · unfold applyAction
          split
          · exact Or.inl rfl
          · split
            · exact Or.inr ⟨rfl, _, rfl⟩
            · exact Or.inl rfl
        · exact Or.inl rfl
      · exact Or.inl rfl
    · exact Or.inl rfl

theorem runApply_none {s : State} (h : s.applying = none) (k : Nat) : runApply k s = s := by
  induction k with
  | zero => rfl
  | succ k ih =>
    have : applyStep s = s := by unfold applyStep; rw [h]
    rw [runApply, this, ih]

/-- The steps an event has before it at most: two for each rule not yet passed, one less when a TOGGLE's reading is made. -/
def stepsLeft : Option Applying → Nat
  | none => 0
  | some a => 2 * (16 - a.next.val) - a.toggle.isSome.toNat

theorem stepsLeft_step {s : State} {a : Applying} (h : s.applying = some a) : stepsLeft (applyStep s).applying + 1 ≤ stepsLeft s.applying := by
  have hn := a.next.isLt
  rw [h]
  rcases applyStep_applying h with e | ⟨ht, t, e⟩
  · rw [e]
    unfold Applying.advance
    have : a.toggle.isSome.toNat ≤ 1 := by cases a.toggle <;> simp
    split
    · simp only [stepsLeft, Option.isSome_none, Bool.toNat_false]
      omega
    · simp only [stepsLeft]
      omega
  · rw [e]
    simp only [stepsLeft, ht, Option.isSome_none, Option.isSome_some, Bool.toNat_false, Bool.toNat_true]
    omega

/-- An event is finished within the steps it has before it; 32 are enough for any (R112; log 7). -/
theorem runApply_finishes (k : Nat) {s : State} (h : stepsLeft s.applying ≤ k) : (runApply k s).applying = none := by
  induction k generalizing s with
  | zero =>
    cases ha : s.applying with
    | none => exact ha
    | some a =>
      have := a.next.isLt
      have : a.toggle.isSome.toNat ≤ 1 := by cases a.toggle <;> simp
      rw [ha] at h
      simp only [stepsLeft] at h
      omega
  | succ k ih =>
    cases ha : s.applying with
    | none => rw [runApply_none ha]; exact ha
    | some a =>
      rw [runApply]
      have := stepsLeft_step ha
      exact ih (by omega)

theorem stepsLeft_le (o : Option Applying) : stepsLeft o ≤ 32 := by
  cases o with
  | none => simp [stepsLeft]
  | some a => simp only [stepsLeft]; omega

end Sys2Proof.Machine
end

