-- ==== Sys2Proof/Laws/Windows.lean ====
section
/-!
SUPPORT. The windows of a content and the events RNXT chooses among (R49, R50, R71): where a window of a content in range lies, which events a
record has in the span, and what the earliest of a list is.
-/

namespace Sys2Proof.Machine

/-- The earliest of a list, begun with one event: that one, or the first of those that come before every other. -/
theorem earlier_foldl {α : Type} (l : List (Nat × α)) (x : Nat × α) :
    ∃ y, l.foldl earlier (some x) = some y
      ∧ ((y = x ∧ ∀ z ∈ l, x.1 ≤ z.1) ∨ (y.1 < x.1 ∧ ∃ l1 l2, l = l1 ++ y :: l2
        ∧ (∀ z ∈ l1, y.1 < z.1) ∧ ∀ z ∈ l2, y.1 ≤ z.1)) := by
  induction l generalizing x with
  | nil => exact ⟨x, rfl, Or.inl ⟨rfl, by simp⟩⟩
  | cons b l ih =>
    rw [List.foldl_cons]
    by_cases h : b.1 < x.1
    · have : earlier (some x) b = some b := by simp [earlier, h]
      rw [this]
      obtain ⟨y, h1, h2⟩ := ih b
      refine ⟨y, h1, Or.inr ?_⟩
      rcases h2 with ⟨rfl, h2⟩ | ⟨h2, l1, l2, h3, h4, h5⟩
      · exact ⟨h, [], l, rfl, by simp, h2⟩
      · refine ⟨by omega, b :: l1, l2, by rw [h3]; rfl, ?_, h5⟩
        intro z hz
        rcases List.mem_cons.mp hz with rfl | hz
        · exact h2
        · exact h4 z hz
    · have : earlier (some x) b = some x := by simp [earlier, h]
      rw [this]
      obtain ⟨y, h1, h2⟩ := ih x
      refine ⟨y, h1, ?_⟩
      rcases h2 with ⟨rfl, h2⟩ | ⟨h2, l1, l2, h3, h4, h5⟩
      · refine Or.inl ⟨rfl, ?_⟩
        intro z hz
        rcases List.mem_cons.mp hz with rfl | hz
        · omega
        · exact h2 z hz
      · refine Or.inr ⟨h2, b :: l1, l2, by rw [h3]; rfl, ?_, h5⟩
        intro z hz
        rcases List.mem_cons.mp hz with rfl | hz
        · omega
        · exact h4 z hz

/-- Only an empty list has no earliest event. -/
theorem earliest_none {α : Type} {l : List (Nat × α)} (h : earliest l = none) : l = [] := by
  cases l with
  | nil => rfl
  | cons a l =>
    obtain ⟨y, hy, _⟩ := earlier_foldl l a
    have : earliest (a :: l) = some y := hy
    rw [h] at this; cases this

/-- The earliest event of a list: the first of those at the lowest minute (R71). -/
theorem earliest_some {α : Type} {l : List (Nat × α)} {y} (h : earliest l = some y) :
    ∃ l1 l2, l = l1 ++ y :: l2 ∧ (∀ z ∈ l1, y.1 < z.1) ∧ ∀ z ∈ l2, y.1 ≤ z.1 := by
  cases l with
  | nil => cases h
  | cons a l =>
    obtain ⟨y', hy, h2⟩ := earlier_foldl l a
    have : earliest (a :: l) = some y' := hy
    rw [h] at this; cases this
    rcases h2 with ⟨rfl, h2⟩ | ⟨h2, l1, l2, h3, h4, h5⟩
    · exact ⟨[], l, rfl, by simp, h2⟩
    · refine ⟨a :: l1, l2, by rw [h3]; rfl, ?_, h5⟩
      intro z hz
      rcases List.mem_cons.mp hz with rfl | hz
      · exact h2
      · exact h4 z hz

theorem timeOf_lt {t : BitVec 16} {a : Nat} (h : timeOf t = some a) : a < 1440 := by
  unfold timeOf at h
  split at h
  · split at h
    · cases h; omega
    · cases h
  · cases h

theorem bcd2_inj {x y n : Nat} (hx : bcd2 x = some n) (hy : bcd2 y = some n) : x = y := by
  unfold bcd2 at hx hy
  split at hx
  · split at hy
    · simp at hx hy; omega
    · cases hy
  · cases hx

theorem timeOf_parts {t : BitVec 16} {a : Nat} (h : timeOf t = some a) : ∃ hh m, bcd2 (t.toNat / 256) = some hh ∧ bcd2 (t.toNat % 256) = some m ∧ m ≤ 59 ∧ a = hh * 60 + m := by
  unfold timeOf at h
  split at h
  · rename_i hh m h1 h2
    split at h
    · cases h; exact ⟨hh, m, h1, h2, by omega, rfl⟩
    · cases h
  · cases h

/-- Two times of one minute are one. -/
theorem timeOf_inj {t u : BitVec 16} {a : Nat} (h1 : timeOf t = some a) (h2 : timeOf u = some a) : t = u := by
  obtain ⟨x, y, a1, a2, a3, a4⟩ := timeOf_parts h1
  obtain ⟨z, w, b1, b2, b3, b4⟩ := timeOf_parts h2
  have hz : x = z := by omega
  have hw : y = w := by omega
  subst hz hw
  have e1 := bcd2_inj a1 b1
  have e2 := bcd2_inj a2 b2
  exact BitVec.eq_of_toNat_eq (by omega)

/-- The window of a content in range begins on its date and ends within a day of its begin (R50). -/
theorem window_bounds {c : Content} {d : Date} {w : Nat × Nat} (hr : contentInRange c = true) (hw : windowOn c d = some w) :
    dayIndex d * 1440 ≤ w.1 ∧ w.1 < (dayIndex d + 1) * 1440 ∧ w.1 < w.2 ∧ w.2 < w.1 + 1440 := by
  unfold contentInRange at hr
  simp only [Bool.and_eq_true] at hr
  obtain ⟨⟨⟨⟨hday, -⟩, -⟩, -⟩, ht⟩ := hr
  unfold timesInRange at ht
  simp only [Bool.and_eq_true, bne_iff_ne, ne_eq] at ht
  obtain ⟨⟨h1, h2⟩, hne⟩ := ht
  obtain ⟨a, ha⟩ := Option.isSome_iff_exists.mp h1
  obtain ⟨b, hb⟩ := Option.isSome_iff_exists.mp h2
  have hab : a ≠ b := by
    intro h; subst h
    exact hne (timeOf_inj ha hb)
  have hs : startStop c = some (a, b) := by unfold startStop; rw [ha, hb]; simp [hab]
  have hnd : ∃ nm, namesDay c d = some nm := by
    unfold namesDay
    unfold dayInRange at hday
    cases hcd : c.day with
    | days set =>
      simp only [hcd, Bool.and_eq_true, beq_iff_eq, bne_iff_ne] at hday
      obtain ⟨⟨hk, hset⟩, hsea⟩ := hday
      simp only
      rw [if_pos ⟨hk, hset⟩]
      unfold seasonAdmits
      cases hx : c.season with
      | none => exact ⟨_, rfl⟩
      | some x =>
        unfold seasonInRange at hsea
        rw [hx] at hsea
        simp only [Bool.and_eq_true] at hsea
        obtain ⟨lo, hlo⟩ := Option.isSome_iff_exists.mp hsea.1
        obtain ⟨hi, hhi⟩ := Option.isSome_iff_exists.mp hsea.2
        simp only [hlo, hhi]
        exact ⟨_, rfl⟩
    | date w =>
      simp only [hcd, Bool.and_eq_true, beq_iff_eq] at hday
      obtain ⟨⟨hk, hw⟩, -⟩ := hday
      obtain ⟨e, he⟩ := Option.isSome_iff_exists.mp hw
      simp only [if_pos hk, he]
      exact ⟨_, rfl⟩
  obtain ⟨nm, hnd⟩ := hnd
  have la := timeOf_lt ha
  have lb := timeOf_lt hb
  unfold windowOn at hw
  rw [hs, hnd] at hw
  simp only at hw
  split at hw
  · cases hw
    dsimp only
    split <;> omega
  · cases hw

theorem names_iff (r : Record) (c : Content) (hc : r.content = some c) (k : Chan) : r.names k = true ↔ k ∈ toChans c.channels := by
  unfold Record.names toChans toChan
  rw [hc]
  simp only [Option.elim_some, List.any_eq_true, List.mem_filterMap, beq_iff_eq]
  constructor
  · rintro ⟨b, hb, he⟩
    exact ⟨b, hb, by rw [dif_pos (by omega)]; simp [he]⟩
  · rintro ⟨b, hb, he⟩
    split at he
    · cases he; exact ⟨b, hb, rfl⟩
    · cases he

/-- The events of a record in the span are those that `PlannedEvent` describes (R71). -/
theorem mem_recordEvents {s : State} {n : RecNo} {c : Content} (hI : CalendarInv s) (hc : (s.record n).content = some c) (hr : contentInRange c = true)
    (hp : (s.record n).state.planned = true) (minute : Nat) (isOpen : Bool) :
    (minute, isOpen) ∈ recordEvents (s.record n) s.calendar.now ↔ PlannedEvent s none n minute isOpen := by
  obtain ⟨hv, hh, hmi, -⟩ := hI
  have hpr : s.calendar.now.index = dayIndex s.calendar.date * 1440 + s.calendar.hours * 60 + s.calendar.minutes := rfl
  unfold recordEvents PlannedEvent
  rw [hc]
  simp only [List.mem_filter, List.mem_flatMap, List.mem_filterMap]
  have hst : (s.record n).state = .armed ∨ (s.record n).state = .opened ∨ (s.record n).state = .waiting := by
    cases h : (s.record n).state <;> simp_all [RecState.planned]
  have hsp : inSpan s.calendar.now.index (minute, isOpen) = true ↔ s.calendar.now.index < minute ∧ minute ≤ s.calendar.now.index + 11520 ∧ minute ≤ minuteIndex ⟨99,12,31⟩ 23 59 := by
    unfold inSpan Config.nextSpan lastMinute; simp [and_assoc]
  rw [hsp]
  have hev : ∀ w, (minute, isOpen) ∈ windowEvents ((s.record n).state != .armed) s.calendar.now.index w ↔ 
      (isOpen = true ∧ minute = w.1 ∧ s.calendar.now.index < w.1
      ∨ isOpen = false ∧ minute = w.2
        ∧ (s.calendar.now.index < w.1
          ∨ (s.record n).state ≠ .armed ∧ w.1 ≤ s.calendar.now.index ∧ s.calendar.now.index < w.2)) := by
    intro w
    unfold windowEvents
    split
    · rename_i h
      simp only [List.mem_cons, Prod.mk.injEq, List.not_mem_nil, or_false]
      constructor
      · rintro (⟨a, b⟩ | ⟨a, b⟩)
        · exact Or.inl ⟨b, a, h⟩
        · exact Or.inr ⟨b, a, Or.inl h⟩
      · rintro (⟨a, b, _⟩ | ⟨a, b, _⟩)
        · exact Or.inl ⟨b, a⟩
        · exact Or.inr ⟨b, a⟩
    · rename_i h
      split
      · rename_i h2
        simp at h2
        simp only [List.mem_singleton, Prod.mk.injEq]
        constructor
        · rintro ⟨a, b⟩
          exact Or.inr ⟨b, a, Or.inr ⟨h2.1, by omega, h2.2⟩⟩
        · rintro (⟨a, b, h3⟩ | ⟨a, b, _⟩)
          · exact absurd h3 h
          · exact ⟨b, a⟩
      · rename_i h2
        simp at h2
        simp only [List.not_mem_nil, false_iff]
        rintro (⟨a, b, h3⟩ | ⟨a, b, h3 | h3⟩)
        · exact absurd h3 h
        · exact absurd h3 h
        · have := h2 h3.1; omega
  constructor
  · rintro ⟨⟨w, ⟨d, hd, hw⟩, he⟩, hs⟩
    rw [show s.calendar.now.date = s.calendar.date from rfl, mem_spanDates hv] at hd
    exact ⟨c, d, w, rfl, hst, by simp, hd.1, hw, (hev w).mp he, hs⟩
  · rintro ⟨c', d, w, hc', -, -, hvd, hw, he, hs⟩
    cases hc'
    refine ⟨⟨w, ⟨d, ?_, hw⟩, (hev w).mpr he⟩, hs⟩
    rw [show s.calendar.now.date = s.calendar.date from rfl, mem_spanDates hv]
    have hb := window_bounds hr hw
    refine ⟨hvd, ?_, ?_⟩
    · rcases he with ⟨-, h1, h2⟩ | ⟨-, h1, h2 | h2⟩ <;> omega
    · rcases he with ⟨-, h1, h2⟩ | ⟨-, h1, h2 | h2⟩ <;> omega

/-- The event RNXT chooses lies in the span of R71. -/
theorem nextEvent_span {s : State} {ch} {m n b} (h : nextEvent s ch = some (m, n, b)) :
    s.calendar.now.index < m ∧ m ≤ s.calendar.now.index + 11520 := by
  unfold nextEvent at h
  obtain ⟨l1, l2, hl, -, -⟩ := earliest_some h
  have hm : (m, n, b) ∈ (List.finRange 96).filterMap fun n =>
    let r := s.record n
    if r.state.planned && ch.elim true r.names then
      (earliest (recordEvents r s.calendar.now)).map fun e => (e.1, n, e.2)
    else none := by rw [hl]; simp
  obtain ⟨n', -, hn'⟩ := List.mem_filterMap.mp hm
  dsimp only at hn'
  split at hn'
  · cases he : earliest (recordEvents (s.record n') s.calendar.now) with
    | none => rw [he] at hn'; cases hn'
    | some e =>
      rw [he] at hn'
      obtain ⟨a, b, hl, -, -⟩ := earliest_some he
      have : e ∈ recordEvents (s.record n') s.calendar.now := by rw [hl]; simp
      cases hn'
      unfold recordEvents at this
      split at this
      · cases this
      · have := (List.mem_filter.mp this).2
        simp only [inSpan, Config.nextSpan, Bool.and_eq_true, decide_eq_true_eq] at this
        exact ⟨this.1.1, of_decide_eq_true this.1.2⟩
  · cases hn'

/-- The date RNXT gives is the valid date of the event's day, when that day lies in the span of R71. -/
theorem spanDate_eq {d e : Date} {minute : Nat} (hd : validDate d = true) (he : validDate e = true) (h : dayIndex e = minute / 1440)
    (h1 : dayIndex d ≤ dayIndex e) (h2 : dayIndex e < dayIndex d + 9) : spanDate d minute = some e := by
  have hmem : e ∈ datesFrom d 9 := (mem_datesFrom hd).mpr ⟨he, h1, h2⟩
  unfold spanDate
  cases hf : (datesFrom d 9).find? fun x => dayIndex x == minute / 1440 with
  | none =>
    have := List.find?_eq_none.mp hf e hmem
    simp [h] at this
  | some x =>
    have hx := List.mem_of_find?_eq_some hf
    have hi := List.find?_some hf
    rw [mem_datesFrom hd] at hx
    simp only [beq_iff_eq] at hi
    rw [dayIndex_injective hx.1 he (by omega)]

end Sys2Proof.Machine
end

