-- ==== Sys2Proof/Tests/Slice0.lean ====
section
/-!
SUPPORT. Tests of the model: ill-formed commands that the well-formedness check refuses, some worked examples of the manual, and for every
statement with hypotheses a concrete state and operands that meet them, clause by clause.
-/

namespace Sys2Proof.Tests

open Sys2Proof Sys2Proof.Machine

/-! ### Well-formedness: one ill-formed term for each check -/

theorem test_wf_refuses_a_carriage_return_in_a_field : Instr.wf (.tget [[cr]]) = false := by decide
theorem test_wf_refuses_a_space_in_a_field : Instr.wf (.rget [text "0 1"]) = false := by decide
theorem test_wf_refuses_an_overlong_line : Instr.wf (.tset [List.replicate 75 0x30]) = false := by decide
theorem test_wf_refuses_an_overlong_unknown_line : Instr.wf (.unknownCommand (List.replicate 80 0x30)) = false := by decide
theorem test_wf_refuses_a_short_line_too_long : Instr.wf (.lineTooLong (List.replicate 79 0x30)) = false := by decide
theorem test_wf_refuses_a_line_feed_in_a_line : Instr.wf (.unknownCommand [lf]) = false := by decide
theorem test_wf_refuses_work_named_twice : Instr.wf (.secondTick [] ⟨false, [.scrub, .scrub], []⟩) = false := by decide
theorem test_wf_refuses_holds_first_and_later : Instr.wf (.secondTick [] ⟨false, [.holds], [.holds]⟩) = false := by decide
theorem test_wf_refuses_work_left_twice : Instr.wf (.secondTick [] ⟨true, [], [.held, .held]⟩) = false := by decide
theorem test_wf_refuses_a_pin_held_twice : Instr.wf (.secondTick [⟨3, true, false⟩, ⟨3, false, false⟩] .plain) = false := by decide

/-! ### Sample states -/

/-- A WEEKLY content: channels 3 and 4, level FF, priority 1, 08:30 to 17:30 on Monday to Friday. -/
def weekly : Content := ⟨0, [3, 4], 255, none, 1, 0x0830, 0x1730, .days 0x1F, none⟩

/-- A DATED content: 2024-03-15, 22:00 to 02:00 of the next day. -/
def dated : Content := ⟨1, [3], 255, none, 1, 0x2200, 0x0200, .date 0x150324, none⟩

/-- A record in a state with a content, its code computed. -/
def recordIn (st : RecState) (c : Content) (d : Option Content) : Record := Record.sealed ⟨st, some c, d, false, 0, false, 0⟩

/-- The part after reset with its oscillator STEADY. -/
def steady : State := { State.reset with calendar := { State.reset.calendar with osc := .steady, qualify := none } }

/-- The part with its calendar RUNNING at a date and time (2024-03-15 is a Friday). -/
def runningAt (d : Date) (h m sec : Nat) : State :=
  { steady with calendar := { steady.calendar with state := .running, date := d, hours := h, minutes := m, seconds := sec } }

/-- The part RUNNING on Friday 2024-03-15 at 08:30:00. -/
def running : State := runningAt ⟨24, 3, 15⟩ 8 30 0

/-- A part with record 5 set. -/
def withRecord (s : State) (r : Record) : State := s.setRecord 5 r

/-- A part with a pass in progress at record 5, at a minute. -/
def inPass (s : State) (k : PassKind) (m : Moment) : State := { s with evaluator := ⟨[], some m, some ⟨k, 5⟩⟩ }

/-- A part with record 5 in a state, its content WEEKLY, and records on the waiting list. -/
def withWaiters (st : RecState) (l : List RecNo) : State := { withRecord running (recordIn st weekly none) with waiting := l }

/-- A part with PORT claims on channel 2, and one whose 48 entries are all on channel 0. -/
def withClaims (l : List Claim) : State := State.reset.setClaimList 2 l
def fullPool : State := State.reset.setClaimList 0 (List.replicate 48 ⟨.record 0, 0, 0, none, none⟩)

/-- Friday 2024-03-15 at 08:30, and the same day at 18:00. -/
def morning : Moment := ⟨⟨24, 3, 15⟩, 8, 30, 5⟩
def evening : Moment := ⟨⟨24, 3, 15⟩, 18, 0, 5⟩

/-- A part with a trigger rule 0. -/
def withRule (f : RuleFields) : State := State.reset.setRule 0 ⟨.active, some f, ruleCodeOf f⟩

/-- An ASSERT, a TOGGLE and a RELEASE for SHORT on input 0, channel 3. -/
def assertRule : RuleFields := ⟨0, 0, 0, [3], 1, some 255, none, none⟩
def toggleRule : RuleFields := ⟨0, 0, 1, [3], 1, some 255, none, none⟩
def releaseRule : RuleFields := ⟨0, 0, 2, [3], 1, none, none, none⟩

/-- A SHORT on input 0 whose rules are about to be visited. -/
def shortEvent : Applying := ⟨⟨0, .short⟩, 0, none⟩

/-- A PUSH input 0 in a state with an interval, its first sample taken or pending. -/
def pushed (st : InputState) (first : Bool) (iv : Option Interval) : State :=
  { State.reset.setInput 0 ⟨st, some 0, some 119, some first, some false, iv⟩ with
    inputConfigs := upd State.reset.inputConfigs 0 ⟨.push, false, some 20, some 5⟩ }

/-- The part after reset with its oscillator STEADY and a tick left by its holds and by its held counts. -/
def ticksDue : State := { steady with holdsDue := 1, heldDue := 1 }

/-- A part whose channel 2 is as given. -/
def withChannel (x : Channel) : State := State.reset.setChannel 2 x

/-- A channel's working state at rest, with the demand of a half-bright DIMMED channel. -/
def half : Channel := ⟨⟨128, none⟩, .normal, .inactive, .none, none, none, none, false, .unsupervised⟩

/-- A part whose channel 2 is DIMMED at 128, drives through generator 0, and whose channel 4 waits. -/
def pooled (releasing : Bool) : State :=
  { withChannel { half with link := .holding 0, drive := .generator } with
    channelConfigs := upd (upd State.reset.channelConfigs 2 ⟨.dimmed, 0, 0, false, 2, none, 10⟩) 4 ⟨.dimmed, 0, 0, false, 4, none, 10⟩
    generators := upd State.reset.generators 0 (.busy ⟨releasing, 2, ⟨128, none⟩, none, 0, none⟩) }

/-- A part whose channel 2 is of a kind, as given, with a PORT claim for its demand of 128 and its generators as given. -/
def demanded (k : ChanKind) (x : Channel) (gens : Vector Generator 6) : State :=
  { withChannel x with
    channelConfigs := upd State.reset.channelConfigs 2 ⟨k, 0, 0, false, 2, none, 10⟩
    claims := upd State.reset.claims 2 [⟨.port, 0, 128, none, none⟩]
    generators := gens }

/-- Six generators BUSY for channel 2. -/
def busyPool : Vector Generator 6 := Vector.replicate 6 (.busy ⟨false, 2, ⟨128, none⟩, none, 0, none⟩)

/-- The pool with generator 0 running for channel 2 with parameters, at its phases. -/
def runAt (p : Params) (pwm : Nat) (env : Option Nat) : State := (pooled false).setGenerator 0 (.busy ⟨false, 2, p, none, pwm, env⟩)

/-- A part whose channel 2 is PULSED on pins 2 and 30, with a pulse state. -/
def pulsedOn (p : PulseState) : State :=
  { withChannel { half with pulse := some p } with channelConfigs := upd State.reset.channelConfigs 2 ⟨.pulsed, 0, 0, false, 2, some 30, 10⟩ }

/-- What a read of the whole response gives after a command. -/
def replyTo (c : Instr) (s : State) : Option Text :=
  match exec c s with
  | .next t => some t.port.response
  | .fault _ => none
  | .refused _ => none

/-! ### Worked examples -/

theorem test_cold_start_of_the_reset_state : coldStart State.reset = State.reset := by decide +kernel
theorem test_tget_after_reset : replyTo (.tget []) State.reset = some (text "00 0 010100 0000 00 6 0" ++ [cr]) := by decide
theorem test_tset_starting : replyTo (.tset [text "150324", text "0830"]) State.reset = some (text "0E" ++ [cr]) := by decide
theorem test_tset_steady : replyTo (.tset [text "150324", text "0830"]) steady = some (text "00" ++ [cr]) := by decide
theorem test_tset_invalid_day : replyTo (.tset [text "290223", text "0830"]) steady = some (text "04" ++ [cr]) := by decide
theorem test_tadj_beyond_the_minute : replyTo (.tadj [text "1", text "05"]) running = some (text "04" ++ [cr]) := by decide
theorem test_rwrt_arms_a_record :
    replyTo (.rwrt [text "05", text "0", text "03,04", text "FF", text "-", text "1", text "0830", text "1730", text "12345", text "-", text "-"])
      State.reset = some (text "00 1" ++ [cr]) := by decide
theorem test_rget_free : replyTo (.rget [text "05"]) State.reset = some (text "00 0" ++ [cr]) := by decide
theorem test_rget_weekly : replyTo (.rget [text "05"]) (withRecord State.reset (recordIn .armed weekly none))
    = some (text "00 1 0 03,04 FF - 1 0830 1730 12345 - - 0 0000 0 5 -" ++ [cr]) := by decide
theorem test_cset_answers_the_free_count :
    replyTo (.cset [text "03", text "2", text "FF", text "-", text "-"]) State.reset = some (text "00 2F" ++ [cr]) := by decide +kernel
theorem test_nget_after_reset : replyTo (.nget []) State.reset = some (text "00 00 01 01" ++ [cr]) := by decide
theorem test_cget_after_reset : replyTo (.cget [text "05"]) State.reset
    = some (text "00 0 00 0 0 05 - 0A 0 0 0 0 - - - 0000 0" ++ [cr]) := by decide
theorem test_status_byte_after_reset : statusByte State.reset = 0x90 := by decide
theorem test_a_reset_takes_the_next_reinitialisation :
    (mainReset false 96 { State.reset with reinits := [1, 2] }).port.reinit = 1 ∧ (mainReset false 96 { State.reset with reinits := [1, 2] }).reinits = [2] := by
  decide +kernel
theorem test_unknown_command : replyTo (.unknownCommand (text "XYZ")) State.reset = some (text "01" ++ [cr]) := by decide
theorem test_the_first_weekday_is_a_saturday : State.reset.calendar.weekday = 6 := by decide

theorem test_a_waveform_turns_inactive_within_its_period : ((idle (runAt ⟨254, none⟩ 0 none)).generator 0).output = true
    ∧ ((idle (runAt ⟨254, none⟩ 995900 none)).generator 0).output = false ∧ pinHigh (idle (runAt ⟨128, none⟩ 502000 none)) 2 = some false := by decide
theorem test_a_blink_gates_the_waveform : pinHigh (runAt ⟨255, some ⟨10, 5⟩⟩ 0 (some 49999)) 2 = some true
    ∧ pinHigh (runAt ⟨255, some ⟨10, 5⟩⟩ 0 (some 50000)) 2 = some false := by decide

/-! ### Witnesses: the hypotheses of each statement are met

Each theorem shows, for the statement it names, concrete operands that meet the hypotheses of one clause or of each. -/

/-- The eleven fields of an RWRT of record 5, with or without NOW. -/
def rwrtLine (now : List Text) : List Text :=
  [text "05", text "0", text "03,04", text "FF", text "-", text "1", text "0830", text "1730", text "12345", text "-", text "-"] ++ now

theorem witness_idle_step : State.reset.pending = [] := rfl

theorem witness_idle_waveforms : (pooled false).pending = [] ∧ (pooled false).mainPower = true ∧ (pooled false).generator 1 = .free
    ∧ (runAt ⟨128, none⟩ 999799 none).generator 0 = .busy ⟨false, 2, ⟨128, none⟩, none, 999799, none⟩
    ∧ 999799 + (pooled false).dimFreq < 1000000 ∧ 1000000 ≤ 999800 + (pooled false).dimFreq
    ∧ (runAt ⟨255, some ⟨10, 5⟩⟩ 0 (some 99998)).generator 0 = .busy ⟨false, 2, ⟨255, some ⟨10, 5⟩⟩, none, 0, some 99998⟩
    ∧ 99998 + 1 < (10 : BitVec 8).toNat * 10000 ∧ (10 : BitVec 8).toNat * 10000 ≤ 99999 + 1 := by decide

theorem witness_calendar_inv : CalendarInv (runningAt ⟨99, 12, 31⟩ 23 59 59) ∧ step running = .next (idle running) :=
  ⟨by unfold CalendarInv; decide, rfl⟩

theorem witness_pool_inv : PoolInv (withChannel half) ∧ step (withChannel half) = .next (idle (withChannel half)) :=
  ⟨by unfold PoolInv ordered oneEach; decide, rfl⟩

theorem witness_waiting_inv_powered : WaitingInv { withRecord State.reset (recordIn .waiting weekly none) with waiting := [5] } := by
  refine ⟨fun _ => ⟨by decide, ?_⟩, nofun⟩
  decide

theorem witness_waiting_inv_unpowered : WaitingInv { State.reset with mainPower := false } := ⟨nofun, fun _ => ⟨rfl, rfl, rfl⟩⟩

theorem witness_generator_inv : GeneratorInv (withChannel half) := by
  have hl : ∀ c, ((withChannel half).channel c).link = .none := by decide
  have hg : ∀ g, (withChannel half).generator g = .free := by decide
  refine ⟨fun c g => ?_, fun c h => ?_, fun c _ => hl c⟩
  · rw [hl, hg]; exact ⟨nofun, nofun⟩
  · rw [hl] at h; cases h

theorem witness_main_reset_not_running :
    State.reset.calendar.state ≠ .running ∧ State.reset.mainPower = true ∧ lineTaken (text "RSTR") [] State.reset = true
      ∧ ({ State.reset with mainPower := false } : State).mainPower = false := by decide

theorem witness_main_reset_running :
    running.calendar.state = .running ∧ running.mainPower = true ∧ lineTaken (text "RSTR") [] running = true
      ∧ ({ running with mainPower := false } : State).mainPower = false := by decide

theorem witness_main_power_loss : State.reset.mainPower = true := rfl

theorem witness_pin_levels : (∀ c, (State.reset.config c).pinA ≠ 31 ∧ ¬ ((State.reset.config c).kind = .pulsed ∧ (State.reset.config c).pinB = some 31))
    ∧ (∀ d, (State.reset.config d).pinA = 2 ∨ (State.reset.config d).kind = .pulsed ∧ (State.reset.config d).pinB = some 2 → d = 2)
    ∧ (State.reset.config 2).pinA = 2 ∧ (State.reset.channel 2).pulse = none ∧ (State.reset.channel 2).drive = .inactive
    ∧ ({ half with drive := .active } : Channel).drive = .active ∧ ((pooled false).channel 2).drive = .generator
    ∧ ((pooled false).channel 2).link = .holding 0 ∧ ((pulsedOn (.pulsing true)).channel 2).pulse = some (.pulsing true)
    ∧ ((pulsedOn .atOff).config 2).pinA ≠ 30 ∧ ((pulsedOn .atOff).config 2).kind = .pulsed ∧ ((pulsedOn .atOff).config 2).pinB = some 30
    ∧ (∀ d, ((pulsedOn .atOff).config d).pinA = 30 ∨ ((pulsedOn .atOff).config d).kind = .pulsed ∧ ((pulsedOn .atOff).config d).pinB = some 30 → d = 2) := by
  decide

theorem witness_next_date :
    validDate ⟨0, 2, 29⟩ = true ∧ nextDate ⟨0, 2, 29⟩ = some ⟨0, 3, 1⟩ ∧ validDate ⟨98, 12, 31⟩ = true ∧ nextDate ⟨98, 12, 31⟩ = some ⟨99, 1, 1⟩
      ∧ validDate ⟨99, 12, 30⟩ = true ∧ nextDate ⟨99, 12, 30⟩ = some ⟨99, 12, 31⟩ := by decide

theorem witness_tset_bad_digit : lineTaken (text "TSET") [text "15032G", text "0830"] steady = true
    ∧ ∃ f ∈ [text "15032G", text "0830"], ∃ b ∈ f, isHex b = false := by decide
theorem witness_tset_field_count : lineTaken (text "TSET") [text "150324"] steady = true
    ∧ (∀ f ∈ [text "150324"], ∀ b ∈ f, isHex b = true) ∧ [text "150324"].length ≠ 2 := by decide
theorem witness_tset_range : lineTaken (text "TSET") [text "150324", text "2400"] steady = true
    ∧ (∀ f ∈ [text "150324", text "2400"], ∀ b ∈ f, isHex b = true) ∧ (timeField (text "2400")).bind timeOf = none
    ∧ (dateField (text "290223")).bind dateOf = none := by decide
theorem witness_tset_accepted : lineTaken (text "TSET") [text "311299", text "2359"] steady = true ∧ steady.calendar.osc = .steady
    ∧ State.reset.calendar.osc ≠ .steady ∧ lineTaken (text "TSET") [text "311299", text "2359"] State.reset = true
    ∧ (dateField (text "311299")).bind dateOf = some ⟨99, 12, 31⟩ ∧ (timeField (text "2359")).bind timeOf = some 1439
    ∧ (dateField (text "010100")).bind dateOf = some ⟨0, 1, 1⟩ ∧ (timeField (text "0000")).bind timeOf = some 0 := by decide

theorem witness_tadj_refused : lineTaken (text "TADJ") [text "2", text "31"] running = true
    ∧ (∀ f ∈ [text "2", text "31"], ∀ b ∈ f, isHex b = true) ∧ directionField (text "2") = none ∧ offsetField (text "31") = none
    ∧ steady.calendar.state ≠ .running ∧ lineTaken (text "TADJ") [text "0", text "30"] steady = true
    ∧ (∃ f ∈ [text "x", text "30"], ∃ b ∈ f, isHex b = false) ∧ [text "0"].length ≠ 2 := by decide
theorem witness_tadj_accepted : lineTaken (text "TADJ") [text "0", text "30"] (runningAt ⟨24, 3, 15⟩ 8 30 29) = true
    ∧ directionField (text "0") = some false ∧ directionField (text "1") = some true ∧ offsetField (text "30") = some 30
    ∧ offsetField (text "00") = some 0 ∧ (runningAt ⟨24, 3, 15⟩ 8 30 29).calendar.seconds + 30 ≤ 59
    ∧ 59 < (runningAt ⟨24, 3, 15⟩ 8 30 30).calendar.seconds + 30 ∧ 30 ≤ (runningAt ⟨24, 3, 15⟩ 8 30 30).calendar.seconds
    ∧ (runningAt ⟨24, 3, 15⟩ 8 30 29).calendar.seconds < 30 := by decide

theorem witness_tget : lineTaken (text "TGET") [] State.reset = true ∧ lineTaken (text "TGET") [text "0"] State.reset = true := by decide

theorem witness_second_tick : State.reset.calendar.osc ≠ .steady ∧ steady.calendar.osc = .steady ∧ steady.calendar.state ≠ .running
    ∧ running.calendar.state = .running ∧ (runningAt ⟨24, 3, 15⟩ 8 30 58).calendar.seconds < 59
    ∧ (runningAt ⟨24, 3, 15⟩ 8 58 59).calendar.minutes < 59 ∧ (runningAt ⟨24, 3, 15⟩ 22 59 59).calendar.hours < 23
    ∧ nextDate (runningAt ⟨99, 12, 30⟩ 23 59 59).calendar.date = some ⟨99, 12, 31⟩
    ∧ (runningAt ⟨99, 12, 31⟩ 23 59 59).calendar.date = ⟨99, 12, 31⟩ := by decide
theorem witness_second_tick_delivered : steady.mainPower = true ∧ TickWork.held ∈ [TickWork.held] ∧ TickWork.held ∉ TickOrder.plain.later
    ∧ dueAt .plain steady.heldDue = 1 ∧ dueAt ⟨true, [], []⟩ ticksDue.heldDue = 1 ∧ TickWork.scrub ∉ [TickWork.holds]
    ∧ dueAt .plain steady.scrubDue = 1 ∧ steady.scrub.val = (0 : RecNo).val ∧ ({ steady with scrub := 111 } : State).scrub.val = 96 + (15 : RuleNo).val
    ∧ steady.waiting = [] ∧ dueAt .plain steady.holdsDue = 1 ∧ failsCheck { recordIn .armed weekly none with code := 0 } = true
    ∧ ruleFailsCheck ⟨.active, some assertRule, 0⟩ = true := by decide
theorem witness_second_tick_finds_a_fault :
    ((withChannel { half with feedback := .watched true }).channel 2).feedback = .watched true ∧ (false || !TickOrder.resumed ⟨false, [.compare 2], []⟩) = true
      ∧ readback [⟨2, false, false⟩] (withChannel { half with feedback := .watched true })
          ((withChannel { half with feedback := .watched true }).config 2).pinA ≠ true := by decide
theorem witness_second_tick_compares : (withChannel { half with feedback := .watched true }).waiting = []
    ∧ (∀ c d, ((withChannel half).config d).pinA = ((withChannel half).config c).pinA
      ∨ ((withChannel half).config d).kind = .pulsed ∧ ((withChannel half).config d).pinB = some ((withChannel half).config c).pinA → d = c)
    ∧ (∀ c h g, ((withChannel { half with feedback := .watched true }).channel c).feedback = .watched h →
      ((withChannel { half with feedback := .watched true }).channel c).link ≠ .holding g)
    ∧ readback [⟨2, true, false⟩] (withChannel { half with feedback := .watched true }) 2 = true
    ∧ TickWork.compare 2 ∉ TickOrder.plain.later ∧ TickWork.compare 2 ∈ [TickWork.compare 2]
    ∧ (nth steady.compareDue 2 || !TickOrder.plain.resumed) = true ∧ (nth steady.compareDue 2 || !TickOrder.resumed ⟨true, [], []⟩) = false := by decide
theorem witness_second_tick_finds_nothing : steady.waiting = [] ∧ (∀ ch, ∀ cl ∈ steady.claimList ch, cl.afterTick ≠ none)
    ∧ (∀ n : RecNo, failsCheck (steady.record n) = false) ∧ (∀ r : RuleNo, ruleFailsCheck (steady.rule r) = false)
    ∧ ∀ c h, (steady.channel c).feedback = .watched h → readback [] steady (steady.config c).pinA = h := by decide
theorem witness_second_tick_boundary : CalendarInv (runningAt ⟨99, 12, 30⟩ 23 59 59) ∧ (runningAt ⟨99, 12, 30⟩ 23 59 59).mainPower = true :=
  ⟨by unfold CalendarInv; decide, rfl⟩

theorem witness_oscillator : State.reset.calendar.osc ≠ .steady ∧ steady.calendar.osc = .steady ∧ steady.mainPower = true
    ∧ steady.holdsDue = 0 ∧ steady.heldDue = 0 ∧ steady.scrubDue = 0 ∧ (∀ c, nth steady.compareDue c = false)
    ∧ ({ steady with mainPower := false } : State).mainPower = false := by decide

theorem witness_windows : timeOf weekly.start = some 510 ∧ timeOf weekly.stop = some 1050 ∧ (510 : Nat) ≠ 1050 ∧ weekly.kind = 0
    ∧ weekly.day = .days 0x1F ∧ (0x1F : BitVec 7) ≠ 0 ∧ seasonAdmits weekly.season ⟨24, 3, 15⟩ = some true
    ∧ timeOf dated.start = some 1320 ∧ timeOf dated.stop = some 120 ∧ dated.kind = 1 ∧ dated.day = .date 0x150324
    ∧ dateOf 0x150324 = some ⟨24, 3, 15⟩ := by decide

theorem witness_seasons : monthDayOf 0x1101 = some (11, 1) ∧ monthDayOf 0x0229 = some (2, 29) ∧ monthDayOf 0x0331 = some (3, 31)
    ∧ validDate ⟨24, 2, 29⟩ = true ∧ validDate ⟨23, 2, 28⟩ = true ∧ leap 23 = false := by decide

theorem witness_reevaluation_at_reset : inside weekly running.calendar.now = true ∧ recordSound (recordIn .armed weekly none) = true
    ∧ recordSound { recordIn .armed weekly none with code := 0 } = false ∧ inside weekly (runningAt ⟨24, 3, 16⟩ 9 0 0).calendar.now = false
    ∧ weekly.kind = 0 ∧ inside dated (runningAt ⟨24, 3, 16⟩ 9 0 0).calendar.now = false ∧ inside dated running.calendar.now = false
    ∧ (windowOn dated ⟨24, 3, 15⟩).isSome = true
    ∧ (windowOn dated ⟨24, 3, 15⟩).all (fun w => decide (w.2 ≤ (runningAt ⟨24, 3, 16⟩ 9 0 0).calendar.now.index ∧ running.calendar.now.index < w.2)) = true := by
  decide

theorem witness_pass_begins : State.reset.evaluator.pass = none
    ∧ (State.reset.deliver (.boundary morning)).evaluator.pending = [.boundary morning]
    ∧ (State.reset.deliver (.step morning .tset)).evaluator.pending = [.step morning .tset] := by decide
theorem witness_pass_goes_on : (inPass running .boundary morning).evaluator.pass = some ⟨.boundary, 5⟩
    ∧ (inPass running .reevaluation morning).evaluator.minute = some morning ∧ (5 : RecNo).val + 1 < 96
    ∧ ({ running with evaluator := ⟨[], some morning, some ⟨.boundary, 95⟩⟩ } : State).evaluator.pass = some ⟨.boundary, 95⟩
    ∧ (95 : RecNo).val + 1 = 96 := by decide

theorem witness_pass_opens : startsAt weekly morning = true ∧ inside weekly morning = true ∧ recordSound (recordIn .armed weekly none) = true
    ∧ (recordIn .armed weekly none).count ≠ 9999 ∧ State.reset.waiting = [] ∧ weekly.channels.length ≤ freeCount State.reset
    ∧ (inPass (withRecord running (recordIn .armed weekly none)) .boundary morning).evaluator.pass = some ⟨.boundary, 5⟩
    ∧ (inPass (withRecord running (recordIn .armed weekly none)) .boundary morning).record 5 = recordIn .armed weekly none := by decide
theorem witness_pass_waits : ({ running with waiting := [7] } : State).waiting ≠ [] ∧ freeCount fullPool < weekly.channels.length
    ∧ ({ recordIn .armed weekly none with count := 9999 } : Record).count = 9999
    ∧ recordSound { recordIn .armed weekly none with code := 0 } = false := by decide

theorem witness_pass_passes_over : startsAt dated ⟨⟨24, 3, 16⟩, 9, 0, 6⟩ = false ∧ inside dated ⟨⟨24, 3, 16⟩, 9, 0, 6⟩ = false
    ∧ startsAt dated morning = false ∧ (windowOn dated ⟨24, 3, 15⟩).isSome = true
    ∧ (windowOn dated ⟨24, 3, 15⟩).all (fun w => decide (w.2 ≤ (⟨⟨24, 3, 16⟩, 9, 0, 6⟩ : Moment).index ∧ morning.index < w.2)) = true
    ∧ (recordIn .suspended weekly none).state = .suspended ∧ inside weekly morning = true := by decide

theorem witness_boundary_closes : inside weekly evening = false ∧ startsAt weekly evening = false ∧ running.waiting = []
    ∧ (recordIn .opened weekly none).state = .opened ∧ (recordIn .opened weekly none).draft = none
    ∧ (inPass (withRecord running (recordIn .opened weekly none)) .boundary evening).record 5 = recordIn .opened weekly none := by decide

theorem witness_boundary_closes_with_waiters : (withWaiters .opened [7]).waiting.Nodup ∧ (5 : RecNo) ∉ (withWaiters .opened [7]).waiting := by decide
theorem witness_boundary_applies_a_draft :
    (Record.sealed { recordIn .opened weekly (some dated) with content := some dated, draft := none }).content = some dated ∧ contentDated dated = true := by
  decide
theorem witness_boundary_reopens : contentDated { weekly with start := 0x1800, stop := 0x1900 } = false
    ∧ startsAt { weekly with start := 0x1800, stop := 0x1900 } evening = true
    ∧ recordSound (Record.sealed { recordIn .opened weekly none with content := some { weekly with start := 0x1800, stop := 0x1900 } }) = true
    ∧ running.waiting = [] ∧ weekly.channels.length ≤ freeCount running
    ∧ freeCount { fullPool with claims := tabulate fun ch => (fullPool.claimList ch).filter fun cl => cl.source != .record 5 }
        < weekly.channels.length := by decide +kernel

theorem witness_missed_window_in_a_list : (withWaiters .waiting [7, 5]).waiting.head? ≠ some 5
    ∧ (withWaiters .waiting [5, 7]).waiting = 5 :: [7] ∧ (withWaiters .waiting [5, 7]).waiting.Nodup
    ∧ ((withWaiters .waiting [5, 7]).record 5).state = .waiting := by decide

theorem witness_missed_window_with_a_draft : (recordIn .waiting weekly (some dated)).draft = some dated
    ∧ (recordIn .waiting weekly (some { weekly with start := 0x1800, stop := 0x1900 })).draft = some { weekly with start := 0x1800, stop := 0x1900 }
    ∧ startsAt { weekly with start := 0x1800, stop := 0x1900 } evening = true ∧ contentDated { weekly with start := 0x1800, stop := 0x1900 } = false := by
  decide
theorem witness_listed : Listed 5 (withWaiters .opened [7]) ∧ Listed 5 (withWaiters .waiting [5, 7]) ∧ Listed 5 (withWaiters .waiting [7, 5]) := by
  unfold Listed
  decide

theorem witness_missed_window : inside weekly evening = false ∧ contentDated weekly = false
    ∧ (recordIn .waiting weekly none).state = .waiting
    ∧ ({ inPass (withRecord running (recordIn .waiting weekly none)) .reevaluation evening with waiting := [5] } : State).waiting = [5] := by
  decide

/-- An RWRT line whose ninth field is "8", which is no weekday, and lines with a comma in the level and with ten fields. -/
def rwrtOutOfRange : List Text :=
  [text "05", text "0", text "03,04", text "FF", text "-", text "1", text "0830", text "1730", text "8", text "-", text "-"]
def rwrtBadDigit : List Text :=
  [text "05", text "0", text "03,04", text "F,", text "-", text "1", text "0830", text "1730", text "12345", text "-", text "-"]

theorem witness_rwrt : lineTaken (text "RWRT") (rwrtLine []) State.reset = true ∧ RwrtLine (rwrtLine []) 5 weekly false
    ∧ lockedRecord 5 State.reset = false ∧ (State.reset.record 5).state = .free :=
  ⟨by decide, rwrtFields_iff.mp (by decide), by decide, by decide⟩
theorem witness_rwrt_bad_digit : lineTaken (text "RWRT") rwrtBadDigit State.reset = true ∧ BadDigits (some 2) (some 11) rwrtBadDigit :=
  ⟨by decide, (bad_iff (list := some 2) (word := some 11) (by decide)).mp (by decide)⟩
theorem witness_rwrt_field_count : lineTaken (text "RWRT") (rwrtOutOfRange.take 10) State.reset = true
    ∧ ¬ BadDigits (some 2) (some 11) (rwrtOutOfRange.take 10) ∧ (rwrtOutOfRange.take 10).length = 10 :=
  ⟨by decide, (not_bad_iff (list := some 2) (word := some 11) (by decide)).mp (by decide), rfl⟩
theorem witness_rwrt_range : lineTaken (text "RWRT") rwrtOutOfRange State.reset = true ∧ ¬ BadDigits (some 2) (some 11) rwrtOutOfRange
    ∧ rwrtOutOfRange.length = 11 ∧ ∀ n c now, ¬ RwrtLine rwrtOutOfRange n c now := by
  have h : rwrtFields rwrtOutOfRange = some none := by decide
  exact ⟨by decide, (not_bad_iff (list := some 2) (word := some 11) (by decide)).mp (by decide), rfl,
    fun n c now hl => by rw [← rwrtFields_iff, h] at hl; cases hl⟩
theorem witness_rwrt_now : lineTaken (text "RWRT") (rwrtLine [text "NOW"]) (withRecord State.reset (recordIn .opened weekly none)) = true
    ∧ RwrtLine (rwrtLine [text "NOW"]) 5 weekly true ∧ ((withRecord State.reset (recordIn .opened weekly none)).record 5).state = .opened :=
  ⟨by decide, rwrtFields_iff.mp (by decide), by decide⟩
theorem witness_rwrt_stages : (recordIn .suspended weekly none).state = .suspended ∧ (recordIn .waiting weekly none).draft = none
    ∧ (recordIn .opened weekly (some dated)).draft ≠ none := by decide

theorem witness_frozen : ({ State.reset with freezeMask := 1 } : State).freezeMask ≠ 0 ∧ ({ recordIn .armed weekly none with prot := true } : Record).prot = true
    ∧ recordNumber (text "05") = some 5 ∧ number 1 (text "1") = some 1 ∧ lineTaken (text "RPRT") [text "05", text "1"] State.reset = true
    ∧ lineTaken (text "RFRE") [text "05"] State.reset = true := by decide
theorem witness_frozen_rwrt : lineTaken (text "RWRT") (rwrtLine []) { State.reset with freezeMask := 1 } = true
    ∧ RwrtLine (rwrtLine []) 5 weekly false := ⟨by decide, rwrtFields_iff.mp (by decide)⟩

theorem witness_rget : lineTaken (text "RGET") [text "5F"] State.reset = true ∧ recordNumber (text "5F") = some 95 ∧ (State.reset.record 95).state = .free
    ∧ recordSound (recordIn .opened weekly (some dated)) = true ∧ (recordIn .opened weekly (some dated)).state ≠ .free
    ∧ recordSound { recordIn .spent weekly none with code := 0 } = false ∧ recordSound { recordIn .opened weekly none with code := 0 } = false
    ∧ recordSound (recordIn .quarantined { weekly with kind := 7 } none) = false ∧ (recordIn .quarantined { weekly with kind := 7 } none).state = .quarantined := by
  decide

theorem witness_days_per_week : weekly.kind = 0 ∧ weekly.day = .days 0x1F ∧ dated.kind = 1 ∧ ({ weekly with kind := 1 } : Content).kind = 1 := by decide

theorem witness_record_fields : recordNumber (text "00") = some 0 ∧ lockedRecord 0 State.reset = false
    ∧ lineTaken (text "RDRP") [text "00"] State.reset = true ∧ lineTaken (text "RCLR") [text "00"] State.reset = true
    ∧ lineTaken (text "RPRT") [text "00", text "0"] State.reset = true ∧ number 1 (text "0") = some 0 := by decide

theorem witness_rsus : lineTaken (text "RSUS") [text "05"] State.reset = true ∧ lockedRecord 5 State.reset = false
    ∧ (recordIn .armed weekly none).draft = none ∧ State.reset.waiting = [] ∧ (recordIn .spent weekly none).state = .spent := by decide

theorem witness_rsus_with_waiters : lineTaken (text "RSUS") [text "05"] (withWaiters .opened [7]) = true ∧ lockedRecord 5 (withWaiters .opened [7]) = false
    ∧ ((withWaiters .opened [7]).record 5).state = .opened ∧ (withWaiters .opened [7]).waiting.Nodup ∧ 5 ∉ (withWaiters .opened [7]).waiting
    ∧ lineTaken (text "RFRE") [text "05"] (withWaiters .waiting [5, 7]) = true ∧ lockedRecord 5 (withWaiters .waiting [5, 7]) = false
    ∧ lineTaken (text "RSUS") [text "05"] (withWaiters .waiting [7, 5]) = true := by decide

theorem witness_rres_rfre : lineTaken (text "RRES") [text "05"] State.reset = true ∧ lineTaken (text "RFRE") [text "05"] State.reset = true
    ∧ State.reset.calendar.state ≠ .running ∧ (recordIn .suspended weekly none).state = .suspended
    ∧ (recordIn .suspended weekly none).state ≠ .free := by decide

theorem witness_queries : orAny channelNumber (text "17") = some (some 23) ∧ orAny channelNumber (text "-") = some none
    ∧ orAny (number 6) (text "6") = some (some 6) ∧ lineTaken (text "RFND") [text "17", text "6", text "00"] State.reset = true
    ∧ lineTaken (text "RNXT") [text "-"] State.reset = true ∧ State.reset.calendar.state ≠ .running ∧ running.calendar.state = .running
    ∧ lineTaken (text "RNXT") [text "-"] running = true := by decide
theorem witness_next_event : CalendarInv running ∧ nextEvent running none = none
    ∧ nextEvent (withRecord running (recordIn .armed weekly none)) none = some (minuteIndex ⟨24, 3, 18⟩ 8 30, 5, true)
    ∧ CalendarInv (withRecord running (recordIn .armed weekly none)) ∧ validDate ⟨24, 3, 18⟩ = true
    ∧ dayIndex ⟨24, 3, 18⟩ = minuteIndex ⟨24, 3, 18⟩ 8 30 / 1440
    ∧ (∀ n c, ((withRecord running (recordIn .armed weekly none)).record n).content = some c → contentInRange c = true) := by
  refine ⟨by unfold CalendarInv; decide, by decide +kernel, by decide +kernel, by unfold CalendarInv; decide, by decide, by decide, fun n c hc => ?_⟩
  have h : ∀ n, ((withRecord running (recordIn .armed weekly none)).record n).content.all (fun c => contentInRange c) = true := by decide
  have := h n
  rw [hc] at this
  exact this
theorem witness_rule_reports : (State.reset.rule 15).state = .unused ∧ ((withRule assertRule).rule 0).state = .active
    ∧ ((withRule assertRule).rule 0).fields = some assertRule ∧ lineTaken (text "TRGT") [text "00"] (withRule assertRule) = true
    ∧ (⟨.faulted, some assertRule, 0⟩ : Rule).state ≠ .unused := by decide
theorem test_find_lists_the_record :
    replyTo (.rfnd [text "03", text "1", text "00"]) (withRecord State.reset (recordIn .armed weekly none)) = some (text "00 05 -" ++ [cr]) := by decide
theorem test_find_and_protect_take_two_digits :
    replyTo (.rfnd [text "03", text "01", text "00"]) (withRecord State.reset (recordIn .armed weekly none)) = some (text "00 05 -" ++ [cr])
      ∧ replyTo (.rprt [text "05", text "01"]) (withRecord State.reset (recordIn .armed weekly none)) = some (text "00" ++ [cr]) := by decide
theorem test_rnxt_gives_the_next_opening : replyTo (.rnxt [text "-"]) (withRecord running (recordIn .armed weekly none))
    = some (text "00 180324 0830 05 1" ++ [cr]) := by decide +kernel
theorem test_clst_lists_a_claim : replyTo (.clst [text "02"]) (withClaims [⟨.port, 3, 64, none, some 16⟩])
    = some (text "00 40 - 2F 00 01 70 3 40 - 0010 -" ++ [cr]) := by decide +kernel
theorem test_trgt_reports_a_rule : replyTo (.trgt [text "00"]) (withRule { assertRule with hold := some 300 })
    = some (text "00 1 0 0 0 03 1 FF - 012C" ++ [cr]) := by decide
theorem witness_more_queries : channelNumber (text "00") = some 0 ∧ lineTaken (text "CLST") [text "00"] State.reset = true
    ∧ twoDigits 0x2F (text "2F") = some 0x2F ∧ lineTaken (text "CLST") [text "00", text "2F"] State.reset = true
    ∧ inputNumber (text "7") = some 7 ∧ lineTaken (text "IGET") [text "7"] State.reset = true ∧ ruleNumber (text "0F") = some 15
    ∧ lineTaken (text "TRGT") [text "0F"] State.reset = true ∧ lineTaken (text "CGET") [text "00"] State.reset = true
    ∧ lineTaken (text "GGET") [] State.reset = true := by decide

/-- A CSET of channel 3, one whose hold is 0, and one with a comma in its priority. -/
def csetThree : List Text := [text "03", text "2", text "FF", text "-", text "FFFF"]
def csetOutOfRange : List Text := [text "03", text "2", text "FF", text "-", text "0"]
def csetBadDigit : List Text := [text "03", text "2,", text "FF", text "-", text "-"]

theorem witness_cset : lineTaken (text "CSET") csetThree State.reset = true ∧ CsetLine csetThree [3] 2 255 none (some 0xFFFF)
    ∧ 1 = ((toChans [3]).filter fun c => (State.reset.claimList c).all fun cl => cl.source != .port).length ∧ 1 ≤ freeCount State.reset :=
  ⟨by decide, ⟨_, _, _, _, _, rfl, by unfold ListForm; decide, by decide, by decide, rfl, by decide, by decide⟩, by decide, by decide⟩
theorem witness_cset_bad_digit : lineTaken (text "CSET") csetBadDigit State.reset = true ∧ BadDigits (some 0) none csetBadDigit :=
  ⟨by decide, (bad_iff (list := some 0) (word := none) (by decide)).mp (by decide)⟩
theorem witness_cset_field_count : lineTaken (text "CSET") (csetThree.take 4) State.reset = true
    ∧ ¬ BadDigits (some 0) none (csetThree.take 4) ∧ (csetThree.take 4).length = 4 :=
  ⟨by decide, (not_bad_iff (list := some 0) (word := none) (by decide)).mp (by decide), rfl⟩
theorem witness_cset_range : lineTaken (text "CSET") csetOutOfRange State.reset = true ∧ ¬ BadDigits (some 0) none csetOutOfRange
    ∧ ∀ l p lv b h, ¬ CsetLine csetOutOfRange l p lv b h := by
  have h : csetRequest (text "03") (text "2") (text "FF") (text "-") (text "0") = none := by decide
  refine ⟨by decide, (not_bad_iff (list := some 0) (word := none) (by decide)).mp (by decide), fun l p lv b hd hl => ?_⟩
  have := csetRequest_iff.mpr ⟨l, p, lv, b, hd, hl, rfl⟩
  rw [h] at this
  cases this
theorem witness_cset_pool_full : lineTaken (text "CSET") csetThree fullPool = true
    ∧ freeCount fullPool < ((toChans [3]).filter fun c => (fullPool.claimList c).all fun cl => cl.source != .port).length := by decide +kernel

theorem witness_gscl : lineTaken (text "GSCL") [text "800001", text "000003", text "3", text "-"] State.reset = true
    ∧ channelSetField (text "800001") = some 0x800001 ∧ channelSetField (text "000003") = some 3 ∧ priorityField (text "3") = some 3
    ∧ holdField (text "-") = some none ∧ ((List.finRange 24).filter fun c : Chan => ((0x800001 : BitVec 24).getLsbD c.val || (3 : BitVec 24).getLsbD c.val)
      && (State.reset.claimList c).all fun cl => cl.source != .port).length = 3 ∧ 3 ≤ freeCount State.reset := by decide
theorem witness_gscl_pool_full : lineTaken (text "GSCL") [text "800001", text "000003", text "3", text "-"] fullPool = true
    ∧ freeCount fullPool < ((List.finRange 24).filter fun c : Chan => ((0x800001 : BitVec 24).getLsbD c.val || (3 : BitVec 24).getLsbD c.val)
      && (fullPool.claimList c).all fun cl => cl.source != .port).length := by decide +kernel

theorem witness_crel : lineTaken (text "CREL") [text "FFFFFF", text "-"] State.reset = true ∧ channelSetField (text "FFFFFF") = some 0xFFFFFF
    ∧ orAny priorityField (text "-") = some none ∧ orAny priorityField (text "0") = some (some 0) ∧ State.reset.waiting = []
    ∧ claimTotal (withClaims []) = claimTotal State.reset ∧ claimTotal (withClaims []) ≠ claimTotal (withClaims [⟨.port, 0, 128, none, none⟩]) := by
  decide +kernel

theorem witness_holds : State.reset.holdsDue = 0 ∧ State.reset.calendar.osc ≠ .steady ∧ ticksDue.holdsDue ≠ 0 ∧ ticksDue.calendar.osc = .steady
    ∧ ticksDue.waiting = [] ∧ (⟨.port, 0, 128, none, some 1⟩ : Claim).afterTick = none
    ∧ (⟨.port, 0, 128, none, some 2⟩ : Claim).afterTick = some ⟨.port, 0, 128, none, some 1⟩ := by decide

theorem witness_icfg : lineTaken (text "ICFG") [text "7", text "1", text "0", text "64", text "01"] State.reset = true
    ∧ IcfgLine [text "7", text "1", text "0", text "64", text "01"] 7 ⟨.push, false, some 100, some 1⟩
    ∧ IcfgLine [text "0", text "2", text "1", text "01", text "-"] 0 ⟨.level, true, some 1, none⟩
    ∧ IcfgLine [text "3", text "0", text "0", text "-", text "-"] 3 ⟨.off, false, none, none⟩ :=
  ⟨by decide, icfg_iff.mp ⟨by decide, by decide⟩, icfg_iff.mp ⟨by decide, by decide⟩, icfg_iff.mp ⟨by decide, by decide⟩⟩
theorem witness_icfg_bad_digit : lineTaken (text "ICFG") [text "7", text "-"] State.reset = true
    ∧ ∃ i f b, ([text "7", text "-"] : List Text)[i]? = some f ∧ ¬ (f = text "-" ∧ (i = 3 ∨ i = 4)) ∧ b ∈ f ∧ isHex b = false :=
  ⟨by decide, 1, text "-", 0x2D, rfl, by decide, by decide, by decide⟩
theorem icfg_digits (fields : List Text) (h : ∀ p ∈ fields.zipIdx, (p.1 = text "-" ∧ (p.2 = 3 ∨ p.2 = 4)) ∨ ∀ b ∈ p.1, isHex b = true) :
    ¬ ∃ i f b, fields[i]? = some f ∧ ¬ (f = text "-" ∧ (i = 3 ∨ i = 4)) ∧ b ∈ f ∧ isHex b = false := by
  rintro ⟨i, f, b, h1, h2, h3, h4⟩
  rcases h (f, i) (List.mem_zipIdx_iff_getElem?.mpr h1) with h5 | h5
  · exact h2 h5
  · simp [h5 b h3] at h4
theorem witness_icfg_field_count : lineTaken (text "ICFG") [text "7", text "1"] State.reset = true ∧ [text "7", text "1"].length ≠ 5
    ∧ ¬ ∃ i f b, ([text "7", text "1"] : List Text)[i]? = some f ∧ ¬ (f = text "-" ∧ (i = 3 ∨ i = 4)) ∧ b ∈ f ∧ isHex b = false :=
  ⟨by decide, by decide, icfg_digits _ (by decide)⟩
theorem witness_icfg_range : lineTaken (text "ICFG") [text "7", text "1", text "0", text "65", text "01"] State.reset = true
    ∧ (¬ ∃ i f b, ([text "7", text "1", text "0", text "65", text "01"] : List Text)[i]? = some f
      ∧ ¬ (f = text "-" ∧ (i = 3 ∨ i = 4)) ∧ b ∈ f ∧ isHex b = false)
    ∧ ∀ i k, ¬ IcfgLine [text "7", text "1", text "0", text "65", text "01"] i k := by
  have h : icfgConfig (text "1") (text "0") (text "65") (text "01") = none := by decide
  refine ⟨by decide, icfg_digits _ (by decide), fun i k hl => ?_⟩
  have := (icfg_iff.mpr hl).2
  rw [h] at this
  cases this

/-- A TRWR of rule 15 with the fields of `assertRule`, and one of a TOGGLE with level 0. -/
def trwrLine : List Text := [text "0F", text "0", text "0", text "0", text "03", text "1", text "FF", text "-", text "-"]
def trwrOutOfRange : List Text := [text "0F", text "0", text "0", text "1", text "03", text "1", text "00", text "-", text "-"]

theorem witness_trwr : lineTaken (text "TRWR") trwrLine State.reset = true ∧ TrwrLine trwrLine 15 (some assertRule)
    ∧ lineTaken (text "TRWR") [text "0F", text "-"] State.reset = true ∧ TrwrLine [text "0F", text "-"] 15 none :=
  ⟨by decide, trwrFields_iff.mp (by decide), by decide, trwrFields_iff.mp (by decide)⟩
theorem witness_trwr_bad_digit : lineTaken (text "TRWR") [text "0F", text "G"] State.reset = true ∧ BadDigits (some 4) none [text "0F", text "G"] :=
  ⟨by decide, (bad_iff (list := some 4) (word := none) (by decide)).mp (by decide)⟩
theorem witness_trwr_field_count : lineTaken (text "TRWR") [text "0F", text "0"] State.reset = true ∧ ¬ BadDigits (some 4) none [text "0F", text "0"]
    ∧ [text "0F", text "0"].length ≠ 9 ∧ ∀ f, [text "0F", text "0"] ≠ [f, text "-"] :=
  ⟨by decide, (not_bad_iff (list := some 4) (word := none) (by decide)).mp (by decide), by decide, (trwrFields_none.mp (by decide)).2⟩
theorem witness_trwr_range : lineTaken (text "TRWR") trwrOutOfRange State.reset = true ∧ ¬ BadDigits (some 4) none trwrOutOfRange
    ∧ trwrOutOfRange.length = 9 ∧ ∀ n r, ¬ TrwrLine trwrOutOfRange n r := by
  have h : trwrFields trwrOutOfRange = some none := by decide
  exact ⟨by decide, (not_bad_iff (list := some 4) (word := none) (by decide)).mp (by decide), rfl,
    fun n r hl => by rw [← trwrFields_iff, h] at hl; cases hl⟩

theorem witness_pin_change : nth State.reset.inputPins 0 = false ∧ nth State.reset.inputPins 0 ≠ true ∧ State.reset.mainPower = true
    ∧ (State.reset.inputConfig 0).kind = .off ∧ ((pushed .released false none).inputConfig 0).kind ≠ .off
    ∧ nth (pushed .released false none).inputPins 0 ≠ true := by decide

theorem witness_changes : ((pushed .released false (some ⟨true, 0⟩)).input 0).firstPending = some false
    ∧ ((pushed .released false (some ⟨true, 0⟩)).input 0).interval = some ⟨true, 0⟩
    ∧ ((pushed .released false (some ⟨true, 0⟩)).input 0).state = .released
    ∧ ((pushed .longHeld false (some ⟨false, 0⟩)).input 0).interval = some ⟨false, 0⟩
    ∧ ((pushed .longHeld false (some ⟨false, 0⟩)).input 0).state = .longHeld ∧ ((pushed .pressed false (some ⟨false, 0⟩)).input 0).state = .pressed
    ∧ ((pushed .stuck false (some ⟨false, 0⟩)).input 0).state = .stuck ∧ ((pushed .inactive false (some ⟨true, 0⟩)).input 0).state = .inactive
    ∧ ((pushed .active false (some ⟨false, 0⟩)).input 0).state = .active := by decide

theorem witness_first_sample : ((pushed .released true (some ⟨true, 0⟩)).input 0).firstPending = some true
    ∧ ((pushed .released true (some ⟨true, 0⟩)).input 0).interval = some ⟨true, 0⟩ ∧ ((pushed .released true (some ⟨true, 0⟩)).inputConfig 0).kind = .push
    ∧ (({ pushed .inactive true (some ⟨false, 0⟩) with inputConfigs := upd State.reset.inputConfigs 0 ⟨.level, false, some 20, none⟩ } : State).inputConfig 0).kind
      = .level := by decide

theorem witness_held : ((pushed .pressed false none).input 0).state = .pressed ∧ ((pushed .longHeld false none).input 0).state ≠ .pressed
    ∧ State.reset.heldDue = 0 ∧ State.reset.calendar.osc ≠ .steady ∧ ticksDue.heldDue ≠ 0 ∧ ticksDue.calendar.osc = .steady
    ∧ 120 ≤ ((pushed .pressed false none).input 0).heldCount.getD 0 + 1 := by decide

theorem witness_event_taken : State.reset.applying = none ∧ ([⟨1, .long⟩, ⟨0, .short⟩] : List InputEvent).find? (fun x => x.input == 0) = some ⟨0, .short⟩ := by
  decide
theorem witness_rule_visits : shortEvent.toggle = none ∧ ruleMatches ((withRule assertRule).rule 0) shortEvent.event = true
    ∧ ruleMatches ((withRule assertRule).rule 1) shortEvent.event = false
    ∧ ruleSound { (withRule assertRule).rule 0 with code := 0 } = false := by decide

theorem witness_rule_requests : ruleSound ((withRule assertRule).rule 0) = true ∧ ((withRule assertRule).rule 0).fields = some assertRule
    ∧ assertRule.action = 0 ∧ assertRule.level = some 255 ∧ ruleMatches ((withRule toggleRule).rule 0) shortEvent.event = true
    ∧ ruleSound ((withRule toggleRule).rule 0) = true ∧ toggleRule.action = 1 ∧ toChans toggleRule.channels = [3]
    ∧ ({ shortEvent with toggle := some ⟨0, toggleRule, 255⟩ } : Applying).toggle = some ⟨shortEvent.next, toggleRule, 255⟩ := by decide

theorem witness_rule_fits : (∃ p : Fin 4, p.val = assertRule.priority.toNat)
    ∧ ((toChans assertRule.channels).filter fun c => ((withRule assertRule).claimList c).all fun cl => cl.source != .input 0).length = 1
    ∧ 1 ≤ freeCount (withRule assertRule) ∧ (toChans assertRule.channels).Nodup
    ∧ freeCount (fullPool.setRule 0 ⟨.active, some assertRule, ruleCodeOf assertRule⟩) < 1 ∧ PoolInv (withRule assertRule) := by
  refine ⟨?_, ?_, ?_, ?_, ?_, ?_⟩ <;> first | decide +kernel | (unfold PoolInv ordered oneEach; decide)
theorem witness_rule_15_is_the_last : ¬ (({ shortEvent with next := 15 } : Applying).next.val + 1 < 16) ∧ shortEvent.next.val + 1 < 16 := by decide
theorem witness_event_goes_on_and_ends :
    (∃ t, exec (.inputEvent 0 1) { State.reset with applying := some shortEvent } = .next t ∧ t.applying ≠ none)
    ∧ ∃ t, exec (.inputEvent 0 1) { State.reset with applying := some { shortEvent with next := 15 } } = .next t ∧ t.applying = none :=
  ⟨⟨_, rfl, by decide⟩, ⟨_, rfl, by decide⟩⟩

theorem witness_release_rule : ruleMatches ((withRule releaseRule).rule 0) shortEvent.event = true ∧ ruleSound ((withRule releaseRule).rule 0) = true
    ∧ ((withRule releaseRule).rule 0).fields = some releaseRule ∧ releaseRule.action = 2 ∧ (withRule releaseRule).waiting = []
    ∧ ({ withRule releaseRule with waiting := [7] } : State).waiting.Nodup
    ∧ claimTotal (withClaims []) ≠ claimTotal (withClaims [⟨.input 0, 0, 128, none, none⟩]) := by decide +kernel

/-- A CSET of channel 2 at priority 3. -/
def csetLine (level : Text) : List Text := [text "02", text "3", level, text "-", text "-"]

theorem csetLine_form (level : Text) (v : BitVec 8) (h : number 0xFF level = some v.toNat) : CsetLine (csetLine level) [2] 3 v none none :=
  ⟨_, _, _, _, _, rfl, by unfold ListForm; decide, by decide, h, rfl, rfl⟩
theorem witness_demand_request : CsetLine (csetLine (text "FF")) [2] 3 255 none none ∧ CsetLine (csetLine (text "40")) [2] 3 64 none none
    ∧ CsetLine (csetLine (text "00")) [2] 3 0 none none ∧ (2 : BitVec 8).toNat = (2 : Chan).val :=
  ⟨csetLine_form _ _ (by decide), csetLine_form _ _ (by decide), csetLine_form _ _ (by decide), rfl⟩
theorem witness_demand_of_a_resting_channel : lineTaken (text "CSET") (csetLine (text "FF")) State.reset = true
    ∧ freeCount State.reset ≠ 0 ∧ (∀ e, (State.reset.channel e).present = demandOf State.reset e)
    ∧ (State.reset.channel 2).present = ⟨0, none⟩ ∧ (State.reset.channel 2).condition = .normal ∧ (State.reset.config 2).kind = .switched
    ∧ (State.reset.switch 2).count ≠ 9999 ∧ ({ State.reset with switches := upd State.reset.switches 2 ⟨9999, false⟩ } : State).switch 2 = ⟨9999, false⟩ := by
  decide +kernel

/-- The states a demand of channel 2 can meet: FAULTED; DIMMED with a generator free, with none free, waiting, and holding one; and PULSED. -/
def demandStates : List State :=
  [demanded .dimmed { half with condition := .faulted } State.reset.generators, demanded .dimmed half State.reset.generators, demanded .dimmed half busyPool,
    demanded .dimmed { half with link := .waiting } busyPool, demanded .dimmed { half with link := .holding 0, drive := .generator } busyPool,
    demanded .pulsed { half with pulse := some .unknown } busyPool, demanded .pulsed { half with pulse := some .atOff } busyPool,
    demanded .pulsed { half with pulse := some .atOn } busyPool, demanded .pulsed { half with pulse := some (.pulsing true) } busyPool]

theorem witness_demand_states : ∀ s ∈ demandStates, lineTaken (text "CSET") (csetLine (text "40")) s = true
    ∧ freeCount s ≠ 0 ∧ (∀ e, (s.channel e).present = demandOf s e) ∧ (s.channel 2).present ≠ ⟨64, none⟩
    ∧ (s.channel 2).present ≠ ⟨255, none⟩ := by decide +kernel
theorem witness_demand_needs : needs .dimmed ⟨64, none⟩ = some ⟨64, none⟩ ∧ needs .dimmed ⟨255, none⟩ = none
    ∧ (∀ g, (demanded .dimmed half busyPool).generator g ≠ .free) ∧ (demanded .dimmed half State.reset.generators).generator 0 = .free
    ∧ (demanded .dimmed half busyPool).generator 0 = .busy ⟨false, 2, ⟨128, none⟩, none, 0, none⟩ := by decide

/-- CCFG of channel 17 as DIMMED on pin 1F, and as PULSED on pins 1F and 1E. -/
def dimmedLine : List Text := [text "17", text "1", text "00", text "0", text "0", text "1F", text "-", text "-"]
def pulsedLine : List Text := [text "17", text "2", text "00", text "0", text "0", text "1F", text "1E", text "FF"]

theorem dimmedLine_form : CcfgLine 10 dimmedLine 23 ⟨.dimmed, 0, 0, false, 31, none, 10⟩ := ccfg_iff.mp ⟨by decide, by decide⟩
theorem pulsedLine_form : CcfgLine 10 pulsedLine 23 ⟨.pulsed, 0, 0, false, 31, some 30, 255⟩ := ccfg_iff.mp ⟨by decide, by decide⟩
theorem witness_ccfg : lineTaken (text "CCFG") dimmedLine State.reset = true ∧ (State.reset.config 23).pulseLength = 10
    ∧ State.reset.frozen 23 = false ∧ pinInUse State.reset 23 ⟨.dimmed, 0, 0, false, 31, none, 10⟩ = false
    ∧ pinInUse State.reset 23 ⟨.dimmed, 0, 0, false, 0, none, 10⟩ = true ∧ ({ State.reset with freezeMask := 0x800000 } : State).frozen 23 = true := by
  decide
theorem witness_ccfg_bad_digit : lineTaken (text "CCFG") [text "17", text "x"] State.reset = true ∧ BadDigits none none [text "17", text "x"] :=
  ⟨by decide, (bad_iff (list := none) (word := none) (by decide)).mp (by decide)⟩
theorem witness_ccfg_field_count : lineTaken (text "CCFG") [text "17", text "1"] State.reset = true ∧ ¬ BadDigits none none [text "17", text "1"]
    ∧ [text "17", text "1"].length ≠ 8 :=
  ⟨by decide, (not_bad_iff (list := none) (word := none) (by decide)).mp (by decide), by decide⟩
theorem witness_ccfg_range : lineTaken (text "CCFG") (dimmedLine.set 0 (text "18")) State.reset = true
    ∧ ¬ BadDigits none none (dimmedLine.set 0 (text "18")) ∧ (dimmedLine.set 0 (text "18")).length = 8
    ∧ ∀ c k, ¬ CcfgLine (State.reset.config c).pulseLength (dimmedLine.set 0 (text "18")) c k := by
  have h : plainChannel (text "18") = none := by decide
  refine ⟨by decide, (not_bad_iff (list := none) (word := none) (by decide)).mp (by decide), rfl, fun c k hl => ?_⟩
  have := (ccfg_iff.mpr hl).1
  rw [h] at this
  cases this
theorem witness_ccfg_pulsed : lineTaken (text "CCFG") pulsedLine State.reset = true
    ∧ pinInUse State.reset 23 ⟨.pulsed, 0, 0, false, 31, some 30, 255⟩ = false ∧ (State.reset.channel 23).condition = .normal
    ∧ ((withChannel { half with condition := .faulted }).channel 2).condition = .faulted := by decide

/-- CCFG of channel 2 as DIMMED on pin 2. -/
def dimmedTwo : List Text := [text "02", text "1", text "40", text "0", text "0", text "02", text "-", text "-"]

theorem dimmedTwo_form : CcfgLine 10 dimmedTwo 2 ⟨.dimmed, 64, 0, false, 2, none, 10⟩ := ccfg_iff.mp ⟨by decide, by decide⟩
theorem witness_ccfg_generators : lineTaken (text "CCFG") dimmedTwo (pooled false) = true ∧ ((pooled false).config 2).pulseLength = 10
    ∧ (pooled false).frozen 2 = false ∧ pinInUse (pooled false) 2 ⟨.dimmed, 64, 0, false, 2, none, 10⟩ = false
    ∧ ((pooled false).channel 2).link = .holding 0 ∧ waiters (pooled false) = [] ∧ waiters ((pooled false).setChannel 4 { half with link := .waiting }) = [4]
    ∧ needs (((pooled false).setChannel 4 { half with link := .waiting }).config 4).kind half.present = some ⟨128, none⟩
    ∧ needs .dimmed ⟨64, none⟩ = some ⟨64, none⟩ ∧ needs .dimmed ⟨255, none⟩ = none ∧ (∀ g, nth busyPool g ≠ .free)
    ∧ nth (pooled false).generators 1 = .free ∧ (∀ j : GenNo, j < 1 → nth (pooled false).generators j ≠ .free) := by decide

/-- A part whose channel 2 itself waits for a generator, with none free. -/
def waitingTwo : State := demanded .dimmed { half with link := .waiting, drive := .active, feedback := .settling true 20 } busyPool

theorem witness_ccfg_of_a_waiting_channel : lineTaken (text "CCFG") dimmedTwo waitingTwo = true ∧ (waitingTwo.config 2).pulseLength = 10
    ∧ waitingTwo.frozen 2 = false ∧ pinInUse waitingTwo 2 ⟨.dimmed, 64, 0, false, 2, none, 10⟩ = false ∧ (waitingTwo.channel 2).link = .waiting
    ∧ (waitingTwo.channel 2).condition = .normal ∧ (∀ g, nth waitingTwo.generators g ≠ .free) ∧ needs .dimmed ⟨128, none⟩ = some ⟨128, none⟩ := by decide

/-- CCFG of channel 2 as DIMMED on pin 1F: another pin A. -/
def movedTwo : List Text := [text "02", text "1", text "40", text "0", text "0", text "1F", text "-", text "-"]

theorem movedTwo_form : CcfgLine 10 movedTwo 2 ⟨.dimmed, 64, 0, false, 31, none, 10⟩ := ccfg_iff.mp ⟨by decide, by decide⟩
theorem witness_ccfg_to_another_pin : lineTaken (text "CCFG") movedTwo waitingTwo = true ∧ (waitingTwo.config 2).pinA ≠ 31
    ∧ pinInUse waitingTwo 2 ⟨.dimmed, 64, 0, false, 31, none, 10⟩ = false ∧ (waitingTwo.channel 2).feedback.commanded = some true := by decide

theorem witness_cclr : lineTaken (text "CCLR") [text "17"] State.reset = true ∧ (∀ f ∈ [text "17"], ∀ b ∈ f, isHex b = true)
    ∧ channelNumber (text "17") = some 23 ∧ channelNumber (text "18") = none ∧ channelNumber (text "5") = none ∧ State.reset.frozen 23 = false
    ∧ ({ State.reset with freezeMask := 0x800000 } : State).frozen 23 = true ∧ lineTaken (text "CCLR") [] State.reset = true := by decide

theorem witness_frzk : lineTaken (text "FRZK") [text "5A", text "800001"] State.reset = true ∧ number 255 (text "5A") = some 0x5A
    ∧ number 255 (text "A5") = some 0xA5 ∧ channelSetField (text "800001") = some 0x800001 ∧ (0x800001 : BitVec 24) ≠ 0
    ∧ State.reset.freezeSeq = .idle ∧ ({ State.reset with freezeSeq := .one 0x800001 } : State).freezeSeq = .one 0x800001
    ∧ ({ State.reset with freezeSeq := .two 0x800001 } : State).freezeSeq = .two 0x800001 := by decide

theorem witness_dfrq : lineTaken (text "DFRQ") [text "3E8"] State.reset = true ∧ (∀ f ∈ [text "3E8"], ∀ b ∈ f, isHex b = true)
    ∧ rangeField 100 1000 (text "3E8") = some 1000 ∧ rangeField 100 1000 (text "64") = some 100 ∧ rangeField 100 1000 (text "63") = none
    ∧ rangeField 100 1000 (text "3E9") = none ∧ (∀ g, State.reset.generator g = .free) ∧ (∃ g, (pooled false).generator g ≠ .free) := by decide

theorem witness_cflt : lineTaken (text "CFLT") [text "02"] (withChannel { half with condition := .faulted }) = true ∧ channelNumber (text "02") = some 2
    ∧ ({ half with condition := .faulted } : Channel).link = .none ∧ half.condition = .normal ∧ half.feedback = .unsupervised
    ∧ needs .dimmed ⟨255, none⟩ = none ∧ needs .dimmed half.present = some ⟨128, none⟩ ∧ (∀ j : GenNo, ¬ j < 0)
    ∧ State.reset.generator 0 = .free ∧ ({ half with pulse := some .unknown } : Channel).pulse = some .unknown
    ∧ (∀ g, (demanded .dimmed { half with condition := .faulted } busyPool).generator g ≠ .free)
    ∧ lineTaken (text "CFLT") [text "02"] (demanded .dimmed { half with condition := .faulted } busyPool) = true := by decide

theorem witness_pulses : ({ half with pulse := some (.pulsing true), pulseCounts := true } : Channel).pulse = some (.pulsing true)
    ∧ half.pending = none ∧ (State.reset.switch 2).count ≠ 9999 ∧ (⟨9999, false⟩ : SwitchCounter).count = 9999 ∧ ({ half with pending := some true } : Channel).pending = some true
    ∧ ({ half with pulse := some (.pulsing true), pending := some false, pulseCounts := true } : Channel).pending = some false
    ∧ ∀ b, half.pulse ≠ some (.pulsing b) := by decide

theorem witness_period_end : (pooled true).generator 1 = .free ∧ (pooled false).generator 0 = .busy ⟨false, 2, ⟨128, none⟩, none, 0, none⟩
    ∧ (pooled true).generator 0 = .busy ⟨true, 2, ⟨128, none⟩, none, 0, none⟩ ∧ ((pooled true).channel 2).link = .holding 0
    ∧ waiters (pooled true) = [] ∧ waiters ((pooled true).setChannel 4 { half with link := .waiting }) = [4]
    ∧ needs (((pooled true).setChannel 4 { half with link := .waiting }).config 4).kind half.present = some ⟨128, none⟩ := by decide

theorem witness_settle : (State.reset.channel 2).feedback = .settling false 20 ∧ State.reset.mainPower = true ∧ (false : Bool) ≠ true
    ∧ nth State.reset.faultsDue 2 = false ∧ ∀ g, (State.reset.channel 2).link ≠ .holding g := by decide

/-- A part whose channel 2 holds generator 0 and whose fault a comparison has found and left, with channel 4 waiting. -/
def faultLeft (releasing : Bool) : State := { (pooled releasing).setChannel 4 { half with link := .waiting } with faultsDue := upd State.reset.faultsDue 2 true }

theorem witness_fault_left : nth (faultLeft false).faultsDue 2 = true ∧ ((faultLeft false).channel 2).link = .holding 0 ∧ waiters (faultLeft false) = [4]
    ∧ needs ((faultLeft false).config 4).kind ((faultLeft false).channel 4).present = some ⟨128, none⟩
    ∧ waiters ((faultLeft false).setChannel 4 half) = [] ∧ lateOn [⟨2, false, true⟩] 2 = true ∧ lateOn [⟨2, false, false⟩] 2 = false := by decide
theorem test_a_fault_is_left : ∃ t, exec (.settleTimerEnd 2 ⟨true, true⟩) State.reset = .next t ∧ nth t.faultsDue 2 = true
    ∧ (t.channel 2).condition = .normal := ⟨_, rfl, by decide, by decide⟩
theorem test_a_fault_returns_the_granted_generator : ∃ t, exec (.settleTimerEnd 2 ⟨true, false⟩) (faultLeft false) = .next t
    ∧ (t.channel 2).condition = .faulted ∧ (t.channel 4).link = .holding 0 ∧ nth t.faultsDue 2 = false := ⟨_, rfl, by decide, by decide, by decide⟩
theorem test_a_fault_returns_a_releasing_generator : ∃ t, exec (.settleTimerEnd 2 ⟨true, false⟩) (faultLeft true) = .next t
    ∧ t.generator 0 = .busy ⟨false, 4, ⟨128, none⟩, none, 0, none⟩ ∧ (t.channel 2).drive = .inactive := ⟨_, rfl, by decide, by decide⟩
theorem test_a_release_that_ends_first_leaves_nothing_to_return : ∃ t, exec (.periodEnd 0) (faultLeft true) = .next t
    ∧ (t.channel 2).link = .none ∧ (t.channel 4).link = .holding 0 ∧ nth t.faultsDue 2 = true := ⟨_, rfl, by decide, by decide, by decide⟩

/-- A port in a state, with a line so far. -/
def portIn (st : PortState) (line : Text) : Port := { Port.blank with state := st, line := line, gapTimer := some 250 }

theorem witness_written_bytes : State.reset.mainPower = true ∧ (portIn .accepting (List.replicate 78 0x41)).line.length < 79
    ∧ 79 ≤ (portIn .accepting (List.replicate 79 0x41)).line.length ∧ (0x41 : Byte) ≠ cr ∧ (0x41 : Byte) ≠ lf
    ∧ (portIn .executing []).state = .executing ∧ (portIn .answering []).state = .answering ∧ (portIn .accepting []).gapTimer ≠ none
    ∧ (portIn .accepting []).reinit = 0 ∧ ({ State.reset with port := { Port.blank with reinit := 1 } } : State).port.reinit = 0 + 1 := by decide

theorem witness_reads : State.reset.port.state ≠ .answering
    ∧ (⟨.answering, [], text "00", 0, false, false, false, none, none, none, 0⟩ : Port).response[0]? = some 0x30
    ∧ 0 + 1 < (text "00").length ∧ (text "00")[1]? = some 0x30 ∧ 1 + 1 = (text "00").length := by decide

theorem witness_field_counts :
    (text "NMSK", Instr.nmsk [], [1]) ∈ [(text "NMSK", Instr.nmsk [], [1])] ∧ lineTaken (text "NMSK") [] State.reset = true ∧ ([] : List Text).length ∉ [1]
      ∧ lineTaken (text "RWRT") [text "05"] State.reset = true ∧ [text "05"].length ∉ [11, 12] ∧ lineTaken (text "RSTR") [text "0"] State.reset = true
      ∧ (∀ f ∈ [text "05"], ∀ b ∈ f, isHex b = true) := by decide

theorem witness_no_command : Text.plain (text "XYZ") = true ∧ (text "XYZ").length ≤ 79 ∧ portReady (text "XYZ") State.reset.port = true
    ∧ (splitLine (text "XYZ")).1 ∉ commandWords ∧ 79 < (List.replicate 80 (0x41 : Byte)).length ∧ Text.plain (List.replicate 80 0x41) = true
    ∧ State.reset.port.state ≠ .executing ∧ State.reset.port.line = [] ∧ State.reset.port.overlength = false ∧ State.reset.port.reinit = 0 := by decide

theorem witness_too_long_in_execution :
    (⟨.executing, [], [], 0, false, false, false, none, some ⟨(List.replicate 80 (0x41 : Byte)).take 79, true, false⟩, none, 0⟩ : Port).taken
      = some ⟨(List.replicate 80 0x41).take 79, true, false⟩ := rfl

theorem witness_nget_nmsk : lineTaken (text "NGET") [] State.reset = true ∧ lineTaken (text "NMSK") [text "FFF"] State.reset = true
    ∧ maskField (text "FFF") = some 0xFFF ∧ lineTaken (text "NMSK") [text "-"] State.reset = true
    ∧ lineTaken (text "NMSK") [text "1000"] State.reset = true ∧ maskField (text "1000") = none ∧ maskField (text "0FFF") = none ∧ (∀ b ∈ text "1000", isHex b = true) := by
  decide

end Sys2Proof.Tests
end

section
/-!
PROOFS. The calendar's invariant (R2, R3, R4): which commands move the calendar, and that each that does leaves one the manual allows.
-/

namespace Sys2Proof.Machine

/-! ### What leaves the calendar alone -/

@[simp] theorem refuse_calendar (st : Status) (s : State) : (refuse st s).state.calendar = s.calendar := rfl

@[simp] theorem accept_calendar (out : List Text) (s : State) : (accept out s).state.calendar = s.calendar := rfl

theorem deliver_calendar (s : State) (e : TimeEvent) : (s.deliver e).calendar = s.calendar := by
  unfold State.deliver
  split <;> rfl

/-- A command on one record leaves the calendar alone when what it does with the record does. -/
theorem onRecord_calendar (g : Bool) (f : List Text) (act : RecNo → State → Reply) (s : State)
    (h : ∀ n, (act n s).state.calendar = s.calendar) : (onRecord g f act s).state.calendar = s.calendar := by
  unfold onRecord
  split
  · rfl
  · split
    · split
      · rfl
      · split
        · rfl
        · exact h _
    · rfl

/-- A command on one channel leaves the calendar alone when what it does with the channel does. -/
theorem onChannel_calendar (f : List Text) (act : Chan → State → Reply) (s : State)
    (h : ∀ c, (act c s).state.calendar = s.calendar) : (onChannel f act s).state.calendar = s.calendar := by
  unfold onChannel
  split
  · rfl
  · split
    · split
      · exact h _
      · rfl
    · rfl

/-! #### The schedule table's commands -/

theorem bodyTget_calendar (f : List Text) (s : State) : (bodyTget f s).state.calendar = s.calendar := by
  unfold bodyTget
  split <;> rfl

theorem writeArmed_calendar (n : RecNo) (c : Content) (s : State) : (writeArmed n c s).calendar = s.calendar :=
  (evaluateRecord_frame _ _).calendar

theorem bodyRwrt_calendar (f : List Text) (s : State) : (bodyRwrt f s).state.calendar = s.calendar := by
  have write : ∀ n c now, (writeRecord n c now s).state.calendar = s.calendar := by
    intro n c now
    unfold writeRecord
    dsimp only
    repeat' split
    · exact (writeArmed_calendar _ _ _).trans (leaveWindow_frame n s).calendar
    · rfl
    · rfl
    · rfl
    · exact writeArmed_calendar _ _ _
  unfold bodyRwrt
  split
  · rfl
  · split
    · rfl
    · rfl
    · split
      · rfl
      · exact write _ _ _

theorem bodyRget_calendar (f : List Text) (s : State) : (bodyRget f s).state.calendar = s.calendar := by
  refine onRecord_calendar _ _ _ _ fun n => ?_
  unfold getRecord
  split
  · rfl
  · exact (checkRecord_frame n s).calendar

theorem bodyRdrp_calendar (f : List Text) (s : State) : (bodyRdrp f s).state.calendar = s.calendar := by
  refine onRecord_calendar _ _ _ _ fun n => ?_
  unfold dropDraft
  split <;> rfl

theorem bodyRsus_calendar (f : List Text) (s : State) : (bodyRsus f s).state.calendar = s.calendar := by
  refine onRecord_calendar _ _ _ _ fun n => ?_
  unfold suspend
  split
  · exact (leaveWindow_frame n s).calendar
  · rfl

theorem bodyRres_calendar (f : List Text) (s : State) : (bodyRres f s).state.calendar = s.calendar := by
  refine onRecord_calendar _ _ _ _ fun n => ?_
  unfold resume
  split
  · exact (evaluateRecord_frame _ _).calendar
  · rfl

theorem bodyRfre_calendar (f : List Text) (s : State) : (bodyRfre f s).state.calendar = s.calendar := by
  refine onRecord_calendar _ _ _ _ fun n => ?_
  unfold freeRecord
  split
  · rfl
  · exact (leaveWindow_frame n s).calendar

theorem bodyRclr_calendar (f : List Text) (s : State) : (bodyRclr f s).state.calendar = s.calendar :=
  onRecord_calendar _ _ _ _ fun _ => rfl

theorem bodyRprt_calendar (f : List Text) (s : State) : (bodyRprt f s).state.calendar = s.calendar := by
  unfold bodyRprt protect
  repeat' split
  all_goals rfl

theorem bodyRfnd_calendar (f : List Text) (s : State) : (bodyRfnd f s).state.calendar = s.calendar := by
  unfold bodyRfnd
  repeat' split
  all_goals rfl

theorem bodyRnxt_calendar (f : List Text) (s : State) : (bodyRnxt f s).state.calendar = s.calendar := by
  unfold bodyRnxt
  repeat' split
  all_goals rfl

/-! #### The claim arbiter's and the input monitor's commands -/

theorem portRequest_calendar (q : Request) (s : State) : (portRequest q s).state.calendar = s.calendar := by
  unfold portRequest
  split
  · rename_i t h
    exact (request_frame q h).calendar
  · rfl

theorem bodyCset_calendar (f : List Text) (s : State) : (bodyCset f s).state.calendar = s.calendar := by
  unfold bodyCset
  split
  · rfl
  · split
    · split
      · exact portRequest_calendar _ _
      · rfl
    · rfl

theorem releaseClaims_calendar (m : BitVec 24) (p : Option (Fin 4)) (s : State) : (releaseClaims m p s).state.calendar = s.calendar :=
  (selectiveRemoval_frame (chansOf m) (portClaimAt p) s).calendar

theorem bodyCrel_calendar (f : List Text) (s : State) : (bodyCrel f s).state.calendar = s.calendar := by
  unfold bodyCrel
  split
  · rfl
  · split
    · split
      · exact releaseClaims_calendar _ _ _
      · rfl
    · rfl

theorem bodyGscl_calendar (f : List Text) (s : State) : (bodyGscl f s).state.calendar = s.calendar := by
  unfold bodyGscl
  split
  · rfl
  · split
    · split
      · exact portRequest_calendar _ _
      · rfl
    · rfl

theorem bodyClst_calendar (f : List Text) (s : State) : (bodyClst f s).state.calendar = s.calendar := by
  unfold bodyClst
  repeat' split
  all_goals rfl

theorem bodyIcfg_calendar (f : List Text) (s : State) : (bodyIcfg f s).state.calendar = s.calendar := by
  unfold bodyIcfg
  repeat' split
  all_goals rfl

theorem bodyIget_calendar (f : List Text) (s : State) : (bodyIget f s).state.calendar = s.calendar := by
  unfold bodyIget
  repeat' split
  all_goals rfl

theorem bodyTrwr_calendar (f : List Text) (s : State) : (bodyTrwr f s).state.calendar = s.calendar := by
  unfold bodyTrwr
  repeat' split
  all_goals rfl

theorem bodyTrgt_calendar (f : List Text) (s : State) : (bodyTrgt f s).state.calendar = s.calendar := by
  unfold bodyTrgt
  repeat' split
  all_goals rfl

/-! #### The channels', generators' and notice table's commands -/

theorem tryConfigure_calendar (c : Chan) (k : ChannelConfig) (s : State) : (tryConfigure c k s).state.calendar = s.calendar := by
  unfold tryConfigure
  split
  · rfl
  · split
    · rfl
    · exact (configureChannel_frame c k (dropFault c s)).calendar

theorem bodyCcfg_calendar (f : List Text) (s : State) : (bodyCcfg f s).state.calendar = s.calendar := by
  unfold bodyCcfg
  split
  · rfl
  · split
    · split
      · rfl
      · split
        · exact tryConfigure_calendar _ _ _
        · rfl
    · rfl

theorem bodyCget_calendar (f : List Text) (s : State) : (bodyCget f s).state.calendar = s.calendar :=
  onChannel_calendar _ _ _ fun _ => rfl

theorem bodyCclr_calendar (f : List Text) (s : State) : (bodyCclr f s).state.calendar = s.calendar := by
  refine onChannel_calendar _ _ _ fun c => ?_
  unfold clearSwitch
  split <;> rfl

theorem bodyCflt_calendar (f : List Text) (s : State) : (bodyCflt f s).state.calendar = s.calendar := by
  refine onChannel_calendar _ _ _ fun c => ?_
  unfold restoreChannel
  split
  · rfl
  · exact (deriveDrive_frame _ _ _).calendar

theorem bodyFrzk_calendar (f : List Text) (q : FreezeSeq) (s : State) : (bodyFrzk f q s).state.calendar = s.calendar := by
  unfold bodyFrzk freezeStep
  repeat' split
  all_goals rfl

theorem bodyDfrq_calendar (f : List Text) (s : State) : (bodyDfrq f s).state.calendar = s.calendar := by
  unfold bodyDfrq
  repeat' split
  all_goals rfl

theorem bodyGget_calendar (f : List Text) (s : State) : (bodyGget f s).state.calendar = s.calendar := by
  unfold bodyGget
  split <;> rfl

theorem bodyNget_calendar (f : List Text) (s : State) : (bodyNget f s).state.calendar = s.calendar := by
  unfold bodyNget
  split <;> rfl

theorem bodyNmsk_calendar (f : List Text) (s : State) : (bodyNmsk f s).state.calendar = s.calendar := by
  unfold bodyNmsk
  repeat' split
  all_goals rfl

/-! #### Passes, input events, resets -/

theorem passStep_calendar (s : State) : (passStep s).calendar = s.calendar := by
  unfold passStep
  split
  · exact (visit_frame _ _ _ _).calendar
  · rfl

theorem runPass_calendar (k : Nat) (s : State) : (runPass k s).calendar = s.calendar := by
  induction k generalizing s with
  | zero => rfl
  | succ k ih => exact (ih _).trans (passStep_calendar s)

theorem takeEvent_calendar (k : PassKind) (s : State) : (takeEvent k s).calendar = s.calendar := by
  unfold takeEvent
  split <;> rfl

theorem passCommand_calendar (k : PassKind) (v : Nat) (s : State) : (passCommand k v s).calendar = s.calendar := by
  unfold passCommand
  dsimp only
  split
  · exact (runPass_calendar _ _).trans (takeEvent_calendar k s)
  · rfl

theorem makeRuleRequest_calendar (n : RuleNo) (i : InputNo) (f : RuleFields) (lv : BitVec 8) (s : State) :
    (makeRuleRequest n i f lv s).calendar = s.calendar := by
  unfold makeRuleRequest
  cases h : request (ruleRequest i f lv) s with
  | none => exact State.raise_calendar _ _ _
  | some t => exact (request_frame _ h).calendar

theorem makeRelease_calendar (f : RuleFields) (s : State) : (makeRelease f s).calendar = s.calendar :=
  (selectiveRemoval_frame _ _ _).calendar

theorem applyAction_calendar (a : Applying) (f : RuleFields) (s : State) : (applyAction a f s).calendar = s.calendar := by
  unfold applyAction
  split
  · exact makeRuleRequest_calendar a.next a.event.input f (f.level.getD 0) s
  · split
    · rfl
    · simp only [makeRelease_calendar]

theorem applyStep_calendar (s : State) : (applyStep s).calendar = s.calendar := by
  unfold applyStep
  split
  · rfl
  · split
    · exact makeRuleRequest_calendar _ _ _ _ s
    · split
      · split
        · split
          · exact applyAction_calendar _ _ _
          · rfl
        · exact (checkRule_frame _ s).calendar
      · rfl

theorem runApply_calendar (k : Nat) (s : State) : (runApply k s).calendar = s.calendar := by
  induction k generalizing s with
  | zero => rfl
  | succ k ih => exact (ih _).trans (applyStep_calendar s)

theorem takeInputEvent_calendar (i : InputNo) (s : State) : (takeInputEvent i s).calendar = s.calendar := by
  unfold takeInputEvent
  split <;> rfl

theorem pinChange_calendar (i : InputNo) (high : Bool) (s : State) : (pinChange i high s).calendar = s.calendar := by
  unfold pinChange
  repeat' split
  all_goals rfl

theorem firstSample_calendar (i : InputNo) (lv : Bool) (s : State) : (firstSample i lv s).calendar = s.calendar := by
  unfold firstSample
  dsimp only
  split
  · rfl
  · split
    · exact State.raise_calendar _ _ _
    · rfl
  · split <;> rfl

theorem pressTaken_calendar (i : InputNo) (s : State) : (pressTaken i s).calendar = s.calendar := by
  unfold pressTaken
  dsimp only
  split <;> rfl

theorem releaseTaken_calendar (i : InputNo) (s : State) : (releaseTaken i s).calendar = s.calendar := by
  unfold releaseTaken
  dsimp only
  split <;> rfl

theorem takeChange_calendar (i : InputNo) (s : State) : (takeChange i s).calendar = s.calendar := by
  unfold takeChange
  split
  · rfl
  · split
    · exact firstSample_calendar _ _ _
    · split
      · exact pressTaken_calendar _ _
      · exact releaseTaken_calendar _ _

theorem reachThreshold_calendar (i : InputNo) (s : State) : (reachThreshold i s).calendar = s.calendar := by
  unfold reachThreshold
  dsimp only
  split <;> rfl

theorem startNotices_calendar (cold : Bool) (s : State) : (startNotices cold s).calendar = s.calendar := by
  unfold startNotices reportClock
  split
  · exact (State.raise_calendar _ _ _).trans (State.raise_calendar _ _ _)
  · exact State.raise_calendar _ _ _

/-- A main reset leaves the calendar as it is (R16). -/
theorem mainReset_calendar (cold : Bool) (v : Nat) (s : State) : (mainReset cold v s).calendar = s.calendar := by
  have h : (deriveAll (restartBlocks (startNotices cold (reinitialising (clearMain s))))).calendar = s.calendar :=
    (deriveAll_frame _).calendar.trans (startNotices_calendar cold (reinitialising (clearMain s)))
  unfold mainReset resetEvaluation
  split
  · exact (runPass_calendar _ _).trans h
  · exact h

theorem disturb_calendar (d : Disturbance) (s : State) : (disturb d s).calendar = s.calendar := by
  unfold disturb
  split <;> rfl

/-! ### Lines -/

/-- A line that is carried out leaves what holds of the calendar, when its body does. -/
theorem carryOut_calendarInv {body : State → Reply} (hb : ∀ u, CalendarInv u → CalendarInv (body u).state) (word : Text) (fields : List Text)
    {s : State} (h : CalendarInv s) : CalendarInv (carryOut word fields body s) := by
  unfold carryOut
  split
  · split
    · exact h
    · rename_i s1 hs
      have h1 : CalendarInv (endSequence s1) := by
        rw [takeLine_some hs]
        exact h
      exact hb _ h1
  · exact h

theorem calendarInv_of_calendar {s t : State} (e : t.calendar = s.calendar) (h : CalendarInv s) : CalendarInv t := by
  unfold CalendarInv
  rw [e]
  exact h

theorem answerLine_calendar (l : Text) (o : Bool) (st : Status) (s : State) : (answerLine l o st s).calendar = s.calendar := by
  unfold answerLine
  split
  · rfl
  · rename_i s1 hs
    rw [takeLine_some hs]
    rfl

theorem runRstr_calendar (fields : List Text) (v : Nat) (s : State) : (runRstr fields v s).calendar = s.calendar := by
  unfold runRstr
  split
  · split
    · rfl
    · rename_i s1 hs
      have e : s1.calendar = s.calendar := by rw [takeLine_some hs]
      split
      · exact (mainReset_calendar _ _ _).trans e
      · exact e
  · rfl

/-! ### What moves the calendar -/

theorem dateOf_valid {w : BitVec 24} {d : Date} (h : dateOf w = some d) : validDate d = true := by
  unfold dateOf at h
  split at h
  · split at h
    · rename_i hv
      obtain rfl := Option.some.inj h
      exact hv
    · cases h
  · cases h

/-- What TSET sets is a valid date and a time of day (R12). -/
theorem tsetValue_inRange {d t : Text} {v : Date × Nat} (h : tsetValue d t = some v) : validDate v.1 = true ∧ v.2 < 1440 := by
  unfold tsetValue at h
  split at h
  · rename_i date minute hd ht
    obtain rfl := Option.some.inj h
    obtain ⟨w, -, hw⟩ := Option.bind_eq_some_iff.mp hd
    obtain ⟨u, -, hu⟩ := Option.bind_eq_some_iff.mp ht
    exact ⟨dateOf_valid hw, timeOf_lt hu⟩
  · cases h

theorem setCalendar_calendarInv {s : State} {d : Date} {m : Nat} (hd : validDate d = true) (hm : m < 1440) (ho : s.calendar.osc = .steady) :
    CalendarInv (setCalendar d m s) := by
  unfold CalendarInv setCalendar
  rw [deliver_calendar]
  simp only [Calendar.set]
  exact ⟨hd, by omega, by omega, by omega, by omega, fun h => absurd ho h, fun _ => ho, fun h => by cases h⟩

theorem bodyTset_calendarInv (f : List Text) (s : State) (h : CalendarInv s) : CalendarInv (bodyTset f s).state := by
  unfold bodyTset
  split
  · exact h
  · split
    · split
      · exact h
      · rename_i v hv
        split
        · rename_i ho
          exact setCalendar_calendarInv (tsetValue_inRange hv).1 (tsetValue_inRange hv).2 ho
        · exact h
    · exact h

theorem adjusted_lt {r : Bool} {n sec x : Nat} (h : adjusted r n sec = some x) (hs : sec < 60) : x < 60 := by
  unfold adjusted at h
  split at h <;> split at h
  · obtain rfl := Option.some.inj h
    omega
  · cases h
  · obtain rfl := Option.some.inj h
    omega
  · cases h

theorem bodyTadj_calendarInv (f : List Text) (s : State) (h : CalendarInv s) : CalendarInv (bodyTadj f s).state := by
  unfold bodyTadj
  split
  · exact h
  · split
    · split
      · split
        · rename_i hrun
          split
          · rename_i sec hsec
            obtain ⟨hd, hh, hm, hs, hp, hp0, hr, -⟩ := h
            exact ⟨hd, hh, hm, adjusted_lt hsec hs, hp, hp0, hr, fun hst => absurd (hst.symm.trans hrun) (by decide)⟩
          · exact h
        · exact h
      · exact h
    · exact h

/-! #### The second tick (R4 to R7) -/

/-- The start of a new minute is a valid date and a time of day (R3, R6). -/
theorem nextMinute_inRange {k k1 : Calendar} (hd : validDate k.date = true) (hh : k.hours < 24) (hm : k.minutes < 60)
    (h : k.nextMinute = some k1) :
    (validDate k1.date = true ∧ k1.hours < 24 ∧ k1.minutes < 60 ∧ k1.seconds < 60) ∧ k1.state = k.state ∧ k1.osc = k.osc := by
  unfold Calendar.nextMinute at h
  split at h
  · obtain rfl := Option.some.inj h
    exact ⟨⟨hd, hh, by dsimp only; omega, Nat.zero_lt_succ _⟩, rfl, rfl⟩
  · split at h
    · obtain rfl := Option.some.inj h
      exact ⟨⟨hd, by dsimp only; omega, Nat.zero_lt_succ _, Nat.zero_lt_succ _⟩, rfl, rfl⟩
    · obtain ⟨d, hnext, rfl⟩ := Option.map_eq_some_iff.mp h
      exact ⟨⟨(nextDate_spec hd hnext).1, Nat.zero_lt_succ _, Nat.zero_lt_succ _, Nat.zero_lt_succ _⟩, rfl, rfl⟩

/-- A tick keeps a valid date and a time of day, the state and the oscillator's status, and leaves a calendar that is not RUNNING (R5 to R7). -/
theorem tick_inRange {k : Calendar} (hd : validDate k.date = true) (hh : k.hours < 24) (hm : k.minutes < 60) (hs : k.seconds < 60) :
    (validDate k.tick.1.date = true ∧ k.tick.1.hours < 24 ∧ k.tick.1.minutes < 60 ∧ k.tick.1.seconds < 60)
      ∧ k.tick.1.state = k.state ∧ k.tick.1.osc = k.osc ∧ (k.state ≠ .running → k.tick.1 = k) := by
  unfold Calendar.tick
  split
  · rename_i hrun
    split
    · exact ⟨⟨hd, hh, hm, by dsimp only; omega⟩, rfl, rfl, fun h => absurd hrun h⟩
    · split
      · rename_i k1 hk
        obtain ⟨hr, hst, ho⟩ := nextMinute_inRange hd hh hm hk
        exact ⟨hr, hst, ho, fun h => absurd hrun h⟩
      · exact ⟨⟨rfl, Nat.zero_lt_succ _, Nat.zero_lt_succ _, Nat.zero_lt_succ _⟩, rfl, rfl, fun h => absurd hrun h⟩
  · exact ⟨⟨hd, hh, hm, hs⟩, rfl, rfl, fun _ => rfl⟩

theorem advance_eq_calendar (s : State) : (advance s).calendar = { s.calendar.tick.1 with phase := 0 } := by
  unfold advance
  dsimp only
  cases s.calendar.tick.2 with
  | none => rfl
  | some e => exact deliver_calendar _ e

theorem deliverTick_calendar (s : State) : (deliverTick s).calendar = s.calendar := by
  unfold deliverTick
  split <;> rfl

theorem secondTick_calendar (held : List PinHold) (o : TickOrder) (s : State) :
    (secondTick held o s).calendar = if o.resumed then s.calendar else { s.calendar.tick.1 with phase := 0 } := by
  unfold secondTick
  rw [(tickWorks_frame held o _).calendar]
  split
  · rfl
  · rw [deliverTick_calendar, advance_eq_calendar]

theorem secondTick_calendarInv (held : List PinHold) (o : TickOrder) {s : State} (h : CalendarInv s) : CalendarInv (secondTick held o s) := by
  have e := secondTick_calendar held o s
  split at e
  · exact calendarInv_of_calendar e h
  · obtain ⟨hd, hh, hm, hs, -, -, hr, h0⟩ := h
    obtain ⟨⟨d, hh', hm', hs'⟩, hst, ho, hstill⟩ := tick_inRange hd hh hm hs
    unfold CalendarInv
    rw [e]
    refine ⟨d, hh', hm', hs', Nat.zero_lt_succ _, fun _ => rfl, fun hrun => ?_, fun hstop => ?_⟩
    · exact ho.trans (hr (hst.symm.trans hrun))
    · have hstop' : s.calendar.state = .stopped := hst.symm.trans hstop
      rw [hstill (by rw [hstop']; decide)]
      exact h0 hstop'

/-! #### The oscillator and the passing of time (R4, R9, R10) -/

theorem qualified_calendarInv {s : State} (h : CalendarInv s) : CalendarInv (qualified s) := by
  obtain ⟨hd, hh, hm, hs, -, -, -, h0⟩ := h
  exact ⟨hd, hh, hm, hs, Nat.zero_lt_succ _, fun _ => rfl, fun _ => rfl, h0⟩

theorem requalify_calendarInv {s : State} (h : CalendarInv s) : CalendarInv (requalify s) := h

/-- An oscillator loss halts the calendar at the time last counted (R10). -/
theorem oscillatorLost_calendar (s : State) : (oscillatorLost s).calendar = s.calendar.lose := by
  unfold oscillatorLost
  dsimp only
  rw [State.raise_calendar]
  exact congrArg Calendar.lose (tickWorks_frame [] .plain s).calendar

theorem oscillatorLost_calendarInv {s : State} (h : CalendarInv s) : CalendarInv (oscillatorLost s) := by
  obtain ⟨hd, hh, hm, hs, -, -, -, -⟩ := h
  unfold CalendarInv
  rw [oscillatorLost_calendar]
  exact ⟨hd, hh, hm, hs, Nat.zero_lt_succ _, fun _ => rfl, by simp [Calendar.lose], by simp [Calendar.lose]⟩

theorem phasePass_lt (p : Nat) : phasePass p < 32768 := by
  unfold phasePass
  omega

/-- A millisecond moves the phase of a STEADY oscillator alone (R4, R9). -/
theorem msPass_calendarInv {s : State} (h : CalendarInv s) : CalendarInv (msPass s) := by
  have e : (msPass s).calendar = s.calendar.pass := by
    unfold msPass
    dsimp only
    split <;> rfl
  obtain ⟨hd, hh, hm, hs, hp, hp0, hr, h0⟩ := h
  unfold CalendarInv
  rw [e]
  unfold Calendar.pass
  split
  · rename_i ho
    exact ⟨hd, hh, hm, hs, phasePass_lt _, fun hn => absurd ho hn, hr, h0⟩
  · exact ⟨hd, hh, hm, hs, hp, hp0, hr, h0⟩

theorem wavePass_calendar (s : State) : (wavePass s).calendar = s.calendar := by
  unfold wavePass
  split <;> rfl

theorem idle_calendarInv {s : State} (h : CalendarInv s) : CalendarInv (idle s) := by
  unfold idle
  split
  · exact calendarInv_of_calendar (wavePass_calendar s) h
  · exact msPass_calendarInv (s := { wavePass s with micros := 0 }) (calendarInv_of_calendar (wavePass_calendar s) h)

/-- A cold start leaves a STOPPED calendar (R18). -/
theorem coldStart_calendar (s : State) : (coldStart s).calendar = .cold := mainReset_calendar _ _ _

theorem cold_calendarInv {s : State} (h : s.calendar = .cold) : CalendarInv s := by
  unfold CalendarInv
  rw [h]
  decide

/-! ### Every command -/

/-- Every command keeps the calendar one that the manual allows. -/
theorem exec_calendarInv (c : Instr) {s t : State} (h : CalendarInv s) (e : exec c s = .next t) : CalendarInv t := by
  have line : ∀ (w : Text) (f : List Text) (body : State → Reply), (∀ u, (body u).state.calendar = u.calendar) →
      CalendarInv (carryOut w f body s) := fun w f body hb =>
    carryOut_calendarInv (fun u hu => calendarInv_of_calendar (hb u) hu) w f h
  cases c with
  | tset f => cases e; exact carryOut_calendarInv (bodyTset_calendarInv f) _ _ h
  | tadj f => cases e; exact carryOut_calendarInv (bodyTadj_calendarInv f) _ _ h
  | tget f => cases e; exact line _ _ _ (bodyTget_calendar f)
  | rwrt f => cases e; exact line _ _ _ (bodyRwrt_calendar f)
  | rget f => cases e; exact line _ _ _ (bodyRget_calendar f)
  | rdrp f => cases e; exact line _ _ _ (bodyRdrp_calendar f)
  | rsus f => cases e; exact line _ _ _ (bodyRsus_calendar f)
  | rres f => cases e; exact line _ _ _ (bodyRres_calendar f)
  | rfre f => cases e; exact line _ _ _ (bodyRfre_calendar f)
  | rclr f => cases e; exact line _ _ _ (bodyRclr_calendar f)
  | rprt f => cases e; exact line _ _ _ (bodyRprt_calendar f)
  | rfnd f => cases e; exact line _ _ _ (bodyRfnd_calendar f)
  | rnxt f => cases e; exact line _ _ _ (bodyRnxt_calendar f)
  | cset f => cases e; exact line _ _ _ (bodyCset_calendar f)
  | crel f => cases e; exact line _ _ _ (bodyCrel_calendar f)
  | gscl f => cases e; exact line _ _ _ (bodyGscl_calendar f)
  | clst f => cases e; exact line _ _ _ (bodyClst_calendar f)
  | icfg f => cases e; exact line _ _ _ (bodyIcfg_calendar f)
  | iget f => cases e; exact line _ _ _ (bodyIget_calendar f)
  | trwr f => cases e; exact line _ _ _ (bodyTrwr_calendar f)
  | trgt f => cases e; exact line _ _ _ (bodyTrgt_calendar f)
  | ccfg f => cases e; exact line _ _ _ (bodyCcfg_calendar f)
  | cget f => cases e; exact line _ _ _ (bodyCget_calendar f)
  | cclr f => cases e; exact line _ _ _ (bodyCclr_calendar f)
  | frzk f => cases e; exact line _ _ _ (bodyFrzk_calendar f _)
  | dfrq f => cases e; exact line _ _ _ (bodyDfrq_calendar f)
  | gget f => cases e; exact line _ _ _ (bodyGget_calendar f)
  | cflt f => cases e; exact line _ _ _ (bodyCflt_calendar f)
  | nget f => cases e; exact line _ _ _ (bodyNget_calendar f)
  | nmsk f => cases e; exact line _ _ _ (bodyNmsk_calendar f)
  | rstr f v => cases e; exact calendarInv_of_calendar (runRstr_calendar f v s) h
  | unknownCommand l => cases e; exact calendarInv_of_calendar (by split <;> simp [answerLine_calendar]) h
  | lineTooLong l => cases e; exact calendarInv_of_calendar (answerLine_calendar _ _ _ s) h
  | portWrite sel b => cases e; exact calendarInv_of_calendar (by split <;> rfl) h
  | portRead sel => cases e; exact calendarInv_of_calendar (by split <;> rfl) h
  | gapTimerEnd => cases e; exact calendarInv_of_calendar (by split <;> rfl) h
  | secondTick held o =>
    cases e
    split
    · exact secondTick_calendarInv held o h
    · exact h
  | qualificationComplete =>
    cases e
    split
    · exact h
    · exact qualified_calendarInv h
  | qualificationRestart =>
    cases e
    split
    · exact h
    · exact requalify_calendarInv h
  | oscillatorLoss =>
    cases e
    split
    · exact oscillatorLost_calendarInv h
    · exact h
  | boundaryPass v => cases e; exact calendarInv_of_calendar (passCommand_calendar _ _ s) h
  | reevaluationPass v => cases e; exact calendarInv_of_calendar (passCommand_calendar _ _ s) h
  | holdExpiry => cases e; exact calendarInv_of_calendar (by split <;> simp [(takeHoldTick_frame s).calendar]) h
  | inputPinChange i b => cases e; exact calendarInv_of_calendar (pinChange_calendar i b s) h
  | changeTaken i => cases e; exact calendarInv_of_calendar (takeChange_calendar i s) h
  | thresholdReached i => cases e; exact calendarInv_of_calendar (reachThreshold_calendar i s) h
  | inputStuck => cases e; exact calendarInv_of_calendar (by split <;> simp [(takeHeldTick_frame s).calendar]) h
  | inputEvent i k => cases e; exact calendarInv_of_calendar ((runApply_calendar _ _).trans (takeInputEvent_calendar i s)) h
  | pulseCompletion c => cases e; exact calendarInv_of_calendar (completePulse_frame c s).calendar h
  | periodEnd g => cases e; exact calendarInv_of_calendar (endPeriod_frame g s).calendar h
  | settleTimerEnd c r => cases e; exact calendarInv_of_calendar (endSettle_frame c _ _ s).tick.calendar h
  | resetInput v => cases e; exact calendarInv_of_calendar (by split <;> simp [mainReset_calendar]) h
  | mainPowerLoss => cases e; exact calendarInv_of_calendar (by split <;> rfl) h
  | powerReturn v => cases e; exact calendarInv_of_calendar (by split <;> simp [mainReset_calendar]) h
  | coldStart => cases e; exact cold_calendarInv (coldStart_calendar s)
  | storageDisturbance d => cases e; exact calendarInv_of_calendar (disturb_calendar d s) h

/-- Settles O5: on an empty queue time passes (`idle_calendarInv`), else the front command runs (`exec_calendarInv`). -/
theorem calendarInvIsKept : Obligations.CalendarInvIsKept := by
  intro s t h e
  unfold step at e
  split at e
  · cases e
    exact idle_calendarInv h
  · rename_i c rest _
    exact exec_calendarInv c (s := { s with pending := rest }) h e

end Sys2Proof.Machine
end

section
/-!
PROOFS. The calendar's dates and commands (R1, R3, R11, R12, R14), and the machine after reset.
-/

namespace Sys2Proof.Machine

/-! ### Dates -/

/-- A day later is a weekday later (R1). -/
theorem weekdayOf_succ {d e : Date} (h : dayIndex e = dayIndex d + 1) : weekdayOf e = weekdayOf d % 7 + 1 := by
  unfold weekdayOf
  omega

/-- Settles O14, from the day number of the day after (`nextDate_spec`). -/
theorem theNextDateIsOneDayLater : Obligations.TheNextDateIsOneDayLater := by
  refine ⟨fun d e hd h => ?_, by decide, by decide, by decide⟩
  obtain ⟨he, hi⟩ := nextDate_spec hd h
  exact ⟨he, hi, weekdayOf_succ hi⟩

/-! ### The refusals that TSET and TADJ share -/

/-- TSET and TADJ take two fields of digits: what they do with others (R12, R14, R178). -/
theorem bodyTset_badDigit {fields : List Text} (h : ∃ f ∈ fields, ∃ b ∈ f, isHex b = false) (s : State) :
    bodyTset fields s = refuse .badDigit s := if_pos (strict_bad_true h)

theorem bodyTadj_badDigit {fields : List Text} (h : ∃ f ∈ fields, ∃ b ∈ f, isHex b = false) (s : State) :
    bodyTadj fields s = refuse .badDigit s := if_pos (strict_bad_true h)

theorem bodyTset_fieldCount {fields : List Text} (h : ∀ f ∈ fields, allHex f) (hl : fields.length ≠ 2) (s : State) :
    bodyTset fields s = refuse .fieldCount s := by
  unfold bodyTset
  rw [bad_of_allHex _ h]
  match fields with
  | [] => rfl
  | [_] => rfl
  | [_, _] => exact absurd rfl hl
  | _ :: _ :: _ :: _ => rfl

theorem bodyTadj_fieldCount {fields : List Text} (h : ∀ f ∈ fields, allHex f) (hl : fields.length ≠ 2) (s : State) :
    bodyTadj fields s = refuse .fieldCount s := by
  unfold bodyTadj
  rw [bad_of_allHex _ h]
  match fields with
  | [] => rfl
  | [_] => rfl
  | [_, _] => exact absurd rfl hl
  | _ :: _ :: _ :: _ => rfl

/-! ### TSET -/

theorem tsetValue_none {d t : Text} (h : (dateField d).bind dateOf = none ∨ (timeField t).bind timeOf = none) : tsetValue d t = none := by
  unfold tsetValue
  rcases h with h | h
  · rw [h]
  · rw [h]
    cases (dateField d).bind dateOf <;> rfl

/-- Values in range are written with digits. -/
theorem tset_allHex {d t : Text} {date : Date} {minute : Nat} (hd : (dateField d).bind dateOf = some date)
    (ht : (timeField t).bind timeOf = some minute) : DigitRule.strict.bad [d, t] = false := by
  obtain ⟨_, hw, -⟩ := Option.bind_eq_some_iff.mp hd
  obtain ⟨_, hu, -⟩ := Option.bind_eq_some_iff.mp ht
  exact strict_bad_two (dateField_allHex hw) (timeField_allHex hu)

/-- TSET with a date and a time in range: set, or refused with CLOCK_FAULT while the oscillator is not STEADY (R12). -/
theorem bodyTset_inRange {d t : Text} {date : Date} {minute : Nat} (hd : (dateField d).bind dateOf = some date)
    (ht : (timeField t).bind timeOf = some minute) (s : State) :
    bodyTset [d, t] s = if s.calendar.osc = .steady then accept [] (setCalendar date minute s) else refuse .clockFault s := by
  have hv : tsetValue d t = some (date, minute) := by
    unfold tsetValue
    rw [hd, ht]
  unfold bodyTset
  rw [tset_allHex hd ht]
  simp only [hv]
  rfl

/-- An accepted TSET on a powered part (R8, R12). -/
theorem setCalendar_powered {s : State} (hp : s.mainPower = true) (date : Date) (minute : Nat) : setCalendar date minute s = { s with
    calendar := { s.calendar with
      state := .running, date := date, hours := minute / 60, minutes := minute % 60, seconds := 0, phase := 0 }
    evaluator := { s.evaluator with
      pending := s.evaluator.pending ++ [.step ⟨date, minute / 60, minute % 60, weekdayOf date⟩ .tset] } } := by
  unfold setCalendar State.deliver
  exact if_pos hp

theorem lineTaken_mainPower {word : Text} {fields : List Text} {s : State} (h : lineTaken word fields s = true) : s.mainPower = true := by
  simp only [lineTaken, Bool.and_eq_true] at h
  exact h.1.1.1.1

/-- Settles O15: the checks of TSET in their order, then what it sets. -/
theorem tsetSetsTheCalendar : Obligations.TsetSetsTheCalendar := by
  intro s fields h
  refine ⟨fun hb => ?_, fun hh hl => ?_, ?_⟩
  · exact congrArg Host.Outcome.next (carryOut_refused h (bodyTset_badDigit hb _))
  · exact congrArg Host.Outcome.next (carryOut_refused h (bodyTset_fieldCount hh hl _))
  · rintro d t rfl
    refine ⟨fun hh hn => ?_, fun date minute hd ht => ⟨fun ho => ?_, fun ho => ?_⟩⟩
    · refine congrArg Host.Outcome.next (carryOut_refused h ?_)
      unfold bodyTset
      rw [bad_of_allHex _ hh]
      simp only [tsetValue_none hn]
      rfl
    · exact congrArg Host.Outcome.next (carryOut_refused h ((bodyTset_inRange hd ht _).trans (if_neg ho)))
    · have hb := (bodyTset_inRange hd ht (begun (text "TSET") [d, t] s)).trans (if_pos ho)
      have hset := setCalendar_powered (s := begun (text "TSET") [d, t] s) (lineTaken_mainPower (s := s) h) date minute
      refine congrArg Host.Outcome.next ((carryOut_taken h (by rw [hb, hset]; rfl)).trans ?_)
      rw [hb, hset]
      rfl

/-! ### TADJ -/

/-- TADJ with a direction and an offset in range, the calendar RUNNING: the seconds move when they stay within 00 to 59 (R14). -/
theorem bodyTadj_running {dir off : Text} {retard : Bool} {n : Nat} (hh : ∀ f ∈ [dir, off], allHex f) (hd : directionField dir = some retard)
    (hn : offsetField off = some n) {s : State} (hr : s.calendar.state = .running) :
    bodyTadj [dir, off] s = match adjusted retard n s.calendar.seconds with
      | some sec => accept [] { s with calendar := { s.calendar with seconds := sec } }
      | none => refuse .range s := by
  unfold bodyTadj
  rw [bad_of_allHex _ hh]
  simp only [hd, hn, hr, if_true]
  rfl

/-- An adjustment that a TADJ makes: the line is answered and the seconds alone move (R14). -/
theorem execTadj_adjusts {dir off : Text} {retard : Bool} {n sec : Nat} {s : State} (h : lineTaken (text "TADJ") [dir, off] s = true)
    (hh : ∀ f ∈ [dir, off], allHex f) (hd : directionField dir = some retard) (hn : offsetField off = some n)
    (hr : s.calendar.state = .running) (ha : adjusted retard n s.calendar.seconds = some sec) :
    exec (.tadj [dir, off]) s = .next { s with
      calendar := { s.calendar with seconds := sec }
      freezeSeq := .idle
      port := answered s.port .ok [] } := by
  have hb := bodyTadj_running hh hd hn (s := begun (text "TADJ") [dir, off] s) hr
  rw [show (begun (text "TADJ") [dir, off] s).calendar.seconds = s.calendar.seconds from rfl, ha] at hb
  refine congrArg Host.Outcome.next ((carryOut_taken h (by rw [hb]; rfl)).trans ?_)
  rw [hb]
  rfl

/-- Settles O16: the checks of TADJ in their order, then the seconds it moves. -/
theorem tadjTrimsTheSeconds : Obligations.TadjTrimsTheSeconds := by
  intro s fields h
  refine ⟨fun hb => ?_, fun hh hl => ?_, ?_⟩
  · exact congrArg Host.Outcome.next (carryOut_refused h (bodyTadj_badDigit hb _))
  · exact congrArg Host.Outcome.next (carryOut_refused h (bodyTadj_fieldCount hh hl _))
  · rintro dir off rfl hh
    refine ⟨fun hn => ?_, fun retard n hd hn => ⟨fun hr => ?_, fun hr => ⟨fun ho => ?_, ?_, ?_⟩⟩⟩
    · refine congrArg Host.Outcome.next (carryOut_refused h ?_)
      unfold bodyTadj
      rw [bad_of_allHex _ hh]
      rcases hn with hn | hn
      · simp only [hn]
        rfl
      · simp only [hn]
        cases directionField dir <;> rfl
    · refine congrArg Host.Outcome.next (carryOut_refused h ?_)
      unfold bodyTadj
      rw [bad_of_allHex _ hh]
      simp only [hd, hn]
      exact if_neg hr
    · have ha : adjusted retard n s.calendar.seconds = none := by
        unfold adjusted
        rcases ho with ⟨rfl, ho⟩ | ⟨rfl, ho⟩
        · exact if_neg (Nat.not_le.mpr ho)
        · exact if_neg (Nat.not_le.mpr ho)
      have hb := bodyTadj_running hh hd hn (s := begun (text "TADJ") [dir, off] s) hr
      rw [show (begun (text "TADJ") [dir, off] s).calendar.seconds = s.calendar.seconds from rfl, ha] at hb
      exact congrArg Host.Outcome.next (carryOut_refused h hb)
    · rintro rfl hle
      exact execTadj_adjusts h hh hd hn hr (if_pos hle)
    · rintro rfl hle
      exact execTadj_adjusts h hh hd hn hr (if_pos hle)

/-! ### TGET -/

theorem CalState.code_text (k : CalState) :
    digit k.code = match k with | .stopped => text "0" | .running => text "1" | .halted => text "2" := by
  cases k <;> decide

theorem OscStatus.code_text (k : OscStatus) :
    digit k.code = match k with | .starting => text "0" | .steady => text "1" | .lost => text "2" := by
  cases k <;> decide

/-- Settles O17: a body that reads and changes nothing. -/
theorem tgetReportsTheCalendar : Obligations.TgetReportsTheCalendar := by
  intro s fields h
  refine ⟨fun hf => ?_, ?_⟩
  · exact congrArg Host.Outcome.next (carryOut_refused h (if_neg hf))
  · rintro rfl
    refine congrArg Host.Outcome.next ((carryOut_reported h (if_pos rfl)).trans ?_)
    let k := s.calendar
    exact congrArg₂ (fun a b => reported [a, dateText k.date, timeText k.hours k.minutes, decText 2 k.seconds, digit k.weekday, b] s)
      (CalState.code_text k.state) (OscStatus.code_text k.osc)

/-! ### The machine after reset -/

/-- Settles O4: the calendar, the claim lists, the records and the channels of `State.reset` are given, so each invariant is a finite check. -/
theorem resetMeetsTheInvariants : Obligations.ResetMeetsTheInvariants := by
  have hclaims : ∀ c, State.reset.claimList c = [] := by decide
  have hrecords : ∀ n, (State.reset.record n).state = .free := by decide
  have hlinks : ∀ c, (State.reset.channel c).link = .none := by decide
  have hgens : ∀ g, State.reset.generator g = .free := by decide
  refine ⟨cold_calendarInv rfl, (poolInv_iff _).mpr ⟨by decide, fun c => ?_⟩, ⟨fun _ => ⟨List.nodup_nil, fun n => ?_⟩, fun h => ?_⟩, ?_, ?_, ?_⟩
  · rw [hclaims]
    exact ⟨List.Pairwise.nil, List.nodup_nil⟩
  · rw [hrecords]
    exact ⟨fun h => absurd h List.not_mem_nil, fun h => by cases h⟩
  · cases h
  · intro c g
    rw [hlinks, hgens]
    simp
  · intro c h
    rw [hlinks] at h
    cases h
  · exact fun c _ => hlinks c

end Sys2Proof.Machine
end

section
/-!
PROOFS. The second tick and the oscillator (R4 to R7, R9, R10, R15): what a tick leaves for its consumers to take, what each of them makes of it
wherever its work stands in the order (log 5), and the loss of the oscillator.
-/

namespace Sys2Proof.Machine

/-! ### The calendar at a tick -/

theorem tick_still {k : Calendar} (h : k.state ≠ .running) : k.tick = (k, none) := if_neg h

theorem tick_second {k : Calendar} (h : k.state = .running) (hs : k.seconds < 59) : k.tick = ({ k with seconds := k.seconds + 1 }, none) := by
  unfold Calendar.tick
  rw [if_pos h, if_pos hs]

/-- From 59 to 00 a new minute begins (R6), or after the last of the calendar its first (R7). -/
theorem tick_minute {k : Calendar} (h : k.state = .running) (hs : k.seconds = 59) : k.tick = match k.nextMinute with
    | some k1 => (k1, some (.boundary k1.now))
    | none => (k.rolledOver, some (.step k.rolledOver.now .rollover)) :=
  (if_pos h).trans (if_neg (by omega))

theorem nextMinute_minute {k : Calendar} (h : k.minutes < 59) : k.nextMinute = some { k with seconds := 0, minutes := k.minutes + 1 } := if_pos h

theorem nextMinute_hour {k : Calendar} (hm : k.minutes = 59) (h : k.hours < 23) :
    k.nextMinute = some { k with seconds := 0, minutes := 0, hours := k.hours + 1 } := by
  unfold Calendar.nextMinute
  rw [if_neg (by omega), if_pos h]

theorem nextMinute_day {k : Calendar} (hm : k.minutes = 59) (hh : k.hours = 23) :
    k.nextMinute = (nextDate k.date).map fun d => { k with seconds := 0, minutes := 0, hours := 0, date := d } := by
  unfold Calendar.nextMinute
  rw [if_neg (by omega), if_neg (by omega)]

/-- Only the last minute of the calendar has no minute after it (R7). -/
theorem nextMinute_some {k : Calendar} (hd : validDate k.date = true) (h : k.minutes < 59 ∨ k.hours < 23 ∨ k.date ≠ ⟨99, 12, 31⟩) :
    ∃ k1, k.nextMinute = some k1 := by
  unfold Calendar.nextMinute
  split
  · exact ⟨_, rfl⟩
  · split
    · exact ⟨_, rfl⟩
    · cases hn : nextDate k.date with
      | some d => exact ⟨_, rfl⟩
      | none =>
        have := nextDate_none hd hn
        rcases h with h | h | h
        · contradiction
        · contradiction
        · exact absurd this h

theorem nextMinute_last {k : Calendar} (hm : k.minutes = 59) (hh : k.hours = 23) (hd : k.date = ⟨99, 12, 31⟩) : k.nextMinute = none := by
  rw [nextMinute_day hm hh, hd]
  rfl

/-- The calendar's first minute, a Saturday (R1, R7). -/
theorem rolledOver_now (k : Calendar) : k.rolledOver.now = ⟨⟨0, 1, 1⟩, 0, 0, 6⟩ :=
  congrArg (Moment.mk ⟨0, 1, 1⟩ 0 0) (by decide : weekdayOf ⟨0, 1, 1⟩ = 6)

theorem deliver_evaluator (s : State) (e : TimeEvent) : (s.deliver e).evaluator =
    if s.mainPower then { s.evaluator with pending := s.evaluator.pending ++ [e] } else s.evaluator := by
  unfold State.deliver
  split <;> rfl

theorem advance_evaluator (s : State) : (advance s).evaluator =
    match s.calendar.tick.2 with
    | some e => if s.mainPower then { s.evaluator with pending := s.evaluator.pending ++ [e] } else s.evaluator
    | none => s.evaluator := by
  unfold advance
  dsimp only
  cases s.calendar.tick.2 with
  | none => rfl
  | some e => exact deliver_evaluator _ e

/-- The advance of the calendar changes nothing but the calendar and what the evaluator has pending. -/
theorem advance_eq (s : State) : advance s = { s with calendar := { s.calendar.tick.1 with phase := 0 }, evaluator := (advance s).evaluator } := by
  have h : ∃ ev, advance s = { s with calendar := { s.calendar.tick.1 with phase := 0 }, evaluator := ev } := by
    unfold advance
    dsimp only
    cases s.calendar.tick.2 with
    | none => exact ⟨_, rfl⟩
    | some e =>
      show ∃ ev, State.deliver _ e = _
      unfold State.deliver
      split <;> exact ⟨_, rfl⟩
  obtain ⟨ev, h⟩ := h
  rw [h]

/-! ### The part as the consumers of a tick find it -/

/-- The part when a second tick has been counted and delivered, or a delivered one is resumed, before its work is done (R4; log 5). -/
def tickBegun (o : TickOrder) (s : State) : State := if o.resumed then s else deliverTick (advance s)

theorem secondTick_eq (held : List PinHold) (o : TickOrder) (s : State) : secondTick held o s = tickWorks held o (tickBegun o s) := rfl

/-- With main power the work of the tick is due, and nothing but that, the calendar and the evaluator has changed. -/
theorem tickBegun_powered (o : TickOrder) {s : State} (hp : s.mainPower = true) : tickBegun o s = { s with
    calendar := (tickBegun o s).calendar, evaluator := (tickBegun o s).evaluator
    holdsDue := dueAt o s.holdsDue, heldDue := dueAt o s.heldDue, scrubDue := dueAt o s.scrubDue
    compareDue := if o.resumed then s.compareDue else Vector.replicate 24 true } := by
  unfold tickBegun dueAt
  split
  · rfl
  · rw [advance_eq]
    unfold deliverTick
    rw [if_pos (show State.mainPower { s with calendar := _, evaluator := _ } = true from hp)]

/-- Without main power only the calendar counts the tick (R15). -/
theorem tickBegun_unpowered (o : TickOrder) {s : State} (hp : s.mainPower = false) :
    tickBegun o s = { s with calendar := (tickBegun o s).calendar } := by
  have hev : (advance s).evaluator = s.evaluator := by
    rw [advance_evaluator, hp]
    cases s.calendar.tick.2 <;> rfl
  unfold tickBegun
  split
  · rfl
  · rw [advance_eq, hev]
    unfold deliverTick
    rw [if_neg (by simp [hp])]

theorem secondTick_unpowered (held : List PinHold) (o : TickOrder) {s : State} (hp : s.mainPower = false) :
    secondTick held o s = { s with calendar := (secondTick held o s).calendar } := by
  have h : secondTick held o s = tickBegun o s := by
    rw [secondTick_eq, tickBegun_unpowered o hp]
    exact if_neg (by simp [hp])
  rw [h]
  exact tickBegun_unpowered o hp

/-! ### One piece of the work, wherever it stands in the order -/

/-- What one piece of the work alone touches: that piece finds it as it was at first, and it stands from there on. -/
theorem foldl_at {β : Type} (π : State → β) (held : List PinHold) {l : List TickWork} {w : TickWork} (hw : w ∈ l) (hd : l.Nodup)
    (ho : ∀ w', w' ≠ w → ∀ u, π (tickWork held u w') = π u) (s : State) :
    ∃ v, π v = π s ∧ π (l.foldl (tickWork held) s) = π (tickWork held v w) := by
  obtain ⟨l1, l2, rfl⟩ := List.append_of_mem hw
  obtain ⟨h1, h2⟩ : w ∉ l1 ∧ w ∉ l2 := by
    have := List.nodup_middle.mp hd
    simpa using (List.nodup_cons.mp this).1
  refine ⟨l1.foldl (tickWork held) s, foldl_untouched π held (fun w' hw' => ho w' (fun e => h1 (e ▸ hw'))) s, ?_⟩
  rw [List.foldl_append, List.foldl_cons]
  exact foldl_untouched π held (fun w' hw' => ho w' (fun e => h2 (e ▸ hw'))) _

/-- The held counts that are due once, in the work of a tick (R108). -/
theorem works_held (held : List PinHold) {l : List TickWork} (hl : l.Nodup) (hw : .held ∈ l) {s : State} (hp : s.mainPower = true)
    (hd : s.heldDue = 1) : (∀ i, (l.foldl (tickWork held) s).input i = (s.input i).afterTick)
      ∧ (l.foldl (tickWork held) s).notice .inputStuck = (s.notice .inputStuck).raisedFor ((stuckAtTick s).map Fin.val) := by
  obtain ⟨v, hv, hf⟩ := foldl_at (fun u => (u.inputs, u.heldDue, u.notice .inputStuck, u.mainPower)) held hw hl (fun w hne u => by
    have hpow := (tickWork_frame held u w).mainPower
    cases w with
    | held => exact absurd rfl hne
    | holds =>
      obtain ⟨hi, hdue, -, -, -, -, hq⟩ := holds_only held u
      simp only [hi, hdue, hq .inputStuck (by decide), hpow]
    | scrub =>
      obtain ⟨hi, hdue, -, -, hq⟩ := scrub_only held u
      simp only [hi, hdue, hq .inputStuck (by decide), hpow]
    | compare c =>
      obtain ⟨hi, hdue, -, -, -, -, -, -, -, -, hq⟩ := compare_only held c u
      simp only [hi, hdue, hq .inputStuck (by decide), hpow]) s
  simp only [Prod.mk.injEq] at hv hf
  obtain ⟨vi, vd, vn, vp⟩ := hv
  obtain ⟨ti, -, tn, -⟩ := hf
  have hvi : ∀ i, v.input i = s.input i := fun i => congrArg (nth · i) vi
  have e : tickWork held v .held = heldTick { v with heldDue := 0 } := by
    show times takeHeldTick v.heldDue v = _
    rw [vd, hd]
    show takeHeldTick v = _
    unfold takeHeldTick
    rw [if_neg (by omega), vd, hd]
  have hstuck : stuckAtTick { v with heldDue := 0 } = stuckAtTick s := by
    simp only [stuckAtTick_eq]
    exact List.filter_congr fun i _ => reachesStuck_congr (hvi i)
  refine ⟨fun i => ?_, ?_⟩
  · rw [show (l.foldl (tickWork held) s).input i = (tickWork held v .held).input i from congrArg (nth · i) ti, e, heldTick_input]
    exact congrArg Input.afterTick (hvi i)
  · rw [tn, e, State.notice, heldTick_notices (s := { v with heldDue := 0 }) (vp.trans hp), hstuck]
    exact (nth_upd_same _ _ _).trans (congrArg (Notice.raisedFor · _) vn)

/-- The scrub step that is due, in the work of a tick: the position and the rules (R159, R163). -/
theorem works_scrub_rules (held : List PinHold) {l : List TickWork} (hl : l.Nodup) (hw : .scrub ∈ l) {s : State} (hp : s.mainPower = true)
    (hd : s.scrubDue = 1) : (l.foldl (tickWork held) s).scrub = s.scrub + 1
      ∧ (∀ r, (l.foldl (tickWork held) s).rule r =
          if s.scrub.val = 96 + r.val ∧ ruleFailsCheck (s.rule r) = true then { s.rule r with state := .faulted } else s.rule r)
      ∧ ∀ r : RuleNo, s.scrub.val = 96 + r.val → (l.foldl (tickWork held) s).notice .ruleFault =
          if ruleFailsCheck (s.rule r) then (s.notice .ruleFault).raised r.val else s.notice .ruleFault := by
  obtain ⟨v, hv, hf⟩ := foldl_at (fun u => (u.rules, u.scrub, u.scrubDue, u.notice .ruleFault, u.mainPower)) held hw hl (fun w hne u => by
    have hpow := (tickWork_frame held u w).mainPower
    cases w with
    | scrub => exact absurd rfl hne
    | holds =>
      obtain ⟨-, -, hr, hs, hdue, -, hq⟩ := holds_only held u
      simp only [hr, hs, hdue, hq .ruleFault (by decide), hpow]
    | held =>
      obtain ⟨he, hq⟩ := held_only held u
      have hn := hq .ruleFault (by decide)
      rw [he] at hn hpow ⊢
      simp only [hn]
    | compare c =>
      obtain ⟨-, -, -, hr, hs, hdue, -, -, -, -, hq⟩ := compare_only held c u
      simp only [hr, hs, hdue, hq .ruleFault (by decide), hpow]) s
  simp only [Prod.mk.injEq] at hv hf
  obtain ⟨vr, vs, vd, vn, vp⟩ := hv
  obtain ⟨tr, ts, -, tn, -⟩ := hf
  have hvr : ∀ r, v.rule r = s.rule r := fun r => congrArg (nth · r) vr
  obtain ⟨h1, h2, h3⟩ := scrub_rules held (s := v) (vd.trans hd)
  refine ⟨by rw [ts, h1, vs], fun r => ?_, fun r hr => ?_⟩
  · rw [show (l.foldl (tickWork held) s).rule r = (tickWork held v .scrub).rule r from congrArg (nth · r) tr, h2, vs, hvr]
  · rw [tn, h3 (vp.trans hp) r (by rw [vs, hr]), hvr, vn]

/-! ### The comparison that comes first -/

theorem workOrder_first {o : TickOrder} {w : TickWork} {rest : List TickWork} (h : o.first = w :: rest) (hw : w ∉ o.later) :
    ∃ l, workOrder o = w :: l := by
  unfold workOrder
  rw [h, List.eraseDups_cons, List.cons_append, List.filter_cons, if_pos (by simpa using hw)]
  exact ⟨_, rfl⟩

theorem raised_count (e : Notice) (n : Nat) : (e.raised n).count ≠ 0 := by
  unfold Notice.raised
  dsimp only
  split
  · decide
  · bv_omega

/-- A fault raises OUTPUT_FAULT (R166). -/
theorem faultChannel_raises (c : Chan) {s : State} (hp : s.mainPower = true) : ((faultChannel c s).notice .outputFault).count ≠ 0 := by
  unfold faultChannel
  dsimp only
  rw [raise_notice_same (by rw [(leavePool_frame c _).mainPower]; exact hp)]
  exact raised_count _ _

theorem foldl_outOfDrive {c : Chan} (held : List PinHold) (l : List TickWork) {s : State} (h : OutOfDrive c s) :
    OutOfDrive c (l.foldl (tickWork held) s) := by
  induction l generalizing s with
  | nil => exact h
  | cons w l ih => exact ih (tickWork_outOfDrive held w h)

/-- A comparison that finds a mismatch faults its channel, or leaves its fault due (R165, R166; log 35). -/
theorem compare_finds (held : List PinHold) {c : Chan} {h : Bool} {s : State} (hp : s.mainPower = true) (hd : nth s.compareDue c = true)
    (hf : (s.channel c).feedback = .watched h) (hr : readback held s (s.config c).pinA ≠ h) :
    (lateOn held (s.config c).pinA = false →
      OutOfDrive c (tickWork held s (.compare c)) ∧ ((tickWork held s (.compare c)).notice .outputFault).count ≠ 0)
    ∧ (lateOn held (s.config c).pinA = true → nth (tickWork held s (.compare c)).faultsDue c = true) := by
  obtain ⟨v, hv⟩ : ∃ v, v = ({ s with compareDue := upd s.compareDue c false } : State) := ⟨_, rfl⟩
  have e : tickWork held s (.compare c) = mismatch (lateOn held (s.config c).pinA) c v := by
    show takeCompareTick held c s = _
    unfold takeCompareTick
    rw [if_pos hd, ← hv]
    have hfv : (v.channel c).feedback = .watched h := by rw [hv]; exact hf
    have hkv : v.config c = s.config c := by rw [hv]; rfl
    have hrv : readback held v (s.config c).pinA = readback held s (s.config c).pinA :=
      readback_congr held (by rw [hv]) (by rw [hv]) (by rw [hv]) (by rw [hv]) _
    unfold steadyCompare
    rw [hfv]
    dsimp only
    rw [hkv, if_neg (by rw [hrv]; exact hr)]
  have hpv : v.mainPower = true := by rw [hv]; exact hp
  rw [e]
  refine ⟨fun hl => ?_, fun hl => ?_⟩
  · rw [hl]
    exact ⟨faultChannel_outOfDrive c _, faultChannel_raises c hpv⟩
  · rw [hl]
    exact nth_upd_same _ _ _

/-! ### The work of one tick -/

/-- `u` is the part `s` with the work of a second tick due, as `tickBegun` leaves it with main power. -/
def TickDue (o : TickOrder) (s u : State) : Prop := ∃ k ev, u = { s with
  calendar := k, evaluator := ev
  holdsDue := dueAt o s.holdsDue, heldDue := dueAt o s.heldDue, scrubDue := dueAt o s.scrubDue
  compareDue := if o.resumed then s.compareDue else Vector.replicate 24 true }

theorem tickBegun_due (o : TickOrder) {s : State} (hp : s.mainPower = true) : TickDue o s (tickBegun o s) := ⟨_, _, tickBegun_powered o hp⟩

theorem tickWorks_powered (held : List PinHold) (o : TickOrder) {u : State} (hp : u.mainPower = true) :
    tickWorks held o u = (workOrder o).foldl (tickWork held) u := if_pos hp

theorem compareDue_begun (o : TickOrder) (s : State) (c : Chan) :
    nth (if o.resumed then s.compareDue else Vector.replicate 24 true) c = (nth s.compareDue c || !o.resumed) := by
  cases o.resumed <;> simp [nth]

section

variable {o : TickOrder} {s u : State}

theorem TickDue.mainPower (h : TickDue o s u) (hp : s.mainPower = true) : u.mainPower = true := by
  obtain ⟨k, ev, rfl⟩ := h
  exact hp

theorem TickDue.waiting (h : TickDue o s u) (hw : s.waiting = []) : u.waiting = [] := by
  obtain ⟨k, ev, rfl⟩ := h
  exact hw

theorem TickDue.compareDue (h : TickDue o s u) (c : Chan) : nth u.compareDue c = (nth s.compareDue c || !o.resumed) := by
  obtain ⟨k, ev, rfl⟩ := h
  exact compareDue_begun o s c

/-- The work that a tick leaves for later is due, and what it leaves to touch stands (log 5). -/
theorem TickDue.left (h : TickDue o s u) (hp : s.mainPower = true) (held : List PinHold) :
    (.held ∈ o.later → (tickWorks held o u).inputs = s.inputs ∧ (tickWorks held o u).heldDue = dueAt o s.heldDue)
    ∧ (.scrub ∈ o.later → (tickWorks held o u).scrub = s.scrub ∧ (tickWorks held o u).scrubDue = dueAt o s.scrubDue
        ∧ (tickWorks held o u).rules = s.rules)
    ∧ (.holds ∈ o.later → (tickWorks held o u).holdsDue = dueAt o s.holdsDue)
    ∧ ∀ c, .compare c ∈ o.later → nth (tickWorks held o u).compareDue c = (nth s.compareDue c || !o.resumed) := by
  obtain ⟨h1, -, h2, -, h3, -, h4, -⟩ := tickWorks_due held o (h.mainPower hp)
  refine ⟨?_, ?_, ?_, fun c hc => (h4 c hc).trans (h.compareDue c)⟩ <;> obtain ⟨k, ev, rfl⟩ := h
  · exact h1
  · exact h2
  · exact h3

/-- The held counts, when the tick counts them (R108). -/
theorem TickDue.held (h : TickDue o s u) (hp : s.mainPower = true) (pins : List PinHold) (hl : .held ∉ o.later) :
    (tickWorks pins o u).heldDue = 0 ∧ (dueAt o s.heldDue = 1 → (∀ i, (tickWorks pins o u).input i = (s.input i).afterTick)
      ∧ (tickWorks pins o u).notice .inputStuck = (s.notice .inputStuck).raisedFor ((stuckAtTick s).map Fin.val)) := by
  have hpu := h.mainPower hp
  refine ⟨(tickWorks_due pins o hpu).2.1 hl, fun hd => ?_⟩
  rw [tickWorks_powered pins o hpu]
  obtain ⟨k, ev, rfl⟩ := h
  exact works_held pins (workOrder_nodup o) ((mem_workOrder o _).mpr hl) hpu hd

/-- The scrub step, when the tick makes it: position and rules (R159, R163). -/
theorem TickDue.scrubRules (h : TickDue o s u) (hp : s.mainPower = true) (pins : List PinHold) (hl : .scrub ∉ o.later)
    (hd : dueAt o s.scrubDue = 1) : (tickWorks pins o u).scrub = s.scrub + 1
      ∧ (∀ r, s.scrub.val ≠ 96 + r.val → (tickWorks pins o u).rule r = s.rule r)
      ∧ ∀ r, s.scrub.val = 96 + r.val →
        (tickWorks pins o u).rule r = (if ruleFailsCheck (s.rule r) then { s.rule r with state := .faulted } else s.rule r)
        ∧ (tickWorks pins o u).notice .ruleFault =
          (if ruleFailsCheck (s.rule r) then (s.notice .ruleFault).raised r.val else s.notice .ruleFault) := by
  have hpu := h.mainPower hp
  rw [tickWorks_powered pins o hpu]
  obtain ⟨k, ev, rfl⟩ := h
  obtain ⟨h1, h2, h3⟩ := works_scrub_rules pins (workOrder_nodup o) ((mem_workOrder o _).mpr hl) hpu hd
  refine ⟨h1, fun r hr => (h2 r).trans (if_neg fun hc => hr hc.1), fun r hr => ⟨(h2 r).trans ?_, h3 r hr⟩⟩
  exact if_congr (and_iff_right hr) rfl rfl

/-- The records after the work of a tick, with nobody waiting (R159, R161). -/
theorem TickDue.scrubRecords (h : TickDue o s u) (hp : s.mainPower = true) (pins : List PinHold) (hl : .scrub ∉ o.later)
    (hd : dueAt o s.scrubDue = 1) (hw : s.waiting = []) : (∀ n, s.scrub.val ≠ n.val → (tickWorks pins o u).record n = s.record n)
      ∧ ∀ n, s.scrub.val = n.val →
        (tickWorks pins o u).record n = (if failsCheck (s.record n) then (s.record n).condemned else s.record n)
        ∧ (tickWorks pins o u).notice .recordFault =
          (if failsCheck (s.record n) then (s.notice .recordFault).raised n.val else s.notice .recordFault) := by
  have hpu := h.mainPower hp
  have hwu := h.waiting hw
  rw [tickWorks_powered pins o hpu]
  obtain ⟨k, ev, rfl⟩ := h
  obtain ⟨hr, -, -, hn⟩ := works_nobody pins (workOrder_nodup o) hwu hpu fun _ => hd
  have hin : decide (TickWork.scrub ∈ workOrder o) = true := decide_eq_true ((mem_workOrder o _).mpr hl)
  rw [hin] at hr hn
  refine ⟨fun n hne => (hr n).trans (if_neg fun hc => hne hc.2.1), fun n he => ⟨(hr n).trans ?_, hn.trans ?_⟩⟩
  · exact if_congr ⟨fun hc => hc.2.2, fun hf => ⟨rfl, he, hf⟩⟩ rfl rfl
  · have hlt : s.scrub.val < 96 := he ▸ n.isLt
    have hat : (⟨s.scrub.val, hlt⟩ : RecNo) = n := Fin.ext he
    unfold scrubNotice
    rw [dif_pos hlt]
    dsimp only
    rw [hat, he]
    exact if_congr (and_iff_right rfl) rfl rfl

/-- The claim lists after the work of a tick, with nobody waiting (R86, R161). -/
theorem TickDue.claims (h : TickDue o s u) (hp : s.mainPower = true) (pins : List PinHold) (hw : s.waiting = [])
    (hs : dueAt o s.scrubDue = 1) (hh : dueAt o s.holdsDue = 1) {found : List RecNo}
    (hf : found = if .scrub ∈ o.later then [] else scrubFinds s) : (tickWorks pins o u).waiting = []
      ∧ ∀ ch, (tickWorks pins o u).claimList ch = ((s.claimList ch).filter fun cl => found.all fun n => cl.source != .record n).filterMap
        fun cl => if .holds ∈ o.later then some cl else cl.afterTick := by
  have hpu := h.mainPower hp
  have hwu := h.waiting hw
  rw [tickWorks_powered pins o hpu]
  obtain ⟨k, ev, rfl⟩ := h
  obtain ⟨-, hc, hwt, -⟩ := works_nobody pins (workOrder_nodup o) hwu hpu fun _ => hs
  refine ⟨hwt, fun ch => (hc (fun _ => hh) ch).trans ?_⟩
  have e : (if decide (TickWork.scrub ∈ workOrder o) = true then scrubFinds s else []) = found := by
    rw [hf]
    by_cases hl : TickWork.scrub ∈ o.later <;> simp [mem_workOrder, hl]
  show holdClaims _ ((s.claimList ch).filter fun cl => (if decide (TickWork.scrub ∈ workOrder o) = true then scrubFinds s else []).all
    fun n => cl.source != .record n) = _
  rw [e]
  unfold holdClaims
  by_cases hl : TickWork.holds ∈ o.later <;> simp [mem_workOrder, hl]

/-- The comparison that an order names first, when it finds a mismatch (R165, R166). -/
theorem TickDue.firstComparison (h : TickDue o s u) (hp : s.mainPower = true) (pins : List PinHold) {c : Chan} {rest : List TickWork} {high : Bool}
    (hfirst : o.first = .compare c :: rest) (hl : .compare c ∉ o.later) (hd : (nth s.compareDue c || !o.resumed) = true)
    (hf : (s.channel c).feedback = .watched high) (hr : readback pins s (s.config c).pinA ≠ high) :
    (lateOn pins (s.config c).pinA = false →
      OutOfDrive c (tickWorks pins o u) ∧ ((tickWorks pins o u).notice .outputFault).count ≠ 0)
    ∧ (lateOn pins (s.config c).pinA = true → nth (tickWorks pins o u).faultsDue c = true) := by
  have hpu := h.mainPower hp
  have hdu := (h.compareDue c).trans hd
  obtain ⟨l, hwork⟩ := workOrder_first hfirst hl
  have hnd := workOrder_nodup o
  rw [hwork] at hnd
  rw [tickWorks_powered pins o hpu, hwork, List.foldl_cons]
  obtain ⟨k, ev, rfl⟩ := h
  obtain ⟨h1, h2⟩ := compare_finds pins hpu hdu hf hr
  refine ⟨fun hlate => ⟨?_, foldl_outputFault pins l (h1 hlate).2⟩, fun hlate => ?_⟩
  · exact foldl_outOfDrive pins l (h1 hlate).1
  · refine (foldl_untouched (fun v => nth v.faultsDue c) pins (fun w hw v => ?_) _).trans (h2 hlate)
    exact tickWork_faultsDue pins (fun e => (List.nodup_cons.mp hnd).1 (e ▸ hw)) v

/-- The comparisons, when nothing else the tick does reaches a channel (R165, R166). -/
theorem TickDue.compared (h : TickDue o s u) (hp : s.mainPower = true) (pins : List PinHold)
    (hs : dueAt o s.scrubDue = 1) (hh : dueAt o s.holdsDue = 1) (hc : ∀ ch, ∀ cl ∈ s.claimList ch, cl.afterTick ≠ none)
    (hr : ∀ n : RecNo, s.scrub.val = n.val → failsCheck (s.record n) = false) (own : OwnPins s)
    (hl : ∀ c h g, (s.channel c).feedback = .watched h → (s.channel c).link ≠ .holding g) :
    (∀ c, (∀ h, (s.channel c).feedback ≠ .watched h) → (tickWorks pins o u).channel c = s.channel c)
    ∧ ∀ c h, (s.channel c).feedback = .watched h →
      (.compare c ∈ o.later ∨ (nth s.compareDue c || !o.resumed) = false → (tickWorks pins o u).channel c = s.channel c)
      ∧ (.compare c ∉ o.later → (nth s.compareDue c || !o.resumed) = true →
        (readback pins s (s.config c).pinA = h → (tickWorks pins o u).channel c = s.channel c)
        ∧ (readback pins s (s.config c).pinA ≠ h → lateOn pins (s.config c).pinA = false →
          (tickWorks pins o u).channel c = (s.channel c).mismatched ∧ ((tickWorks pins o u).notice .outputFault).count ≠ 0)
        ∧ (readback pins s (s.config c).pinA ≠ h → lateOn pins (s.config c).pinA = true →
          (tickWorks pins o u).channel c = s.channel c ∧ nth (tickWorks pins o u).faultsDue c = true)) := by
  have hpu := h.mainPower hp
  have hdu := h.compareDue
  rw [tickWorks_powered pins o hpu]
  obtain ⟨k, ev, rfl⟩ := h
  have hw := works_compared pins (workOrder_nodup o) hpu (fun _ => ⟨hs, hr⟩) (fun _ => ⟨hh, hc⟩) own hl
  refine ⟨fun c hn => (hw c).1 hn, fun c h hf => ⟨fun hor => ((hw c).2 h hf).1 (hor.imp ?_ ?_), fun hm hd => ?_⟩⟩
  · exact fun hm hin => (mem_workOrder o _).mp hin hm
  · exact fun hd => (hdu c).trans hd
  · exact ((hw c).2 h hf).2 ((mem_workOrder o _).mpr hm) ((hdu c).trans hd)

/-- A tick that finds nothing to act on. -/
theorem TickDue.untouched (h : TickDue o s u) (hp : s.mainPower = true) (pins : List PinHold)
    (hs : dueAt o s.scrubDue = 1) (hh : dueAt o s.holdsDue = 1) (hc : ∀ ch, ∀ cl ∈ s.claimList ch, cl.afterTick ≠ none)
    (hr : ∀ n : RecNo, s.scrub.val = n.val → failsCheck (s.record n) = false)
    (hru : ∀ r : RuleNo, s.scrub.val = 96 + r.val → ruleFailsCheck (s.rule r) = false)
    (hb : ∀ c h, (s.channel c).feedback = .watched h → readback pins s (s.config c).pinA = h) : Untouched s (tickWorks pins o u) := by
  have hpu := h.mainPower hp
  rw [tickWorks_powered pins o hpu]
  obtain ⟨k, ev, rfl⟩ := h
  exact works_untouched pins (workOrder_nodup o) (fun _ => ⟨hs, hr, hru⟩) (fun _ => ⟨hh, hc⟩) hb

end

/-! ### What a second tick leaves, the calendar and the frame -/

/-- A second tick leaves the port, the configurations, the freeze, the mask, the input events and the queue. -/
theorem secondTick_frame (held : List PinHold) (o : TickOrder) (s : State) :
    (secondTick held o s).port = s.port ∧ (secondTick held o s).channelConfigs = s.channelConfigs
      ∧ (secondTick held o s).inputConfigs = s.inputConfigs ∧ (secondTick held o s).freezeMask = s.freezeMask
      ∧ (secondTick held o s).mask = s.mask ∧ (secondTick held o s).events = s.events ∧ (secondTick held o s).pending = s.pending := by
  have hf := tickWorks_frame held o (tickBegun o s)
  rw [secondTick_eq, hf.port, hf.channelConfigs, hf.inputConfigs, hf.freezeMask, hf.mask, hf.events, hf.pending]
  cases hp : s.mainPower with
  | true =>
    rw [tickBegun_powered o hp]
    exact ⟨rfl, rfl, rfl, rfl, rfl, rfl, rfl⟩
  | false =>
    rw [tickBegun_unpowered o hp]
    exact ⟨rfl, rfl, rfl, rfl, rfl, rfl, rfl⟩

theorem secondTick_evaluator (held : List PinHold) (o : TickOrder) (s : State) :
    (secondTick held o s).evaluator = if o.resumed then s.evaluator else (advance s).evaluator := by
  rw [secondTick_eq, (tickWorks_frame held o _).evaluator]
  unfold tickBegun deliverTick
  split
  · rfl
  · split <;> rfl

theorem secondTick_resumed (held : List PinHold) {o : TickOrder} (h : o.resumed = true) (s : State) :
    (secondTick held o s).calendar = s.calendar ∧ (secondTick held o s).evaluator = s.evaluator := by
  rw [secondTick_calendar, secondTick_evaluator, if_pos h, if_pos h]
  exact ⟨rfl, rfl⟩

section

variable {o : TickOrder} {s : State}

theorem secondTick_counted (held : List PinHold) (h : o.resumed = false) :
    (secondTick held o s).calendar = { s.calendar.tick.1 with phase := 0 } :=
  (secondTick_calendar held o s).trans (if_neg (by simp [h]))

/-- A tick without an event leaves the evaluator (R5). -/
theorem secondTick_no_event (held : List PinHold) (h : o.resumed = false) (he : s.calendar.tick.2 = none) :
    (secondTick held o s).evaluator = s.evaluator := by
  rw [secondTick_evaluator, if_neg (by simp [h]), advance_evaluator, he]

/-- The event of a tick is pending at a powered evaluator (R6 to R8). -/
theorem secondTick_event (held : List PinHold) (h : o.resumed = false) {e : TimeEvent} (he : s.calendar.tick.2 = some e)
    (hp : s.mainPower = true) :
    (secondTick held o s).evaluator = { s.evaluator with pending := s.evaluator.pending ++ [e] } := by
  rw [secondTick_evaluator, if_neg (by simp [h]), advance_evaluator, he]
  exact if_pos hp

/-- A new minute (R6). -/
theorem secondTick_minute (held : List PinHold) (h : o.resumed = false) (hr : s.calendar.state = .running) (hs : s.calendar.seconds = 59)
    {k : Calendar} (hk : s.calendar.nextMinute = some k) : (secondTick held o s).calendar = { k with phase := 0 }
      ∧ (s.mainPower = true → (secondTick held o s).evaluator =
          { s.evaluator with pending := s.evaluator.pending ++ [.boundary k.now] }) := by
  have ht := tick_minute hr hs
  rw [hk] at ht
  exact ⟨(secondTick_counted held h).trans (by rw [ht]), secondTick_event held h (by rw [ht])⟩

/-- The year rollover (R7). -/
theorem secondTick_rollover (held : List PinHold) (h : o.resumed = false) (hr : s.calendar.state = .running) (hs : s.calendar.seconds = 59)
    (hk : s.calendar.nextMinute = none) : (secondTick held o s).calendar = { s.calendar.rolledOver with phase := 0 }
      ∧ (s.mainPower = true → (secondTick held o s).evaluator =
          { s.evaluator with pending := s.evaluator.pending ++ [.step s.calendar.rolledOver.now .rollover] }) := by
  have ht := tick_minute hr hs
  rw [hk] at ht
  exact ⟨(secondTick_counted held h).trans (by rw [ht]), secondTick_event held h (by rw [ht])⟩

end

/-- Settles O18: the calendar by the case of its tick, the powered consumers by the work each of them has due (`TickDue`). -/
theorem secondTickAdvancesTheCalendar : Obligations.SecondTickAdvancesTheCalendar := by
  intro s held o
  refine ⟨fun ho => congrArg Host.Outcome.next (if_neg ho), fun ho => ⟨secondTick held o s, congrArg Host.Outcome.next (if_pos ho), ?_⟩⟩
  obtain ⟨f1, f2, f3, f4, f5, f6, f7⟩ := secondTick_frame held o s
  refine ⟨f1, f2, f3, f4, f5, f6, f7, fun h => secondTick_resumed held h s, fun h => ?_, fun hp => secondTick_unpowered held o hp, fun hp => ?_⟩
  · refine ⟨fun hr => ?_, fun hr hs => ?_, fun hr hs hm => (secondTick_minute held h hr hs (nextMinute_minute hm)).1,
      fun hr hs hm hh => (secondTick_minute held h hr hs (nextMinute_hour hm hh)).1, fun d hr hs hm hh hd => ?_, fun hr hs hp hlast hinv => ?_,
      fun hr hs hm hh hd => ?_⟩
    · have ht := tick_still hr
      exact ⟨(secondTick_counted held h).trans (by rw [ht]), secondTick_no_event held h (by rw [ht])⟩
    · have ht := tick_second hr hs
      exact ⟨(secondTick_counted held h).trans (by rw [ht]), secondTick_no_event held h (by rw [ht])⟩
    · exact (secondTick_minute held h hr hs ((nextMinute_day hm hh).trans (by rw [hd]; rfl))).1
    · obtain ⟨k, hk⟩ := nextMinute_some hinv.1 hlast
      obtain ⟨hc, he⟩ := secondTick_minute held h hr hs hk
      rw [he hp, hc]
      rfl
    · obtain ⟨hc, he⟩ := secondTick_rollover held h hr hs (nextMinute_last hm hh hd)
      exact ⟨hc, fun hp => by rw [he hp, rolledOver_now]⟩
  · have due : TickDue o s (tickBegun o s) := tickBegun_due o hp
    obtain ⟨l1, l2, l3, l4⟩ := due.left hp held
    obtain ⟨-, -, -, d1, -, d2, -, d3⟩ := tickWorks_due held o (due.mainPower hp)
    refine ⟨l1, due.held hp held, l2, fun hl => ⟨d1 hl, fun hd => ?_⟩, l3, d2, fun hw hs hh found hf => due.claims hp held hw hs hh hf,
      l4, d3, fun c rest high hfirst hl hd hf hr => ?_, fun _ hs hh hc hr own hl => due.compared hp held hs hh hc hr own hl,
      fun _ hs hh hc hr hru hb => ?_⟩
    · obtain ⟨p, r1, r2⟩ := due.scrubRules hp held hl hd
      exact ⟨p, r1, r2, fun hw => due.scrubRecords hp held hl hd hw⟩
    · obtain ⟨h1, h2⟩ := due.firstComparison hp held hfirst hl hd hf hr
      refine ⟨fun hlate => ?_, h2⟩
      obtain ⟨⟨x1, x2, x3, x4⟩, hn⟩ := h1 hlate
      exact ⟨x1, x2, x3, x4, hn⟩
    · obtain ⟨e1, e2, e3, e4, e5, -, -, hq⟩ := due.untouched hp held hs hh hc hr hru hb
      exact ⟨e1, e2, e3, e4, e5, fun k hk => hq k (by simpa using hk)⟩

/-! ### The oscillator -/

/-- With nothing due, the work of a tick does nothing. -/
theorem tickWorks_nothing (held : List PinHold) (o : TickOrder) {s : State} (h1 : s.holdsDue = 0) (h2 : s.heldDue = 0) (h3 : s.scrubDue = 0)
    (h4 : ∀ c, nth s.compareDue c = false) : tickWorks held o s = s := by
  have still : ∀ w, tickWork held s w = s := by
    intro w
    cases w with
    | holds => show times takeHoldTick s.holdsDue s = s; rw [h1]; rfl
    | held => show times takeHeldTick s.heldDue s = s; rw [h2]; rfl
    | scrub => show times takeScrubTick s.scrubDue s = s; rw [h3]; rfl
    | compare c => exact if_neg (by simp [h4 c])
  unfold tickWorks
  split
  · exact List.foldl_fixed' still _
  · rfl

/-- Settles O19: nothing but the calendar, what ticks before the loss left due, and the notice. -/
theorem oscillatorEventsMoveTheCalendar : Obligations.OscillatorEventsMoveTheCalendar := by
  intro s
  refine ⟨fun ho => ⟨congrArg Host.Outcome.next (if_neg ho), congrArg Host.Outcome.next (if_neg ho), congrArg Host.Outcome.next (if_neg ho)⟩,
    fun ho => ⟨oscillatorLost s, congrArg Host.Outcome.next (if_pos ho), ?_⟩⟩
  have hf := tickWorks_frame [] .plain s
  have hc := oscillatorLost_calendar s
  rw [hc]
  refine ⟨rfl, rfl, rfl, rfl, rfl, rfl, rfl, fun hp => ?_, fun hp h1 h2 h3 h4 => ?_, fun hp => ?_, ?_⟩
  · obtain ⟨-, d1, -, d2, -, d3, -, d4⟩ := tickWorks_due [] .plain hp
    have left : ∀ w, w ∉ TickOrder.plain.later := fun _ => List.not_mem_nil
    unfold oscillatorLost
    dsimp only
    rw [raise_notice_same (by exact hf.mainPower.trans hp)]
    refine ⟨congrArg (Notice.raised · 0) (tickWorks_quiet [] .plain s .clockFault (by decide)), ?_⟩
    rw [State.raise_holdsDue, State.raise_heldDue, State.raise_scrubDue, State.raise_compareDue]
    exact ⟨d3 (left _), d1 (left _), d2 (left _), fun c => d4 c (left _)⟩
  · unfold oscillatorLost
    rw [tickWorks_nothing [] .plain h1 h2 h3 h4]
    exact if_pos hp
  · have still : tickWorks [] .plain s = s := if_neg (by simp [hp])
    unfold oscillatorLost
    rw [still]
    exact if_neg (by simp [hp])
  · unfold oscillatorLost
    rw [State.raise_evaluator, State.raise_port, State.raise_channelConfigs, State.raise_inputConfigs]
    exact ⟨hf.evaluator, hf.port, hf.channelConfigs, hf.inputConfigs⟩

end Sys2Proof.Machine
end

section
/-!
PROOFS. The loss of main power, and the levels at the driver pins with it and without (R15, R123, R131, R135, R144, R156).
-/

namespace Sys2Proof.Machine

/-! ### The pin map -/

theorem namesPin_iff (k : ChannelConfig) (p : Pin) : k.namesPin p = true ↔ k.pinA = p ∨ k.kind = .pulsed ∧ k.pinB = some p := by
  simp [ChannelConfig.namesPin]

/-- A pin that no channel names has no owner (R123). -/
theorem pinOwner_none {s : State} {p : Pin} (h : ∀ c, (s.config c).namesPin p = false) : pinOwner s p = none :=
  List.find?_eq_none.mpr fun c _ => by simp [h c]

/-- A pin that one channel alone names is that channel's (R123). -/
theorem pinOwner_alone {s : State} {p : Pin} {c : Chan} (hc : (s.config c).namesPin p = true)
    (h : ∀ d, (s.config d).namesPin p = true → d = c) : pinOwner s p = some c := by
  unfold pinOwner
  cases hf : (List.finRange 24).find? fun d => (s.config d).namesPin p with
  | none => exact absurd hc (List.find?_eq_none.mp hf c (List.mem_finRange c))
  | some d =>
    have hd := List.find?_some hf
    rw [h d hd]

theorem pinHigh_unpowered {s : State} (h : s.mainPower = false) (p : Pin) : pinHigh s p = none := if_neg (by simp [h])

theorem pinHigh_unowned {s : State} {p : Pin} (hp : s.mainPower = true) (h : pinOwner s p = none) : pinHigh s p = some false := by
  unfold pinHigh
  rw [if_pos hp, h]

theorem pinHigh_owned {s : State} {p : Pin} {c : Chan} (hp : s.mainPower = true) (h : pinOwner s p = some c) :
    pinHigh s p = some (level (s.config c) (if (s.config c).pinA = p then pinAActive s c else pinBActive s c)) := by
  unfold pinHigh
  rw [if_pos hp, h]

/-! ### When a pin is active -/

section

variable {s : State} {c : Chan}

theorem pinAActive_pulse {u : PulseState} (h : (s.channel c).pulse = some u) : pinAActive s c = decide (u = .pulsing true) := by
  unfold pinAActive
  simp only [h]
  exact beq_eq_decide _ _

theorem pinAActive_active (h : (s.channel c).pulse = none) (hd : (s.channel c).drive = .active) : pinAActive s c = true := by
  unfold pinAActive
  simp only [h, hd]

theorem pinAActive_inactive (h : (s.channel c).pulse = none) (hd : (s.channel c).drive = .inactive) : pinAActive s c = false := by
  unfold pinAActive
  simp only [h, hd]

theorem pinAActive_generator {g : GenNo} {r : GenRun} (h : (s.channel c).pulse = none) (hd : (s.channel c).drive = .generator)
    (hl : (s.channel c).link = .holding g) (hg : s.generator g = .busy r) : pinAActive s c = (pwmActive r && envelopeActive r) := by
  unfold pinAActive
  simp only [h, hd, hl, hg]
  rfl

end

theorem envelopeActive_steady {r : GenRun} (h : r.active.blink = none) : envelopeActive r = true := by
  unfold envelopeActive
  rw [h]

theorem envelopeActive_blink {r : GenRun} {b : Blink} {e : Nat} (h : r.active.blink = some b) (he : r.envPhase = some e) :
    envelopeActive r = decide (e < b.onTime.toNat * 10000) := by
  unfold envelopeActive
  rw [h, he]
  rfl

/-- Settles O12: main power loss clears the main domain alone; a pin's level is that of its only owner. -/
theorem mainPowerLossKeepsTheBackupDomain : Obligations.MainPowerLossKeepsTheBackupDomain := by
  intro s hp
  refine ⟨⟨{ clearMain s with mainPower := false }, congrArg Host.Outcome.next (if_pos hp), rfl, rfl, rfl, rfl, rfl, rfl, rfl, rfl,
    fun c => ?_, rfl, fun p => pinHigh_unpowered rfl p, rfl⟩, fun p => ⟨fun h => ?_, ?_⟩⟩
  · exact Vector.getElem_replicate _
  · refine pinHigh_unowned hp (pinOwner_none fun c => ?_)
    rw [Bool.eq_false_iff, Ne, namesPin_iff]
    exact fun hn => hn.elim (h c).1 (h c).2
  · rintro c k x rfl rfl alone
    have owned : (s.config c).namesPin p = true →
        pinHigh s p = some (level (s.config c) (if (s.config c).pinA = p then pinAActive s c else pinBActive s c)) := fun hn =>
      pinHigh_owned hp (pinOwner_alone hn fun d hd => alone d ((namesPin_iff _ p).mp hd))
    refine ⟨fun hA => ?_, fun hA hk hB => ?_⟩
    · have driven := (owned ((namesPin_iff _ p).mpr (.inl hA))).trans (by rw [if_pos hA])
      rw [driven]
      refine ⟨fun hx hd => ?_, fun hx hd => ?_, fun g r hx hd hl hg => ⟨fun hb => ?_, fun b e hb he => ?_⟩, fun u hu => ?_⟩
      · rw [pinAActive_active hx hd]
        exact congrArg some (Bool.true_bne _)
      · rw [pinAActive_inactive hx hd]
        exact congrArg some (Bool.false_bne _)
      · rw [pinAActive_generator hx hd hl hg, envelopeActive_steady hb, Bool.and_true]
        rfl
      · rw [pinAActive_generator hx hd hl hg, envelopeActive_blink hb he, Bool.decide_and]
        rfl
      · rw [pinAActive_pulse hu]
        rfl
    · rw [owned ((namesPin_iff _ p).mpr (.inr ⟨hk, hB⟩)), if_neg hA]
      unfold pinBActive level
      rw [beq_eq_decide]

end Sys2Proof.Machine
end

section
/-!
PROOFS. Main reset and cold start (R16 to R18, R47, R101, R120, R139 to R142, R156, R169, R182): the part before its channels derive their drives,
what the derivations leave of it, and the reset that the calendar lets end there.
-/

namespace Sys2Proof.Machine

/-! ### Before the drives are derived -/

/-- The part at a main reset when its channels are about to derive their drives (R16, R47, R101, R120, R182). -/
def resetBegun (cold : Bool) (s : State) : State := restartBlocks (startNotices cold (reinitialising (clearMain s)))

theorem mainReset_eq (cold : Bool) (v : Nat) (s : State) : mainReset cold v s = resetEvaluation v (deriveAll (resetBegun cold s)) := rfl

theorem ChannelFrame.only {s t : State} (h : ChannelFrame s t) : t = { s with
    channels := t.channels, generators := t.generators, switches := t.switches, notices := t.notices, publishOrders := t.publishOrders } := by
  obtain ⟨_, _, _, _, _, rfl⟩ := h
  rfl

theorem startNotices_eq (cold : Bool) (s : State) : startNotices cold s = { s with notices := (startNotices cold s).notices } := by
  unfold startNotices reportClock State.raise
  repeat' split
  all_goals rfl

theorem resetBegun_eq (cold : Bool) (s : State) : resetBegun cold s = { clearMain s with
    records := tabulate fun n => (s.record n).returned
    inputs := tabulate fun i => Input.restarted (s.inputConfig i) (asserted s i)
    port := { Port.blank with reinit := s.reinits.headD 0 }
    reinits := s.reinits.tail
    notices := (resetBegun cold s).notices } := by
  obtain ⟨ns, h⟩ : ∃ ns, startNotices cold (reinitialising (clearMain s)) = { reinitialising (clearMain s) with notices := ns } :=
    ⟨_, startNotices_eq _ _⟩
  unfold resetBegun
  rw [h]
  rfl

/-- The notices of a main reset before the derivations: START, and CLOCK_FAULT when the calendar reports a loss (R17, R182). -/
theorem resetBegun_notice (cold : Bool) {s : State} (hp : s.mainPower = true) (k : NoticeKind) : (resetBegun cold s).notice k =
    if k = .start then ⟨1, some cold.toNat⟩
    else if k = .clockFault ∧ (s.calendar.state = .halted ∨ s.calendar.osc = .lost) then ⟨1, some 1⟩
    else ⟨0, none⟩ := by
  have blank : ∀ k, (reinitialising (clearMain s)).notice k = ⟨0, none⟩ := fun k => Vector.getElem_replicate _
  show (startNotices cold (reinitialising (clearMain s))).notice k = _
  generalize hu : reinitialising (clearMain s) = u at blank ⊢
  have hup : u.mainPower = true := by rw [← hu]; exact hp
  have huc : u.calendar = s.calendar := by rw [← hu]; rfl
  have started : ∀ k, (u.raise .start cold.toNat).notice k = if k = .start then ⟨1, some cold.toNat⟩ else ⟨0, none⟩ := fun k => by
    rw [raise_notice hup, blank, blank]
    rfl
  unfold startNotices reportClock
  rw [State.raise_calendar, huc]
  split
  · rename_i hl
    rw [raise_notice ((State.raise_mainPower _ _ _).trans hup), started, started]
    by_cases hk : k = .clockFault
    · subst hk
      simp [hl]
      rfl
    · simp [hk]
  · rename_i hl
    rw [started]
    simp [hl]

theorem resetBegun_record (cold : Bool) (s : State) (n : RecNo) : (resetBegun cold s).record n = (s.record n).returned := by
  rw [resetBegun_eq]
  exact nth_tabulate _ n

theorem resetBegun_channel (cold : Bool) (s : State) (c : Chan) : (resetBegun cold s).channel c = Channel.fresh (s.config c) := by
  rw [resetBegun_eq]
  exact nth_tabulate _ c

theorem resetBegun_generator (cold : Bool) (s : State) (g : GenNo) : (resetBegun cold s).generator g = .free := by
  rw [resetBegun_eq]
  exact Vector.getElem_replicate _

theorem resetBegun_config (cold : Bool) (s : State) (c : Chan) : (resetBegun cold s).config c = s.config c := by
  rw [resetBegun_eq]
  rfl

theorem returned_eq (r : Record) :
    r.returned = if r.state = .opened ∨ r.state = .waiting then { r.applyDraft with state := .armed } else r := by
  unfold Record.returned
  cases r.state <;> rfl

/-! ### The drives derived -/

/-- The part once its channels have derived their drives: no command of the re-evaluation has been made. -/
def resetDerived (cold : Bool) (s : State) : State := deriveAll (resetBegun cold s)

theorem resetDerived_frame (cold : Bool) (s : State) : ChannelFrame (resetBegun cold s) (resetDerived cold s) := deriveAll_frame _

theorem resetDerived_deriving (cold : Bool) {s : State} (hp : s.mainPower = true) :
    ∃ l : List Chan, l.Perm (List.finRange 24) ∧ Deriving (resetBegun cold s) l (resetDerived cold s) := by
  have hpu : (resetBegun cold s).mainPower = true := by rw [resetBegun_eq]; exact hp
  obtain ⟨l, hnd, hall, hd⟩ := deriveAll_deriving hpu
    (fun c => by rw [resetBegun_channel, resetBegun_config]) (resetBegun_generator cold s) (by rw [resetBegun_notice cold hp]; simp)
  exact ⟨l, (List.perm_ext_iff_of_nodup hnd (List.nodup_finRange 24)).mpr fun c => ⟨fun _ => List.mem_finRange c, fun _ => hall c⟩, hd⟩

/-- Every item of the part after the derivations but the channels, the generators and the notices. -/
theorem resetDerived_eq (cold : Bool) (s : State) : ∃ ch ge no po, resetDerived cold s = { clearMain s with
    records := tabulate fun n => (s.record n).returned
    inputs := tabulate fun i => Input.restarted (s.inputConfig i) (asserted s i)
    port := { Port.blank with reinit := s.reinits.headD 0 }
    reinits := s.reinits.tail
    channels := ch
    generators := ge
    notices := no
    publishOrders := po } := by
  have hsw : (resetDerived cold s).switches = s.switches := by
    show (deriveAll (resetBegun cold s)).switches = _
    rw [deriveAll_switches, resetBegun_eq]
    rfl
  have e := (resetDerived_frame cold s).only
  rw [hsw, resetBegun_eq] at e
  exact ⟨_, _, _, _, e⟩

theorem resetDerived_notice (cold : Bool) {s : State} (hp : s.mainPower = true) {k : NoticeKind} (hk : k ≠ .genShort) :
    (resetDerived cold s).notice k = (resetBegun cold s).notice k := by
  obtain ⟨l, -, hd⟩ := resetDerived_deriving cold hp
  exact hd.quiet k (by simpa using hk)

/-- With the calendar not RUNNING a main reset ends with the derivations (R66). -/
theorem mainReset_notRunning (cold : Bool) (v : Nat) {s : State} (h : s.calendar.state ≠ .running) :
    mainReset cold v s = resetDerived cold s := by
  have hc : (resetDerived cold s).calendar = s.calendar := by
    obtain ⟨_, _, _, _, e⟩ := resetDerived_eq cold s
    rw [e]
    rfl
  rw [mainReset_eq]
  show resetEvaluation v (resetDerived cold s) = _
  unfold resetEvaluation
  rw [hc, if_neg h]

/-- What a channel's derivation from rest has given it, with its present demand the rest level and the channel NORMAL (R101, R140, R141). -/
theorem Derived.atRest {c : Chan} {s : State} (h : Derived c s) :
    (s.channel c).present = ⟨(s.config c).rest, none⟩ ∧ (s.channel c).condition = .normal := by
  obtain ⟨hpulse, hplain, hasks⟩ := h
  by_cases hk : (s.config c).kind = .pulsed
  · rw [hpulse hk]
    exact ⟨rfl, rfl⟩
  · cases hn : needs (s.config c).kind ⟨(s.config c).rest, none⟩ with
    | none => rw [hplain hk hn]; exact ⟨rfl, rfl⟩
    | some p =>
      rcases hasks p hk hn with ⟨g, hx, -⟩ | ⟨-, hx⟩
      · rw [hx]; exact ⟨rfl, rfl⟩
      · rw [hx]; exact ⟨rfl, rfl⟩

/-! ### The commands that make a main reset -/

/-- RESET, RSTR and the return of main power make the same main reset (R182). -/
theorem exec_mainReset {s : State} {c : Instr} {v : Nat}
    (h : c = .resetInput v ∧ s.mainPower = true ∨ c = .rstr [] v ∧ lineTaken (text "RSTR") [] s = true ∨ c = .powerReturn v ∧ s.mainPower = false) :
    exec c s = .next (mainReset false v { s with mainPower := true }) := by
  have powered : s.mainPower = true → ({ s with mainPower := true } : State) = s := fun hp => by
    cases s
    cases hp
    rfl
  rcases h with ⟨rfl, hp⟩ | ⟨rfl, hl⟩ | ⟨rfl, hp⟩
  · rw [powered hp]
    exact congrArg Host.Outcome.next (if_pos hp)
  · rw [powered (lineTaken_mainPower hl)]
    refine congrArg Host.Outcome.next ?_
    have hs : splitsTo (text "RSTR") [] = true := by decide
    unfold runRstr
    rw [if_pos hs, takeLine_taken hl]
    rfl
  · exact congrArg Host.Outcome.next (if_neg (by simp [hp]))

/-- A main reset with the calendar not RUNNING ends with the derivations, whichever command makes it (R66, R182). -/
theorem exec_mainReset_notRunning {s : State} {c : Instr} {v : Nat} (hr : s.calendar.state ≠ .running)
    (h : c = .resetInput v ∧ s.mainPower = true ∨ c = .rstr [] v ∧ lineTaken (text "RSTR") [] s = true ∨ c = .powerReturn v ∧ s.mainPower = false) :
    exec c s = .next (resetDerived false { s with mainPower := true }) :=
  (exec_mainReset h).trans (congrArg _ (mainReset_notRunning false v (s := { s with mainPower := true }) hr))

/-- Settles O10: every item but the channels, the generators and the notices is known whole (`resetDerived_eq`), and `Deriving` says what the
derivations give those. -/
theorem mainResetWithTheCalendarNotRunning : Obligations.MainResetWithTheCalendarNotRunning := by
  intro s c v hr hc
  have hp : ({ s with mainPower := true } : State).mainPower = true := rfl
  obtain ⟨l, hperm, hd⟩ := resetDerived_deriving false hp
  obtain ⟨_, _, _, _, heq⟩ := resetDerived_eq false { s with mainPower := true }
  have hnotice := fun k hk => (resetDerived_notice false hp (k := k) hk).trans (resetBegun_notice false hp k)
  have hasks : ∀ c, asksAtRest (resetBegun false { s with mainPower := true }) c = (needs (s.config c).kind ⟨(s.config c).rest, none⟩).isSome :=
    fun c => by unfold asksAtRest; rw [resetBegun_config]; rfl
  refine ⟨_, exec_mainReset_notRunning hr hc, ?_⟩
  generalize resetDerived false { s with mainPower := true } = t at hd heq hnotice
  have hder : ∀ c, Derived c t := fun c => hd.derived c (hperm.mem_iff.mpr (List.mem_finRange c))
  have hgen : ∀ g : GenNo, t.generator g ≠ .free ↔
      g.val < ((List.finRange 24).filter fun c => (needs (s.config c).kind ⟨(s.config c).rest, none⟩).isSome).length := fun g => by
    rw [hd.generators g, (hperm.filter _).length_eq, List.filter_congr fun c _ => hasks c]
  have hshort : (t.notice .genShort).count.toNat = ((List.finRange 24).filter fun c => (t.channel c).link == .waiting).length :=
    hd.short.trans (hperm.filter _).length_eq
  have hcfg : ∀ c, t.config c = s.config c := fun c => by rw [heq]; rfl
  have hrest := fun c => (hder c).atRest
  unfold Derived at hder
  simp only [hcfg] at hrest hder
  have hpulse := fun c => (hder c).1
  have hplain := fun c => (hder c).2.1
  have hask := fun c => (hder c).2.2
  have hstart := hnotice .start (by decide)
  have hclock := hnotice .clockFault (by decide)
  clear hd hder hnotice
  subst heq
  refine ⟨rfl, rfl, rfl, rfl, rfl, rfl, rfl, fun n => (nth_tabulate _ n).trans (returned_eq _), fun _ => Vector.getElem_replicate _, rfl, rfl, rfl, rfl,
    rfl, rfl, rfl, rfl, rfl, rfl, rfl, rfl, fun _ => ⟨Vector.getElem_replicate _, Vector.getElem_replicate _⟩, fun i => ?input,
    hrest, hpulse, fun c hk hn => ?plain, fun c p hk hn => ?asking, hgen, hshort, hstart, ?clock, rfl⟩
  case input =>
    refine (nth_tabulate _ i).trans (?_ : Input.restarted (s.inputConfig i) (asserted s i) = _)
    unfold Input.restarted
    cases (s.inputConfig i).kind <;> rfl
  case plain =>
    rw [hplain c hk hn]
    by_cases h0 : (s.config c).rest = 0 <;> simp [Channel.resting, h0]
  case asking =>
    refine (hask c p hk hn).imp_right fun ⟨hfull, hx⟩ => ⟨hfull, hx.trans ?_⟩
    simp [Channel.resting]
  case clock =>
    rw [hclock]
    simp

/-! ### Cold start -/

/-- Nothing stands at the pool: every channel has its rest level as present demand, needs no generator for it and has no link. -/
def Unlinked (s : State) : Prop :=
  ∀ c, (s.config c).kind ≠ .pulsed ∧ needs (s.config c).kind ⟨(s.config c).rest, none⟩ = none
    ∧ (s.channel c).link = .none ∧ (s.channel c).present = ⟨(s.config c).rest, none⟩

/-- Such a channel derives a steady drive, and raises nothing (R128). -/
theorem deriveDrive_unlinked {s : State} (h : Unlinked s) (c : Chan) :
    deriveDrive c true s = driveSteady c (Demand.on ⟨(s.config c).rest, none⟩) s := by
  obtain ⟨hk, hn, hl, hp⟩ := h c
  unfold deriveDrive deriveSteady
  cases hkk : (s.config c).kind with
  | pulsed => exact absurd hkk hk
  | switched => simp only [hkk] at hn; simp only [hl, hp, hn]
  | dimmed => simp only [hkk] at hn; simp only [hl, hp, hn]

theorem driveSteady_unlinked {s : State} (h : Unlinked s) (c : Chan) (on : Bool) : Unlinked (driveSteady c on s) := by
  intro d
  obtain ⟨hk, hn, hl, hp⟩ := h d
  refine ⟨hk, hn, ?_⟩
  unfold driveSteady
  rw [channel_setChannel]
  split
  · rename_i hcd
    subst hcd
    exact ⟨hl, hp⟩
  · exact ⟨hl, hp⟩

theorem deriveAll_unlinked_notices {s : State} (h : Unlinked s) : (deriveAll s).notices = s.notices := by
  have go : ∀ (l : List Chan) (u : State), Unlinked u → (l.foldl (fun t c => deriveDrive c true t) u).notices = u.notices := by
    intro l
    induction l with
    | nil => exact fun _ _ => rfl
    | cons c l ih =>
      intro u hu
      rw [List.foldl_cons, deriveDrive_unlinked hu]
      exact ih _ (driveSteady_unlinked hu c _)
  obtain ⟨po, e⟩ : ∃ po, (takeOrder s).2 = { s with publishOrders := po } := by unfold takeOrder; split <;> exact ⟨_, rfl⟩
  unfold deriveAll
  rw [e]
  exact go _ _ h

/-- A part whose channels are the defaults rests without a generator (R121, R142). -/
theorem resetBegun_unlinked {s : State} (cold : Bool) (h : ∀ c, s.config c = ChannelConfig.cold c) : Unlinked (resetBegun cold s) := by
  intro c
  rw [resetBegun_channel, resetBegun_config, h]
  exact ⟨(fun hk => nomatch hk), rfl, rfl, rfl⟩

/-- No driver pin is high when every channel drives an active-high pin inactive and runs no pulse (R123). -/
theorem pinHigh_allInactive {s : State} (hp : s.mainPower = true) (h : ∀ c, (s.config c).activeLow = false ∧ (s.config c).pinB = none
    ∧ (s.channel c).pulse = none ∧ (s.channel c).drive = .inactive) (p : Pin) : pinHigh s p = some false := by
  cases ho : pinOwner s p with
  | none => exact pinHigh_unowned hp ho
  | some c =>
    obtain ⟨hlow, -, hpulse, hdrive⟩ := h c
    rw [pinHigh_owned hp ho]
    have hb : pinBActive s c = false := by simp [pinBActive, hpulse]
    rw [pinAActive_inactive hpulse hdrive, hb, ite_self]
    simp [level, hlow]

/-- The part at a cold start, powered with its backup domain at the defaults, before its main reset (R18). -/
def defaulted (s : State) : State := { clearBackup s with mainPower := true }

theorem exec_coldStart (s : State) : exec .coldStart s = .next (resetDerived true (defaulted s)) :=
  congrArg Host.Outcome.next (mainReset_notRunning true 96 (s := defaulted s) fun h => nomatch h)

theorem defaulted_config (s : State) (c : Chan) : (defaulted s).config c = ChannelConfig.cold c := nth_tabulate _ c

theorem coldStart_notice (s : State) (k : NoticeKind) :
    (resetDerived true (defaulted s)).notice k = if k = .start then ⟨1, some 1⟩ else ⟨0, none⟩ := by
  have hn : (resetDerived true (defaulted s)).notice k = (resetBegun true (defaulted s)).notice k := by
    unfold State.notice
    rw [show (resetDerived true (defaulted s)).notices = _ from deriveAll_unlinked_notices (resetBegun_unlinked true (defaulted_config s))]
  have hc : ¬ ((defaulted s).calendar.state = .halted ∨ (defaulted s).calendar.osc = .lost) := by
    rintro (h | h)
    · exact nomatch h
    · exact nomatch h
  rw [hn, resetBegun_notice true rfl, if_neg (c := k = .clockFault ∧ _) fun h => hc h.2]
  rfl

/-- Settles O9: a cold start is a main reset of the defaults, whose channels rest without a generator. -/
theorem coldStartSetsTheDefaults : Obligations.ColdStartSetsTheDefaults := by
  intro s
  obtain ⟨l, hperm, hd⟩ := resetDerived_deriving true (s := defaulted s) rfl
  obtain ⟨_, _, _, _, heq⟩ := resetDerived_eq true (defaulted s)
  have hnotice := coldStart_notice s
  have hasks : ∀ c, asksAtRest (resetBegun true (defaulted s)) c = false := fun c => by
    unfold asksAtRest
    rw [resetBegun_config, defaulted_config]
    rfl
  refine ⟨_, exec_coldStart s, ?_⟩
  generalize resetDerived true (defaulted s) = t at hd heq hnotice
  have hcfg : ∀ c, t.config c = ChannelConfig.cold c := fun c => by rw [heq]; exact defaulted_config s c
  have hchan : ∀ c, t.channel c = Channel.resting (ChannelConfig.cold c) .none false := fun c => by
    obtain ⟨-, hplain, -⟩ := hd.derived c (hperm.mem_iff.mpr (List.mem_finRange c))
    rw [hcfg] at hplain
    exact hplain (fun hk => nomatch hk) rfl
  have hgen : ∀ g, t.generator g = .free := fun g => by
    have hg := (hd.generators g).mp
    rw [List.filter_eq_nil_iff.mpr fun c _ => by simp [hasks c]] at hg
    exact Classical.not_not.mp fun h => absurd (hg h) (Nat.not_lt_zero _)
  have hpin : ∀ p, pinHigh t p = some false := pinHigh_allInactive hd.powered fun c => by
    rw [hcfg, hchan]
    exact ⟨rfl, rfl, rfl, rfl⟩
  clear hd
  subst heq
  refine ⟨fun n => ?record, fun _ => Vector.getElem_replicate _, fun _ => Vector.getElem_replicate _, fun i => ?input, hcfg,
    fun _ => Vector.getElem_replicate _, rfl, rfl, rfl, rfl, rfl, rfl, ?weekday, rfl, rfl, rfl, fun _ => Vector.getElem_replicate _, rfl, rfl,
    fun c => ?channel, hpin, rfl, hgen, rfl, rfl, rfl, hnotice .start, fun k hk => (hnotice k).trans (if_neg hk), rfl⟩
  case record =>
    have hblank : (defaulted s).record n = .blank := Vector.getElem_replicate _
    refine (nth_tabulate _ n).trans ?_
    rw [hblank]
    rfl
  case input =>
    have hoff : (defaulted s).inputConfig i = .cold := Vector.getElem_replicate _
    refine (nth_tabulate _ i).trans ?_
    rw [hoff]
    rfl
  case weekday =>
    show Calendar.cold.weekday = 6
    decide
  case channel =>
    rw [hchan]
    exact ⟨rfl, rfl, rfl⟩

end Sys2Proof.Machine
end

section
/-!
PROOFS. The re-evaluation that a main reset with a RUNNING calendar makes (R16, R47, R53, R61, R66): what each visit makes of its record, and what the
pass keeps of the claims, the waiting list and the notices while it goes from record 0 to record 95.
-/

namespace Sys2Proof.Machine

/-! ### Lists taken from a table in ascending order -/

/-- When only row `n` of a table changes, and row `n` and the rows after it did not pass a test, the rows that pass it gain at most row `n`, at the
end. -/
theorem filter_finRange_extend {N : Nat} {p q : Fin N → Bool} {n : Fin N} (hq : ∀ j, j ≠ n → q j = p j) (hp : ∀ j, n ≤ j → p j = false) :
    (List.finRange N).filter q = (List.finRange N).filter p ++ if q n then [n] else [] := by
  have before : ∀ j, p j = true → j < n := fun j hj => lt_of_not_ge fun h => by simp [hp j h] at hj
  have sorted : ∀ f : Fin N → Bool, ((List.finRange N).filter f).Pairwise (· < ·) := fun f => (List.pairwise_lt_finRange N).filter f
  have hmem : ∀ j, j ∈ (List.finRange N).filter q ↔ j ∈ (List.finRange N).filter p ++ if q n then [n] else [] := fun j => by
    by_cases hj : j = n
    · subst hj
      cases hqj : q j <;> simp [hqj, hp j le_rfl]
    · cases hqn : q n <;> simp [hq j hj, hj]
  have hr : ((List.finRange N).filter p ++ if q n then [n] else []).Pairwise (· < ·) := by
    refine List.pairwise_append.mpr ⟨sorted p, by split <;> simp, fun a ha b hb => ?_⟩
    have hb : b = n := by
      split at hb
      · simpa using hb
      · simp at hb
    rw [hb]
    exact before a (List.mem_filter.mp ha).2
  exact (List.perm_ext_iff_of_nodup (sorted q).nodup hr.nodup |>.mpr hmem).eq_of_pairwise (fun _ _ _ _ h1 h2 => absurd h1 (lt_asymm h2)) (sorted q) hr

/-! ### One visit -/

/-- What a re-evaluation at minute `m` makes of record `r` that stands in no window (R47, R55, R61). -/
def Reevaluated (m : Moment) (r x : Record) : Prop :=
  (r.state ≠ .armed → x = r)
  ∧ ∀ e, r.state = .armed → r.content = some e →
    (inside e m = true → recordSound r = true → x = { r.counted with state := .opened } ∨ x = { r.counted with state := .waiting })
    ∧ (inside e m = true → recordSound r = false → x = r.condemned)
    ∧ (inside e m = false → e.kind = 0 → x = r)
    ∧ (∀ b d w, inside e m = false → e.kind = 1 → e.day = .date b → dateOf b = some d → windowOn e d = some w →
      x = if w.2 ≤ m.index then { r with state := .spent } else r)

theorem Reevaluated.inside {m : Moment} {r x : Record} {e : Content} (ha : r.state = .armed) (hc : r.content = some e) (hi : inside e m = true)
    (hgood : recordSound r = true → x = { r.counted with state := .opened } ∨ x = { r.counted with state := .waiting })
    (hbad : recordSound r = false → x = r.condemned) : Reevaluated m r x := by
  refine ⟨fun hn => absurd ha hn, fun c _ hc' => ?_⟩
  cases hc.symm.trans hc'
  exact ⟨fun _ => hgood, fun _ => hbad, fun ho => (by simp [hi] at ho), fun _ _ _ ho => (by simp [hi] at ho)⟩

theorem Reevaluated.outside {m : Moment} {r : Record} {e : Content} (ha : r.state = .armed) (hc : r.content = some e)
    (ho : Machine.inside e m = false) : Reevaluated m r (if datedOver e m then { r with state := .spent } else r) := by
  refine ⟨fun hn => absurd ha hn, fun c _ hc' => ?_⟩
  cases hc.symm.trans hc'
  refine ⟨fun hi => (by simp [ho] at hi), fun hi => (by simp [ho] at hi), fun _ hk => ?_, fun b d w _ hk hd hb hw => ?_⟩
  · rw [datedOver_weekly hk]
    rfl
  · rw [datedOver_dated hk hd hb hw]
    simp

theorem Reevaluated.untested {m : Moment} {r : Record} (h : r.state ≠ .armed ∨ r.content = none) : Reevaluated m r r :=
  ⟨fun _ => rfl, fun e ha hc => by
    rcases h with h | h
    · exact absurd ha h
    · simp [h] at hc⟩

theorem visit_reevaluation {m : Moment} {n : RecNo} {s : State} (h : (s.record n).state.standing = false) :
    visit .reevaluation m n s = testArmed inside m n s := by
  unfold visit
  rw [closeIfOutside_stays (.inl h)]

theorem counted_content (r : Record) : r.counted.content = r.content := by
  unfold Record.counted
  split <;> rfl

/-- The notices that an opening can raise. -/
def openingKinds : List NoticeKind := .recordWrap :: .claimWait :: serviceKinds

theorem openRecord_quiet (n : RecNo) (s : State) : QuietBut openingKinds s (openRecord n s) := by
  unfold openRecord
  split
  · refine QuietBut.trans ((countRecord_quiet n s).mono (by decide)) ?_
    generalize countRecord n s = u
    unfold requestOpening
    split
    · refine QuietBut.trans (placeRecord_quiet n u) (QuietBut.trans (t := setRecState n .opened (placeRecord n u)) (QuietBut.of_notices rfl) ?_)
      exact (publish_quiet _).mono (by decide)
    · exact QuietBut.trans (t := setRecState n .waiting { u with waiting := u.waiting ++ [n] }) (QuietBut.of_notices rfl)
        (QuietBut.raise _ _ (by decide))
  · exact (quarantine_quiet n s).mono (by decide)

/-! ### The claims and the waiting list of a pass -/

/-- The claims are those of the OPEN records, and each channel's present demand is that of its list (R78, R83). -/
structure OpenClaims (t : State) : Prop where
  held : ∀ n e, (t.record n).state = .opened → (t.record n).content = some e → ∀ ch ∈ toChans e.channels, openClaim n e ∈ t.claimList ch
  owned : ∀ ch, ∀ cl ∈ t.claimList ch, ∃ n, cl.source = .record n ∧ (t.record n).state = .opened
  present : ∀ ch, (t.channel ch).present = demandOf t ch

/-- The records that wait do so ascending, behind a head that the pool has no room for, and after every OPEN record (R82, R88). -/
structure Queue (t : State) : Prop where
  ascending : t.waiting = (List.finRange 96).filter fun n => (t.record n).state == .waiting
  head : ∀ n rest, t.waiting = n :: rest → freeCount t < (t.record n).need
  behind : ∀ i j, (t.record i).state = .opened → (t.record j).state = .waiting → i < j

section

variable {n : RecNo} {t u : State}

/-- A record that was not OPEN and does not become OPEN leaves the claims as they are. -/
theorem OpenClaims.unopened (h : OpenClaims t) (others : ∀ j, j ≠ n → u.record j = t.record j) (ht : (t.record n).state ≠ .opened)
    (hu : (u.record n).state ≠ .opened) (hcl : u.claims = t.claims) (hch : u.channels = t.channels) (hcf : u.channelConfigs = t.channelConfigs) :
    OpenClaims u := by
  have hl : ∀ ch, u.claimList ch = t.claimList ch := fun ch => by unfold State.claimList; rw [hcl]
  refine ⟨fun j e ho he ch hch => ?_, fun ch cl hm => ?_, fun ch => ?_⟩
  · have hj : j ≠ n := fun hj => hu (hj ▸ ho)
    rw [others j hj] at ho he
    rw [hl]
    exact h.held j e ho he ch hch
  · rw [hl] at hm
    obtain ⟨j, hj, ho⟩ := h.owned ch cl hm
    exact ⟨j, hj, by rw [others j fun e => ht (e ▸ ho)]; exact ho⟩
  · have hd : demandOf u ch = demandOf t ch := by unfold demandOf State.config; rw [hl, hcf]
    rw [hd, ← h.present ch]
    unfold State.channel
    rw [hch]

/-- A record that opens adds its claims (R81, R83). -/
theorem OpenClaims.granted {c : Content} (h : OpenClaims t) (others : ∀ j, j ≠ n → u.record j = t.record j) (ht : (t.record n).state ≠ .opened)
    (ho : (u.record n).state = .opened) (hc : (u.record n).content = some c)
    (hin : ∀ ch ∈ toChans c.channels, u.claimList ch = insertClaim (openClaim n c) ((t.claimList ch).filter fun cl => cl.source != .record n))
    (hout : ∀ ch, ch ∉ toChans c.channels → u.claimList ch = t.claimList ch)
    (hpresent : ∀ ch, (u.channel ch).present = demandOf u ch) : OpenClaims u := by
  refine ⟨fun j e hj he ch hch => ?_, fun ch cl hm => ?_, hpresent⟩
  · by_cases hjn : j = n
    · subst hjn
      cases hc.symm.trans he
      rw [hin ch hch]
      exact mem_insertClaim.mpr (.inl rfl)
    · rw [others j hjn] at hj he
      have hold := h.held j e hj he ch hch
      by_cases hm : ch ∈ toChans c.channels
      · rw [hin ch hm]
        exact mem_insertClaim.mpr (.inr (List.mem_filter.mpr ⟨hold, by simpa [openClaim] using hjn⟩))
      · rw [hout ch hm]
        exact hold
  · have old : cl ∈ t.claimList ch → ∃ j, cl.source = .record j ∧ (u.record j).state = .opened := fun hcl => by
      obtain ⟨j, hj, hjo⟩ := h.owned ch cl hcl
      exact ⟨j, hj, by rw [others j fun e => ht (e ▸ hjo)]; exact hjo⟩
    by_cases hch : ch ∈ toChans c.channels
    · rw [hin ch hch] at hm
      rcases mem_insertClaim.mp hm with rfl | hm
      · exact ⟨n, rfl, ho⟩
      · exact old (List.mem_filter.mp hm).1
    · rw [hout ch hch] at hm
      exact old hm

/-- A visit that adds its record to the waiting list or to the OPEN records only as R81 and R82 allow keeps the rule of the list, when no record from
the visited one on stood in a window. -/
theorem Queue.visited (h : Queue t) (others : ∀ j, j ≠ n → u.record j = t.record j) (ahead : ∀ j, n ≤ j → (t.record j).state.standing = false)
    (hw : u.waiting = t.waiting ++ if (u.record n).state == .waiting then [n] else [])
    (hfirst : t.waiting = [] → (u.record n).state = .waiting → freeCount u < (u.record n).need)
    (hnext : t.waiting ≠ [] → freeCount u = freeCount t ∧ (u.record n).state ≠ .opened) : Queue u := by
  have unwaiting : ∀ j, n ≤ j → (t.record j).state ≠ .waiting := fun j hj e => by simpa [e, RecState.standing] using ahead j hj
  have unopened : ∀ j, n ≤ j → (t.record j).state ≠ .opened := fun j hj e => by simpa [e, RecState.standing] using ahead j hj
  refine ⟨?_, fun j rest hj => ?_, fun i j hi hj => ?_⟩
  · rw [hw, h.ascending]
    refine (filter_finRange_extend (q := fun j => (u.record j).state == .waiting) (fun j hj => ?_) fun j hj => ?_).symm
    · rw [others j hj]
    · simpa using unwaiting j hj
  · rw [hw] at hj
    cases hq : t.waiting with
    | nil =>
      rw [hq, List.nil_append] at hj
      split at hj
      · rename_i hn
        cases hj
        exact hfirst hq (by simpa using hn)
      · simp at hj
    | cons a l =>
      rw [hq, List.cons_append] at hj
      obtain ⟨rfl, -⟩ := List.cons.inj hj
      have ha : (t.record a).state = .waiting := by
        have : a ∈ t.waiting := by rw [hq]; exact List.mem_cons_self
        rw [h.ascending] at this
        simpa using (List.mem_filter.mp this).2
      rw [others a fun e => unwaiting n le_rfl (e ▸ ha), (hnext (by simp [hq])).1]
      exact h.head a l hq
  · by_cases hjn : j = n
    · subst hjn
      have hij : i ≠ j := fun e => by rw [e, hj] at hi; cases hi
      rw [others i hij] at hi
      exact lt_of_not_ge fun hge => unopened i hge hi
    · rw [others j hjn] at hj
      have hne : t.waiting ≠ [] := fun e => by
        have : j ∈ t.waiting := by rw [h.ascending]; simp [hj]
        simp [e] at this
      have hin : i ≠ n := fun e => (hnext hne).2 (e ▸ hi)
      rw [others i hin] at hi
      exact h.behind i j hi hj

end

/-! ### The pass -/

/-- A pass at minute `m` that began with `s` has visited the records below `k`. -/
structure PassDone (m : Moment) (s : State) (k : Nat) (t : State) : Prop where
  powered : t.mainPower = true
  behind : ∀ n : RecNo, n.val < k → Reevaluated m (s.record n) (t.record n)
  ahead : ∀ n : RecNo, k ≤ n.val → t.record n = s.record n
  queue : Queue t
  claims : OpenClaims t
  missed : t.notice .missedWindow = Notice.raisedFor ⟨0, none⟩
    (((List.finRange 96).filter fun n => (t.record n).state == .spent && (s.record n).state != .spent).map Fin.val)

/-- A visit of record `n` moves the pass on when it does to that record what a re-evaluation does, and raises MISSED_WINDOW just when it spends it. -/
theorem PassDone.next {m : Moment} {s t u : State} {n : RecNo} (h : PassDone m s n.val t) (hp : u.mainPower = t.mainPower)
    (others : ∀ j, j ≠ n → u.record j = t.record j) (hr : Reevaluated m (t.record n) (u.record n)) (hq : Queue u) (hc : OpenClaims u)
    (hm : u.notice .missedWindow = if (u.record n).state = .spent ∧ (t.record n).state ≠ .spent then (t.notice .missedWindow).raised n.val
      else t.notice .missedWindow) : PassDone m s (n.val + 1) u := by
  have hn := h.ahead n le_rfl
  refine ⟨hp.trans h.powered, fun j hj => ?_, fun j hj => ?_, hq, hc, ?_⟩
  · by_cases hjn : j = n
    · subst hjn
      rw [← hn]
      exact hr
    · rw [others j hjn]
      exact h.behind j (by have := Fin.val_ne_of_ne hjn; omega)
  · have hjn : j ≠ n := fun e => by rw [e] at hj; omega
    rw [others j hjn]
    exact h.ahead j (by omega)
  · rw [filter_finRange_extend (n := n) (p := fun j => (t.record j).state == .spent && (s.record j).state != .spent)
      (fun j hj => by rw [others j hj]) fun j hj => by rw [h.ahead j hj]; cases (s.record j).state <;> rfl]
    rw [hm, h.missed, hn]
    unfold Notice.raisedFor
    by_cases hx : (u.record n).state = .spent ∧ (s.record n).state ≠ .spent
    · rw [if_pos hx, if_pos (by simp [hx]), List.map_append, List.foldl_append]
      rfl
    · rw [if_neg hx, if_neg (by simpa using hx), List.append_nil]

section

variable {m : Moment} {s t : State} {n : RecNo} {e : Content}

/-- A visit that opens its record's window (R55, R61). -/
theorem PassDone.opened (h : PassDone m s n.val t) (ahead : ∀ j, n ≤ j → (t.record j).state.standing = false) (ha : (t.record n).state = .armed)
    (hc : (t.record n).content = some e) (hi : inside e m = true) : PassDone m s (n.val + 1) (openRecord n t) := by
  obtain ⟨hbad, hgood⟩ := openRecord_opens ha hc
  have hp := (openRecord_frame n t).mainPower
  have hcf := (openRecord_frame n t).channelConfigs
  have hmissed : (openRecord n t).notice .missedWindow = t.notice .missedWindow := openRecord_quiet n t _ (by decide)
  generalize openRecord n t = u at hbad hgood hp hcf hmissed
  have hat : (t.record n).state ≠ .opened := by rw [ha]; simp
  cases hs : recordSound (t.record n) with
  | false =>
    obtain ⟨hu, -⟩ := hbad hs
    have hn : u.record n = (t.record n).condemned := by rw [hu]; exact nth_upd_same _ _ _
    have others : ∀ j, j ≠ n → u.record j = t.record j := fun j hj => by rw [hu]; exact nth_upd_other _ _ hj
    have hst : (u.record n).state = .quarantined := by rw [hn]; rfl
    have hcl : u.claims = t.claims := by rw [hu]
    have hw : u.waiting = t.waiting := by rw [hu]
    refine h.next hp others (.inside ha hc hi (fun h => by simp [hs] at h) fun _ => hn) ?_ ?_ ?_
    · refine h.queue.visited others ahead (by simp [hw, hst]) (fun _ hx => by simp [hst] at hx) fun _ => ⟨freeCount_of_claims hcl, by simp [hst]⟩
    · exact h.claims.unopened others hat (by simp [hst]) hcl (by rw [hu]) hcf
    · rw [hmissed, if_neg (by simp [hst])]
  | true =>
    obtain ⟨others, -, hgrant, hwait⟩ := hgood hs
    have hbad : recordSound (t.record n) ≠ false := by simp [hs]
    by_cases hg : t.waiting = [] ∧ e.channels.length ≤ freeCount t
    · obtain ⟨hn, hw, hin, hout, hpresent, -⟩ := hgrant hg.1 hg.2
      have hst : (u.record n).state = .opened := by rw [hn]
      have hcu : (u.record n).content = some e := by rw [hn]; exact (counted_content _).trans hc
      refine h.next hp others (.inside ha hc hi (fun _ => .inl hn) fun h => absurd h hbad) ?_ ?_ ?_
      · exact h.queue.visited others ahead (by simp [hw, hg.1, hst]) (fun _ hx => by simp [hst] at hx) fun hx => absurd hg.1 hx
      · exact h.claims.granted others hat hst hcu hin hout hpresent
      · rw [hmissed, if_neg (by simp [hst])]
    · obtain ⟨hu, hn, -⟩ := hwait ((not_and_or.mp hg).imp_right not_le.mp)
      have hst : (u.record n).state = .waiting := by rw [hn]
      have hcu : (u.record n).need = e.channels.length := by
        rw [hn]
        show ((t.record n).counted.content).elim 0 _ = _
        rw [counted_content, hc]
        rfl
      have hcl : u.claims = t.claims := by rw [hu]
      have hw : u.waiting = t.waiting ++ [n] := by rw [hu]
      refine h.next hp others (.inside ha hc hi (fun _ => .inr hn) fun h => absurd h hbad) ?_ ?_ ?_
      · refine h.queue.visited others ahead (by simp [hw, hst]) (fun hx _ => ?_) fun _ => ⟨freeCount_of_claims hcl, by simp [hst]⟩
        rw [hcu, freeCount_of_claims hcl]
        exact not_le.mp fun hy => hg ⟨hx, hy⟩
      · exact h.claims.unopened others hat (by simp [hst]) hcl (by rw [hu]) hcf
      · rw [hmissed, if_neg (by simp [hst])]

/-- A visit that leaves the table as it is. -/
theorem PassDone.still (h : PassDone m s n.val t) (hr : Reevaluated m (t.record n) (t.record n)) : PassDone m s (n.val + 1) t := by
  refine h.next rfl (fun _ _ => rfl) hr h.queue h.claims ?_
  rw [if_neg fun hx => hx.2 hx.1]

/-- A visit that spends its record (R57, R61). -/
theorem PassDone.spent (h : PassDone m s n.val t) (ahead : ∀ j, n ≤ j → (t.record j).state.standing = false) (ha : (t.record n).state = .armed)
    (hr : Reevaluated m (t.record n) { t.record n with state := .spent }) : PassDone m s (n.val + 1) (spendRecord n t) := by
  have hu := spendRecord_eq n t
  have hm : (spendRecord n t).notice .missedWindow = (t.notice .missedWindow).raised n.val := by
    unfold State.notice
    rw [spendRecord_notices h.powered]
    exact nth_upd_same _ _ _
  generalize spendRecord n t = u at hu hm
  have hn : u.record n = { t.record n with state := .spent } := by rw [hu]; exact nth_upd_same _ _ _
  have others : ∀ j, j ≠ n → u.record j = t.record j := fun j hj => by rw [hu]; exact nth_upd_other _ _ hj
  have hst : (u.record n).state = .spent := by rw [hn]
  have hcl : u.claims = t.claims := by rw [hu]
  have hw : u.waiting = t.waiting := by rw [hu]
  refine h.next (by rw [hu]) others (hn ▸ hr) ?_ ?_ ?_
  · exact h.queue.visited others ahead (by simp [hw, hst]) (fun _ hx => by simp [hst] at hx) fun _ => ⟨freeCount_of_claims hcl, by simp [hst]⟩
  · exact h.claims.unopened others (by simp [ha]) (by simp [hst]) hcl (by rw [hu]) (by rw [hu])
  · rw [hm, if_pos (by simp [hst, ha])]

/-- One visit of the pass, by what its record is: not under test, opened, spent, or left. -/
theorem PassDone.visit (hs : ∀ j, (s.record j).state.standing = false) (h : PassDone m s n.val t) :
    PassDone m s (n.val + 1) (visit .reevaluation m n t) := by
  have ahead : ∀ j, n ≤ j → (t.record j).state.standing = false := fun j hj => by rw [h.ahead j hj]; exact hs j
  rw [visit_reevaluation (ahead n le_rfl)]
  by_cases ha : (t.record n).state = .armed
  · cases hc : (t.record n).content with
    | none =>
      have : testArmed inside m n t = t := by unfold testArmed; simp only [hc]
      rw [this]
      exact h.still (.untested (.inr hc))
    | some e =>
      rw [testArmed_armed ha hc]
      cases hi : inside e m with
      | true => exact h.opened ahead ha hc hi
      | false =>
        have hr := Reevaluated.outside ha hc hi
        cases hd : datedOver e m with
        | true => exact h.spent ahead ha (by simpa [hd] using hr)
        | false => exact h.still (by simpa [hd] using hr)
  · rw [testArmed_other ha]
    exact h.still (.untested (.inl ha))

/-- The evaluator is not part of what a pass has done. -/
theorem PassDone.setEvaluator {k : Nat} (h : PassDone m s k t) (ev : Evaluator) : PassDone m s k { t with evaluator := ev } :=
  ⟨h.powered, h.behind, h.ahead, ⟨h.queue.ascending, h.queue.head, h.queue.behind⟩, ⟨h.claims.held, h.claims.owned, h.claims.present⟩, h.missed⟩

/-- The pass goes on from record `n` for `v` visits (R53). -/
theorem PassDone.runPass (hs : ∀ j, (s.record j).state.standing = false) (v : Nat) {n : RecNo} {t : State} (h : PassDone m s n.val t)
    (hp : t.evaluator.pass = some ⟨.reevaluation, n⟩) (hm : t.evaluator.minute = some m) (hv : n.val + v ≤ 96) :
    PassDone m s (n.val + v) (runPass v t) := by
  induction v generalizing n t with
  | zero => exact h
  | succ v ih =>
    have hnext : PassDone m s (n.val + 1) (passStep t) := by
      rw [passStep_some hp hm]
      exact (h.visit hs).setEvaluator _
    have he : (passStep t).evaluator = { t.evaluator with pass := (⟨.reevaluation, n⟩ : Pass).advance } := by rw [passStep_some hp hm]
    show PassDone m s (n.val + (v + 1)) (Machine.runPass v (passStep t))
    by_cases hn : n.val + 1 < 96
    · have := ih (n := ⟨n.val + 1, hn⟩) hnext (by rw [he]; exact dif_pos hn) (by rw [he]; exact hm) (by dsimp only; omega)
      rwa [show n.val + (v + 1) = n.val + 1 + v by omega]
    · obtain rfl : v = 0 := by omega
      exact hnext

end

/-- A pass changes, but for the evaluator, what one visit can change (R53). -/
theorem runPass_table (v : Nat) (s : State) : TableFrame { s with evaluator := (runPass v s).evaluator } (runPass v s) := by
  have setEvaluator : ∀ {a b : State} (ev : Evaluator), TableFrame a b → TableFrame { a with evaluator := ev } { b with evaluator := ev } := by
    rintro a b ev ⟨_, _, _, _, _, _, _, _, rfl⟩
    exact ⟨_, _, _, _, _, _, _, _, rfl⟩
  induction v generalizing s with
  | zero => exact TableFrame.refl s
  | succ v ih =>
    have step : ∀ ev, TableFrame { s with evaluator := ev } { passStep s with evaluator := ev } := fun ev => by
      unfold passStep
      split
      · exact setEvaluator (b := visit _ _ _ s) ev (visit_frame _ _ _ _)
      · exact TableFrame.refl _
    exact (step _).trans (ih (passStep s))

/-! ### The reset that re-evaluates -/

theorem returned_resting (r : Record) : r.returned.state.standing = false := by
  unfold Record.returned
  cases h : r.state.standing with
  | true => rfl
  | false => simpa using h

theorem returned_spent (r : Record) : (r.returned.state != .spent) = (r.state != .spent) := by
  rw [returned_eq]
  split
  · rename_i h
    rcases h with h | h
    · rw [h]
      rfl
    · rw [h]
      rfl
  · rfl

/-- The pass has done nothing yet in a part that has no claim and no record in a window. -/
theorem PassDone.begun {m : Moment} {s : State} (hp : s.mainPower = true) (hs : ∀ j, (s.record j).state.standing = false) (hw : s.waiting = [])
    (hcl : ∀ ch, s.claimList ch = []) (hpresent : ∀ ch, (s.channel ch).present = ⟨(s.config ch).rest, none⟩)
    (hm : s.notice .missedWindow = ⟨0, none⟩) : PassDone m s 0 s := by
  have unwaiting : ∀ j, (s.record j).state ≠ .waiting := fun j e => by simpa [e, RecState.standing] using hs j
  have unopened : ∀ j, (s.record j).state ≠ .opened := fun j e => by simpa [e, RecState.standing] using hs j
  refine ⟨hp, fun n h => absurd h (Nat.not_lt_zero _), fun _ _ => rfl, ⟨?_, fun n rest h => ?_, fun i j h => absurd h (unopened i)⟩,
    ⟨fun n e h => absurd h (unopened n), fun ch cl h => ?_, fun ch => ?_⟩, ?_⟩
  · rw [hw, List.filter_eq_nil_iff.mpr fun j _ => by simpa using unwaiting j]
  · simp [hw] at h
  · simp [hcl ch] at h
  · rw [hpresent ch]
    unfold demandOf
    rw [hcl ch]
  · rw [hm, List.filter_eq_nil_iff.mpr fun j _ => by simp]
    rfl

/-- The part at a main reset with a RUNNING calendar when its re-evaluation begins (R66). -/
def passBegun (s : State) : State := beginPass .reevaluation s.calendar.now (resetDerived false s)

theorem mainReset_running {s : State} (v : Nat) (h : s.calendar.state = .running) : mainReset false v s = runPass v (passBegun s) := by
  have hc : (resetDerived false s).calendar = s.calendar := by
    obtain ⟨_, _, _, _, e⟩ := resetDerived_eq false s
    rw [e]
    rfl
  rw [mainReset_eq]
  show resetEvaluation v (resetDerived false s) = _
  unfold resetEvaluation passBegun
  rw [hc, if_pos h]

theorem passBegun_eq (s : State) : ∃ ch ge no po, passBegun s = { clearMain s with
    evaluator := ⟨[], some s.calendar.now, some ⟨.reevaluation, 0⟩⟩
    records := tabulate fun n => (s.record n).returned
    inputs := tabulate fun i => Input.restarted (s.inputConfig i) (asserted s i)
    port := { Port.blank with reinit := s.reinits.headD 0 }
    reinits := s.reinits.tail
    channels := ch
    generators := ge
    notices := no
    publishOrders := po } := by
  obtain ⟨ch, ge, no, po, e⟩ := resetDerived_eq false s
  refine ⟨ch, ge, no, po, ?_⟩
  unfold passBegun
  rw [e]
  rfl

theorem passBegun_record (s : State) (n : RecNo) : (passBegun s).record n = (s.record n).returned := by
  obtain ⟨_, _, _, _, e⟩ := passBegun_eq s
  rw [e]
  exact nth_tabulate _ n

theorem passBegun_standing (s : State) (n : RecNo) : ((passBegun s).record n).state.standing = false := by
  rw [passBegun_record]
  exact returned_resting _

theorem passBegun_begun {s : State} (m : Moment) (hp : s.mainPower = true) : PassDone m (passBegun s) 0 (passBegun s) := by
  have hrest : ∀ c, ((passBegun s).channel c).present = ⟨((passBegun s).config c).rest, none⟩ := fun c => by
    obtain ⟨l, hperm, hd⟩ := resetDerived_deriving false hp
    exact (hd.derived c (hperm.mem_iff.mpr (List.mem_finRange c))).atRest.1
  have hmissed : (passBegun s).notice .missedWindow = ⟨0, none⟩ :=
    (resetDerived_notice false hp (k := .missedWindow) (by decide)).trans ((resetBegun_notice false hp _).trans (by simp))
  obtain ⟨_, _, _, _, e⟩ := passBegun_eq s
  exact .begun (by rw [e]; exact hp) (passBegun_standing s) (by rw [e]; rfl) (fun ch => by rw [e]; exact Vector.getElem_replicate _) hrest hmissed

/-- The whole pass, made at the present minute (R53, R66). -/
theorem reevaluation_done {s : State} (hp : s.mainPower = true) :
    PassDone s.calendar.now (passBegun s) 96 (runPass 96 (passBegun s)) := by
  obtain ⟨_, _, _, _, e⟩ := passBegun_eq s
  exact (passBegun_begun s.calendar.now hp).runPass (n := 0) (passBegun_standing s) 96 (by rw [e]) (by rw [e]) le_rfl

/-- The evaluator after the whole pass (R52, R53). -/
theorem reevaluation_evaluator (s : State) : (runPass 96 (passBegun s)).evaluator = ⟨[], some s.calendar.now, none⟩ := by
  obtain ⟨_, _, _, _, e⟩ := passBegun_eq s
  rw [runPass_evaluator (k := .reevaluation) (n := 0) (m := s.calendar.now) (by rw [e]) (by rw [e]), dif_neg (by decide), e]

/-- Settles O11: the whole pass is 96 visits, and `PassDone` says what they have done. -/
theorem mainResetReevaluates : Obligations.MainResetReevaluates := by
  intro s c hr hc
  have hrec := passBegun_record { s with mainPower := true }
  have hdone := reevaluation_done (s := { s with mainPower := true }) rfl
  have hev := reevaluation_evaluator { s with mainPower := true }
  have hfr := runPass_table 96 (passBegun { s with mainPower := true })
  refine ⟨runPass 96 (passBegun { s with mainPower := true }), (exec_mainReset hc).trans (congrArg _ (mainReset_running 96 hr)), ?_⟩
  generalize runPass 96 (passBegun { s with mainPower := true }) = t at hfr hev hdone
  obtain ⟨hpow, hrow, -, hqueue, hclaims, hmissed⟩ := hdone
  simp only [hrec] at hrow hmissed
  simp only [State.record, returned_spent] at hmissed
  obtain ⟨_, _, _, _, heq⟩ := passBegun_eq { s with mainPower := true }
  rw [heq] at hfr
  refine ⟨hfr.calendar, hev, hfr.rules, hfr.channelConfigs, ?_, hfr.port, ?_, fun n r e => ?_, hqueue.ascending, hqueue.head, hqueue.behind,
    hclaims.held, hclaims.owned, hclaims.present, hmissed⟩
  · obtain ⟨_, _, _, _, _, _, _, _, e⟩ := hfr
    rw [e]
    rfl
  · obtain ⟨_, _, _, _, _, _, _, _, e⟩ := hfr
    rw [e]
    rfl
  · obtain rfl := e.trans (returned_eq _).symm
    exact hrow n n.isLt

end Sys2Proof.Machine
end

section
/-!
PROOFS. The windows of a content (R22, R49 to R51, R57), and what one visit of a pass makes of a record in each state (R52 to R62).
-/

namespace Sys2Proof.Machine

/-! ### Windows -/

theorem startStop_times {c : Content} {a b : Nat} (ha : timeOf c.start = some a) (hb : timeOf c.stop = some b) (hne : a ≠ b) :
    startStop c = some (a, b) := by
  simp only [startStop, ha, hb, if_neg hne]

theorem namesDay_weekly {c : Content} {set : BitVec 7} {d : Date} {admits : Bool} (hk : c.kind = 0) (hd : c.day = .days set) (hset : set ≠ 0)
    (ha : seasonAdmits c.season d = some admits) : namesDay c d = some (admits && set.getLsbD (weekdayOf d - 1)) := by
  simp only [namesDay, hd, if_pos (And.intro hk hset), ha, Option.map_some]

theorem namesDay_dated {c : Content} {w : BitVec 24} {d e : Date} (hk : c.kind = 1) (hd : c.day = .date w) (he : dateOf w = some e) :
    namesDay c d = some (decide (e = d)) := by
  simp only [namesDay, hd, if_pos hk, he, Option.map_some]

/-- A window runs from its start time to its end time, which falls on the next day when it is the earlier of the two (R49, R50). -/
theorem windowOn_named {c : Content} {d : Date} {a b : Nat} {named : Bool} (hs : startStop c = some (a, b)) (hn : namesDay c d = some named) :
    windowOn c d =
      if named = true then some (dayIndex d * 1440 + a, (if a < b then dayIndex d else dayIndex d + 1) * 1440 + b) else none := by
  simp only [windowOn, hs, hn]
  by_cases hab : a < b
  · simp only [if_pos hab]
  · simp only [if_neg hab]

theorem holdsMinute_iff (p : Nat) (w : Option (Nat × Nat)) : holdsMinute p w = true ↔ ∃ x, w = some x ∧ x.1 ≤ p ∧ p < x.2 := by
  cases w <;> simp [holdsMinute]

/-- R51. -/
theorem inside_iff (c : Content) (m : Moment) : inside c m = true ↔
    ∃ d w, (d = m.date ∨ prevDate m.date = some d) ∧ windowOn c d = some w ∧ w.1 ≤ m.index ∧ m.index < w.2 := by
  unfold inside
  rw [Bool.or_eq_true, holdsMinute_iff]
  constructor
  · rintro (⟨w, hw⟩ | h)
    · exact ⟨m.date, w, .inl rfl, hw⟩
    · cases hp : prevDate m.date with
      | none => simp [hp] at h
      | some d =>
        rw [hp, Option.elim_some, holdsMinute_iff] at h
        obtain ⟨w, hw⟩ := h
        exact ⟨d, w, .inr rfl, hw⟩
  · rintro ⟨d, w, rfl | hp, hw⟩
    · exact .inl ⟨w, hw⟩
    · rw [hp, Option.elim_some, holdsMinute_iff]
      exact .inr ⟨w, hw⟩

theorem startsAt_iff (c : Content) (m : Moment) : startsAt c m = true ↔ ∃ w, windowOn c m.date = some w ∧ w.1 = m.index := by
  unfold startsAt
  cases windowOn c m.date <;> simp

/-! ### Seasons -/

theorem monthDayOf_day_le {t : BitVec 16} {md : Nat × Nat} (h : monthDayOf t = some md) : md.2 ≤ 31 := by
  unfold monthDayOf at h
  split at h
  · rename_i m d _ _
    split at h
    · cases h
      have := (monthLength_bounds 0 m).2
      omega
    · cases h
  · cases h

/-- The key of a month-day orders by month and then by day. -/
theorem monthDayKey_le_iff {a b : Nat × Nat} (ha : a.2 ≤ 31) (hb : b.2 ≤ 31) :
    monthDayKey a ≤ monthDayKey b ↔ a.1 < b.1 ∨ a.1 = b.1 ∧ a.2 ≤ b.2 := by
  unfold monthDayKey
  omega

/-- A season from its first month-day to its last wraps the year end when the first is the later (R22). -/
theorem inSeason_iff {lo hi md : Nat × Nat} (hlo : lo.2 ≤ 31) (hhi : hi.2 ≤ 31) (hmd : md.2 ≤ 31) : inSeason lo hi md = true ↔
    if lo.1 < hi.1 ∨ lo.1 = hi.1 ∧ lo.2 ≤ hi.2 then
      (lo.1 < md.1 ∨ lo.1 = md.1 ∧ lo.2 ≤ md.2) ∧ (md.1 < hi.1 ∨ md.1 = hi.1 ∧ md.2 ≤ hi.2)
    else (lo.1 < md.1 ∨ lo.1 = md.1 ∧ lo.2 ≤ md.2) ∨ (md.1 < hi.1 ∨ md.1 = hi.1 ∧ md.2 ≤ hi.2) := by
  simp only [inSeason, ← monthDayKey_le_iff hlo hhi, ← monthDayKey_le_iff hlo hmd, ← monthDayKey_le_iff hmd hhi]
  split <;> simp

theorem seasonAdmits_bounds {x : Season} {lo hi : Nat × Nat} (d : Date) (hlo : monthDayOf x.fromDay = some lo) (hhi : monthDayOf x.untilDay = some hi) :
    seasonAdmits (some x) d = some (inSeason lo hi (d.month, d.day)) := by
  simp only [seasonAdmits, hlo, hhi]

theorem validDate_day_le {d : Date} (h : validDate d = true) : d.day ≤ 31 := by
  obtain ⟨-, -, -, -, hd⟩ := (validDate_iff d).mp h
  exact hd.trans (monthLength_bounds _ _).2

theorem common_february {d : Date} (h : validDate d = true) (hl : leap d.year = false) (hm : d.month = 2) : d.day ≤ 28 := by
  obtain ⟨-, -, -, -, hd⟩ := (validDate_iff d).mp h
  rwa [hm, monthLength, if_pos rfl, hl] at hd

/-- Settles O20: the window of a day that the content names, then the order of month-days behind a season. -/
theorem windowsOfAContent : Obligations.WindowsOfAContent := by
  refine ⟨fun c a b d ha hb hne => ⟨fun set admits hk hd hset hs => ?_, fun w e hk hd he => ?_⟩, fun c m => ⟨inside_iff c m, startsAt_iff c m⟩,
    fun _ => rfl, fun x lo hi d hv hlo hhi => ?_, fun d hv hl => ?_, fun y => ⟨rfl, rfl, rfl, rfl⟩⟩
  · rw [windowOn_named (startStop_times ha hb hne) (namesDay_weekly hk hd hset hs)]
    simp only [Bool.and_eq_true]
  · rw [windowOn_named (startStop_times ha hb hne) (namesDay_dated hk hd he)]
    simp only [decide_eq_true_eq]
  · exact ⟨_, seasonAdmits_bounds d hlo hhi, inSeason_iff (monthDayOf_day_le hlo) (monthDayOf_day_le hhi) (validDate_day_le hv)⟩
  · rw [seasonAdmits_bounds (lo := (2, 29)) (hi := (2, 29)) d rfl rfl, Option.some_inj, ← Bool.not_eq_true,
      inSeason_iff (by decide) (by decide) (validDate_day_le hv)]
    have hfeb := common_february hv hl
    simp only [lt_irrefl, le_refl, and_self, or_true, if_true]
    omega

/-! ### The visit that a command makes -/

/-- A boundary pass opens at a window's start, a re-evaluation anywhere inside (R57, R61). -/
def VisitCommand (k : PassKind) (opens : Content → Moment → Bool) (cmd : Instr) : Prop :=
  k = .boundary ∧ opens = startsAt ∧ cmd = .boundaryPass 1 ∨ k = .reevaluation ∧ opens = inside ∧ cmd = .reevaluationPass 1

section

variable {s : State} {k : PassKind} {opens : Content → Moment → Bool} {cmd : Instr} {n : RecNo} {m : Moment} {next : Option Pass}

/-- The command of one visit closes the record when it must, tests it for opening, and goes on to the next record (R53, R57, R61). -/
theorem exec_visit (hk : VisitCommand k opens cmd) (hp : s.evaluator.pass = some ⟨k, n⟩) (hm : s.evaluator.minute = some m)
    (hn : next = (if h : n.val + 1 < 96 then some ⟨k, ⟨n.val + 1, h⟩⟩ else none)) :
    exec cmd s = .next { testArmed opens m n (closeIfOutside m n s) with evaluator := { s.evaluator with pass := next } } := by
  subst hn
  rcases hk with ⟨rfl, rfl, rfl⟩ | ⟨rfl, rfl, rfl⟩
  · exact congrArg Host.Outcome.next (passCommand_one hp hm)
  · exact congrArg Host.Outcome.next (passCommand_one hp hm)

/-- A visit that leaves its record alone moves the pass alone. -/
theorem exec_visit_stands (hk : VisitCommand k opens cmd) (hp : s.evaluator.pass = some ⟨k, n⟩) (hm : s.evaluator.minute = some m)
    (hn : next = (if h : n.val + 1 < 96 then some ⟨k, ⟨n.val + 1, h⟩⟩ else none)) (hc : closeIfOutside m n s = s)
    (ht : testArmed opens m n s = s) : exec cmd s = .next { s with evaluator := { s.evaluator with pass := next } } := by
  rw [exec_visit hk hp hm hn, hc, ht]

/-- A visit of a record that stands in a window, and whose content holds the minute, leaves it alone. -/
theorem exec_visit_inside {c : Content} (hk : VisitCommand k opens cmd) (hp : s.evaluator.pass = some ⟨k, n⟩) (hm : s.evaluator.minute = some m)
    (hn : next = (if h : n.val + 1 < 96 then some ⟨k, ⟨n.val + 1, h⟩⟩ else none)) (hs : (s.record n).state.standing = true)
    (hc : (s.record n).content = some c) (hi : inside c m = true) :
    exec cmd s = .next { s with evaluator := { s.evaluator with pass := next } } :=
  exec_visit_stands hk hp hm hn (closeIfOutside_stays (.inr ⟨c, hc, hi⟩)) (testArmed_other fun ha => by simp [ha, RecState.standing] at hs)

end

/-- Settles O22: an ARMED or passed-over record is not closed, and the test for opening opens it, spends it or leaves it. -/
theorem aPassOpensAnArmedRecord : Obligations.APassOpensAnArmedRecord := by
  intro s k opens cmd n m next hk hp hm hn
  have hv := exec_visit hk hp hm hn
  refine ⟨fun c ha hc => ?_, fun ho => ?_⟩
  · have hstay : closeIfOutside m n s = s := closeIfOutside_stays (.inl (by rw [ha]; rfl))
    have hstands := exec_visit_stands hk hp hm hn hstay
    rw [hstay] at hv
    rw [testArmed_armed ha hc] at hv hstands
    refine ⟨fun hi => ?_, fun hi hw => ?_, fun b d w hi hd hday hb hw => ⟨fun hlt => ?_, fun hle => ?_⟩⟩
    · rw [if_pos hi] at hv
      exact ⟨openRecord n s, openRecord_opens ha hc, hv⟩
    · exact hstands (by simp [hi, datedOver_weekly hw])
    · exact hstands (by simp [hi, datedOver_dated hd hday hb hw, hlt])
    · rw [if_neg (by simp [hi]), if_pos (by simpa [datedOver_dated hd hday hb hw] using hle)] at hv
      refine ⟨_, hv, ?_, fun hpow => spendRecord_notices hpow n⟩
      rw [spendRecord_eq]
  · refine exec_visit_stands hk hp hm hn (closeIfOutside_stays (.inl ?_)) (testArmed_other ?_)
    · rcases ho with ho | ho | ho | ho <;> rw [ho] <;> rfl
    · rcases ho with ho | ho | ho | ho <;> rw [ho] <;> decide

/-! ### A record that stands in a window -/

/-- The record with any draft applied, as the statements write it (R25). -/
theorem applyDraft_eq {r x : Record} (h : x = (match r.draft with
    | none => r
    | some d => Record.sealed { r with content := some d, draft := none })) : x = r.applyDraft := h

/-- What the test for opening leaves of a record just closed (R57, R58). -/
theorem testArmed_opens {opens : Content → Moment → Bool} {m : Moment} {n : RecNo} {w : State} {r : Record} {e : Content}
    (hr : w.record n = { r with state := if contentDated e then .spent else .armed }) (he : r.content = some e) :
    (contentDated e = true ∨ opens e m = false → testArmed opens m n w = w)
    ∧ (contentDated e = false → opens e m = true → Opens n e w (testArmed opens m n w)) := by
  rw [testArmed_closed hr he]
  refine ⟨fun h => if_neg ?_, fun hd ho => ?_⟩
  · rintro ⟨hd, ho⟩
    simp [hd, ho] at h
  · rw [if_pos ⟨hd, ho⟩]
    exact openRecord_opens (by rw [hr, hd]; rfl) (by rw [hr]; exact he)

/-- With nobody waiting, an OPEN record that leaves its window withdraws its claims and no more (R84). -/
theorem Leaves.opened_nobody {n : RecNo} {s v : State} (h : Leaves n s v) (ho : (s.record n).state = .opened) (hw : s.waiting = []) :
    v.waiting = [] ∧ (∀ j, v.record j = s.record j) ∧ ∀ ch, v.claimList ch = (s.claimList ch).filter fun cl => cl.source != .record n := by
  obtain ⟨-, -, -, hopen, -⟩ := h
  obtain ⟨hwait, hclaims, hrecs⟩ := (hopen ho).1.nobody hw
  refine ⟨hwait, hrecs, fun ch => ?_⟩
  rw [State.claimList, hclaims, nth_tabulate]

/-- A WAITING record that is alone on the list leaves it empty (R89). -/
theorem Leaves.waiting_alone {n : RecNo} {s v : State} (h : Leaves n s v) (hst : (s.record n).state = .waiting) (hw : s.waiting = [n]) :
    v.waiting = [] ∧ (∀ j, v.record j = s.record j) ∧ v.claims = s.claims := by
  obtain ⟨-, -, -, -, hwaiting⟩ := h
  obtain ⟨hwait, hclaims, hrecs⟩ := ((hwaiting hst).1 [] hw).1.nobody rfl
  exact ⟨hwait, hrecs, hclaims⟩

/-- Settles O23: an OPEN record stands inside its window, else it is closed (`closeRecord_opened`) and tested for opening. -/
theorem aBoundaryClosesAnOpenRecord : Obligations.ABoundaryClosesAnOpenRecord := by
  intro s k opens cmd n m next c hk hp hm hn ho hc
  have hstand : (s.record n).state.standing = true := by rw [ho]; rfl
  refine ⟨exec_visit_inside hk hp hm hn hstand hc, fun e r hi hnodup hnot hr he => ?_⟩
  obtain rfl := applyDraft_eq hr
  have hlisted : Listed n s := ⟨fun _ => hnodup, fun _ => ⟨hnodup, hnot⟩⟩
  have hleaves := leaveWindow_leaves hlisted
  have hv := exec_visit hk hp hm hn
  rw [closeIfOutside_closes hstand hc hi, closeRecord_opened hlisted ho he] at hv
  generalize leaveWindow n s = v at hleaves hv
  obtain ⟨hleft, hopens⟩ := testArmed_opens (opens := opens) (m := m) (w := v.setRecord n _) (nth_upd_same _ _ _) he
  refine ⟨v, _, _, hleaves, rfl, hv, hleft, hopens, fun hw => ?_⟩
  obtain ⟨hwait, hrecs, hclaims⟩ := hleaves.opened_nobody ho hw
  exact ⟨hwait, fun j hj => (nth_upd_other _ _ hj).trans (hrecs j), hclaims⟩

/-- Settles O24: a WAITING record stands inside its window, else it is closed with MISSED_WINDOW (`closeRecord_waiting`) and tested for opening. -/
theorem aMissedWindowLeavesTheWaitingList : Obligations.AMissedWindowLeavesTheWaitingList := by
  intro s k opens cmd n m next c hk hp hm hn hst hc
  have hstand : (s.record n).state.standing = true := by rw [hst]; rfl
  refine ⟨exec_visit_inside hk hp hm hn hstand hc, fun e r hi hnodup hpow hr he => ?_⟩
  obtain rfl := applyDraft_eq hr
  have hlisted : Listed n s := ⟨fun hh => hnodup.resolve_right (not_not_intro hh), fun ho => by simp [hst] at ho⟩
  have hleaves := leaveWindow_leaves hlisted
  have hpower : (leaveWindow n s).mainPower = true := (leaveWindow_frame n s).mainPower.trans hpow
  have hmissed : (leaveWindow n s).notice .missedWindow = s.notice .missedWindow := leaveWindow_quiet n s _ (by decide)
  have hv := exec_visit hk hp hm hn
  rw [closeIfOutside_closes hstand hc hi, closeRecord_waiting hlisted hst he, State.raise_powered _ _ _ hpower, hmissed] at hv
  generalize leaveWindow n s = v at hleaves hv
  obtain ⟨hleft, hopens⟩ := testArmed_opens (opens := opens) (m := m)
    (w := State.setRecord { v with notices := upd v.notices 1 ((s.notice .missedWindow).raised n.val) } n _) (nth_upd_same _ _ _) he
  refine ⟨v, _, _, hleaves, rfl, hv, hleft, hopens, fun hw => ?_, fun hh => ?_⟩
  · obtain ⟨hwait, hrecs, hclaims⟩ := hleaves.waiting_alone hst hw
    exact ⟨hwait, fun j hj => (nth_upd_other _ _ hj).trans (hrecs j), hclaims⟩
  · obtain ⟨-, -, -, -, hwaiting⟩ := hleaves
    obtain rfl := (hwaiting hst).2 hh
    exact ⟨rfl, fun j hj => nth_upd_other _ _ hj, rfl⟩

end Sys2Proof.Machine
end

section
/-!
PROOFS. The commands on one schedule record (R28 to R43): RWRT, RGET, RDRP, RSUS, RRES, RFRE, RCLR and RPRT, each from what its operation does
with the record once the line has passed its checks.
-/

namespace Sys2Proof.Machine

/-! ### A line that is accepted -/

/-- A line whose body accepts it: the body's state, with the response on the port (R173, R177). -/
theorem carryOut_accepted {word : Text} {fields : List Text} {body : State → Reply} {s t : State} {out : List Text}
    (h : lineTaken word fields s = true) (hf : ∀ u, PortFrame u (body u).state) (hb : body (begun word fields s) = accept out t) :
    carryOut word fields body s = { t with port := answered s.port .ok out } := by
  rw [carryOut_taken h (hf _).1, hb]
  rfl

/-- A record command finds its record, which no freeze locks. -/
theorem onRecord_unlocked {g : Bool} {word f : Text} {act : RecNo → State → Reply} {s : State} {n : RecNo} (hn : recordNumber f = some n)
    (hl : lockedRecord n s = false) : onRecord g [f] act (begun word [f] s) = act n (begun word [f] s) := by
  rw [onRecord_reads hn, show lockedRecord n (begun word [f] s) = false from hl, Bool.and_false]
  rfl

/-- A record command that R43 guards finds its record locked. -/
theorem carryOut_locked {word f : Text} {act : RecNo → State → Reply} {s : State} {n : RecNo} (h : lineTaken word [f] s = true)
    (hn : recordNumber f = some n) (hl : lockedRecord n s = true) :
    carryOut word [f] (onRecord true [f] act) s = refusedWith .frozen s := by
  refine carryOut_refused h ?_
  rw [onRecord_reads hn, show lockedRecord n (begun word [f] s) = true from hl]
  rfl

theorem bodyRprt_reads {f v : Text} {n : RecNo} {p : Nat} (hn : recordNumber f = some n) (hv : number 1 v = some p) (u : State) :
    bodyRprt [f, v] u = if lockedRecord n u then refuse .frozen u else protect n (p == 1) u := by
  unfold bodyRprt
  rw [strict_bad_two (recordNumber_allHex hn) (number_allHex hv)]
  simp only [hn, hv, Bool.false_eq_true, if_false]

theorem bodyRwrt_reads {s : State} {fields : List Text} {n : RecNo} {c : Content} {now : Bool} (h : lineTaken (text "RWRT") fields s = true)
    (hline : RwrtLine fields n c now) (u : State) :
    bodyRwrt fields u = if lockedRecord n u then refuse .frozen u else writeRecord n c now u := by
  obtain ⟨-, -, hreads⟩ := bodyRwrt_cases (lineTaken_fields h rfl) u
  exact hreads n c now hline

/-- Settles O27: the lock is tested once the line's values have been read, before the record's state is looked at. -/
theorem protectedRecordsAreFrozen : Obligations.ProtectedRecordsAreFrozen := by
  intro s n f hmask hprot hn
  have hl : lockedRecord n s = true := by rw [lockedRecord, State.freezeInEffect, bne_iff_ne.mpr hmask, hprot]; rfl
  refine ⟨fun h => ?_, fun h => ?_, fun h => ?_, fun h => ?_, fun h => ?_, fun v p hv h => ?_, fun fields c now hline h => ?_⟩
  · exact congrArg Host.Outcome.next (carryOut_locked h hn hl)
  · exact congrArg Host.Outcome.next (carryOut_locked h hn hl)
  · exact congrArg Host.Outcome.next (carryOut_locked h hn hl)
  · exact congrArg Host.Outcome.next (carryOut_locked h hn hl)
  · exact congrArg Host.Outcome.next (carryOut_locked h hn hl)
  · exact congrArg Host.Outcome.next (carryOut_refused h ((bodyRprt_reads hn hv _).trans (if_pos hl)))
  · exact congrArg Host.Outcome.next (carryOut_refused h ((bodyRwrt_reads h hline _).trans (if_pos hl)))

/-! ### RDRP, RCLR, RPRT -/

theorem dropDraft_absent {n : RecNo} (u : State) (h : (u.record n).draft = none) : dropDraft n u = refuse .wrongState u := by
  unfold dropDraft
  rw [h]
  rfl

theorem dropDraft_present {n : RecNo} (u : State) (h : (u.record n).draft ≠ none) : dropDraft n u =
    accept [digit (u.record n).state.code] (u.setRecord n (Record.sealed { u.record n with draft := none })) := by
  have hd : (u.record n).dropDraft = Record.sealed { u.record n with draft := none } := by
    unfold Record.dropDraft
    split
    · exact absurd ‹_› h
    · rfl
  unfold dropDraft stateField
  dsimp only
  rw [if_pos (Option.isSome_iff_ne_none.mpr h), hd, record_setRecord, if_pos rfl]
  rfl

/-- Settles O31: each command's one change of the record. -/
theorem rdrpRclrRprtChangeTheirFields : Obligations.RdrpRclrRprtChangeTheirFields := by
  intro s f n hn hl
  refine ⟨fun h => ⟨fun hd => ?_, fun hd => ?_⟩, fun h => ?_, fun v p hv h => ⟨fun hfree => ?_, fun hfree => ?_⟩⟩
  · exact congrArg Host.Outcome.next (carryOut_refused h ((onRecord_unlocked hn hl).trans (dropDraft_absent (begun _ _ s) hd)))
  · exact congrArg Host.Outcome.next
      (carryOut_accepted h (bodyRdrp_frame _) ((onRecord_unlocked hn hl).trans (dropDraft_present (begun _ _ s) hd)))
  · exact congrArg Host.Outcome.next (carryOut_accepted h (bodyRclr_frame _) (onRecord_unlocked hn hl))
  · exact congrArg Host.Outcome.next
      (carryOut_refused h ((bodyRprt_reads hn hv _).trans ((if_neg (ne_true_of_eq_false hl)).trans (if_pos hfree))))
  · exact congrArg Host.Outcome.next
      (carryOut_accepted h (bodyRprt_frame _) ((bodyRprt_reads hn hv _).trans ((if_neg (ne_true_of_eq_false hl)).trans (if_neg hfree))))

/-! ### Leaving a window in a command -/

theorem leaveWindow_resting {n : RecNo} {s : State} (h : (s.record n).state.standing = false) : leaveWindow n s = s := by
  unfold leaveWindow
  split
  · rename_i ho
    simp [ho, RecState.standing] at h
  · rename_i hw
    simp [hw, RecState.standing] at h
  · rfl

theorem TableFrame.freezeMask {s t : State} (h : TableFrame s t) : t.freezeMask = s.freezeMask := by
  obtain ⟨_, _, _, _, _, _, _, _, rfl⟩ := h
  rfl

theorem standing_iff (st : RecState) : st.standing = true ↔ st = .opened ∨ st = .waiting := by
  cases st <;> simp [RecState.standing]

/-- A service from the part with a line in execution is one from the part before the line. -/
theorem Served.of_begun {word : Text} {fields : List Text} {s v : State} {cl : Vector (List Claim) 24} {wa : List RecNo}
    (h : Served { begun word fields s with claims := cl, waiting := wa } v) : Served { s with claims := cl, waiting := wa } v :=
  h.congr rfl rfl rfl rfl rfl rfl rfl rfl rfl

/-- A grant puts no claim on a list but the granted record's (R81). -/
theorem mem_of_placeRecord {n : RecNo} {s : State} {cl : Claim} {ch : Chan} (h : cl ∈ (placeRecord n s).claimList ch)
    (hn : cl.source ≠ .record n) : cl ∈ s.claimList ch := by
  have keep : ∀ (q : Request) (l : List (Chan × BitVec 8)) (u : State), q.source = .record n →
      cl ∈ (l.foldl (placeOne q) u).claimList ch → cl ∈ u.claimList ch := by
    intro q l
    induction l with
    | nil => exact fun _ _ h => h
    | cons x l ih =>
      intro u hq hu
      have hu := ih _ hq hu
      rw [placeOne_claimList] at hu
      split at hu
      · subst_vars
        rcases mem_insertClaim.mp hu with rfl | hu
        · exact absurd hq hn
        · exact (List.mem_filter.mp hu).1
      · exact hu
  unfold placeRecord at h
  split at h
  · exact h
  · exact keep _ _ _ rfl h

theorem mem_of_foldl_placeRecord {cl : Claim} {ch : Chan} (l : List RecNo) {s : State}
    (h : cl ∈ (l.foldl (fun u n => placeRecord n u) s).claimList ch) (hn : ∀ n ∈ l, cl.source ≠ .record n) : cl ∈ s.claimList ch := by
  induction l generalizing s with
  | nil => exact h
  | cons n l ih => exact mem_of_placeRecord (ih h fun m hm => hn m (by simp [hm])) (hn n (by simp))

/-- A service gives a record that does not wait no claim (R90). -/
theorem Served.no_claim {s v : State} {n : RecNo} (h : Served s v) (hn : n ∉ s.waiting)
    (hs : ∀ ch, ∀ cl ∈ s.claimList ch, cl.source ≠ .record n) (ch : Chan) : ∀ cl ∈ v.claimList ch, cl.source ≠ .record n := by
  obtain ⟨k, -, hclaims, -⟩ := h
  intro cl hcl e
  rw [State.claimList, hclaims] at hcl
  refine hs ch cl (mem_of_foldl_placeRecord (ch := ch) _ hcl fun j hj ej => ?_) e
  obtain rfl : n = j := by simpa using e.symm.trans ej
  exact hn (List.mem_of_mem_take (List.mem_of_mem_filter hj))

/-! ### RSUS -/

theorem suspend_accepted {n : RecNo} (u : State) (h : (u.record n).state = .armed ∨ (u.record n).state.standing = true) :
    suspend n u = accept [text "4"]
      ((leaveWindow n u).setRecord n { ((leaveWindow n u).record n).applyDraft with state := .suspended }) := by
  unfold suspend stateField suspendRecord
  dsimp only
  rw [if_pos h, record_setRecord, if_pos rfl]
  rfl

theorem suspend_refused {n : RecNo} (u : State) (h : (u.record n).state ≠ .armed) (hs : (u.record n).state.standing = false) :
    suspend n u = refuse .wrongState u := by
  unfold suspend
  exact if_neg (by simp [h, hs])

/-- RSUS of an OPEN or WAITING record: it leaves its window, with its draft applied (R37). -/
theorem exec_rsus_standing {s : State} {f : Text} {n : RecNo} (h : lineTaken (text "RSUS") [f] s = true) (hn : recordNumber f = some n)
    (hl : lockedRecord n s = false) (hs : (s.record n).state.standing = true) (hlisted : Listed n s) :
    ∃ v, Leaves n (begun (text "RSUS") [f] s) v ∧ exec (.rsus [f]) s = .next { v with
      records := upd v.records n { (s.record n).applyDraft with state := .suspended }
      port := answered s.port .ok [text "4"] } := by
  have hleaves := leaveWindow_leaves (n := n) (s := begun (text "RSUS") [f] s) hlisted
  have hr : (leaveWindow n (begun (text "RSUS") [f] s)).record n = s.record n := leaveWindow_record (s := begun (text "RSUS") [f] s) hlisted
  have hb : bodyRsus [f] (begun (text "RSUS") [f] s) = _ := (onRecord_unlocked hn hl).trans (suspend_accepted (begun _ _ s) (.inr hs))
  rw [hr] at hb
  exact ⟨_, hleaves, congrArg Host.Outcome.next (carryOut_accepted h (bodyRsus_frame _) hb)⟩

/-- Settles O29: RSUS by the state of the record; what the others see of it is in `Leaves`. -/
theorem rsusSuspendsTheRecord : Obligations.RsusSuspendsTheRecord := by
  intro s f n h hn hl
  refine ⟨fun ha hd => ?_, fun ho => ?_, fun hst => ?_, fun hother => ?_⟩
  · have hrest : leaveWindow n (begun (text "RSUS") [f] s) = begun (text "RSUS") [f] s :=
      leaveWindow_resting (by rw [show (begun (text "RSUS") [f] s).record n = s.record n from rfl, ha]; rfl)
    have happly : ((begun (text "RSUS") [f] s).record n).applyDraft = s.record n := by
      rw [show (begun (text "RSUS") [f] s).record n = s.record n from rfl, Record.applyDraft, hd]
    have hb : bodyRsus [f] (begun (text "RSUS") [f] s) = _ := (onRecord_unlocked hn hl).trans (suspend_accepted (begun _ _ s) (.inl ha))
    rw [hrest, happly] at hb
    exact congrArg Host.Outcome.next (carryOut_accepted h (bodyRsus_frame _) hb)
  · have leaves := exec_rsus_standing h hn hl (by rw [ho]; rfl)
    refine ⟨fun hw => ?_, fun hnodup hnot => ?_⟩
    · obtain ⟨v, hv, he⟩ := leaves ⟨fun _ => by simp [hw], fun _ => by simp [hw]⟩
      obtain ⟨hwait, hrecs, hclaims⟩ := hv.opened_nobody ho hw
      exact ⟨_, he, nth_upd_same _ _ _, fun j hj => (nth_upd_other _ _ hj).trans (hrecs j), hclaims, hwait, rfl⟩
    · obtain ⟨v, hv, he⟩ := leaves ⟨fun _ => hnodup, fun _ => ⟨hnodup, hnot⟩⟩
      obtain ⟨-, -, -, hopened, -⟩ := hv
      obtain ⟨hserved, hpresent⟩ := hopened ho
      exact ⟨_, v, hserved.of_begun, he, nth_upd_same _ _ _, fun j hj => nth_upd_other _ _ hj, rfl, rfl, hpresent, rfl⟩
  · have leaves := exec_rsus_standing h hn hl (by rw [hst]; rfl)
    have hnot : (s.record n).state ≠ .opened := by rw [hst]; decide
    refine ⟨fun hw => ?_, fun hh => ?_, fun rest hw hnodup => ?_⟩
    · obtain ⟨v, hv, he⟩ := leaves ⟨fun _ => by simp [hw], fun ho => absurd ho hnot⟩
      obtain ⟨hwait, hrecs, hclaims⟩ := hv.waiting_alone hst hw
      exact ⟨_, he, nth_upd_same _ _ _, fun j hj => (nth_upd_other _ _ hj).trans (hrecs j), hclaims, hwait, rfl⟩
    · obtain ⟨v, hv, he⟩ := leaves ⟨fun hh' => absurd hh' hh, fun ho => absurd ho hnot⟩
      obtain ⟨-, -, -, -, hwaiting⟩ := hv
      obtain rfl := (hwaiting hst).2 hh
      exact ⟨_, he, nth_upd_same _ _ _, fun j hj => nth_upd_other _ _ hj, rfl, rfl, rfl⟩
    · obtain ⟨v, hv, he⟩ := leaves ⟨fun _ => hnodup, fun ho => absurd ho hnot⟩
      obtain ⟨-, -, -, -, hwaiting⟩ := hv
      exact ⟨_, v, ((hwaiting hst).1 rest hw).1.of_begun, he, nth_upd_same _ _ _, fun j hj => nth_upd_other _ _ hj, rfl, rfl, rfl⟩
  · refine congrArg Host.Outcome.next (carryOut_refused h ((onRecord_unlocked hn hl).trans (suspend_refused (begun _ _ s) ?_ ?_)))
    · show (s.record n).state ≠ .armed
      rcases hother with ho | ho | ho | ho <;> rw [ho] <;> decide
    · show (s.record n).state.standing = false
      rcases hother with ho | ho | ho | ho <;> rw [ho] <;> rfl

/-! ### RRES and RFRE -/

/-- No evaluation is made unless the calendar is RUNNING and the evaluation minute present (R68). -/
theorem evaluateRecord_stands {s : State} (n : RecNo) (h : s.calendar.state ≠ .running ∨ s.evaluator.minute = none) : evaluateRecord n s = s := by
  unfold evaluateRecord
  rcases h with h | h
  · split
    · exact if_neg h
    · rfl
  · rw [h]

theorem resume_suspended {n : RecNo} (u : State) (h : (u.record n).state = .suspended) : resume n u =
    accept [digit ((evaluateRecord n (setRecState n .armed u)).record n).state.code] (evaluateRecord n (setRecState n .armed u)) := if_pos h

/-- RFRE of a record that is not FREE: it leaves its window, if it stands in one, and is blank (R40). -/
theorem freeRecord_accepted {n : RecNo} (u : State) (h : (u.record n).state ≠ .free) :
    freeRecord n u = accept [text "0"] ((leaveWindow n u).setRecord n .blank) := by
  unfold freeRecord stateField
  dsimp only
  rw [if_neg h, record_setRecord, if_pos rfl]
  rfl

theorem exec_rfre {s : State} {f : Text} {n : RecNo} (h : lineTaken (text "RFRE") [f] s = true) (hn : recordNumber f = some n)
    (hl : lockedRecord n s = false) (hs : (s.record n).state ≠ .free) :
    exec (.rfre [f]) s = .next { leaveWindow n (begun (text "RFRE") [f] s) with
      records := upd (leaveWindow n (begun (text "RFRE") [f] s)).records n .blank
      port := answered s.port .ok [text "0"] } :=
  congrArg Host.Outcome.next
      (carryOut_accepted h (bodyRfre_frame _) ((onRecord_unlocked hn hl).trans (freeRecord_accepted (begun _ _ s) hs)))

/-- Settles O30: RRES evaluates the record it has made ARMED; RFRE takes it out of its window, as `Leaves` says, and blanks it. -/
theorem rresResumesAndRfreFrees : Obligations.RresResumesAndRfreFrees := by
  intro s f n hn hl
  refine ⟨fun h => ⟨fun hs => ?_, fun hs => ⟨?_, fun hr => ?_⟩⟩, fun h => ⟨fun hs => ?_, fun hs => ?_, fun hs => ?_⟩⟩
  · exact congrArg Host.Outcome.next (carryOut_refused h ((onRecord_unlocked hn hl).trans (if_neg hs)))
  · exact ⟨_, _, rfl, rfl, evaluateRecord_evaluated n _,
      congrArg Host.Outcome.next
      (carryOut_accepted h (bodyRres_frame _) ((onRecord_unlocked hn hl).trans (resume_suspended (begun _ _ s) hs)))⟩
  · have hb : bodyRres [f] (begun (text "RRES") [f] s) = _ := (onRecord_unlocked hn hl).trans (resume_suspended (begun _ _ s) hs)
    rw [evaluateRecord_stands (s := setRecState n .armed (begun (text "RRES") [f] s)) n hr, setRecState, record_setRecord, if_pos rfl] at hb
    exact congrArg Host.Outcome.next (carryOut_accepted h (bodyRres_frame _) hb)
  · exact congrArg Host.Outcome.next (carryOut_refused h ((onRecord_unlocked hn hl).trans (if_pos hs)))
  · have hframe := leaveWindow_frame n (begun (text "RFRE") [f] s)
    have hleaves := leaveWindow_leaves (n := n) (s := begun (text "RFRE") [f] s)
    refine ⟨_, exec_rfre h hn hl hs, nth_upd_same _ _ _, rfl, hframe.calendar, hframe.rules, hframe.channelConfigs, hframe.evaluator,
      hframe.freezeMask, fun ho hnodup hnot => ?_, fun hst => ⟨fun hh => ?_, fun rest hw hnodup => ?_⟩⟩
    · obtain ⟨-, -, -, hopened, -⟩ := hleaves ⟨fun _ => hnodup, fun _ => ⟨hnodup, hnot⟩⟩
      obtain ⟨hserved, hpresent⟩ := hopened ho
      refine ⟨_, hserved.of_begun, fun j hj => nth_upd_other _ _ hj, rfl, rfl, ?_, hpresent⟩
      refine hserved.no_claim hnot fun ch cl hcl => ?_
      rw [State.claimList, nth_tabulate] at hcl
      simpa using (List.mem_filter.mp hcl).2
    · obtain ⟨-, -, -, -, hwaiting⟩ := hleaves ⟨fun hh' => absurd hh' hh, fun ho => absurd (hst.symm.trans ho) (by decide)⟩
      rw [(hwaiting hst).2 hh]
      exact ⟨fun j hj => nth_upd_other _ _ hj, rfl, rfl⟩
    · obtain ⟨-, -, -, -, hwaiting⟩ := hleaves ⟨fun _ => hnodup, fun ho => absurd (hst.symm.trans ho) (by decide)⟩
      exact ⟨_, ((hwaiting hst).1 rest hw).1.of_begun, fun j hj => nth_upd_other _ _ hj, rfl, rfl⟩
  · have hrest : leaveWindow n (begun (text "RFRE") [f] s) = begun (text "RFRE") [f] s := by
      refine leaveWindow_resting ?_
      show (s.record n).state.standing = false
      rcases hs with hs | hs | hs | hs <;> rw [hs] <;> rfl
    have he := exec_rfre h hn hl (by rcases hs with hs | hs | hs | hs <;> rw [hs] <;> decide)
    rwa [hrest] at he

/-! ### RGET -/

theorem ones_eq_length (w n : Nat) : ones w n = ((List.range w).filter fun k => n.testBit k).length := by
  induction w generalizing n with
  | zero => rfl
  | succ w ih =>
    have hsucc : (fun k => n.testBit k) ∘ Nat.succ = fun k => (n / 2).testBit k := funext fun k => Nat.testBit_succ n k
    rw [ones, ih, List.range_succ_eq_map, List.filter_cons, List.filter_map, hsucc, Nat.testBit_zero]
    rcases Nat.mod_two_eq_zero_or_one n with h0 | h0 <;> simp [h0, Nat.add_comm]

/-- R22: days per week. -/
theorem daysText_weekly {c : Content} {set : BitVec 7} (hk : c.kind = 0) (hd : c.day = .days set) :
    daysText c = digit ((List.range 7).filter fun k => set.getLsbD k).length := by
  simp only [daysText, contentDated, hk, if_true, hd, Bool.false_eq_true, if_false, ones_eq_length]
  rfl

theorem daysText_dated {c : Content} (hk : c.kind = 1) : daysText c = text "-" := by
  simp only [daysText, contentDated, hk]
  rfl

theorem getRecord_checked {n : RecNo} (u : State) (h : (u.record n).state ≠ .free) :
    getRecord n u = accept (recordReport n (checkRecord n u)) (checkRecord n u) := if_neg h

theorem recordReport_content {n : RecNo} (u : State) {r : Record} {c : Content} (hr : u.record n = r) (hc : r.content = some c) :
    recordReport n u = recordFields r c := by
  unfold recordReport
  rw [hr, hc]

/-- A check that passes, and one of a QUARANTINED record, change nothing (R158, R161). -/
theorem checkRecord_passed {n : RecNo} (u : State) (h : recordSound (u.record n) = true ∨ (u.record n).state = .quarantined) : checkRecord n u = u := by
  unfold checkRecord
  split
  · rfl
  · rename_i hs
    unfold quarantine
    rw [h.resolve_left hs]

/-- A check that fails takes the record out of its window, if it stands in one, and quarantines it (R161). -/
theorem checkRecord_failed {n : RecNo} (u : State) (hs : recordSound (u.record n) = false) (hf : (u.record n).state ≠ .free)
    (hq : (u.record n).state ≠ .quarantined) : checkRecord n u = markQuarantined n (leaveWindow n u) := by
  unfold checkRecord quarantine leaveWindow
  rw [if_neg (by simp [hs])]
  cases hst : (u.record n).state with
  | free => exact absurd hst hf
  | quarantined => exact absurd hst hq
  | opened => rfl
  | waiting => rfl
  | armed => rfl
  | suspended => rfl
  | spent => rfl

theorem markQuarantined_powered {s : State} (h : s.mainPower = true) (n : RecNo) : markQuarantined n s = { s with
    records := upd s.records n (s.record n).condemned
    notices := upd s.notices 5 ((s.notice .recordFault).raised n.val) } := by
  rw [markQuarantined_eq, markQuarantined_notices h]

/-- What RGET reports of a record its check has just quarantined (R34, R161). -/
theorem recordFields_condemned (r : Record) (c : Content) : recordFields r.condemned c =
    text "6" :: contentText c ++ [flagText r.prot, decText 4 r.count.val, flagText r.wrap, daysText c, text "-"] := rfl

/-- RGET of a record that fails its check: quarantined once it has left its window, then reported (R34, R35). -/
theorem exec_rget_failed {s : State} {f : Text} {n : RecNo} {c : Content} {v : State} (h : lineTaken (text "RGET") [f] s = true)
    (hn : recordNumber f = some n) (hs : recordSound (s.record n) = false) (hf : (s.record n).state ≠ .free)
    (hq : (s.record n).state ≠ .quarantined) (hc : (s.record n).content = some c) (hv : v = leaveWindow n (begun (text "RGET") [f] s))
    (hr : v.record n = s.record n) : exec (.rget [f]) s = .next { v with
      records := upd v.records n (s.record n).condemned
      notices := upd v.notices 5 ((v.notice .recordFault).raised n.val)
      port := answered s.port .ok (text "6" :: contentText c
        ++ [flagText (s.record n).prot, decText 4 (s.record n).count.val, flagText (s.record n).wrap, daysText c, text "-"]) } := by
  have hp : v.mainPower = true := by
    rw [hv]
    exact (leaveWindow_frame n _).mainPower.trans (lineTaken_mainPower (s := s) h)
  have hcheck := checkRecord_failed (n := n) (begun (text "RGET") [f] s) hs hf hq
  rw [← hv, markQuarantined_powered hp, hr] at hcheck
  have hb : bodyRget [f] (begun (text "RGET") [f] s) = _ := (onRecord_reads hn).trans (getRecord_checked (begun _ _ s) hf)
  have hrec : (checkRecord n (begun (text "RGET") [f] s)).record n = (s.record n).condemned := by
    rw [hcheck]
    exact nth_upd_same _ _ _
  rw [recordReport_content _ hrec hc, recordFields_condemned, hcheck] at hb
  exact congrArg Host.Outcome.next (carryOut_accepted h (bodyRget_frame _) hb)

/-- Settles O28: a FREE record, one whose check passes, and one whose check fails, by where it stands. -/
theorem rgetChecksAndReports : Obligations.RgetChecksAndReports := by
  refine ⟨fun c => ⟨fun set => daysText_weekly, daysText_dated⟩, fun s f n h hn =>
    ⟨fun hfree => ?_, fun c hf hs hc => ?_, fun c hst hs hc => ?_, fun c hst hlisted hs hc => ?_⟩⟩
  · have hfield : stateField n (begun (text "RGET") [f] s) = [text "0"] := by
      rw [stateField, show (begun (text "RGET") [f] s).record n = s.record n from rfl, hfree]
      rfl
    have hb : bodyRget [f] (begun (text "RGET") [f] s) = _ := (onRecord_reads hn).trans (if_pos hfree)
    rw [hfield] at hb
    exact congrArg Host.Outcome.next (carryOut_reported h hb)
  · have hb : bodyRget [f] (begun (text "RGET") [f] s) = _ := (onRecord_reads hn).trans (getRecord_checked (begun _ _ s) hf)
    rw [checkRecord_passed (u := begun (text "RGET") [f] s) hs, recordReport_content (begun (text "RGET") [f] s) rfl hc] at hb
    exact congrArg Host.Outcome.next (carryOut_reported h hb)
  · have hrest : begun (text "RGET") [f] s = leaveWindow n (begun (text "RGET") [f] s) := by
      refine (leaveWindow_resting ?_).symm
      show (s.record n).state.standing = false
      rcases hst with hst | hst | hst <;> rw [hst] <;> rfl
    refine ⟨_, exec_rget_failed h hn hs ?_ ?_ hc hrest rfl, rfl, nth_upd_same _ _ _, fun j hj => nth_upd_other _ _ hj, rfl, rfl⟩
    · rcases hst with hst | hst | hst <;> rw [hst] <;> decide
    · rcases hst with hst | hst | hst <;> rw [hst] <;> decide
  · refine ⟨_, leaveWindow_leaves (n := n) (s := begun (text "RGET") [f] s) hlisted,
      exec_rget_failed h hn hs ?_ ?_ hc rfl (leaveWindow_record (s := begun (text "RGET") [f] s) hlisted)⟩
    · rcases hst with hst | hst <;> rw [hst] <;> decide
    · rcases hst with hst | hst <;> rw [hst] <;> decide

/-! ### RWRT -/

theorem written_same {r : Record} {st : RecState} (h : r.state = st) (c : Content) :
    r.written c st = Record.sealed { r with content := some c, draft := none } := by
  subst h
  rfl

theorem writeRecord_suspended {n : RecNo} (u : State) (h : (u.record n).state = .suspended) (c : Content) (now : Bool) : writeRecord n c now u =
    accept [text "4"] (u.setRecord n (Record.sealed { u.record n with content := some c, draft := none })) := by
  unfold writeRecord stateField
  dsimp only
  rw [if_neg (by simp [h, RecState.standing]), if_pos h, record_setRecord, if_pos rfl, written_same h]
  simp only [Record.sealed, h]
  rfl

/-- RWRT on a FREE, ARMED, SPENT or QUARANTINED record (R30). -/
theorem writeRecord_arms {n : RecNo} (u : State) (h : (u.record n).state.standing = false) (hs : (u.record n).state ≠ .suspended) (c : Content)
    (now : Bool) : writeRecord n c now u = accept (stateField n (writeArmed n c u)) (writeArmed n c u) := by
  unfold writeRecord
  dsimp only
  rw [if_neg (by simp [h]), if_neg hs]

/-- RWRT without NOW on an OPEN or WAITING record (R31). -/
theorem writeRecord_drafts {n : RecNo} (u : State) (h : (u.record n).state.standing = true) (hd : (u.record n).draft = none) (c : Content) :
    writeRecord n c false u = accept [digit (u.record n).state.code] (u.setRecord n (Record.sealed { u.record n with draft := some c })) := by
  unfold writeRecord stateField storeDraft
  dsimp only
  rw [if_pos h, hd, record_setRecord, if_pos rfl]
  rfl

theorem writeRecord_draftPresent {n : RecNo} (u : State) (h : (u.record n).state.standing = true) (hd : (u.record n).draft ≠ none) (c : Content) :
    writeRecord n c false u = refuse .draftPresent u := by
  unfold writeRecord
  dsimp only
  rw [if_pos h, if_pos (Option.isSome_iff_ne_none.mpr hd)]
  rfl

/-- RWRT with NOW on an OPEN or WAITING record (R32). -/
theorem writeRecord_now {n : RecNo} (u : State) (h : (u.record n).state.standing = true) (c : Content) : writeRecord n c true u =
    accept (stateField n (writeArmed n c (leaveWindow n u))) (writeArmed n c (leaveWindow n u)) := by
  unfold writeRecord
  dsimp only
  rw [if_pos h, if_pos rfl]

section

variable {s : State} {fields : List Text} {n : RecNo} {c : Content} {now : Bool}

/-- An RWRT line of a record that no freeze locks is what it writes. -/
theorem bodyRwrt_writes (h : lineTaken (text "RWRT") fields s = true) (hline : RwrtLine fields n c now) (hl : lockedRecord n s = false) :
    bodyRwrt fields (begun (text "RWRT") fields s) = writeRecord n c now (begun (text "RWRT") fields s) :=
  (bodyRwrt_reads h hline _).trans (if_neg (ne_true_of_eq_false hl))

theorem exec_rwrt_accepted {out : List Text} {t : State} (h : lineTaken (text "RWRT") fields s = true) (hline : RwrtLine fields n c now)
    (hl : lockedRecord n s = false) (hw : writeRecord n c now (begun (text "RWRT") fields s) = accept out t) :
    exec (.rwrt fields) s = .next { t with port := answered s.port .ok out } :=
  congrArg Host.Outcome.next (carryOut_accepted h (bodyRwrt_frame _) ((bodyRwrt_writes h hline hl).trans hw))

end

/-- Settles O25: the checks of the line (`bodyRwrt_cases`), then the write and its evaluation. -/
theorem rwrtWritesAndEvaluates : Obligations.RwrtWritesAndEvaluates := by
  intro s fields h
  obtain ⟨hbad, hgood, -⟩ := bodyRwrt_cases (lineTaken_fields h rfl) (begun (text "RWRT") fields s)
  refine ⟨fun hb => ?_, fun hb => ⟨fun h11 h12 => ?_, fun hlen hnone => ?_⟩, fun n c now u hline hl hst hu => ?_⟩
  · exact congrArg Host.Outcome.next (carryOut_refused h (hbad hb))
  · exact congrArg Host.Outcome.next (carryOut_refused h ((hgood hb).1 h11 h12))
  · exact congrArg Host.Outcome.next (carryOut_refused h ((hgood hb).2 hlen hnone))
  · refine ⟨_, rfl, evaluateRecord_evaluated n u, ?_, fun hr => ?_⟩
    · subst hu
      refine exec_rwrt_accepted h hline hl (writeRecord_arms (begun _ _ s) ?_ ?_ c now)
      · show (s.record n).state.standing = false
        rcases hst with hst | hst | hst | hst <;> rw [hst] <;> rfl
      · show (s.record n).state ≠ .suspended
        rcases hst with hst | hst | hst | hst <;> rw [hst] <;> decide
    · have he : evaluateRecord n u = u := evaluateRecord_stands n (by rw [hu]; exact hr)
      rw [he, hu, record_setRecord, if_pos rfl]
      exact ⟨rfl, rfl⟩

/-- Settles O26: RWRT by the state of the record and NOW. -/
theorem rwrtReplacesStagesOrLeaves : Obligations.RwrtReplacesStagesOrLeaves := by
  intro s fields n c now h hline hl
  refine ⟨fun hs => ?_, fun hst hnow => ⟨fun hd => ?_, fun hd => ?_⟩, fun hst hnow hlisted => ?_⟩
  · exact exec_rwrt_accepted h hline hl (writeRecord_suspended (begun _ _ s) hs c now)
  · subst hnow
    exact exec_rwrt_accepted h hline hl (writeRecord_drafts (begun _ _ s) ((standing_iff _).mpr hst) hd c)
  · subst hnow
    exact congrArg Host.Outcome.next
      (carryOut_refused h ((bodyRwrt_writes h hline hl).trans (writeRecord_draftPresent (begun _ _ s) ((standing_iff _).mpr hst) hd c)))
  · subst hnow
    exact ⟨_, _, _, leaveWindow_leaves (s := begun (text "RWRT") fields s) hlisted, rfl, rfl, evaluateRecord_evaluated n _,
      exec_rwrt_accepted h hline hl (writeRecord_now (begun _ _ s) ((standing_iff _).mpr hst) c)⟩

end Sys2Proof.Machine
end

section
/-!
PROOFS. The queries (R44, R45, R70, R71, R98, R117, R119, R126, R147, R155): what each answers, field by field, and that RNXT's event is the earliest
of those that R71 describes.
-/

namespace Sys2Proof.Machine

/-! ### RFND -/

theorem names_eq (r : Record) : r.names = (r.content.elim [] fun x => toChans x.channels).contains := by
  funext k
  cases hc : r.content with
  | none => simp [Record.names, hc]
  | some c =>
    rw [Bool.eq_iff_iff, names_iff r c hc, Option.elim_some, List.contains_iff_mem]

/-- Table 2-2: the state codes are the places of the states in its order. -/
theorem stateCode_eq (st : RecState) (j : Nat) :
    ([RecState.free, .armed, .opened, .waiting, .suspended, .spent, .quarantined][j]? == some st) = (st.code == j) := by
  match j with
  | 0 | 1 | 2 | 3 | 4 | 5 | 6 => cases st <;> rfl
  | j + 7 => cases st <;> simp [RecState.code]

theorem option_elim_true {α : Type} (o : Option α) (p : α → Bool) : o.elim true p = o.all p := by cases o <;> rfl

/-- The records that match a search (R44). -/
theorem findRecords_eq (ch : Option Chan) (code : Option Nat) (start : RecNo) (s : State) : findRecords ch code start s =
    (List.finRange 96).filter fun n => decide (start ≤ n)
      && (ch.all fun k => ((s.record n).content.elim [] fun x => toChans x.channels).contains k)
      && (code.all fun j => [RecState.free, .armed, .opened, .waiting, .suspended, .spent, .quarantined][j]? == some (s.record n).state) := by
  refine List.filter_congr fun n _ => ?_
  simp only [Record.matchesSearch, option_elim_true, names_eq, stateCode_eq, Bool.and_assoc]
  rfl

theorem bodyRfnd_reads {c st f : Text} {ch : Option Chan} {code : Option Nat} {start : RecNo} (hc : orAny channelNumber c = some ch)
    (hst : orAny (number 6) st = some code) (hf : recordNumber f = some start) (u : State) :
    bodyRfnd [c, st, f] u = accept (findFields (findRecords ch code start u)) u := by
  have hb : (DigitRule.dashes none 3).bad [c, st, f] = false := by
    have h0 := fieldOk_hexOrDash (.dashes none 3) (i := 0) (by decide) (orAny_hexOrDash (fun _ => channelNumber_allHex) hc)
    have h1 := fieldOk_hexOrDash (.dashes none 3) (i := 1) (by decide) (orAny_hexOrDash (fun _ => number_allHex) hst)
    have h2 := fieldOk_of_allHex (.dashes none 3) 2 (recordNumber_allHex hf)
    simp [bad_false_iff, h0, h1, h2]
  unfold bodyRfnd
  rw [hb]
  simp only [hc, hst, hf, Bool.false_eq_true, if_false]

/-! ### RNXT -/

/-- The earliest event of a list is one of it, and none is earlier. -/
theorem earliest_least {α : Type} {l : List (Nat × α)} {y : Nat × α} (h : earliest l = some y) : y ∈ l ∧ ∀ z ∈ l, y.1 ≤ z.1 := by
  obtain ⟨l1, l2, rfl, h1, h2⟩ := earliest_some h
  refine ⟨by simp, fun z hz => ?_⟩
  rcases List.mem_append.mp hz with hz | hz
  · exact (h1 z hz).le
  · rcases List.mem_cons.mp hz with rfl | hz
    · exact le_rfl
    · exact h2 z hz

/-- A list that holds an event has an earliest one. -/
theorem earliest_of_mem {α : Type} {l : List (Nat × α)} {z : Nat × α} (hz : z ∈ l) : ∃ y, earliest l = some y ∧ y.1 ≤ z.1 := by
  cases h : earliest l with
  | none => simp [earliest_none h] at hz
  | some y => exact ⟨y, rfl, (earliest_least h).2 z hz⟩

/-- The earliest event of one record, when it takes part for the channel asked for (R71). -/
def recordNext (s : State) (ch : Option Chan) (n : RecNo) : Option (Nat × RecNo × Bool) :=
  if (s.record n).state.planned && ch.elim true (s.record n).names then
    (earliest (recordEvents (s.record n) s.calendar.now)).map fun e => (e.1, n, e.2)
  else none

theorem nextEvent_eq (s : State) (ch : Option Chan) : nextEvent s ch = earliest ((List.finRange 96).filterMap (recordNext s ch)) := rfl

/-- The record numbers of the events that RNXT chooses among ascend. -/
theorem recordNext_ascending (s : State) (ch : Option Chan) : ((List.finRange 96).filterMap (recordNext s ch)).Pairwise fun x y => x.2.1 < y.2.1 := by
  have hnum : ∀ {n x}, recordNext s ch n = some x → x.2.1 = n := fun {n x} h => by
    unfold recordNext at h
    split at h
    · obtain ⟨e, -, rfl⟩ := Option.map_eq_some_iff.mp h
      rfl
    · cases h
  refine List.pairwise_filterMap.mpr ((List.pairwise_lt_finRange 96).imp fun hlt x hx y hy => ?_)
  rw [hnum hx, hnum hy]
  exact hlt

theorem planned_iff (st : RecState) : st.planned = true ↔ st = .armed ∨ st = .opened ∨ st = .waiting := by
  cases st <;> simp [RecState.planned]

section

variable {s : State} {ch : Option Chan}

/-- The planned events of a record that is in range are the events of the span that it takes part with (R71). -/
theorem plannedEvent_iff (hI : CalendarInv s)
    (hr : ∀ n c, (s.record n).state = .armed ∨ (s.record n).state = .opened ∨ (s.record n).state = .waiting → (s.record n).content = some c →
      contentInRange c = true) (n : RecNo) (minute : Nat) (isOpen : Bool) :
    PlannedEvent s ch n minute isOpen ↔ ((s.record n).state.planned && ch.elim true (s.record n).names) = true
      ∧ (minute, isOpen) ∈ recordEvents (s.record n) s.calendar.now := by
  have hnames : ∀ {c}, (s.record n).content = some c → (ch.elim true (s.record n).names = true ↔ ∀ k, ch = some k → k ∈ toChans c.channels) :=
    fun {c} hc => by
      cases ch with
      | none => simp
      | some k => simp [names_iff _ c hc]
  rw [Bool.and_eq_true]
  constructor
  · rintro ⟨c, d, w, hc, hst, hch, hrest⟩
    have hp := (planned_iff _).mpr hst
    exact ⟨⟨hp, (hnames hc).mpr hch⟩, (mem_recordEvents hI hc (hr n c hst hc) hp minute isOpen).mpr ⟨c, d, w, hc, hst, nofun, hrest⟩⟩
  · rintro ⟨⟨hp, hn⟩, hm⟩
    cases hc : (s.record n).content with
    | none => simp [recordEvents, hc] at hm
    | some c =>
      have hst := (planned_iff _).mp hp
      obtain ⟨c', d, w, hc', -, -, hrest⟩ := (mem_recordEvents hI hc (hr n c hst hc) hp minute isOpen).mp hm
      cases hc.symm.trans hc'
      exact ⟨c, d, w, hc, hst, (hnames hc).mp hn, hrest⟩

/-- Each planned event of a record stands behind the record's own earliest. -/
theorem recordNext_of_planned {n : RecNo} {e : Nat × Bool} (hp : ((s.record n).state.planned && ch.elim true (s.record n).names) = true)
    (he : e ∈ recordEvents (s.record n) s.calendar.now) :
    ∃ first b, first ≤ e.1 ∧ (first, n, b) ∈ (List.finRange 96).filterMap (recordNext s ch) := by
  obtain ⟨y, hy, hle⟩ := earliest_of_mem he
  refine ⟨y.1, y.2, hle, List.mem_filterMap.mpr ⟨n, List.mem_finRange n, ?_⟩⟩
  rw [recordNext, if_pos hp, hy]
  rfl

/-- RNXT's event is an event of its record. -/
theorem nextEvent_planned {minute : Nat} {n : RecNo} {b : Bool} (h : nextEvent s ch = some (minute, n, b)) :
    ((s.record n).state.planned && ch.elim true (s.record n).names) = true ∧ (minute, b) ∈ recordEvents (s.record n) s.calendar.now := by
  rw [nextEvent_eq] at h
  obtain ⟨j, -, hj⟩ := List.mem_filterMap.mp (earliest_least h).1
  unfold recordNext at hj
  split at hj
  · rename_i hp
    obtain ⟨e, he, hx⟩ := Option.map_eq_some_iff.mp hj
    cases hx
    exact ⟨hp, (earliest_least he).1⟩
  · cases hj

/-- RNXT's event comes before every event of the records it asks, or with it and has the lowest number (R71). -/
theorem nextEvent_first {minute : Nat} {n : RecNo} {b : Bool} (h : nextEvent s ch = some (minute, n, b)) {j : RecNo} {first : Nat} {b' : Bool}
    (hj : (first, j, b') ∈ (List.finRange 96).filterMap (recordNext s ch)) : minute < first ∨ minute = first ∧ n ≤ j := by
  rw [nextEvent_eq] at h
  obtain ⟨l1, l2, hl, hbefore, hafter⟩ := earliest_some h
  have hasc := recordNext_ascending s ch
  rw [hl] at hj hasc
  rcases List.mem_append.mp hj with hj | hj
  · exact .inl (hbefore _ hj)
  · rcases List.mem_cons.mp hj with hj | hj
    · cases hj
      exact .inr ⟨rfl, le_rfl⟩
    · obtain ⟨-, hasc, -⟩ := List.pairwise_append.mp hasc
      have hlt : n < j := (List.pairwise_cons.mp hasc).1 _ hj
      have hle : minute ≤ first := hafter _ hj
      exact hle.lt_or_eq.imp id fun he => ⟨he, hlt.le⟩

end

/-- The fields of RNXT's event: the date of its day, its time, the record, and whether it is an opening (R70). -/
theorem nextFields_event {s : State} {ch : Option Chan} {minute : Nat} {n : RecNo} {isOpen : Bool} {d : Date} (hI : CalendarInv s)
    (h : nextEvent s ch = some (minute, n, isOpen)) (hd : validDate d = true) (hday : dayIndex d = minute / 1440) :
    nextFields s.calendar.date (some (minute, n, isOpen)) =
      [decText 2 d.day ++ (decText 2 d.month ++ decText 2 d.year), decText 2 (minute % 1440 / 60) ++ decText 2 (minute % 60), hexText 2 n.val,
        shownFlag isOpen] := by
  obtain ⟨hv, hh, hm, -⟩ := hI
  have hspan := nextEvent_span h
  have hnow : s.calendar.now.index = dayIndex s.calendar.date * 1440 + s.calendar.hours * 60 + s.calendar.minutes := rfl
  have hdate : spanDate s.calendar.date minute = some d := spanDate_eq hv hd hday (by omega) (by omega)
  simp only [nextFields, hdate, orDash, dateText, List.append_assoc, timeText, hex2, flagText_eq]

theorem bodyRnxt_reads {f : Text} {ch : Option Chan} (hf : orAny channelNumber f = some ch) (u : State) : bodyRnxt [f] u =
    if u.calendar.state = .running then accept (nextFields u.calendar.date (nextEvent u ch)) u else refuse .clockNotSet u := by
  have hb : (DigitRule.dashes none 1).bad [f] = false := by
    have h0 := fieldOk_hexOrDash (.dashes none 1) (i := 0) (by decide) (orAny_hexOrDash (fun _ => channelNumber_allHex) hf)
    simp [bad_false_iff, h0]
  unfold bodyRnxt
  rw [hb]
  simp only [hf, Bool.false_eq_true, if_false]

/-! ### CLST -/

theorem claimText_eq (cl : Claim) : claimText cl =
    [hexText 2 (match cl.source with | .record n => n.val | .input i => 0x60 + i.val | .port => 0x70),
      hexText 1 cl.priority.val, hexText 2 cl.level.toNat, shownBlink cl.blink, shownHold cl.hold] := by
  obtain ⟨source, _, _, _, _⟩ := cl
  cases source <;> simp only [claimText, sourceCode, hex2, digit, blinkText_eq, orDash_eq, shownHold]

theorem claimFields_eq (c : Chan) (pos : Nat) (s : State) : claimFields c pos s =
    [hexText 2 (demandOf s c).level.toNat, shownBlink (demandOf s c).blink, hexText 2 (freeCount s), hexText 2 s.waiting.length,
        hexText 2 (s.claimList c).length]
      ++ (((s.claimList c).drop pos).take 12).flatMap claimText
      ++ [if pos + 12 < (s.claimList c).length then hexText 2 (pos + 12) else text "-"] := by
  rw [claimFields, continuation, blinkText_eq]
  rfl

theorem bodyClst_reads {line : List Text} {f : Text} {c : Chan} {pos : Nat} (hf : channelNumber f = some c)
    (hl : line = [f] ∧ pos = 0 ∨ ∃ p, line = [f, p] ∧ twoDigits 0x2F p = some pos) (u : State) :
    bodyClst line u = accept (claimFields c pos u) u := by
  unfold bodyClst
  rcases hl with ⟨rfl, rfl⟩ | ⟨p, rfl, hp⟩
  · rw [strict_bad_one (channelNumber_allHex hf)]
    simp only [hf, Bool.false_eq_true, if_false]
  · rw [strict_bad_two (channelNumber_allHex hf) (twoDigits_allHex hp)]
    simp only [hf, hp, Bool.false_eq_true, if_false]

/-! ### IGET, TRGT -/

theorem InputKind.code_text (k : InputKind) : digit k.code = match k with | .off => text "0" | .push => text "1" | .level => text "2" := by
  cases k <;> rfl

theorem InputState.text_eq (x : InputState) : x.text = match x with
    | .none => Machine.text "-" | .released => Machine.text "0" | .pressed => Machine.text "1" | .longHeld => Machine.text "2"
    | .stuck => Machine.text "3" | .inactive => Machine.text "0" | .active => Machine.text "1" := by
  cases x <;> rfl

theorem bodyIget_reads {f : Text} {i : InputNo} (hf : inputNumber f = some i) (u : State) : bodyIget [f] u = accept (inputFields i u) u := by
  unfold bodyIget
  rw [strict_bad_one (inputNumber_allHex hf)]
  simp only [hf, Bool.false_eq_true, if_false]

theorem bodyTrgt_reads {f : Text} {n : RuleNo} (hf : ruleNumber f = some n) (u : State) : bodyTrgt [f] u = accept (ruleReport n u) u := by
  unfold bodyTrgt
  rw [strict_bad_one (ruleNumber_allHex hf)]
  simp only [hf, Bool.false_eq_true, if_false]

theorem ruleReport_unused {n : RuleNo} {s : State} (h : (s.rule n).state = .unused) : ruleReport n s = [text "0"] := by
  rw [ruleReport, h]
  rfl

theorem ruleReport_used {n : RuleNo} {s : State} {r : RuleFields} (h : (s.rule n).state ≠ .unused) (hr : (s.rule n).fields = some r) :
    ruleReport n s = [if (s.rule n).state = .active then text "1" else text "2", hexText 1 r.input.toNat, hexText 1 r.event.toNat,
      hexText 1 r.action.toNat, shownList r.channels, hexText 1 r.priority.toNat, shownOr (fun l => hexText 2 l.toNat) r.level,
      shownBlink r.blink, shownHold r.hold] := by
  have hcode : digit (s.rule n).state.code = if (s.rule n).state = .active then text "1" else text "2" := by
    cases hst : (s.rule n).state with
    | unused => exact absurd hst h
    | active => rfl
    | faulted => rfl
  rw [ruleReport, if_neg h, hr, hcode]
  simp only [Option.elim_some, ruleText, digit, hex2, channelListText_eq, orDash_eq, blinkText_eq, shownHold]

/-! ### CGET, GGET -/

theorem ChanKind.code_text (k : ChanKind) : digit k.code = match k with | .switched => text "0" | .dimmed => text "1" | .pulsed => text "2" := by
  cases k <;> rfl

theorem PulseState.code_text (p : PulseState) : digit p.code = match p with
    | .unknown => text "0" | .atOff => text "1" | .atOn => text "2" | .pulsing on => if on then text "3" else text "4" := by
  cases p with
  | pulsing on => cases on <;> rfl
  | unknown => rfl
  | atOff => rfl
  | atOn => rfl

/-- The fields of IGET (R119). -/
theorem inputFields_eq (i : InputNo) (s : State) : inputFields i s =
    [match (s.inputConfig i).kind with | .off => text "0" | .push => text "1" | .level => text "2", shownFlag (s.inputConfig i).activeLow,
      shownOr (hexText 2) (s.inputConfig i).debounce, shownOr (hexText 2) (s.inputConfig i).long,
      match (s.input i).state with
        | .none => text "-" | .released => text "0" | .pressed => text "1" | .longHeld => text "2" | .stuck => text "3"
        | .inactive => text "0" | .active => text "1",
      shownOr (hexText 2) (s.input i).heldCount, shownOr shownFlag (s.input i).firstPending,
      if (s.inputConfig i).kind = .off then text "-" else shownFlag (nth s.inputPins i != (s.inputConfig i).activeLow)] := by
  rw [inputFields, InputKind.code_text, InputState.text_eq, flagText_eq, orDash_eq, orDash_eq, orDash_eq, orDash_eq]
  rfl

/-- The fields of CGET (R126). -/
theorem channelFields_eq (c : Chan) (s : State) : channelFields c s =
    [match (s.config c).kind with | .switched => text "0" | .dimmed => text "1" | .pulsed => text "2", hexText 2 (s.config c).rest.toNat,
      hexText 1 (s.config c).drivePriority.val, shownFlag (s.config c).activeLow, hexText 2 (s.config c).pinA.val,
      if (s.config c).kind = .pulsed then shownOr (fun p : Pin => hexText 2 p.val) (s.config c).pinB else text "-",
      hexText 2 (s.config c).pulseLength.toNat, shownFlag (s.freezeMask.getLsbD c.val),
      if (s.channel c).condition = .faulted then text "1" else text "0", if (s.channel c).link = .waiting then text "1" else text "0",
      if (s.config c).kind = .pulsed then text "-"
        else match (s.channel c).drive with | .inactive => text "0" | .active => text "1" | .generator => text "2",
      match (s.channel c).pulse with
        | none => text "-" | some .unknown => text "0" | some .atOff => text "1" | some .atOn => text "2"
        | some (.pulsing on) => if on then text "3" else text "4",
      shownOr shownFlag (s.channel c).pending,
      match (s.channel c).link with | .none => text "-" | .waiting => text "-" | .holding g => hexText 1 g.val,
      decText 4 (s.switch c).count.val, shownFlag (s.switch c).wrap] := by
  have hfault : flagText ((s.channel c).condition == .faulted) = if (s.channel c).condition = .faulted then text "1" else text "0" := by
    cases (s.channel c).condition <;> rfl
  have hdegraded : flagText (degraded s c) = if (s.channel c).link = .waiting then text "1" else text "0" := by
    unfold degraded
    cases (s.channel c).link <;> rfl
  have hdrive : driveText (s.config c).kind (s.channel c).drive = if (s.config c).kind = .pulsed then text "-"
      else match (s.channel c).drive with | .inactive => text "0" | .active => text "1" | .generator => text "2" := by
    unfold driveText
    cases (s.channel c).drive <;> rfl
  have hpulse : orDash (fun p : PulseState => digit p.code) (s.channel c).pulse = match (s.channel c).pulse with
      | none => text "-" | some .unknown => text "0" | some .atOff => text "1" | some .atOn => text "2"
      | some (.pulsing on) => if on then text "3" else text "4" := by
    cases (s.channel c).pulse with
    | none => rfl
    | some p =>
      rw [orDash, PulseState.code_text]
      cases p <;> rfl
  have hlink : linkText (s.channel c).link =
      match (s.channel c).link with | .none => text "-" | .waiting => text "-" | .holding g => hexText 1 g.val := by
    cases (s.channel c).link <;> rfl
  rw [channelFields, configText, ChanKind.code_text, hfault, hdegraded, hdrive, hpulse, hlink, flagText_eq, orDash_eq, orDash_eq]
  rfl

theorem generatorText_eq (g : Generator) : generatorText g = match g with
    | .free => [text "0", text "-", text "-", text "-", text "-", text "-"]
    | .busy r => [if r.releasing then text "2" else text "1", hexText 2 r.channel.val, hexText 2 r.active.duty.toNat,
        shownBlink r.active.blink, shownOr (fun p : Params => hexText 2 p.duty.toNat) r.staged, shownBlink (r.staged.bind Params.blink)] := by
  cases g with
  | free => rfl
  | busy r =>
    obtain ⟨releasing, _, _, _, _, _⟩ := r
    rw [generatorText, blinkText_eq, blinkText_eq, orDash_eq]
    cases releasing <;> rfl

/-- Settles O32: each query reads its line, answers the fields of its table (`…_eq`), and changes nothing. -/
theorem queriesChangeNothing : Obligations.QueriesChangeNothing := by
  intro s
  refine ⟨fun c st f ch code start found hc hst hf h hfound => ?_,
    fun f ch hf h => ⟨fun hr => ?_, fun hr hn => ?_, fun minute n b d hr hI hn hd hday => ?_⟩,
    fun ch hI hr => ⟨fun minute n b hn => ⟨?_, fun j other b' hj => ?_⟩, fun hn j other b hj => ?_⟩, fun line f c pos hf hl h => ?_,
    fun f i k x hf h hk hx => ?_, fun f n hf h => ⟨fun hu => ?_, fun r hu hr => ?_⟩, fun f c k x hf h hk hx => ?_,
    fun h => ⟨waiters s, fun c => mem_waiters, waiters_order s, ?_⟩⟩
  · have hb := bodyRfnd_reads hc hst hf (begun (text "RFND") [c, st, f] s)
    rw [findRecords_eq, findFields, orDash_eq] at hb
    subst hfound
    exact congrArg Host.Outcome.next (carryOut_reported h hb)
  · exact congrArg Host.Outcome.next (carryOut_refused h ((bodyRnxt_reads hf (begun _ _ s)).trans (if_neg hr)))
  · have hb := (bodyRnxt_reads hf (begun (text "RNXT") [f] s)).trans (if_pos hr)
    rw [show nextEvent (begun (text "RNXT") [f] s) ch = none from hn] at hb
    exact congrArg Host.Outcome.next (carryOut_reported h hb)
  · have hb := (bodyRnxt_reads hf (begun (text "RNXT") [f] s)).trans (if_pos hr)
    rw [show nextEvent (begun (text "RNXT") [f] s) ch = some (minute, n, b) from hn,
      show nextFields (begun (text "RNXT") [f] s).calendar.date _ = _ from nextFields_event hI hn hd hday] at hb
    exact congrArg Host.Outcome.next (carryOut_reported h hb)
  · exact (plannedEvent_iff hI hr n minute b).mpr (nextEvent_planned hn)
  · obtain ⟨hp, he⟩ := (plannedEvent_iff hI hr j other b').mp hj
    obtain ⟨first, b'', hle, hmem⟩ := recordNext_of_planned hp he
    rcases nextEvent_first hn hmem with hlt | ⟨rfl, hnum⟩
    · exact .inl (hlt.trans_le hle)
    · exact hle.lt_or_eq.imp id fun heq => ⟨heq, hnum⟩
  · obtain ⟨hp, he⟩ := (plannedEvent_iff hI hr j other b).mp hj
    obtain ⟨first, b', -, hmem⟩ := recordNext_of_planned hp he
    rw [nextEvent_eq] at hn
    rw [earliest_none hn] at hmem
    cases hmem
  · have hb := bodyClst_reads hf hl (begun (text "CLST") line s)
    rw [claimFields_eq, funext claimText_eq] at hb
    exact congrArg Host.Outcome.next (carryOut_reported h hb)
  · subst hk hx
    exact congrArg Host.Outcome.next (carryOut_reported h ((bodyIget_reads hf _).trans (congrArg (accept · _) (inputFields_eq i (begun _ _ s)))))
  · exact congrArg Host.Outcome.next
      (carryOut_reported h ((bodyTrgt_reads hf _).trans (congrArg (accept · _) (ruleReport_unused (s := begun _ _ s) hu))))
  · exact congrArg Host.Outcome.next
      (carryOut_reported h ((bodyTrgt_reads hf _).trans (congrArg (accept · _) (ruleReport_used (s := begun _ _ s) hu hr))))
  · subst hk hx
    exact congrArg Host.Outcome.next
      (carryOut_reported h ((onChannel_reads hf).trans (congrArg (accept · _) (channelFields_eq c (begun _ _ s)))))
  · have hb : bodyGget [] (begun (text "GGET") [] s) = accept (poolFields _) _ := if_pos rfl
    simp only [poolFields, generatorText_eq] at hb
    exact congrArg Host.Outcome.next (carryOut_reported h hb)

end Sys2Proof.Machine
end

section
/-!
PROOFS. The passes (R52, R53): an event taken begins one at record 0, and its visits follow one another (log 6).
-/

namespace Sys2Proof.Machine

/-! ### A pass, from its event to record 95 -/

/-- The command that makes visits of a pass of one kind (R52). -/
def PassCommand (k : PassKind) (cmd : Nat → Instr) : Prop :=
  k = .boundary ∧ cmd = Instr.boundaryPass ∨ k = .reevaluation ∧ cmd = Instr.reevaluationPass

/-- A minute boundary calls for a boundary pass, a time step for a re-evaluation (R52). -/
def OldestEvent (k : PassKind) (m : Moment) (rest : List TimeEvent) (s : State) : Prop :=
  k = .boundary ∧ s.evaluator.pending = .boundary m :: rest ∨ k = .reevaluation ∧ ∃ cause, s.evaluator.pending = .step m cause :: rest

section

variable {s : State} {k : PassKind} {n : RecNo} {m : Moment} {rest : List TimeEvent}

theorem exec_pass {cmd : Nat → Instr} (hk : PassCommand k cmd) (v : Nat) (s : State) :
    exec (cmd v) s = .next (passCommand k v s) := by
  rcases hk with ⟨rfl, rfl⟩ | ⟨rfl, rfl⟩
  · rfl
  · rfl

/-- With no pass in progress the oldest event is taken, and the pass it calls for begins at record 0 (R52). -/
theorem takeEvent_oldest (hp : s.evaluator.pass = none)
    (he : OldestEvent k m rest s) : takeEvent k s = { s with evaluator := ⟨rest, some m, some ⟨k, 0⟩⟩ } := by
  unfold takeEvent
  rcases he with ⟨rfl, he⟩ | ⟨rfl, cause, he⟩
  · rw [hp, he]; rfl
  · rw [hp, he]; rfl

/-- The command that takes an event makes the visits of the pass it begins (R52, R53). -/
theorem passCommand_begins (hp : s.evaluator.pass = none)
    (he : OldestEvent k m rest s) (v : Nat) :
    passCommand k v s = runPass v { s with evaluator := ⟨rest, some m, some ⟨k, 0⟩⟩ } := by
  unfold passCommand
  dsimp only
  rw [takeEvent_oldest hp he, if_pos (by simp [passOf])]

/-- One visit and then `v` more are `v + 1` visits, while the pass goes on (R53; log 6). -/
theorem passCommand_goes_on (hp : s.evaluator.pass = some ⟨k, n⟩)
    (hm : s.evaluator.minute = some m) (h : n.val + 1 < 96) (v : Nat) : passCommand k v (runPass 1 s) = runPass (v + 1) s := by
  have he := runPass_evaluator hp hm 1
  rw [dif_pos h] at he
  exact passCommand_going (by rw [he]) v

/-- The visit of record 95 is the last of its pass (R53). -/
theorem runPass_after_last (hp : s.evaluator.pass = some ⟨k, n⟩)
    (hm : s.evaluator.minute = some m) (h : n.val + 1 = 96) (v : Nat) : runPass (v + 1) s = runPass 1 s := by
  have he := runPass_evaluator hp hm 1
  rw [dif_neg (by omega)] at he
  exact runPass_none (s := runPass 1 s) (by rw [he]) v

end

/-- Settles O21: the event taken begins the pass (`passCommand_begins`), and `runPass_evaluator` says how far its visits carry it. -/
theorem aPassBeginsWithTheOldestEvent : Obligations.APassBeginsWithTheOldestEvent := by
  intro s k cmd hk
  have hexec := exec_pass hk
  refine ⟨fun m rest hp he => ?_, fun n m hp hm v => ?_⟩
  · have hbegins := passCommand_begins hp he
    refine ⟨?_, fun v => ?_, _, hexec 96 s, ?_⟩
    · rw [hexec, hbegins, runPass]
    · rw [hexec, hexec, hbegins, passCommand_going rfl]
    · rw [hbegins, runPass_evaluator rfl rfl, dif_neg (by decide)]
  · refine ⟨runPass 1 s, runPass (v + 1) s, ?_, ?_, fun h => ?_, fun h => runPass_after_last hp hm h v, runPass_evaluator hp hm (v + 1)⟩
    · rw [hexec, passCommand_going hp]
    · rw [hexec, passCommand_going hp]
    · rw [hexec, passCommand_goes_on hp hm h]

end Sys2Proof.Machine
end

section
/-!
PROOFS. What a command can do to the claim lists, the waiting list and the records' states (R73 to R91): it makes them stand, or applies operations
of the claim arbiter and the window evaluator, or resets them. `exec_moves` reads this off every command once; that the queue stands, the pool's
invariant and that of the waiting list are then properties of the operations.
-/

namespace Sys2Proof.Machine

/-! ### What stands, and what moves -/

/-- `t` has the claim lists, the waiting list, the records' states, the evaluator, the main power and the queue of `s`. -/
structure TableStands (s t : State) : Prop where
  claims : t.claims = s.claims
  waiting : t.waiting = s.waiting
  state : ∀ n, (t.record n).state = (s.record n).state
  evaluator : t.evaluator = s.evaluator
  mainPower : t.mainPower = s.mainPower
  pending : t.pending = s.pending

/-- `s` leads to `t` by operations of the arbiter and the evaluator, by a reset, or with the table left standing. -/
inductive TableMoves : State → State → Prop
  | stands {s t : State} (h : TableStands s t) : TableMoves s t
  | trans {s t u : State} (h1 : TableMoves s t) (h2 : TableMoves t u) : TableMoves s u
  | deliver (s : State) (e : TimeEvent) : TableMoves s (s.deliver e)
  | request {q : Request} {s t : State} (h : request q s = some t) : TableMoves s t
  | removal (chans : List Chan) (cond : Claim → Bool) (s : State) : TableMoves s (selectiveRemoval chans cond s)
  | countdown (s : State) : TableMoves s (holdCountdown s)
  | check (n : RecNo) {s : State} (hp : s.mainPower = true) : TableMoves s (checkRecord n s)
  | leave (n : RecNo) (r : Record) {s : State} (hp : s.mainPower = true) (hr : r.state ≠ .waiting) :
      TableMoves s ((leaveWindow n s).setRecord n r)
  | evaluate (n : RecNo) {s : State} (hp : s.mainPower = true) : TableMoves s (evaluateRecord n s)
  | pass (k : PassKind) (v : Nat) (s : State) : TableMoves s (passCommand k v s)
  | lose (s : State) : TableMoves s { clearMain s with mainPower := false }
  | reset (cold : Bool) (v : Nat) {s u : State} (hp : u.mainPower = true) (hq : u.pending = s.pending) : TableMoves s (mainReset cold v u)

/-- The fields of a state that `TableStands` speaks of. -/
def tableParts (s : State) : Vector (List Claim) 24 × List RecNo × Vector Record 96 × Evaluator × Bool × List Instr :=
  (s.claims, s.waiting, s.records, s.evaluator, s.mainPower, s.pending)

theorem TableStands.of_parts {s t : State} (h : tableParts t = tableParts s) : TableStands s t := by
  simp only [tableParts, Prod.mk.injEq] at h
  obtain ⟨hclaims, hwaiting, hrecords, hevaluator, hpower, hpending⟩ := h
  exact ⟨hclaims, hwaiting, fun n => by rw [State.record, hrecords, State.record], hevaluator, hpower, hpending⟩

theorem TableStands.refl (s : State) : TableStands s s := .of_parts rfl

theorem TableStands.trans {s t u : State} (h1 : TableStands s t) (h2 : TableStands t u) : TableStands s u :=
  ⟨h2.claims.trans h1.claims, h2.waiting.trans h1.waiting, fun n => (h2.state n).trans (h1.state n), h2.evaluator.trans h1.evaluator,
    h2.mainPower.trans h1.mainPower, h2.pending.trans h1.pending⟩

theorem TableStands.setRecord {s : State} {n : RecNo} {r : Record} (h : r.state = (s.record n).state) : TableStands s (s.setRecord n r) := by
  refine ⟨rfl, rfl, fun j => ?_, rfl, rfl, rfl⟩
  rw [record_setRecord]
  split
  · subst_vars
    exact h
  · rfl

theorem ChannelFrame.stands {s t : State} (h : ChannelFrame s t) : TableStands s t :=
  ⟨h.claims, h.waiting, fun n => by rw [h.record], h.evaluator, h.mainPower, h.pending⟩

theorem FaultFrame.stands {s t : State} (h : FaultFrame s t) : TableStands s t := by
  obtain ⟨fd, h⟩ := h
  exact TableStands.trans (t := { s with faultsDue := fd }) (.of_parts rfl) h.stands

theorem HeldOnly.stands {s t : State} (h : HeldOnly s t) : TableStands s t := by
  rw [h.1]
  exact .of_parts rfl

theorem raise_stands (s : State) (k : NoticeKind) (j : Nat) : TableStands s (s.raise k j) := (ChannelFrame.raise s k j).stands

theorem TableMoves.refl (s : State) : TableMoves s s := .stands (.refl s)

theorem ChannelFrame.moves {s t : State} (h : ChannelFrame s t) : TableMoves s t := .stands h.stands

/-! ### Lines -/

theorem takeLine_powered {t : Text} {o : Bool} {s s1 : State} (h : takeLine t o s = some s1) : s.mainPower = true := by
  unfold takeLine at h
  split at h
  · rename_i hp
    exact hp.1
  · cases h

/-- A line command moves the table as its body does, which meets the part with main power. -/
theorem carryOut_moves {body : State → Reply} (hb : ∀ u, u.mainPower = true → TableMoves u (body u).state) (word : Text) (fields : List Text)
    (s : State) : TableMoves s (carryOut word fields body s) := by
  unfold carryOut
  split
  · split
    · exact .refl s
    · rename_i s1 h
      have hs1 : TableStands s (endSequence s1) := by
        rw [takeLine_some h]
        exact .of_parts rfl
      have hbody := hb (endSequence s1) (hs1.mainPower.trans (takeLine_powered h))
      exact (TableMoves.stands hs1).trans (hbody.trans (.stands (.of_parts rfl)))
  · exact .refl s

theorem answerLine_stands (l : Text) (o : Bool) (st : Status) (s : State) : TableStands s (answerLine l o st s) := by
  unfold answerLine
  split
  · exact .refl s
  · rename_i s1 h
    rw [takeLine_some h]
    exact .of_parts rfl

theorem runRstr_moves (fields : List Text) (v : Nat) (s : State) : TableMoves s (runRstr fields v s) := by
  unfold runRstr
  split
  · split
    · exact .refl s
    · rename_i s1 h
      have hs1 : TableStands s s1 := by
        rw [takeLine_some h]
        exact .of_parts rfl
      split
      · exact .reset false v (hs1.mainPower.trans (takeLine_powered h)) hs1.pending
      · exact .stands (hs1.trans (.of_parts rfl))
  · exact .refl s

theorem onRecord_moves (g : Bool) (f : List Text) (act : RecNo → State → Reply) (s : State) (h : ∀ n, TableMoves s (act n s).state) :
    TableMoves s (onRecord g f act s).state := by
  unfold onRecord
  split
  · exact .refl s
  · split
    · split
      · exact .refl s
      · split
        · exact .refl s
        · exact h _
    · exact .refl s

theorem onChannel_moves (f : List Text) (act : Chan → State → Reply) (s : State) (h : ∀ c, TableMoves s (act c s).state) :
    TableMoves s (onChannel f act s).state := by
  unfold onChannel
  split
  · exact .refl s
  · split
    · split
      · exact h _
      · exact .refl s
    · exact .refl s

/-! ### The calendar's and the schedule table's commands -/

theorem bodyTset_moves (f : List Text) (s : State) : TableMoves s (bodyTset f s).state := by
  have set : ∀ d m, TableMoves s (setCalendar d m s) := fun d m =>
    TableMoves.trans (t := { s with calendar := s.calendar.set d (m / 60) (m % 60) }) (.stands (.of_parts rfl))
      (.deliver _ _)
  unfold bodyTset
  split
  · exact .refl s
  · split
    · split
      · exact .refl s
      · split
        · exact set _ _
        · exact .refl s
    · exact .refl s

theorem bodyTadj_stands (f : List Text) (s : State) : TableStands s (bodyTadj f s).state := by
  unfold bodyTadj
  repeat' split
  all_goals exact .of_parts rfl

theorem bodyTget_stands (f : List Text) (s : State) : TableStands s (bodyTget f s).state := by
  unfold bodyTget
  split <;> exact .refl s

/-- A record that is neither OPEN nor WAITING takes another state but WAITING, and is evaluated (R30, R38, R68). -/
theorem setAndEvaluate_moves {n : RecNo} {r : Record} {s : State} (hp : s.mainPower = true) (hn : (s.record n).state.standing = false)
    (hr : r.state ≠ .waiting) : TableMoves s (evaluateRecord n (s.setRecord n r)) := by
  have hset := TableMoves.leave n r hp hr
  rw [leaveWindow_resting hn] at hset
  exact hset.trans (.evaluate n hp)

theorem writeRecord_moves (n : RecNo) (c : Content) (now : Bool) {s : State} (hp : s.mainPower = true) :
    TableMoves s (writeRecord n c now s).state := by
  unfold writeRecord
  dsimp only
  split
  · split
    · exact (TableMoves.leave n _ hp (by simp [Record.written, Record.sealed])).trans
        (.evaluate n ((leaveWindow_frame n s).mainPower.trans hp))
    · split
      · exact .refl s
      · exact .stands (.setRecord rfl)
  · rename_i hn
    have hn : (s.record n).state.standing = false := by simpa using hn
    split
    · exact .stands (.setRecord (by simp [Record.written, Record.sealed, *]))
    · exact setAndEvaluate_moves hp hn (by simp [Record.written, Record.sealed])

theorem bodyRwrt_moves (f : List Text) (s : State) (hp : s.mainPower = true) : TableMoves s (bodyRwrt f s).state := by
  unfold bodyRwrt
  split
  · exact .refl s
  · split
    · exact .refl s
    · exact .refl s
    · split
      · exact .refl s
      · exact writeRecord_moves _ _ _ hp

theorem bodyRget_moves (f : List Text) (s : State) (hp : s.mainPower = true) : TableMoves s (bodyRget f s).state := by
  refine onRecord_moves _ _ _ _ fun n => ?_
  unfold getRecord
  split
  · exact .refl s
  · exact .check n hp

theorem dropDraft_state (r : Record) : r.dropDraft.state = r.state := by
  unfold Record.dropDraft
  split <;> rfl

theorem bodyRdrp_moves (f : List Text) (s : State) : TableMoves s (bodyRdrp f s).state := by
  refine onRecord_moves _ _ _ _ fun n => ?_
  unfold dropDraft
  split
  · exact .stands (.setRecord (dropDraft_state _))
  · exact .refl s

theorem bodyRsus_moves (f : List Text) (s : State) (hp : s.mainPower = true) : TableMoves s (bodyRsus f s).state := by
  refine onRecord_moves _ _ _ _ fun n => ?_
  unfold suspend
  split
  · exact .leave n _ hp (by simp)
  · exact .refl s

theorem bodyRres_moves (f : List Text) (s : State) (hp : s.mainPower = true) : TableMoves s (bodyRres f s).state := by
  refine onRecord_moves _ _ _ _ fun n => ?_
  unfold resume
  split
  · rename_i hs
    exact setAndEvaluate_moves hp (by rw [hs]; rfl) (by simp)
  · exact .refl s

theorem bodyRfre_moves (f : List Text) (s : State) (hp : s.mainPower = true) : TableMoves s (bodyRfre f s).state := by
  refine onRecord_moves _ _ _ _ fun n => ?_
  unfold freeRecord
  split
  · exact .refl s
  · exact .leave n _ hp (by simp [Record.blank])

theorem bodyRclr_moves (f : List Text) (s : State) : TableMoves s (bodyRclr f s).state :=
  onRecord_moves _ _ _ _ fun _ => .stands (.setRecord rfl)

theorem bodyRprt_stands (f : List Text) (s : State) : TableStands s (bodyRprt f s).state := by
  unfold bodyRprt
  split
  · exact .refl s
  · split
    · split
      · split
        · exact .refl s
        · unfold protect
          split
          · exact .refl s
          · exact .setRecord rfl
      · exact .refl s
    · exact .refl s

theorem bodyRfnd_stands (f : List Text) (s : State) : TableStands s (bodyRfnd f s).state := by
  unfold bodyRfnd
  repeat' split
  all_goals exact .refl s

theorem bodyRnxt_stands (f : List Text) (s : State) : TableStands s (bodyRnxt f s).state := by
  unfold bodyRnxt
  repeat' split
  all_goals exact .refl s

/-! ### The claim arbiter's and the input monitor's commands -/

theorem portRequest_moves (q : Request) (s : State) : TableMoves s (portRequest q s).state := by
  unfold portRequest
  split
  · exact .request ‹_›
  · exact .refl s

theorem bodyCset_moves (f : List Text) (s : State) : TableMoves s (bodyCset f s).state := by
  unfold bodyCset
  split
  · exact .refl s
  · split
    · split
      · exact portRequest_moves _ s
      · exact .refl s
    · exact .refl s

theorem releaseClaims_moves (m : BitVec 24) (p : Option (Fin 4)) (s : State) : TableMoves s (releaseClaims m p s).state := by
  unfold releaseClaims
  dsimp only [accept]
  exact .removal (chansOf m) (portClaimAt p) s

theorem bodyCrel_moves (f : List Text) (s : State) : TableMoves s (bodyCrel f s).state := by
  unfold bodyCrel
  split
  · exact .refl s
  · split
    · split
      · exact releaseClaims_moves _ _ s
      · exact .refl s
    · exact .refl s

theorem bodyGscl_moves (f : List Text) (s : State) : TableMoves s (bodyGscl f s).state := by
  unfold bodyGscl
  split
  · exact .refl s
  · split
    · split
      · exact portRequest_moves _ s
      · exact .refl s
    · exact .refl s

theorem bodyClst_stands (f : List Text) (s : State) : TableStands s (bodyClst f s).state := by
  unfold bodyClst
  repeat' split
  all_goals exact .refl s

theorem bodyIcfg_stands (f : List Text) (s : State) : TableStands s (bodyIcfg f s).state := by
  unfold bodyIcfg
  repeat' split
  all_goals exact .of_parts rfl

theorem bodyIget_stands (f : List Text) (s : State) : TableStands s (bodyIget f s).state := by
  unfold bodyIget
  repeat' split
  all_goals exact .refl s

theorem bodyTrwr_stands (f : List Text) (s : State) : TableStands s (bodyTrwr f s).state := by
  unfold bodyTrwr
  repeat' split
  all_goals exact .of_parts rfl

theorem bodyTrgt_stands (f : List Text) (s : State) : TableStands s (bodyTrgt f s).state := by
  unfold bodyTrgt
  repeat' split
  all_goals exact .refl s

/-! ### The channels', generators' and notice table's commands -/

theorem tryConfigure_stands (c : Chan) (k : ChannelConfig) (s : State) : TableStands s (tryConfigure c k s).state := by
  unfold tryConfigure
  split
  · exact .refl s
  · split
    · exact .refl s
    · dsimp only [accept]
      exact TableStands.trans (t := (dropFault c s).setConfig c k) (.of_parts rfl)
        (configureChannel_frame c k (dropFault c s)).stands

theorem bodyCcfg_stands (f : List Text) (s : State) : TableStands s (bodyCcfg f s).state := by
  unfold bodyCcfg
  split
  · exact .refl s
  · split
    · split
      · exact .refl s
      · split
        · exact tryConfigure_stands _ _ s
        · exact .refl s
    · exact .refl s

theorem bodyCget_moves (f : List Text) (s : State) : TableMoves s (bodyCget f s).state := onChannel_moves _ _ _ fun _ => .refl s

theorem bodyCclr_moves (f : List Text) (s : State) : TableMoves s (bodyCclr f s).state := by
  refine onChannel_moves _ _ _ fun c => ?_
  unfold clearSwitch
  split
  · exact .refl s
  · exact (ChannelFrame.setSwitch s c .blank).moves

theorem bodyCflt_moves (f : List Text) (s : State) : TableMoves s (bodyCflt f s).state := by
  refine onChannel_moves _ _ _ fun c => ?_
  unfold restoreChannel
  split
  · exact .refl s
  · exact ((ChannelFrame.setChannel s c _).trans (deriveDrive_frame c true _)).moves

theorem bodyFrzk_stands (f : List Text) (q : FreezeSeq) (s : State) : TableStands s (bodyFrzk f q s).state := by
  unfold bodyFrzk freezeStep
  repeat' split
  all_goals exact .of_parts rfl

theorem bodyDfrq_stands (f : List Text) (s : State) : TableStands s (bodyDfrq f s).state := by
  unfold bodyDfrq
  repeat' split
  all_goals exact .of_parts rfl

theorem bodyGget_stands (f : List Text) (s : State) : TableStands s (bodyGget f s).state := by
  unfold bodyGget
  split <;> exact .refl s

theorem bodyNget_stands (f : List Text) (s : State) : TableStands s (bodyNget f s).state := by
  unfold bodyNget
  split
  · exact .of_parts rfl
  · exact .refl s

theorem bodyNmsk_stands (f : List Text) (s : State) : TableStands s (bodyNmsk f s).state := by
  unfold bodyNmsk
  repeat' split
  all_goals exact .of_parts rfl

/-! ### Ticks and the passing of time -/

/-- What a number of doings moves, each doing moves. -/
theorem times_moves {f : State → State} (hf : ∀ s, TableMoves s (f s)) (k : Nat) (s : State) : TableMoves s (times f k s) :=
  times_rel TableMoves.refl (fun _ _ _ => TableMoves.trans) hf k s

theorem takeHoldTick_moves (s : State) : TableMoves s (takeHoldTick s) := by
  unfold takeHoldTick
  split
  · exact .refl s
  · exact TableMoves.trans (t := { s with holdsDue := s.holdsDue - 1 }) (.stands (.of_parts rfl)) (.countdown _)

theorem checkRule_stands (n : RuleNo) (s : State) : TableStands s (checkRule n s) := by
  unfold checkRule
  split
  · exact TableStands.trans (t := s.setRule n _) (.of_parts rfl) (raise_stands _ _ _)
  · exact .refl s

theorem scrubStep_moves {s : State} (hp : s.mainPower = true) : TableMoves s (scrubStep s) := by
  unfold scrubStep
  split
  · exact (TableMoves.check _ hp).trans (.stands (.of_parts rfl))
  · exact .stands ((checkRule_stands _ s).trans (.of_parts rfl))

theorem takeScrubTick_moves {s : State} (hp : s.mainPower = true) : TableMoves s (takeScrubTick s) := by
  unfold takeScrubTick
  split
  · exact .refl s
  · exact TableMoves.trans (t := { s with scrubDue := s.scrubDue - 1 }) (.stands (.of_parts rfl)) (scrubStep_moves hp)

theorem takeCompareTick_stands (held : List PinHold) (c : Chan) (s : State) : TableStands s (takeCompareTick held c s) := by
  unfold takeCompareTick
  split
  · exact TableStands.trans (t := { s with compareDue := upd s.compareDue c false }) (.of_parts rfl)
      (steadyCompare_frame held c _).stands
  · exact .refl s

theorem scrubs_moves (k : Nat) {s : State} (hp : s.mainPower = true) : TableMoves s (times takeScrubTick k s) := by
  induction k generalizing s with
  | zero => exact .refl s
  | succ k ih => exact (takeScrubTick_moves hp).trans (ih ((takeScrubTick_frame s).mainPower.trans hp))

theorem tickWork_moves (held : List PinHold) (w : TickWork) {s : State} (hp : s.mainPower = true) : TableMoves s (tickWork held s w) := by
  cases w with
  | holds => exact times_moves takeHoldTick_moves _ s
  | held => exact times_moves (fun s => .stands (takeHeldTick_only s).stands) _ s
  | scrub => exact scrubs_moves _ hp
  | compare c => exact .stands (takeCompareTick_stands held c s)

theorem foldl_tickWork_moves (held : List PinHold) (ws : List TickWork) {s : State} (hp : s.mainPower = true) :
    TableMoves s (ws.foldl (tickWork held) s) := by
  induction ws generalizing s with
  | nil => exact .refl s
  | cons w ws ih => exact (tickWork_moves held w hp).trans (ih ((tickWork_frame held s w).mainPower.trans hp))

/-- The work of a second tick, in any order; without main power none is done (R15). -/
theorem tickWorks_moves (held : List PinHold) (o : TickOrder) (s : State) : TableMoves s (tickWorks held o s) := by
  unfold tickWorks
  split
  · exact foldl_tickWork_moves held _ ‹_›
  · exact .refl s

theorem advance_moves (s : State) : TableMoves s (advance s) := by
  unfold advance
  dsimp only
  have hcal : TableStands s { s with calendar := { s.calendar.tick.1 with phase := 0 } } := .of_parts rfl
  cases s.calendar.tick.2 with
  | none => exact .stands hcal
  | some e => exact (TableMoves.stands hcal).trans (.deliver _ e)

theorem deliverTick_stands (s : State) : TableStands s (deliverTick s) := by
  unfold deliverTick
  split <;> exact .of_parts rfl

theorem secondTick_moves (held : List PinHold) (o : TickOrder) (s : State) : TableMoves s (secondTick held o s) := by
  unfold secondTick
  split
  · exact tickWorks_moves held o s
  · exact (advance_moves s).trans ((TableMoves.stands (deliverTick_stands _)).trans (tickWorks_moves held o _))

theorem oscillatorLost_moves (s : State) : TableMoves s (oscillatorLost s) := by
  have hcal : TableStands (tickWorks [] .plain s) { tickWorks [] .plain s with calendar := (tickWorks [] .plain s).calendar.lose } :=
    .of_parts rfl
  exact (tickWorks_moves [] .plain s).trans (.stands (hcal.trans (raise_stands _ _ _)))

theorem wavePass_stands (s : State) : TableStands s (wavePass s) := by
  unfold wavePass
  split <;> exact .of_parts rfl

theorem msPass_stands (s : State) : TableStands s (msPass s) := by
  unfold msPass
  dsimp only
  split <;> exact .of_parts rfl

/-- What passes on an empty queue leaves the table standing (log 4). -/
theorem idle_stands (s : State) : TableStands s (idle s) := by
  have micros : ∀ k, TableStands s { wavePass s with micros := k } := fun k =>
    (wavePass_stands s).trans (.of_parts rfl)
  unfold idle
  split
  · exact micros _
  · exact (micros 0).trans (msPass_stands _)

/-! ### Inputs and their events -/

theorem pinChange_stands (i : InputNo) (high : Bool) (s : State) : TableStands s (pinChange i high s) := by
  unfold pinChange
  dsimp only
  repeat' split
  all_goals exact .of_parts rfl

theorem firstSample_stands (i : InputNo) (lv : Bool) (s : State) : TableStands s (firstSample i lv s) := by
  have set : ∀ x, TableStands s (s.setInput i x) := fun _ => .of_parts rfl
  unfold firstSample
  dsimp only
  split
  · exact .refl s
  · split
    · exact (set _).trans (raise_stands _ _ _)
    · exact set _
  · split <;> exact .of_parts rfl

theorem pressTaken_stands (i : InputNo) (s : State) : TableStands s (pressTaken i s) := by
  unfold pressTaken
  dsimp only
  split <;> exact .of_parts rfl

theorem releaseTaken_stands (i : InputNo) (s : State) : TableStands s (releaseTaken i s) := by
  unfold releaseTaken
  dsimp only
  split <;> exact .of_parts rfl

theorem takeChange_stands (i : InputNo) (s : State) : TableStands s (takeChange i s) := by
  unfold takeChange
  split
  · exact .refl s
  · split
    · exact firstSample_stands _ _ s
    · split
      · exact pressTaken_stands _ s
      · exact releaseTaken_stands _ s

theorem reachThreshold_stands (i : InputNo) (s : State) : TableStands s (reachThreshold i s) := by
  unfold reachThreshold
  dsimp only
  split <;> exact .of_parts rfl

theorem makeRuleRequest_moves (n : RuleNo) (i : InputNo) (f : RuleFields) (lv : BitVec 8) (s : State) :
    TableMoves s (makeRuleRequest n i f lv s) := by
  unfold makeRuleRequest
  cases h : request (ruleRequest i f lv) s with
  | none => exact .stands (raise_stands _ _ _)
  | some t => exact .request h

/-- The step of an event moves the table as its rule's request, release or check does. -/
theorem applyStep_moves (s : State) : TableMoves s (applyStep s) := by
  have goesOn : ∀ {t : State} {a : Option Applying}, TableMoves s t → TableMoves s { t with applying := a } := fun h =>
    h.trans (.stands (.of_parts rfl))
  unfold applyStep
  split
  · exact .refl s
  · split
    · exact goesOn (makeRuleRequest_moves _ _ _ _ s)
    · split
      · split
        · split
          · unfold applyAction
            split
            · exact goesOn (makeRuleRequest_moves _ _ _ _ s)
            · split
              · exact goesOn (.refl s)
              · exact goesOn (.removal _ _ s)
          · exact goesOn (.refl s)
        · exact goesOn (.stands (checkRule_stands _ s))
      · exact goesOn (.refl s)

theorem runApply_moves (k : Nat) (s : State) : TableMoves s (runApply k s) := by
  induction k generalizing s with
  | zero => exact .refl s
  | succ k ih => exact (applyStep_moves s).trans (ih _)

theorem takeInputEvent_stands (i : InputNo) (s : State) : TableStands s (takeInputEvent i s) := by
  unfold takeInputEvent
  split <;> exact .of_parts rfl

/-! ### Storage -/

theorem disturbProtected_state (p : Bool) (r : Record) : (disturbProtected p r).state = r.state := by
  unfold disturbProtected
  split <;> rfl

theorem disturb_stands (d : Disturbance) (s : State) : TableStands s (disturb d s) := by
  cases d with
  | recordContent n c => exact .setRecord rfl
  | recordDraft n c => exact .setRecord rfl
  | recordProtected n p => exact .setRecord (disturbProtected_state p _)
  | recordCode n v => exact .setRecord rfl
  | ruleFields r f => exact .of_parts rfl
  | ruleCode r v => exact .of_parts rfl

/-! ### Every command -/

/-- A command that acts on a condition alone moves the table as what it then does. -/
theorem ite_moves {p : Prop} [Decidable p] {s t u : State} (h1 : p → TableMoves s t) (h2 : ¬ p → TableMoves s u) :
    TableMoves s (if p then t else u) := by
  split
  · exact h1 ‹_›
  · exact h2 ‹_›

/-- Every command has a next state, to which it leads by operations that move the table. -/
theorem exec_moves (c : Instr) (s : State) : ∃ t, exec c s = .next t ∧ TableMoves s t := by
  have line : ∀ (w : Text) (f : List Text) (body : State → Reply), (∀ u, TableMoves u (body u).state) → TableMoves s (carryOut w f body s) :=
    fun w f body hb => carryOut_moves (fun u _ => hb u) w f s
  have quiet : ∀ (w : Text) (f : List Text) (body : State → Reply), (∀ u, TableStands u (body u).state) → TableMoves s (carryOut w f body s) :=
    fun w f body hb => line w f body fun u => .stands (hb u)
  have still : TableMoves s s := .refl s
  have portOnly : ∀ p, TableMoves s { s with port := p } := fun _ => .stands (.of_parts rfl)
  have calendarOnly : ∀ k, TableMoves s { s with calendar := k } := fun _ => .stands (.of_parts rfl)
  cases c with
  | tset f => exact ⟨_, rfl, line _ f _ (bodyTset_moves f)⟩
  | tadj f => exact ⟨_, rfl, quiet _ f _ (bodyTadj_stands f)⟩
  | tget f => exact ⟨_, rfl, quiet _ f _ (bodyTget_stands f)⟩
  | rwrt f => exact ⟨_, rfl, carryOut_moves (bodyRwrt_moves f) _ f s⟩
  | rget f => exact ⟨_, rfl, carryOut_moves (bodyRget_moves f) _ f s⟩
  | rdrp f => exact ⟨_, rfl, line _ f _ (bodyRdrp_moves f)⟩
  | rsus f => exact ⟨_, rfl, carryOut_moves (bodyRsus_moves f) _ f s⟩
  | rres f => exact ⟨_, rfl, carryOut_moves (bodyRres_moves f) _ f s⟩
  | rfre f => exact ⟨_, rfl, carryOut_moves (bodyRfre_moves f) _ f s⟩
  | rclr f => exact ⟨_, rfl, line _ f _ (bodyRclr_moves f)⟩
  | rprt f => exact ⟨_, rfl, quiet _ f _ (bodyRprt_stands f)⟩
  | rfnd f => exact ⟨_, rfl, quiet _ f _ (bodyRfnd_stands f)⟩
  | rnxt f => exact ⟨_, rfl, quiet _ f _ (bodyRnxt_stands f)⟩
  | cset f => exact ⟨_, rfl, line _ f _ (bodyCset_moves f)⟩
  | crel f => exact ⟨_, rfl, line _ f _ (bodyCrel_moves f)⟩
  | gscl f => exact ⟨_, rfl, line _ f _ (bodyGscl_moves f)⟩
  | clst f => exact ⟨_, rfl, quiet _ f _ (bodyClst_stands f)⟩
  | icfg f => exact ⟨_, rfl, quiet _ f _ (bodyIcfg_stands f)⟩
  | iget f => exact ⟨_, rfl, quiet _ f _ (bodyIget_stands f)⟩
  | trwr f => exact ⟨_, rfl, quiet _ f _ (bodyTrwr_stands f)⟩
  | trgt f => exact ⟨_, rfl, quiet _ f _ (bodyTrgt_stands f)⟩
  | ccfg f => exact ⟨_, rfl, quiet _ f _ (bodyCcfg_stands f)⟩
  | cget f => exact ⟨_, rfl, line _ f _ (bodyCget_moves f)⟩
  | cclr f => exact ⟨_, rfl, line _ f _ (bodyCclr_moves f)⟩
  | frzk f => exact ⟨_, rfl, quiet _ f _ (bodyFrzk_stands f _)⟩
  | dfrq f => exact ⟨_, rfl, quiet _ f _ (bodyDfrq_stands f)⟩
  | gget f => exact ⟨_, rfl, quiet _ f _ (bodyGget_stands f)⟩
  | cflt f => exact ⟨_, rfl, line _ f _ (bodyCflt_moves f)⟩
  | nget f => exact ⟨_, rfl, quiet _ f _ (bodyNget_stands f)⟩
  | nmsk f => exact ⟨_, rfl, quiet _ f _ (bodyNmsk_stands f)⟩
  | rstr f v => exact ⟨_, rfl, runRstr_moves f v s⟩
  | unknownCommand l => exact ⟨_, rfl, ite_moves (fun _ => .stands (answerLine_stands _ _ _ s)) fun _ => still⟩
  | lineTooLong l => exact ⟨_, rfl, .stands (answerLine_stands _ _ _ s)⟩
  | portWrite sel b => exact ⟨_, rfl, ite_moves (fun _ => portOnly _) fun _ => still⟩
  | portRead sel => exact ⟨_, rfl, ite_moves (fun _ => portOnly _) fun _ => still⟩
  | gapTimerEnd => exact ⟨_, rfl, ite_moves (fun _ => portOnly _) fun _ => still⟩
  | secondTick held o => exact ⟨_, rfl, ite_moves (fun _ => secondTick_moves held o s) fun _ => still⟩
  | qualificationComplete => exact ⟨_, rfl, ite_moves (fun _ => still) fun _ => calendarOnly _⟩
  | qualificationRestart => exact ⟨_, rfl, ite_moves (fun _ => still) fun _ => calendarOnly _⟩
  | oscillatorLoss => exact ⟨_, rfl, ite_moves (fun _ => oscillatorLost_moves s) fun _ => still⟩
  | boundaryPass v => exact ⟨_, rfl, .pass .boundary v s⟩
  | reevaluationPass v => exact ⟨_, rfl, .pass .reevaluation v s⟩
  | holdExpiry => exact ⟨_, rfl, ite_moves (fun _ => takeHoldTick_moves s) fun _ => still⟩
  | inputPinChange i b => exact ⟨_, rfl, .stands (pinChange_stands i b s)⟩
  | changeTaken i => exact ⟨_, rfl, .stands (takeChange_stands i s)⟩
  | thresholdReached i => exact ⟨_, rfl, .stands (reachThreshold_stands i s)⟩
  | inputStuck => exact ⟨_, rfl, ite_moves (fun _ => .stands (takeHeldTick_only s).stands) fun _ => still⟩
  | inputEvent i k => exact ⟨_, rfl, (TableMoves.stands (takeInputEvent_stands i s)).trans (runApply_moves k _)⟩
  | pulseCompletion c => exact ⟨_, rfl, (completePulse_frame c s).moves⟩
  | periodEnd g => exact ⟨_, rfl, (endPeriod_frame g s).moves⟩
  | settleTimerEnd c r => exact ⟨_, rfl, .stands (endSettle_frame c _ _ s).stands⟩
  | resetInput v => exact ⟨_, rfl, ite_moves (fun hp => .reset false v hp rfl) fun _ => still⟩
  | mainPowerLoss => exact ⟨_, rfl, ite_moves (fun _ => .lose s) fun _ => still⟩
  | powerReturn v =>
    exact ⟨_, rfl, ite_moves (fun _ => still) fun _ => .reset false v (u := { s with mainPower := true }) rfl rfl⟩
  | coldStart => exact ⟨_, rfl, .reset true 96 (u := { clearBackup s with mainPower := true }) rfl rfl⟩
  | storageDisturbance d => exact ⟨_, rfl, .stands (disturb_stands d s)⟩

/-- A step leaves the table standing, or moves it from the part with the front command taken off the queue. -/
theorem step_moves {s t : State} (h : step s = .next t) : TableStands s t ∨ ∃ rest, TableMoves { s with pending := rest } t := by
  unfold step at h
  split at h
  · cases h
    exact Or.inl (idle_stands s)
  · rename_i c rest _
    obtain ⟨u, hu, hm⟩ := exec_moves c { s with pending := rest }
    obtain rfl : u = t := by
      rw [hu] at h
      cases h
      rfl
    exact Or.inr ⟨rest, hm⟩

/-! ### The queue -/

theorem deliver_pending (s : State) (e : TimeEvent) : (s.deliver e).pending = s.pending := (deliver_port s e).2.1

theorem passCommand_pending (k : PassKind) (v : Nat) (s : State) : (passCommand k v s).pending = s.pending := by
  have take : (takeEvent k s).pending = s.pending := by
    unfold takeEvent
    split <;> rfl
  unfold passCommand
  dsimp only
  split
  · exact (runPass_table v (takeEvent k s)).pending.trans take
  · rfl

theorem resetEvaluation_pending (v : Nat) (s : State) : (resetEvaluation v s).pending = s.pending := by
  unfold resetEvaluation
  split
  · exact (runPass_table v _).pending
  · rfl

theorem mainReset_pending (cold : Bool) (v : Nat) (s : State) : (mainReset cold v s).pending = s.pending := by
  rw [mainReset_eq, resetEvaluation_pending, (deriveAll_frame _).pending, resetBegun_eq]
  rfl

theorem TableMoves.pending {s t : State} (h : TableMoves s t) : t.pending = s.pending := by
  induction h with
  | stands h => exact h.pending
  | trans _ _ ih1 ih2 => exact ih2.trans ih1
  | deliver s e => exact deliver_pending s e
  | request h => exact (request_frame _ h).pending
  | removal chans cond s => exact (selectiveRemoval_frame chans cond s).pending
  | countdown s => exact (holdCountdown_frame s).pending
  | check n _ => exact (checkRecord_frame n _).pending
  | leave n r _ _ => exact (leaveWindow_frame n _).pending
  | evaluate n _ => exact (evaluateRecord_frame n _).pending
  | pass k v s => exact passCommand_pending k v s
  | lose s => rfl
  | reset cold v _ hq => exact (mainReset_pending cold v _).trans hq

/-- Settles O3, from the operations that each command is made of (`exec_moves`). -/
theorem everyCommandCompletes : Obligations.EveryCommandCompletes := by
  intro c s
  obtain ⟨t, he, hm⟩ := exec_moves c s
  exact ⟨t, he, hm.pending⟩

/-- Settles O1: it is the definition of a step. -/
theorem stepRunsTheFrontCommand : Obligations.StepRunsTheFrontCommand := fun _ _ _ => rfl

/-! ### The pool -/

theorem TableStands.poolInv {s t : State} (h : TableStands s t) (hs : PoolInv s) : PoolInv t := poolInv_of_claims h.claims hs

theorem passCommand_poolInv (k : PassKind) (v : Nat) {s : State} (h : PoolInv s) : PoolInv (passCommand k v s) := by
  have take : (takeEvent k s).claims = s.claims := by
    unfold takeEvent
    split <;> rfl
  unfold passCommand
  dsimp only
  split
  · exact runPass_poolInv v (poolInv_of_claims take h)
  · exact h

/-- With no claim on any list the whole pool is free (R73, R101). -/
theorem poolInv_of_no_claims {s : State} (h : s.claims = Vector.replicate 24 []) : PoolInv s := by
  have hlist : ∀ c, s.claimList c = [] := fun c => by
    rw [State.claimList, h]
    exact Vector.getElem_replicate _
  refine (poolInv_iff s).mpr ⟨by simp [claimTotal, hlist], fun c => ?_⟩
  rw [hlist]
  exact ⟨List.Pairwise.nil, List.nodup_nil⟩

/-- A main reset begins with no claims, and its re-evaluation is a pass (R66, R101). -/
theorem mainReset_poolInv (cold : Bool) (v : Nat) (s : State) : PoolInv (mainReset cold v s) := by
  have hbegun : PoolInv (deriveAll (resetBegun cold s)) :=
    (deriveAll_frame _).poolInv (poolInv_of_no_claims (by rw [resetBegun_eq]; rfl))
  rw [mainReset_eq]
  unfold resetEvaluation
  split
  · exact runPass_poolInv v (poolInv_of_claims (s := deriveAll (resetBegun cold s)) rfl hbegun)
  · exact hbegun

theorem TableMoves.poolInv {s t : State} (h : TableMoves s t) (hs : PoolInv s) : PoolInv t := by
  induction h with
  | stands h => exact h.poolInv hs
  | trans _ _ ih1 ih2 => exact ih2 (ih1 hs)
  | deliver s e => exact poolInv_of_claims (by unfold State.deliver; split <;> rfl) hs
  | request h => exact request_poolInv hs h
  | removal chans cond s => exact selectiveRemoval_poolInv chans cond hs
  | countdown s => exact holdCountdown_poolInv hs
  | check n _ => exact checkRecord_poolInv n hs
  | leave n r _ _ => exact setRecord_poolInv n r (leaveWindow_poolInv n hs)
  | evaluate n _ => exact evaluateRecord_poolInv n hs
  | pass k v s => exact passCommand_poolInv k v hs
  | lose s => exact poolInv_of_no_claims rfl
  | reset cold v _ _ => exact mainReset_poolInv cold v _

/-- Settles O6: every operation that a step is made of keeps the pool's invariant (`TableMoves.poolInv`). -/
theorem poolInvIsKept : Obligations.PoolInvIsKept := by
  intro s t h e
  rcases step_moves e with hs | ⟨rest, hm⟩
  · exact hs.poolInv h
  · exact hm.poolInv (s := { s with pending := rest }) h

/-! ### The waiting list -/

theorem TableStands.waitingInv {s t : State} (h : TableStands s t) (hs : WaitingInv s) : WaitingInv t := by
  unfold WaitingInv
  rw [h.mainPower, h.waiting, h.evaluator]
  simp only [h.state]
  exact hs

/-- An operation on a powered part keeps the invariant when it keeps the list that of the records that wait. -/
theorem WaitingInv.powered {s t : State} (hp : s.mainPower = true) (hf : TableFrame s t) (hl : ListedBut [] s → ListedBut [] t)
    (hs : WaitingInv s) : WaitingInv t :=
  (waitingInv_powered (hf.mainPower.trans hp)).mpr (hl ((waitingInv_powered hp).mp hs))

/-- On a part without main power it keeps the invariant when it also makes no record wait where none did. -/
theorem WaitingInv.operation {s t : State} (hf : TableFrame s t) (hl : ListedBut [] s → ListedBut [] t) (hw : s.waiting = [] → t.waiting = [])
    (hs : WaitingInv s) : WaitingInv t := by
  cases hp : s.mainPower with
  | true => exact hs.powered hp hf hl
  | false =>
    obtain ⟨hwait, hpass, hpending⟩ := hs.2 hp
    have hp' : t.mainPower = false := hf.mainPower.trans hp
    refine ⟨fun h => absurd (hp'.symm.trans h) (by decide), fun _ => ?_⟩
    rw [hf.evaluator]
    exact ⟨hw hwait, hpass, hpending⟩

theorem request_waiting {q : Request} {s t : State} (h : request q s = some t) : t.waiting = s.waiting := by
  unfold request at h
  split at h
  · cases h
    exact (publish_frame _).waiting.trans (place_waiting q s).1
  · cases h

theorem selectiveRemoval_waiting (chans : List Chan) (cond : Claim → Bool) {s : State} (h : s.waiting = []) :
    (selectiveRemoval chans cond s).waiting = [] := by
  unfold selectiveRemoval
  dsimp only
  split
  · exact h
  · obtain ⟨-, -, hw, -⟩ := publish_serveWaiting_nobody (s := keepClaims (fun c cl => !(chans.contains c && cond cl)) s) h
    exact hw

theorem holdCountdown_waiting {s : State} (h : s.waiting = []) : (holdCountdown s).waiting = [] := by
  obtain ⟨-, -, hw, -⟩ := holdCountdown_nobody h
  exact hw

/-- An event is delivered to a powered evaluator alone (R15, R52). -/
theorem deliver_waitingInv {s : State} (e : TimeEvent) (hs : WaitingInv s) : WaitingInv (s.deliver e) := by
  unfold State.deliver
  split
  · rename_i hp
    exact (waitingInv_powered (s := { s with evaluator := { s.evaluator with pending := s.evaluator.pending ++ [e] } }) hp).mpr
      ((waitingInv_powered hp).mp hs)
  · exact hs

/-- Without main power no pass is in progress and no event pending, so a pass command does nothing (R15). -/
theorem passCommand_idle {s : State} (hpass : s.evaluator.pass = none) (hpending : s.evaluator.pending = []) (k : PassKind) (v : Nat) :
    passCommand k v s = s := by
  have take : takeEvent k s = s := by
    unfold takeEvent
    rw [hpass, hpending]
  have other : passOf k s = false := by
    unfold passOf
    rw [hpass]
    rfl
  unfold passCommand
  dsimp only
  rw [take, other]
  rfl

theorem passCommand_waitingInv (k : PassKind) (v : Nat) {s : State} (hs : WaitingInv s) : WaitingInv (passCommand k v s) := by
  cases hp : s.mainPower with
  | false =>
    obtain ⟨-, hpass, hpending⟩ := hs.2 hp
    rw [passCommand_idle hpass hpending]
    exact hs
  | true =>
    have hl : ListedBut [] s := (waitingInv_powered hp).mp hs
    have htake : ListedBut [] (takeEvent k s) ∧ (takeEvent k s).mainPower = true := by
      unfold takeEvent
      split <;> exact ⟨hl, hp⟩
    unfold passCommand
    dsimp only
    split
    · exact (waitingInv_powered ((runPass_table v _).mainPower.trans htake.2)).mpr (runPass_listed v htake.1)
    · exact hs

/-- A main reset begins with no record waiting, and its re-evaluation is a pass (R47, R66). -/
theorem mainReset_listed (cold : Bool) (v : Nat) (s : State) : ListedBut [] (mainReset cold v s) := by
  have hbegun : ListedBut [] (resetBegun cold s) := by
    have hwait : (resetBegun cold s).waiting = [] := by
      rw [resetBegun_eq]
      rfl
    refine ⟨hwait ▸ List.nodup_nil, fun n => ?_⟩
    rw [hwait, resetBegun_record]
    have := returned_resting (s.record n)
    exact ⟨fun h => absurd h List.not_mem_nil, fun h => by rw [h.1] at this; cases this⟩
  have hderived := hbegun.of_frame (deriveAll_frame _)
  rw [mainReset_eq]
  unfold resetEvaluation
  split
  · exact runPass_listed v (ListedBut.of_same (s := deriveAll (resetBegun cold s)) rfl rfl hderived)
  · exact hderived

theorem mainReset_power (cold : Bool) (v : Nat) (s : State) : (mainReset cold v s).mainPower = s.mainPower := by
  have hbegun : (deriveAll (resetBegun cold s)).mainPower = s.mainPower := by
    rw [(deriveAll_frame _).mainPower, resetBegun_eq]
    rfl
  rw [mainReset_eq]
  unfold resetEvaluation
  split
  · exact (runPass_table v _).mainPower.trans hbegun
  · exact hbegun

theorem TableMoves.waitingInv {s t : State} (h : TableMoves s t) (hs : WaitingInv s) : WaitingInv t := by
  induction h with
  | stands h => exact h.waitingInv hs
  | trans _ _ ih1 ih2 => exact ih2 (ih1 hs)
  | deliver s e => exact deliver_waitingInv e hs
  | request h => exact hs.operation (request_frame _ h) (request_listed · h) (request_waiting h).trans
  | removal chans cond s =>
    exact hs.operation (selectiveRemoval_frame chans cond s) (selectiveRemoval_listed chans cond) (selectiveRemoval_waiting chans cond)
  | countdown s => exact hs.operation (holdCountdown_frame s) holdCountdown_listed holdCountdown_waiting
  | check n hp => exact hs.powered hp (checkRecord_frame n _) (checkRecord_listed n)
  | leave n r hp hr =>
    exact hs.powered hp ((leaveWindow_frame n _).trans (.setRecord _ n r)) fun hl => (leaveWindow_listed n hl).settle n r hr
  | evaluate n hp => exact hs.powered hp (evaluateRecord_frame n _) (evaluateRecord_listed n)
  | pass k v s => exact passCommand_waitingInv k v hs
  | lose s => exact ⟨nofun, fun _ => ⟨rfl, rfl, rfl⟩⟩
  | reset cold v hp _ => exact (waitingInv_powered ((mainReset_power cold v _).trans hp)).mpr (mainReset_listed cold v _)

/-- Settles O7: every operation that a step is made of keeps the waiting list's invariant (`TableMoves.waitingInv`). -/
theorem waitingInvIsKept : Obligations.WaitingInvIsKept := by
  intro s t h e
  rcases step_moves e with hs | ⟨rest, hm⟩
  · exact hs.waitingInv h
  · exact hm.waitingInv (s := { s with pending := rest }) h

end Sys2Proof.Machine
end

section
/-!
PROOFS. The claim commands and the operations of the arbiter that free entries (R73 to R97, R115): what a granted request leaves on the lists, what a
removal leaves with nobody waiting and with records waiting, and the commands CSET, GSCL, CREL and HOLD_EXPIRY that come to these.
-/

namespace Sys2Proof.Machine

/-! ### Requests -/

section

variable {q : Request} {chans : List Chan} {g : Chan → BitVec 8}

/-- A request needs an entry for each of its channels whose list holds no claim of its source (R80). -/
theorem needed_map (h : q.targets = chans.map fun c => (c, g c)) (s : State) :
    needed q s = (chans.filter fun c => (s.claimList c).all fun cl => cl.source != q.source).length := by
  unfold needed
  rw [h, List.filter_map, List.length_map]
  refine congrArg List.length (List.filter_congr fun c _ => ?_)
  simp [hasSource, List.all_eq_not_any_not, bne]

/-- A granted request leaves its claim, the newest of its priority, on each of its channels, and every other list as it is (R76, R77, R81). -/
theorem publish_place_claimList (h : q.targets = chans.map fun c => (c, g c)) (hn : chans.Nodup) (s : State) (c : Chan) :
    (publish (place q s)).claimList c = if c ∈ chans then putClaim (q.claim (g c)) (s.claimList c) else s.claimList c := by
  obtain ⟨hon, hoff⟩ := place_claimList q s (by simpa [h, Function.comp_def] using hn) c
  rw [(publish_frame _).claimList]
  split
  · exact hon (g c) (by simpa [h] using ‹c ∈ chans›)
  · exact hoff fun lv hm => ‹c ∉ chans› (by simp [h] at hm; exact hm.1)

/-- A granted request takes from the free count what it needs (R73, R81). -/
theorem publish_place_freeCount (h : q.targets = chans.map fun c => (c, g c)) (hn : chans.Nodup) {s : State} (hs : PoolInv s)
    (hfit : needed q s ≤ freeCount s) : freeCount (publish (place q s)) + needed q s = freeCount s := by
  have hplace : claimTotal (place q s) = claimTotal s + needed q s :=
    claimTotal_place (fun c => (hs.2 c).2) (by simpa [h, Function.comp_def] using hn)
  rw [freeCount_of_claims (publish_frame _).claims]
  unfold freeCount at *
  omega

end

theorem publish_place_table (q : Request) (s : State) :
    (publish (place q s)).records = s.records ∧ (publish (place q s)).waiting = s.waiting :=
  ⟨(publish_frame _).records.trans (place_waiting q s).2, (publish_frame _).waiting.trans (place_waiting q s).1⟩

theorem publish_place_frame (q : Request) (s : State) : TableFrame s (publish (place q s)) := (place_frame q s).trans (publish_frame _).table

theorem portRequest_granted {q : Request} {s : State} (h : needed q s ≤ freeCount s) :
    portRequest q s = accept [hex2 (freeCount (publish (place q s)))] (publish (place q s)) := by
  unfold portRequest request
  rw [if_pos h]
  rfl

theorem portRequest_refused {q : Request} {s : State} (h : freeCount s < needed q s) : portRequest q s = refuse .poolFull s := by
  unfold portRequest request
  rw [if_neg (Nat.not_le.mpr h)]

/-- Settles O33: CSET's reading of its line is `bodyCset_cases`, and the request it makes is granted or refused whole. -/
theorem csetMakesPortClaims : Obligations.CsetMakesPortClaims := by
  intro s fields hline
  obtain ⟨hbad, hchecks, hreads⟩ := bodyCset_cases (lineTaken_fields hline rfl) (begun (text "CSET") fields s)
  refine ⟨fun h => ?_, fun h => ⟨fun hn => ?_, fun hn hno => ?_⟩, fun l p lv b hold need hl hneed => ?_⟩
  · exact congrArg Host.Outcome.next (carryOut_refused hline (hbad h))
  · exact congrArg Host.Outcome.next (carryOut_refused hline ((hchecks h).1 hn))
  · exact congrArg Host.Outcome.next (carryOut_refused hline ((hchecks h).2 hn hno))
  · have hnodup : (toChans l).Nodup := by
      obtain ⟨_, _, _, _, _, -, ⟨-, -, -, hnodup, -⟩, -⟩ := hl
      exact toChans_nodup hnodup
    have hbody := hreads l p lv b hold hl
    set u := begun (text "CSET") fields s
    generalize hq : (⟨.port, (toChans l).map fun c => (c, lv), p, b, hold⟩ : Request) = q at hbody
    have htargets : q.targets = (toChans l).map fun c => (c, lv) := by rw [← hq]
    have hneeded : needed q u = need := by rw [needed_map htargets, hneed, ← hq]; rfl
    refine ⟨fun hno => ?_, fun hfit => ?_⟩
    · exact congrArg Host.Outcome.next (carryOut_refused hline (hbody.trans (portRequest_refused (hneeded.symm ▸ hno))))
    · have hfit : needed q u ≤ freeCount u := hneeded.symm ▸ hfit
      have hf := publish_place_frame q u
      obtain ⟨hrecords, hwaiting⟩ := publish_place_table q u
      have hlists := publish_place_claimList htargets hnodup u
      refine ⟨_, congrArg Host.Outcome.next (carryOut_accepted hline (bodyCset_frame fields) (hbody.trans (portRequest_granted hfit))),
        fun c hm => ?_, fun c hm => ?_, fun hinv => ?_, publish_settled (place q u), rfl, hwaiting, hrecords, hf.rules, hf.calendar,
        hf.channelConfigs, hf.freezeMask⟩
      · refine (hlists c).trans ((if_pos hm).trans ?_)
        rw [← hq]
        rfl
      · exact (hlists c).trans (if_neg hm)
      · rw [← hneeded]
        exact publish_place_freeCount htargets hnodup (s := u) hinv hfit

/-! ### GSCL -/

theorem mem_chansOf {m : BitVec 24} {c : Chan} : c ∈ chansOf m ↔ m.getLsbD c.val = true := by simp [chansOf]

theorem chansOf_nodup (m : BitVec 24) : (chansOf m).Nodup := (List.nodup_finRange 24).filter _

/-- GSCL's reading of its line, once its fields are in range (R96). -/
theorem bodyGscl_reads {f g p h : Text} {setMask clearMask : BitVec 24} {prio : Fin 4} {hold : Option (BitVec 16)}
    (hf : channelSetField f = some setMask) (hg : channelSetField g = some clearMask) (hp : priorityField p = some prio)
    (hh : holdField h = some hold) (u : State) :
    bodyGscl [f, g, p, h] u = portRequest ⟨.port, groupTargets setMask clearMask, prio, none, hold⟩ u := by
  have hok : (DigitRule.dashes none 4).bad [f, g, p, h] = false := by
    rw [bad_false_iff]
    simp only [List.zipIdx_cons, List.zipIdx_nil, List.forall_mem_cons, List.not_mem_nil, false_implies, implies_true, and_true, Nat.zero_add,
      Nat.reduceAdd]
    exact ⟨fieldOk_of_allHex _ _ (channelSetField_allHex hf), fieldOk_of_allHex _ _ (channelSetField_allHex hg),
      fieldOk_of_allHex _ _ (priorityField_allHex hp), fieldOk_hexOrDash _ (by simp [DigitRule.dashes]) (holdField_hexOrDash hh)⟩
  unfold bodyGscl gsclRequest
  rw [hok, if_neg Bool.false_ne_true]
  dsimp only
  rw [hf, hg, hp, hh]

/-- Settles O34: GSCL's request, with level 255 on its set mask and 0 on what the clear mask names beside it. -/
theorem gsclSetsAndClearsAGroup : Obligations.GsclSetsAndClearsAGroup := by
  intro s f g p h setMask clearMask prio hold need hline hf hg hp hh hneed
  have hbody := bodyGscl_reads hf hg hp hh (begun (text "GSCL") [f, g, p, h] s)
  set u := begun (text "GSCL") [f, g, p, h] s
  generalize hq : (⟨.port, groupTargets setMask clearMask, prio, none, hold⟩ : Request) = q at hbody
  have htargets : q.targets = (chansOf (setMask ||| clearMask)).map fun c => (c, if setMask.getLsbD c.val then 255 else 0) := by
    rw [← hq]
    rfl
  have hneeded : needed q u = need := by
    rw [needed_map htargets, hneed, chansOf, List.filter_filter, ← hq]
    refine congrArg List.length (List.filter_congr fun c _ => ?_)
    rw [BitVec.getLsbD_or, Bool.and_comm]
    rfl
  refine ⟨fun hno => ?_, fun hfit => ?_⟩
  · exact congrArg Host.Outcome.next (carryOut_refused hline (hbody.trans (portRequest_refused (hneeded.symm ▸ hno))))
  · obtain ⟨hrecords, hwaiting⟩ := publish_place_table q u
    have hlists := publish_place_claimList htargets (chansOf_nodup _) u
    have hmem : ∀ c : Chan, c ∈ chansOf (setMask ||| clearMask) ↔ setMask.getLsbD c.val = true ∨ clearMask.getLsbD c.val = true := fun c => by
      rw [mem_chansOf, BitVec.getLsbD_or, Bool.or_eq_true]
    refine ⟨_, congrArg Host.Outcome.next
        (carryOut_accepted hline (bodyGscl_frame _) (hbody.trans (portRequest_granted (hneeded.symm ▸ hfit)))),
      fun c hset => ?_, fun c hset hclear => ?_, fun c hset hclear => ?_, rfl, hwaiting, hrecords⟩
    · refine (hlists c).trans ((if_pos ((hmem c).mpr (Or.inl hset))).trans ?_)
      rw [← hq, hset]
      rfl
    · refine (hlists c).trans ((if_pos ((hmem c).mpr (Or.inr hclear))).trans ?_)
      rw [← hq, hset]
      rfl
    · exact (hlists c).trans (if_neg fun hm => ((hmem c).mp hm).elim (ne_true_of_eq_false hset) (ne_true_of_eq_false hclear))

/-! ### Removals -/

/-- A removal that leaves as many claims as there were leaves every list (R85). -/
theorem keepClaims_all {keep : Chan → Claim → Bool} {s : State} (h : claimTotal (keepClaims keep s) = claimTotal s) : keepClaims keep s = s := by
  have hle : ∀ c, ((keepClaims keep s).claimList c).length ≤ (s.claimList c).length := fun c => by
    rw [keepClaims_claimList]
    exact List.length_filter_le _ _
  have hlen : ∀ c, ((keepClaims keep s).claimList c).length = (s.claimList c).length := fun c => by
    by_contra hne
    have hlt : claimTotal (keepClaims keep s) < claimTotal s := by
      unfold claimTotal
      exact List.sum_lt_sum _ _ (fun d _ => hle d) ⟨c, List.mem_finRange c, lt_of_le_of_ne (hle c) hne⟩
    omega
  have hlist : ∀ c, (keepClaims keep s).claimList c = s.claimList c := fun c => by
    rw [keepClaims_claimList]
    exact List.filter_eq_self.mpr (List.length_filter_eq_length_iff.mp (by rw [← keepClaims_claimList]; exact hlen c))
  have hclaims : (keepClaims keep s).claims = s.claims := Vector.ext fun i hi => hlist ⟨i, hi⟩
  exact congrArg (fun cl => ({ s with claims := cl } : State)) hclaims

/-- What a selective removal comes to (R85, R91), `u` being the part with the claims that meet the condition taken off the channels of the set. -/
theorem selectiveRemoval_cases {chans : List Chan} {cond : Claim → Bool} {s u : State}
    (hu : ∀ c, u.claimList c = if c ∈ chans then (s.claimList c).filter fun cl => !cond cl else s.claimList c)
    (hrest : u = { s with claims := u.claims }) :
    (s.waiting = [] → (selectiveRemoval chans cond s).records = s.records ∧ (selectiveRemoval chans cond s).waiting = []
      ∧ (selectiveRemoval chans cond s).claims = u.claims)
    ∧ (claimTotal u = claimTotal s → selectiveRemoval chans cond s = s)
    ∧ (claimTotal u ≠ claimTotal s → s.waiting.Nodup →
      Served u (selectiveRemoval chans cond s)
      ∧ ∀ c, ((selectiveRemoval chans cond s).channel c).present = demandOf (selectiveRemoval chans cond s) c) := by
  have hkeep : u = keepClaims (fun c cl => !(chans.contains c && cond cl)) s := by
    have hclaims : u.claims = (keepClaims (fun c cl => !(chans.contains c && cond cl)) s).claims := Vector.ext fun i hi => by
      refine (hu ⟨i, hi⟩).trans ((keepClaims_claimList _ s ⟨i, hi⟩).trans ?_).symm
      by_cases hm : (⟨i, hi⟩ : Chan) ∈ chans <;> simp [hm]
    rw [hrest, hclaims]
    rfl
  have hwaiting : u.waiting = s.waiting := by rw [hrest]
  refine ⟨fun hw => ?_, fun ht => ?_, fun ht hd => ?_⟩
  · by_cases ht : claimTotal u = claimTotal s
    · have hu : u = s := by
        rw [hkeep] at ht ⊢
        exact keepClaims_all ht
      rw [selectiveRemoval_none (hkeep ▸ ht)]
      exact ⟨rfl, hw, by rw [hu]⟩
    · rw [selectiveRemoval_some (hkeep ▸ ht), ← hkeep]
      obtain ⟨hclaims, hrecords, hlist, -⟩ := publish_serveWaiting_nobody (hwaiting.trans hw)
      exact ⟨hrecords.trans (by rw [hrest]), hlist, hclaims⟩
  · exact selectiveRemoval_none (hkeep ▸ ht)
  · rw [selectiveRemoval_some (hkeep ▸ ht), ← hkeep]
    exact ⟨publish_served (hwaiting ▸ hd), publish_settled _⟩

/-! ### CREL -/

/-- CREL's reading of its line, once its fields are in range (R95). -/
theorem bodyCrel_reads {f g : Text} {m : BitVec 24} {prio : Option (Fin 4)} (hf : channelSetField f = some m)
    (hg : orAny priorityField g = some prio) (u : State) : bodyCrel [f, g] u = releaseClaims m prio u := by
  have hok : (⟨none, [1], none⟩ : DigitRule).bad [f, g] = false := by
    rw [bad_false_iff]
    simp only [List.zipIdx_cons, List.zipIdx_nil, List.forall_mem_cons, List.not_mem_nil, false_implies, implies_true, and_true, Nat.zero_add]
    exact ⟨fieldOk_of_allHex _ _ (channelSetField_allHex hf),
      fieldOk_hexOrDash _ (by simp) (orAny_hexOrDash (fun _ => priorityField_allHex) hg)⟩
  unfold bodyCrel
  rw [hok, if_neg Bool.false_ne_true]
  dsimp only
  rw [hf, hg]

/-- Settles O35: CREL is a selective removal of PORT claims (`selectiveRemoval_cases`). -/
theorem crelRemovesPortClaims : Obligations.CrelRemovesPortClaims := by
  intro s f g m prio u hline hf hg hu
  have hbody := bodyCrel_reads hf hg (begun (text "CREL") [f, g] s)
  have hlist : ∀ c : Chan, u.claimList c =
      if m.getLsbD c.val then (s.claimList c).filter fun cl => !(cl.source == .port && prio.elim true fun p => cl.priority == p)
      else s.claimList c := fun c => by
    rw [hu]
    exact nth_tabulate _ c
  have hcases := selectiveRemoval_cases (chans := chansOf m) (cond := portClaimAt prio) (s := begun (text "CREL") [f, g] s)
    (u := { begun (text "CREL") [f, g] s with claims := u.claims })
    (fun c => (hlist c).trans (by simp only [mem_chansOf]; rfl)) rfl
  have hframe := selectiveRemoval_frame (chansOf m) (portClaimAt prio) (begun (text "CREL") [f, g] s)
  have hcarry := carryOut_accepted hline (bodyCrel_frame _) hbody
  generalize ht : selectiveRemoval (chansOf m) (portClaimAt prio) (begun (text "CREL") [f, g] s) = t at hcases hframe
  obtain ⟨hnobody, hnone, hsome⟩ := hcases
  refine ⟨{ t with port := answered s.port .ok [hex2 (matchingClaims (chansOf m) (portClaimAt prio) s), hex2 (freeCount t)] },
    ?_, rfl, hframe.calendar, hframe.rules, hframe.channelConfigs, hframe.freezeMask, fun hw => ?_, fun htotal => ?_, fun htotal hd => ?_⟩
  · rw [← ht]
    exact congrArg Host.Outcome.next hcarry
  · obtain ⟨hrecords, hwaiting, hclaims⟩ := hnobody hw
    exact ⟨hrecords, hwaiting, fun c => (congrArg (nth · c) hclaims).trans (hlist c)⟩
  · rw [hnone htotal]
    exact ⟨rfl, rfl, rfl, rfl⟩
  · obtain ⟨hserved, hsettled⟩ := hsome htotal hd
    refine ⟨hserved.congr ?_ rfl ?_ ?_ ?_ rfl rfl rfl rfl, hsettled⟩ <;> rw [hu] <;> rfl

/-! ### HOLD_EXPIRY -/

theorem countDown_eq_afterTick : countDown = Claim.afterTick := rfl

/-- What a hold countdown comes to (R86), `u` being the part with every hold counted down. -/
theorem holdCountdown_cases {s u : State} (hu : u = { s with claims := tabulate fun c => (s.claimList c).filterMap Claim.afterTick }) :
    (claimTotal u = claimTotal s → holdCountdown s = u) ∧ (claimTotal u ≠ claimTotal s → holdCountdown s = publish (serveWaiting u)) := by
  rw [← countDown_eq_afterTick] at hu
  unfold holdCountdown
  dsimp only
  rw [← hu]
  exact ⟨fun h => if_pos h, fun h => if_neg h⟩

theorem exec_holdExpiry_stands {s : State} (h : s.holdsDue = 0 ∨ s.calendar.osc ≠ .steady) : exec .holdExpiry s = .next s := by
  refine congrArg Host.Outcome.next ?_
  split
  · exact if_pos (h.resolve_right (absurd ‹_›))
  · rfl

theorem exec_holdExpiry_due {s : State} (h : s.holdsDue ≠ 0) (ho : s.calendar.osc = .steady) :
    exec .holdExpiry s = .next (holdCountdown { s with holdsDue := s.holdsDue - 1 }) :=
  congrArg Host.Outcome.next ((if_pos ho).trans (if_neg h))

/-- Settles O36: the countdown of a tick that is due (`holdCountdown_cases`), with nobody waiting and with records waiting. -/
theorem holdsCountDownAndExpire : Obligations.HoldsCountDownAndExpire := by
  intro s u hu
  refine ⟨exec_holdExpiry_stands, fun hdue ho => ⟨_, exec_holdExpiry_due hdue ho, ?_⟩⟩
  have hframe := holdCountdown_frame { s with holdsDue := s.holdsDue - 1 }
  obtain ⟨hsame, hserves⟩ := holdCountdown_cases (s := { s with holdsDue := s.holdsDue - 1 }) hu
  refine ⟨?_, hframe.calendar, hframe.port, fun hw => ?_, hsame, fun htotal hd => ?_⟩
  · rw [hframe.holdsDue]
    exact Nat.succ_pred_eq_of_ne_zero hdue
  · obtain ⟨hlists, hrecords, hwaiting, -⟩ := holdCountdown_nobody (s := { s with holdsDue := s.holdsDue - 1 }) hw
    exact ⟨hlists, hwaiting, hrecords⟩
  · rw [hserves htotal]
    exact ⟨publish_served (by rw [hu]; exact hd), publish_settled _⟩

/-! ### The actions of rules -/

section

variable {s : State} {a : Applying} {f : RuleFields} {next : Option Applying}

/-- With an event being applied, one step of INPUT_EVENT is one step of its rules (log 7). -/
theorem exec_inputEvent_one (i : InputNo) (h : s.applying = some a) : exec (.inputEvent i 1) s = .next (applyStep s) := by
  have htake : takeInputEvent i s = s := by
    unfold takeInputEvent
    rw [h]
  exact congrArg (fun t => Host.Outcome.next (applyStep t)) htake

theorem applying_advance (h : next = if h : a.next.val + 1 < 16 then some ⟨a.event, ⟨a.next.val + 1, h⟩, none⟩ else none) :
    a.advance = next := h.symm

/-- The visit of a matching sound rule does its action (R112). -/
theorem applyStep_action (ha : s.applying = some a) (ht : a.toggle = none) (hm : ruleMatches (s.rule a.next) a.event = true)
    (hs : ruleSound (s.rule a.next) = true) (hf : (s.rule a.next).fields = some f) : applyStep s = applyAction a f s := by
  unfold applyStep
  rw [ha]
  dsimp only
  rw [ht]
  dsimp only
  rw [if_pos hm, if_pos hs, hf]

theorem applyStep_toggle {t : ToggleRead} (ha : s.applying = some a) (ht : a.toggle = some t) :
    applyStep s = { makeRuleRequest t.rule a.event.input t.fields t.level s with applying := a.advance } := by
  unfold applyStep
  rw [ha]
  dsimp only
  rw [ht]

theorem applyAction_assert (h : f.action = 0) :
    applyAction a f s = { makeRuleRequest a.next a.event.input f (f.level.getD 0) s with applying := a.advance } := if_pos h

theorem applyAction_toggle (h : f.action = 1) :
    applyAction a f s = { s with applying := some { a with toggle := some ⟨a.next, f, toggleLevel f s⟩ } } := by
  unfold applyAction
  rw [h, if_neg (by decide), if_pos rfl]

theorem applyAction_release (h : f.action = 2) : applyAction a f s = { makeRelease f s with applying := a.advance } := by
  unfold applyAction
  rw [h, if_neg (by decide), if_neg (by decide)]

/-- A TOGGLE's reading: level 0 when the first channel's demand is above 0, else the rule's level (R114). -/
theorem toggleLevel_eq {lv : BitVec 8} {c : Chan} {rest : List Chan} (hl : f.level = some lv) (hc : toChans f.channels = c :: rest) :
    toggleLevel f s = if (demandOf s c).level = 0 then lv else 0 := by
  unfold toggleLevel Demand.on
  rw [hc, hl]
  by_cases h : (demandOf s c).level = 0 <;> simp [h]

/-- A sound rule's priority is 0 to 3, so that it is the claims' priority (R158, Table 5-2). -/
theorem toPriority_of_ruleSound {r : Rule} (hs : ruleSound r = true) (hf : r.fields = some f) : (toPriority f.priority).val = f.priority.toNat := by
  have hle : f.priority.toNat ≤ 3 := by
    simp only [ruleSound, hf, Option.elim_some, ruleInRange, Bool.and_eq_true, decide_eq_true_eq] at hs
    exact hs.2.1.2
  exact Nat.mod_eq_of_lt (by omega)

end

/-- Settles O44: the step of an event makes its rule's request (`makeRuleRequest_requests`) and goes on, or keeps a TOGGLE's reading. -/
theorem rulesMakeTheirRequests : Obligations.RulesMakeTheirRequests := by
  intro s i a f lv next ha hnext
  rw [exec_inputEvent_one i ha, ← applying_advance hnext]
  refine ⟨fun ht hm hs hf hact hl => ?_, fun c rest ht hm hs hf hact hl hc => ?_, fun g ht => ?_⟩
  · rw [applyStep_action ha ht hm hs hf, applyAction_assert hact, hl]
    exact ⟨_, makeRuleRequest_requests a.next a.event.input f lv s, rfl⟩
  · rw [applyStep_action ha ht hm hs hf, applyAction_toggle hact, toggleLevel_eq hl hc]
  · rw [applyStep_toggle ha ht]
    exact ⟨_, makeRuleRequest_requests a.next a.event.input f g s, rfl⟩

theorem selectiveRemoval_quiet (chans : List Chan) (cond : Claim → Bool) (s : State) : QuietBut serviceKinds s (selectiveRemoval chans cond s) := by
  unfold selectiveRemoval
  dsimp only
  split
  · exact QuietBut.refl s
  · exact QuietBut.trans (t := keepClaims _ s) (QuietBut.of_notices rfl) (publish_serveWaiting_quiet _)

/-- Settles O45: a RELEASE is a selective removal of input claims (`selectiveRemoval_cases`), after which the visit goes on. -/
theorem aReleaseRuleClearsInputClaims : Obligations.AReleaseRuleClearsInputClaims := by
  intro s i a f u next ha ht hnext hm hs hf hact hu
  rw [exec_inputEvent_one i ha, ← applying_advance hnext, applyStep_action ha ht hm hs hf, applyAction_release hact]
  have hreleases : ∀ cl, releases f cl = match cl.source with
      | .input _ => decide (cl.priority.val ≤ f.priority.toNat)
      | .record _ => false
      | .port => false := fun cl => by
    rw [← toPriority_of_ruleSound hs hf]
    rfl
  have hcases := selectiveRemoval_cases (chans := toChans f.channels) (cond := releases f) (s := s) (u := u)
    (fun c => by rw [hu]; simp only [hreleases]; exact nth_tabulate _ c) (by rw [hu])
  have hframe := selectiveRemoval_frame (toChans f.channels) (releases f) s
  have hquiet := selectiveRemoval_quiet (toChans f.channels) (releases f) s .poolShort (by decide)
  unfold makeRelease
  generalize selectiveRemoval (toChans f.channels) (releases f) s = v at hcases hframe hquiet ⊢
  obtain ⟨hnobody, hnone, hsome⟩ := hcases
  refine ⟨{ v with applying := a.advance }, rfl, rfl, hframe.rules, hquiet, hnobody, fun h => by rw [hnone h], fun h hd => ?_⟩
  obtain ⟨hserved, hsettled⟩ := hsome h hd
  exact ⟨hserved.congr rfl rfl rfl rfl rfl rfl rfl rfl rfl, hsettled⟩

end Sys2Proof.Machine
end

section
/-!
PROOFS. An empty queue (R144; logs 4, 27): what a microsecond and a millisecond leave alone, and where they leave the phases of a generator.
-/

namespace Sys2Proof.Machine

/-! ### The waveform of one generator -/

/-- A microsecond moves the two phases of a generator and nothing else of it (R144). -/
theorem GenRun.pass_phases (freq : Nat) (r : GenRun) :
    r.pass freq = { r with pwmPhase := (r.pass freq).pwmPhase, envPhase := (r.pass freq).envPhase } := by
  unfold GenRun.pass
  dsimp only
  repeat' split
  all_goals rfl

section

variable {freq : Nat} {r : GenRun}

/-- A steady waveform within its PWM period (R144). -/
theorem GenRun.pass_steady_within (hb : r.active.blink = none) (hp : r.pwmPhase + freq < 1000000) :
    r.pass freq = { r with pwmPhase := r.pwmPhase + freq } := by
  simp only [GenRun.pass, hb]
  exact if_pos hp

/-- A steady waveform begins its PWM period again, with nothing to take up or to release (R144, R150). -/
theorem GenRun.pass_steady_again (hb : r.active.blink = none) (hp : 1000000 ≤ r.pwmPhase + freq) (hr : r.releasing = false) (hs : r.staged = none) :
    r.pass freq = { r with pwmPhase := (r.pwmPhase + freq) % 1000000 } := by
  simp only [GenRun.pass, hb, hr, hs]
  exact if_neg (Nat.not_lt.mpr hp)

/-- A steady waveform has no envelope to move. -/
theorem GenRun.pass_steady_envPhase (hb : r.active.blink = none) : (r.pass freq).envPhase = r.envPhase := by
  simp only [GenRun.pass, hb]
  repeat' split
  all_goals rfl

/-- A blinking waveform within its envelope period (R144). -/
theorem GenRun.pass_blinking_within {b : Blink} {e : Nat} (hb : r.active.blink = some b) (he : r.envPhase = some e)
    (hp : e + 1 < b.period.toNat * 10000) :
    r.pass freq = { r with pwmPhase := (r.pwmPhase + freq) % 1000000, envPhase := some (e + 1) } := by
  simp only [GenRun.pass, hb, he]
  exact if_pos hp

/-- A blinking waveform begins its envelope period again with a new PWM period, with nothing to take up or to release (R144, R150). -/
theorem GenRun.pass_blinking_again {b : Blink} {e : Nat} (hb : r.active.blink = some b) (he : r.envPhase = some e)
    (hp : b.period.toNat * 10000 ≤ e + 1) (hr : r.releasing = false) (hs : r.staged = none) :
    r.pass freq = { r with pwmPhase := 0, envPhase := some 0 } := by
  simp only [GenRun.pass, hb, he, hr, hs]
  exact if_neg (Nat.not_lt.mpr hp)

end

/-! ### What passes on an empty queue -/

theorem Calendar.pass_counters (k : Calendar) : k.pass = { k with phase := k.pass.phase, qualify := k.pass.qualify } := by
  unfold Calendar.pass
  split <;> rfl

/-- `t` differs from `s` at most in what the passing of time moves: waveforms, timers, the millisecond timebase and the calendar's two counters. -/
def PassFrame (s t : State) : Prop :=
  ∃ gs ms ins chs mic gap ph q, t = { s with
    generators := gs, msTime := ms, inputs := ins, channels := chs, micros := mic
    port := { s.port with gapTimer := gap }
    calendar := { s.calendar with phase := ph, qualify := q } }

theorem PassFrame.trans {s t u : State} (h1 : PassFrame s t) (h2 : PassFrame t u) : PassFrame s u := by
  obtain ⟨_, _, _, _, _, _, _, _, rfl⟩ := h1
  obtain ⟨_, _, _, _, _, _, _, _, rfl⟩ := h2
  exact ⟨_, _, _, _, _, _, _, _, rfl⟩

theorem wavePass_frame (s : State) (k : Nat) : PassFrame s { wavePass s with micros := k } := by
  unfold wavePass
  split
  · exact ⟨_, _, _, _, _, s.port.gapTimer, s.calendar.phase, s.calendar.qualify, rfl⟩
  · exact ⟨_, _, _, _, _, s.port.gapTimer, s.calendar.phase, s.calendar.qualify, rfl⟩

theorem msPass_frame (s : State) : PassFrame s (msPass s) := by
  unfold msPass
  rw [Calendar.pass_counters]
  dsimp only
  split
  · exact ⟨_, _, _, _, _, _, _, _, rfl⟩
  · exact ⟨_, _, _, _, _, s.port.gapTimer, _, _, rfl⟩

/-- An empty queue's microsecond, and the millisecond it may end, leave every table alone (log 4). -/
theorem idle_frame (s : State) : PassFrame s (idle s) := by
  unfold idle
  split
  · exact wavePass_frame s _
  · exact (wavePass_frame s 0).trans (msPass_frame _)

theorem msPass_generators (s : State) : (msPass s).generators = s.generators := by
  unfold msPass
  dsimp only
  split <;> rfl

theorem idle_generators (s : State) : (idle s).generators = (wavePass s).generators := by
  unfold idle
  split
  · rfl
  · exact msPass_generators _

/-- With main power every generator's waveform goes on by a microsecond (R144). -/
theorem idle_generator {s : State} (hp : s.mainPower = true) (g : GenNo) : (idle s).generator g = (s.generator g).pass s.dimFreq := by
  have hw : wavePass s = { s with generators := tabulate fun g => (s.generator g).pass s.dimFreq } := if_pos hp
  unfold State.generator
  rw [idle_generators, hw]
  exact nth_tabulate _ g

/-- Settles O2: what time leaves alone (`idle_frame`), and the phases of each generator by the cases of its waveform. -/
theorem idleStepKeepsTheTables : Obligations.IdleStepKeepsTheTables := by
  intro s hq
  have hstep : step s = .next (idle s) := by
    unfold step
    rw [hq]
  refine ⟨idle s, hstep, ?_⟩
  have hgen : s.mainPower = true → ∀ g, (idle s).generator g = (s.generator g).pass s.dimFreq := idle_generator
  have hframe := idle_frame s
  generalize idle s = t at hgen hframe
  obtain ⟨_, _, _, _, _, _, _, _, rfl⟩ := hframe
  refine ⟨hq, rfl, rfl, rfl, rfl, rfl, rfl, rfl, rfl, rfl, rfl, rfl, rfl, rfl, fun hp g => ⟨fun hfree => ?_, fun r hbusy => ?_⟩⟩
  · rw [hgen hp, hfree]
    rfl
  · refine ⟨(r.pass s.dimFreq).pwmPhase, (r.pass s.dimFreq).envPhase, ?_, fun hb => ⟨?_, fun hlt => ?_, fun hge hr hs => ?_⟩,
      fun b e hb he => ⟨fun hlt => ?_, fun hge hr hs => ?_⟩⟩
    · rw [hgen hp, hbusy, ← GenRun.pass_phases]
      rfl
    · exact GenRun.pass_steady_envPhase hb
    · rw [GenRun.pass_steady_within hb hlt]
    · rw [GenRun.pass_steady_again hb hge hr hs]
    · rw [GenRun.pass_blinking_within hb he hlt]
      exact ⟨rfl, rfl⟩
    · rw [GenRun.pass_blinking_again hb he hge hr hs]
      exact ⟨rfl, rfl⟩

end Sys2Proof.Machine
end

section
/-!
PROOFS. The inputs (R104 to R109, R118, R120): the debouncer at a pin change, a taken change by the state of its input, the first sample, the long
threshold and the held counts; and the commands that write the configuration of an input and a trigger rule.
-/

namespace Sys2Proof.Machine

/-! ### The debouncer -/

section

variable {s : State} {i : InputNo} {high : Bool}

/-- The debouncer of an OFF input watches nothing (R103). -/
theorem Input.watch_off {k : InputConfig} (h : k.kind = .off) (x : Input) (lv : Bool) : x.watch k lv = x := by
  unfold Input.watch
  rw [h]

/-- The debouncer of a PUSH or LEVEL input starts an interval, or discards the one there (R104). -/
theorem Input.watch_on {k : InputConfig} (h : k.kind ≠ .off) (x : Input) (lv : Bool) :
    x.watch k lv = { x with interval := if x.debounced = some lv then none else k.debounce.map fun ms => ⟨lv, ms⟩ } := by
  unfold Input.watch
  split
  · exact absurd ‹_› h
  · rfl

theorem pinChange_same (h : nth s.inputPins i = high) : pinChange i high s = s := if_pos h

/-- A pin that changes is watched at its new level, taken after polarity (R103, R104). -/
theorem pinChange_watched (h : nth s.inputPins i ≠ high) (hp : s.mainPower = true) : pinChange i high s = { s with
    inputPins := upd s.inputPins i high
    inputs := upd s.inputs i ((s.input i).watch (s.inputConfig i) (high != (s.inputConfig i).activeLow)) } := by
  have hasserted : asserted { s with inputPins := upd s.inputPins i high } i = (high != (s.inputConfig i).activeLow) :=
    congrArg (· != (s.inputConfig i).activeLow) (nth_upd_same _ _ _)
  unfold pinChange
  rw [if_neg h, if_pos hp, hasserted]
  rfl

end

/-- Settles O39: what the debouncer makes of the pin's new level (`pinChange_watched`). -/
theorem pinChangesStartTheDebouncer : Obligations.PinChangesStartTheDebouncer := by
  intro s i high
  refine ⟨fun h => congrArg Host.Outcome.next (pinChange_same h), fun h hp => ⟨fun hoff => ⟨_, rfl, ?_⟩, fun lv hon hlv => ?_⟩⟩
  · rw [pinChange_watched h hp, Input.watch_off hoff]
    exact congrArg (fun x => { s with inputPins := upd s.inputPins i high, inputs := x }) (upd_self s.inputs i)
  · subst hlv
    refine congrArg Host.Outcome.next ?_
    rw [pinChange_watched h hp, Input.watch_on hon]

/-! ### Changes taken -/

section

variable {s : State} {i : InputNo} {lv : Bool} {ms : Nat}

/-- After the first sample, a taken change is a press or a release (R104). -/
theorem takeChange_later (hf : (s.input i).firstPending = some false) (hi : (s.input i).interval = some ⟨lv, ms⟩) :
    takeChange i s = if lv then pressTaken i s else releaseTaken i s := by
  unfold takeChange
  rw [hi]
  dsimp only
  rw [if_neg (by rw [hf]; decide)]

/-- A change taken before any other is the first sample (R120). -/
theorem takeChange_first (hf : (s.input i).firstPending = some true) (hi : (s.input i).interval = some ⟨lv, ms⟩) :
    takeChange i s = firstSample i lv s := by
  unfold takeChange
  rw [hi]
  exact if_pos hf

/-- The input as a taken change to RELEASED leaves it (R106, R107, R108). -/
def Input.letGo (x : Input) : Input :=
  { x with state := .released, pressTime := none, heldCount := none, debounced := some false, interval := none }

theorem pressTaken_released (h : (s.input i).state = .released) : pressTaken i s = s.setInput i { s.input i with
    state := .pressed, pressTime := some s.msTime, heldCount := some 0, debounced := some true, interval := none } := by
  simp only [pressTaken, Input.taken, h]

theorem pressTaken_inactive (h : (s.input i).state = .inactive) : pressTaken i s = produce i .activate (s.setInput i { s.input i with
    state := .active, debounced := some true, interval := none }) := by
  simp only [pressTaken, Input.taken, h]

theorem releaseTaken_pressed (h : (s.input i).state = .pressed) :
    releaseTaken i s = produce i .short (s.setInput i (s.input i).letGo) := by
  simp only [releaseTaken, Input.taken, Input.letGo, h]

theorem releaseTaken_longHeld (h : (s.input i).state = .longHeld) :
    releaseTaken i s = produce i .longRelease (s.setInput i (s.input i).letGo) := by
  simp only [releaseTaken, Input.taken, Input.letGo, h]

theorem releaseTaken_stuck (h : (s.input i).state = .stuck) : releaseTaken i s = s.setInput i (s.input i).letGo := by
  simp only [releaseTaken, Input.taken, Input.letGo, h]

theorem releaseTaken_active (h : (s.input i).state = .active) : releaseTaken i s = produce i .deactivate (s.setInput i { s.input i with
    state := .inactive, debounced := some false, interval := none }) := by
  simp only [releaseTaken, Input.taken, h]

end

/-- Settles O40: a press or release (`takeChange_later`) by the state in which it finds its input. -/
theorem changesMoveTheInput : Obligations.ChangesMoveTheInput := by
  intro s i x ms hx hfirst
  subst hx
  have press : (s.input i).interval = some ⟨true, ms⟩ → exec (.changeTaken i) s = .next (pressTaken i s) := fun h =>
    congrArg Host.Outcome.next (takeChange_later hfirst h)
  have release : (s.input i).interval = some ⟨false, ms⟩ → exec (.changeTaken i) s = .next (releaseTaken i s) := fun h =>
    congrArg Host.Outcome.next (takeChange_later hfirst h)
  refine ⟨fun hi hst => ?_, fun hi hst => ?_, fun hi hst => ?_, fun hi hst => ?_, fun hi hst => ?_, fun hi hst => ?_⟩
  · rw [press hi, pressTaken_released hst]
  · rw [release hi, releaseTaken_pressed hst]
    rfl
  · rw [release hi, releaseTaken_longHeld hst]
    rfl
  · rw [release hi, releaseTaken_stuck hst]
    rfl
  · rw [press hi, pressTaken_inactive hst]
    rfl
  · rw [release hi, releaseTaken_active hst]
    rfl

/-! ### First samples -/

section

variable {s : State} {i : InputNo}

/-- The input as its first sample leaves it, in a state (R120). -/
def Input.sampled (x : Input) (st : InputState) (lv : Bool) : Input :=
  { x with state := st, firstPending := some false, debounced := some lv, interval := none }

/-- A PUSH input is RELEASED at its first sample, or STUCK with INPUT_STUCK (R120). -/
theorem firstSample_push (h : (s.inputConfig i).kind = .push) (lv : Bool) : firstSample i lv s =
    if lv then (s.setInput i ((s.input i).sampled .stuck lv)).raise .inputStuck i.val else s.setInput i ((s.input i).sampled .released lv) := by
  simp only [firstSample, Input.taken, Input.sampled, h]

/-- A LEVEL input is INACTIVE at its first sample, or ACTIVE with an ACTIVATE event (R120). -/
theorem firstSample_level (h : (s.inputConfig i).kind = .level) (lv : Bool) : firstSample i lv s =
    if lv then produce i .activate (s.setInput i ((s.input i).sampled .active lv)) else s.setInput i ((s.input i).sampled .inactive lv) := by
  simp only [firstSample, Input.taken, Input.sampled, h]

end

/-- Settles O41: the first sample by kind and level (`firstSample_push`, `firstSample_level`). -/
theorem firstSamplesSetTheInput : Obligations.FirstSamplesSetTheInput := by
  intro s i lv ms hfirst hint
  have hexec : exec (.changeTaken i) s = .next (firstSample i lv s) := congrArg Host.Outcome.next (takeChange_first hfirst hint)
  rw [hexec]
  refine ⟨fun hpush => ⟨_, rfl, ?_⟩, fun hlevel => ?_⟩
  · rw [firstSample_push hpush]
    cases lv with
    | false => exact ⟨rfl, State.setInput_input_same _ _ _, fun _ => rfl, nofun⟩
    | true =>
      refine ⟨?_, (State.raise_input _ _ _ _).trans (State.setInput_input_same _ _ _), nofun, fun _ hp => ?_⟩
      · rw [if_pos rfl, raise_notices]
        rfl
      · exact congrArg State.notices (State.raise_powered (s.setInput i _) .inputStuck i.val hp)
  · rw [firstSample_level hlevel]
    cases lv with
    | false =>
      refine congrArg Host.Outcome.next ?_
      simp only [Bool.false_eq_true, if_false, List.append_nil]
      rfl
    | true => rfl

/-! ### Held inputs -/

section

variable {s : State} {i : InputNo}

theorem reachThreshold_pressed (h : (s.input i).state = .pressed) : reachThreshold i s =
    produce i .long (s.setInput i { s.input i with state := .longHeld, pressTime := none }) := if_pos h

theorem reachThreshold_other (h : (s.input i).state ≠ .pressed) : reachThreshold i s = s := if_neg h

theorem exec_inputStuck_stands (h : s.heldDue = 0 ∨ s.calendar.osc ≠ .steady) : exec .inputStuck s = .next s := by
  refine congrArg Host.Outcome.next ?_
  split
  · exact if_pos (h.resolve_right (absurd ‹_›))
  · rfl

theorem exec_inputStuck_steady (ho : s.calendar.osc = .steady) : exec .inputStuck s = .next (takeHeldTick s) :=
  congrArg Host.Outcome.next (if_pos ho)

theorem takeHeldTick_of_due (h : s.heldDue ≠ 0) : takeHeldTick s = heldTick { s with heldDue := s.heldDue - 1 } := if_neg h

end

/-- Settles O42: the threshold, and the held tick that INPUT_STUCK takes (`heldTick_input`, `heldTick_notices`). -/
theorem heldInputsBecomeLongAndStuck : Obligations.HeldInputsBecomeLongAndStuck := by
  intro s
  refine ⟨fun i h => congrArg Host.Outcome.next (reachThreshold_pressed h), fun i h => congrArg Host.Outcome.next (reachThreshold_other h),
    exec_inputStuck_stands, fun hdue ho => ⟨_, exec_inputStuck_steady ho, ?_, (takeHeldTick_only s).1, fun i => ?_, fun hp => ?_⟩⟩
  · rw [takeHeldTick_due]
    exact Nat.succ_pred_eq_of_ne_zero hdue
  · rw [takeHeldTick_of_due hdue]
    exact heldTick_input _ i
  · rw [takeHeldTick_of_due hdue]
    exact heldTick_notices (s := { s with heldDue := s.heldDue - 1 }) hp

/-! ### ICFG and TRWR -/

/-- An accepted ICFG puts the input's idle state in place, its pin taken after the new polarity (R104, R118). -/
theorem configureInput_eq (i : InputNo) (k : InputConfig) (s : State) : configureInput i k s = { s with
    inputConfigs := upd s.inputConfigs i k
    inputs := upd s.inputs i (Input.idle k (nth s.inputPins i != k.activeLow)) } := by
  have hasserted : asserted (s.setInputConfig i k) i = (nth s.inputPins i != k.activeLow) := by
    unfold asserted
    rw [State.setInputConfig_inputConfig_same]
    rfl
  unfold configureInput
  dsimp only
  rw [hasserted]
  rfl

/-- The idle state by kind: nothing held for an OFF input, else not asserted, with a pin found asserted timed (R118). -/
theorem Input.idle_of_kind {k : InputConfig} {pin : Bool} {x : Input}
    (h : k.kind = .off ∧ x = ⟨.none, none, none, none, none, none⟩
      ∨ k.kind = .push ∧ x = ⟨.released, none, none, some false, some false, if pin then k.debounce.map fun ms => ⟨true, ms⟩ else none⟩
      ∨ k.kind = .level ∧ x = ⟨.inactive, none, none, some false, some false, if pin then k.debounce.map fun ms => ⟨true, ms⟩ else none⟩) :
    Input.idle k pin = x := by
  unfold Input.idle startInterval
  rcases h with ⟨hk, rfl⟩ | ⟨hk, rfl⟩ | ⟨hk, rfl⟩ <;> simp only [hk, Input.blank]

/-- Settles O37: the checks of the line (`bodyIcfg_cases`), then the idle state (`configureInput_eq`). -/
theorem icfgSetsTheIdleState : Obligations.IcfgSetsTheIdleState := by
  intro s fields bad h hb
  obtain ⟨hbad, hgood, hreads⟩ := bodyIcfg_cases (begun (text "ICFG") fields s) hb
  refine ⟨fun h1 => ?_, fun h1 => ⟨fun hn => ?_, fun hn hno => ?_⟩, fun i k x hline hx => ?_⟩
  · exact congrArg Host.Outcome.next (carryOut_refused h (hbad h1))
  · exact congrArg Host.Outcome.next (carryOut_refused h ((hgood h1).1 hn))
  · exact congrArg Host.Outcome.next (carryOut_refused h ((hgood h1).2 hn hno))
  · have hset : configureInput i k (begun (text "ICFG") fields s) =
        { begun (text "ICFG") fields s with inputConfigs := upd s.inputConfigs i k, inputs := upd s.inputs i x } := by
      rw [← Input.idle_of_kind hx]
      exact configureInput_eq i k _
    exact congrArg Host.Outcome.next (carryOut_accepted h (bodyIcfg_frame _) ((hreads i k hline).trans (congrArg (accept []) hset)))

/-- Settles O38: the checks of the line (`bodyTrwr_cases`), then the rule as it is written. -/
theorem trwrWritesTheRule : Obligations.TrwrWritesTheRule := by
  intro s fields h
  obtain ⟨hbad, hgood, hreads⟩ := bodyTrwr_cases (lineTaken_fields h rfl) (begun (text "TRWR") fields s)
  refine ⟨fun h1 => ?_, fun h1 => ⟨fun hn hc => ?_, fun hn hno => ?_⟩, fun n r hline => ?_⟩
  · exact congrArg Host.Outcome.next (carryOut_refused h (hbad h1))
  · exact congrArg Host.Outcome.next (carryOut_refused h ((hgood h1).1 hn hc))
  · exact congrArg Host.Outcome.next (carryOut_refused h ((hgood h1).2 hn hno))
  · refine congrArg Host.Outcome.next ((carryOut_accepted h (bodyTrwr_frame _) (hreads n r hline)).trans ?_)
    cases r <;> rfl

end Sys2Proof.Machine
end

section
/-!
PROOFS. The application of an input event (R110, R112, R163): how it is taken, what a visit that does no action makes of its rule, and how its steps
follow one another (log 7).
-/

namespace Sys2Proof.Machine

/-! ### Taking an event -/

section

variable {s : State} {i : InputNo} {a : Applying}

theorem takeInputEvent_oldest {e : InputEvent} (h : s.applying = none) (he : s.events.find? (fun x => x.input == i) = some e) :
    takeInputEvent i s = { s with events := s.events.erase e, applying := some ⟨e, 0, none⟩ } := by
  unfold takeInputEvent oldestEvent
  rw [h, he]

/-- While an event is being applied no other is taken (R110). -/
theorem takeInputEvent_busy (h : s.applying ≠ none) : takeInputEvent i s = s := by
  unfold takeInputEvent
  split
  · exact absurd ‹_› h
  · rfl

theorem exec_inputEvent_busy (h : s.applying ≠ none) (k : Nat) : exec (.inputEvent i k) s = .next (runApply k s) :=
  congrArg (fun t => Host.Outcome.next (runApply k t)) (takeInputEvent_busy h)

/-! ### A visit without an action -/

theorem applyStep_passes (ha : s.applying = some a) (ht : a.toggle = none) (hm : ruleMatches (s.rule a.next) a.event = false) :
    applyStep s = { s with applying := a.advance } := by
  simp only [applyStep, ha, ht, hm, Bool.false_eq_true, if_false]

theorem applyStep_unsound (ha : s.applying = some a) (ht : a.toggle = none) (hm : ruleMatches (s.rule a.next) a.event = true)
    (hs : ruleSound (s.rule a.next) = false) : applyStep s = { checkRule a.next s with applying := a.advance } := by
  simp only [applyStep, ha, ht, hm, hs, if_true, Bool.false_eq_true, if_false]

end

theorem active_of_ruleMatches {r : Rule} {e : InputEvent} (h : ruleMatches r e = true) : r.state = .active := by
  simp only [ruleMatches, Bool.and_eq_true, beq_iff_eq] at h
  exact h.1

/-- A check that an ACTIVE rule fails makes it FAULTED with RULE_FAULT (R163). -/
theorem checkRule_fails {n : RuleNo} {s : State} (ha : (s.rule n).state = .active) (hs : ruleSound (s.rule n) = false) (hp : s.mainPower = true) :
    checkRule n s = { s with
      rules := upd s.rules n { s.rule n with state := .faulted }
      notices := upd s.notices 6 ((s.notice .ruleFault).raised n.val) } := by
  unfold checkRule
  rw [if_pos ⟨ha, hs⟩, State.raise_powered (s.setRule n _) .ruleFault n.val hp]
  rfl

/-! ### Steps one after another -/

/-- The steps that follow the first are those of the event that goes on; when it has ended there are none (log 7). -/
theorem exec_inputEvent_succ {s : State} {a : Applying} (i : InputNo) (ha : s.applying = some a) (k : Nat) :
    ∃ t u, exec (.inputEvent i 1) s = .next t ∧ exec (.inputEvent i (k + 1)) s = .next u
      ∧ (t.applying ≠ none → exec (.inputEvent i k) t = .next u) ∧ (t.applying = none → u = t) :=
  have hbusy : s.applying ≠ none := by rw [ha]; nofun
  ⟨applyStep s, runApply k (applyStep s), exec_inputEvent_busy hbusy 1, exec_inputEvent_busy hbusy (k + 1),
    fun h => exec_inputEvent_busy h k, fun h => runApply_none h k⟩

/-- Settles O43: the taking of an event, a visit without an action, and the steps (`runApply_finishes`). -/
theorem anEventVisitsTheRules : Obligations.AnEventVisitsTheRules := by
  intro s i e a next hnext
  refine ⟨fun hnone he => ?_, fun ha ht => ⟨fun hm => ?_, fun hm hs hp => ?_⟩, fun ha k => exec_inputEvent_succ i ha k,
    ⟨_, rfl, runApply_finishes 32 (stepsLeft_le _)⟩⟩
  · have htake := takeInputEvent_oldest hnone he
    have hstart : ∀ k, exec (.inputEvent i k) s =
        .next (runApply k { s with events := s.events.erase e, applying := some ⟨e, 0, none⟩ }) := fun k =>
      congrArg (fun t => Host.Outcome.next (runApply k t)) htake
    exact ⟨hstart 0, fun k => (hstart k).trans (exec_inputEvent_busy (Option.some_ne_none _) k).symm⟩
  · rw [exec_inputEvent_one i ha, applyStep_passes ha ht hm, applying_advance hnext]
  · rw [exec_inputEvent_one i ha, applyStep_unsound ha ht hm hs, checkRule_fails (active_of_ruleMatches hm) hs hp, applying_advance hnext]

end Sys2Proof.Machine
end

section
/-!
PROOFS. The load channels: CCLR (R137), a freeze in three lines (R138, R139), the completion of a pulse and the rollover of a switch counter (R134, R136),
and CFLT (R168).
-/

namespace Sys2Proof.Machine

/-! ### CCLR -/

theorem onChannel_fieldCount {fields : List Text} (hh : ∀ f ∈ fields, allHex f) (hl : fields.length ≠ 1) (act : Chan → State → Reply) (u : State) :
    onChannel fields act u = refuse .fieldCount u := by
  unfold onChannel
  rw [bad_of_allHex _ hh, if_neg Bool.false_ne_true]
  split
  · exact absurd rfl hl
  · rfl

theorem onChannel_range {f : Text} (hh : allHex f) (hn : channelNumber f = none) (act : Chan → State → Reply) (u : State) :
    onChannel [f] act u = refuse .range u := by
  unfold onChannel
  rw [strict_bad_one hh, if_neg Bool.false_ne_true]
  simp only [hn]

theorem clearSwitch_frozen {c : Chan} {u : State} (h : u.frozen c = true) : clearSwitch c u = refuse .frozen u := if_pos h

theorem clearSwitch_unfrozen {c : Chan} {u : State} (h : u.frozen c = false) : clearSwitch c u = accept [] (u.setSwitch c ⟨0, false⟩) :=
  if_neg (Bool.eq_false_iff.mp h)

/-- Settles O48: the checks of the line in their order, then the freeze of its channel. -/
theorem cclrClearsTheCounter : Obligations.CclrClearsTheCounter := by
  intro s fields h hh
  refine ⟨fun hl => ?_, ?_⟩
  · exact congrArg Host.Outcome.next (carryOut_refused h (onChannel_fieldCount hh hl _ _))
  · rintro f rfl
    refine ⟨fun hn => ?_, fun c hc => ?_⟩
    · exact congrArg Host.Outcome.next (carryOut_refused h (onChannel_range (hh f List.mem_cons_self) hn _ _))
    · have hreads : bodyCclr [f] (begun (text "CCLR") [f] s) = clearSwitch c (begun (text "CCLR") [f] s) := onChannel_reads hc
      refine ⟨fun hf => ?_, fun hf => ?_⟩
      · exact congrArg Host.Outcome.next (carryOut_refused h (hreads.trans (clearSwitch_frozen hf)))
      · exact congrArg Host.Outcome.next (carryOut_accepted h (bodyCclr_frame _) (hreads.trans (clearSwitch_unfrozen hf)))

/-! ### FRZK -/

theorem bodyFrzk_reads {f g : Text} {key : Nat} {m : BitVec 24} (hf : number 255 f = some key) (hg : channelSetField g = some m) (hm : m ≠ 0)
    (q : FreezeSeq) (u : State) : bodyFrzk [f, g] q u = freezeStep q key m u := by
  unfold bodyFrzk frzkFields
  rw [strict_bad_two (number_allHex hf) (channelSetField_allHex hg), if_neg Bool.false_ne_true]
  simp only [hf, hg, if_neg hm]

theorem freezeStep_idle (m : BitVec 24) (u : State) : freezeStep .idle 0x5A m u = accept [text "1"] { u with freezeSeq := .one m } := rfl

theorem freezeStep_one (m : BitVec 24) (u : State) : freezeStep (.one m) 0xA5 m u = accept [text "2"] { u with freezeSeq := .two m } :=
  if_pos ⟨rfl, rfl⟩

theorem freezeStep_two (m : BitVec 24) (u : State) : freezeStep (.two m) 0x5A m u =
    accept [text "3", hexText 6 (u.freezeMask ||| m).toNat] { u with freezeMask := u.freezeMask ||| m, freezeSeq := .idle } :=
  if_pos ⟨rfl, rfl⟩

/-- A FRZK that is not the next step of the sequence it finds (R138). -/
theorem freezeStep_refused {q : FreezeSeq} {key : Nat} {m : BitVec 24} (h0 : ¬ (q = .idle ∧ key = 0x5A)) (h1 : ¬ (q = .one m ∧ key = 0xA5))
    (h2 : ¬ (q = .two m ∧ key = 0x5A)) (u : State) : freezeStep q key m u = refuse .sequenceError u := by
  cases q with
  | idle => exact if_neg fun hk => h0 ⟨rfl, hk⟩
  | one m0 => exact if_neg fun ⟨hk, hm⟩ => h1 ⟨by rw [hm], hk⟩
  | two m0 => exact if_neg fun ⟨hk, hm⟩ => h2 ⟨by rw [hm], hk⟩

/-- Settles O49: the line reads as a key and a set of channels, and `freezeStep` takes it against the sequence it finds. -/
theorem freezeTakesThreeLines : Obligations.FreezeTakesThreeLines := by
  intro s f g key m h hf hg hm
  have hreads := fun q => bodyFrzk_reads hf hg hm q (begun (text "FRZK") [f, g] s)
  have hframe := bodyFrzk_frame [f, g] s.freezeSeq
  refine ⟨fun hq hk => ?_, fun hq hk => ?_, fun hq hk => ?_, fun h0 h1 h2 => ?_⟩
  · subst hk
    exact congrArg Host.Outcome.next (carryOut_accepted h hframe (hq ▸ (hreads .idle).trans (freezeStep_idle m _)))
  · subst hk
    exact congrArg Host.Outcome.next (carryOut_accepted h hframe (hq ▸ (hreads (.one m)).trans (freezeStep_one m _)))
  · subst hk
    exact congrArg Host.Outcome.next (carryOut_accepted h hframe (hq ▸ (hreads (.two m)).trans (freezeStep_two m _)))
  · exact congrArg Host.Outcome.next (carryOut_refused h ((hreads _).trans (freezeStep_refused h0 h1 h2 _)))

/-! ### PULSE_COMPLETION -/

section

variable {c : Chan} {s : State} {z : Channel}

theorem raise_setChannel (u : State) (k : NoticeKind) (j : Nat) (c : Chan) (z : Channel) :
    (u.setChannel c z).raise k j = (u.raise k j).setChannel c z := by
  unfold State.raise
  rw [State.setChannel_mainPower]
  cases u.mainPower <;> rfl

theorem countSwitch_setChannel (c : Chan) (u : State) (z : Channel) : countSwitch c (u.setChannel c z) = (countSwitch c u).setChannel c z := by
  by_cases h : (u.switch c).count = 9999
  · calc countSwitch c (u.setChannel c z)
      _ = ((u.setSwitch c ⟨0, true⟩).setChannel c z).raise .switchWrap c.val := if_pos h
      _ = ((u.setSwitch c ⟨0, true⟩).raise .switchWrap c.val).setChannel c z := raise_setChannel _ _ _ _ _
      _ = (countSwitch c u).setChannel c z := congrArg (State.setChannel · c z) (if_pos h).symm
  · calc countSwitch c (u.setChannel c z)
      _ = (u.setSwitch c { u.switch c with count := (u.switch c).count + 1 }).setChannel c z := if_neg h
      _ = (countSwitch c u).setChannel c z := congrArg (State.setChannel · c z) (if_neg h).symm

theorem countPulse_setChannel (c : Chan) (counted : Bool) (u : State) (z : Channel) :
    countPulse c counted (u.setChannel c z) = (countPulse c counted u).setChannel c z := by
  cases counted with
  | false => rfl
  | true => exact countSwitch_setChannel c u z

theorem countSwitch_below (h : (s.switch c).count ≠ 9999) :
    countSwitch c s = s.setSwitch c { s.switch c with count := (s.switch c).count + 1 } := if_neg h

/-- A switch counter rolls over from 9999, with its wrap flag and SWITCH_WRAP (R136). -/
theorem countSwitch_rolls (h : (s.switch c).count = 9999) (hp : s.mainPower = true) : countSwitch c s = { s with
    switches := upd s.switches c ⟨0, true⟩
    notices := upd s.notices 11 ((s.notice .switchWrap).raised c.val) } :=
  (if_pos h).trans (State.raise_powered (s.setSwitch c ⟨0, true⟩) .switchWrap c.val hp)

/-- Where a pulse to ON or OFF leaves its channel when it completes (R131, R134). -/
def Channel.pulseDone (x : Channel) (on : Bool) : Channel :=
  { x with pulse := some (if on then .atOn else .atOff), pending := none, pulseTimer := none, pulseCounts := false }

/-- A pulse that completes with no pending target leaves its channel where it went (R134). -/
theorem completePulse_settles {on : Bool} (h : (s.channel c).pulse = some (.pulsing on)) (hp : (s.channel c).pending = none) :
    completePulse c s = countPulse c (on && (s.channel c).pulseCounts) (s.setChannel c ((s.channel c).pulseDone on)) := by
  unfold completePulse
  simp only [h, hp]
  rfl

/-- A pulse that completes gives way to a pulse to its pending target (R134). -/
theorem completePulse_goes_on {on p : Bool} (h : (s.channel c).pulse = some (.pulsing on)) (hp : (s.channel c).pending = some p) :
    completePulse c s = countPulse c (on && (s.channel c).pulseCounts) (s.setChannel c { s.channel c with
      pulse := some (.pulsing p), pending := none, pulseTimer := some ((s.config c).pulseLength.toNat * 10), pulseCounts := true }) := by
  have hconfig := (countPulse_frame c (on && (s.channel c).pulseCounts) s).config c
  unfold completePulse
  simp only [h, hp]
  unfold startPulse
  rw [countPulse_setChannel, countPulse_setChannel, setChannel_twice, State.setChannel_channel_same, State.setChannel_config, hconfig]

/-- A channel that runs no pulse has nothing to complete (log 3). -/
theorem completePulse_none (h : ∀ b, (s.channel c).pulse ≠ some (.pulsing b)) : completePulse c s = s := by
  unfold completePulse
  dsimp only
  split
  · exact absurd ‹_› (h _)
  · rfl

theorem countPulse_below (h : (s.switch c).count ≠ 9999) : countPulse c true (s.setChannel c z) = { s with
    channels := upd s.channels c z
    switches := upd s.switches c { s.switch c with count := (s.switch c).count + 1 } } :=
  countSwitch_below (s := s.setChannel c z) h

theorem countPulse_rolls (h : (s.switch c).count = 9999) (hp : s.mainPower = true) : countPulse c true (s.setChannel c z) = { s with
    channels := upd s.channels c z
    switches := upd s.switches c ⟨0, true⟩
    notices := upd s.notices 11 ((s.notice .switchWrap).raised c.val) } :=
  countSwitch_rolls (s := s.setChannel c z) h hp

end

/-- Settles O52: where the pulse leaves its channel, or the pulse it gives way to, and then whether it counts. -/
theorem pulsesCompleteAndCount : Obligations.PulsesCompleteAndCount := by
  rintro s c x rfl
  refine ⟨?_, fun h => congrArg Host.Outcome.next (completePulse_none h)⟩
  rintro y rfl
  refine ⟨fun h hp => ?_, fun h hp hc => ?_, fun h hp hc hn => ?_, fun h hp hc hn hm => ?_, fun h hp hc => ?_, fun h hp hc hn => ?_,
    fun h hp hc hn hm => ?_, fun h hp => ?_⟩ <;> refine congrArg Host.Outcome.next ?_
  · exact completePulse_settles h hp
  · rw [completePulse_settles h hp, hc]
    rfl
  · rw [completePulse_settles h hp, hc]
    exact countPulse_below hn
  · rw [completePulse_settles h hp, hc]
    exact countPulse_rolls hn hm
  · rw [completePulse_goes_on h hp, hc]
    rfl
  · rw [completePulse_goes_on h hp, hc]
    exact countPulse_below hn
  · rw [completePulse_goes_on h hp, hc]
    exact countPulse_rolls hn hm
  · exact completePulse_goes_on h hp

/-! ### CFLT -/

section

variable {c : Chan} {u : State}

theorem restoreChannel_normal (h : (u.channel c).condition = .normal) : restoreChannel c u = refuse .wrongState u := if_pos h

theorem restoreChannel_faulted (h : (u.channel c).condition = .faulted) : restoreChannel c u =
    accept [] (deriveDrive c true (u.setChannel c { u.channel c with condition := .normal })) := if_neg (by simp [h])

end

theorem steadyAt_unsupervised (high : Bool) : Feedback.unsupervised.steadyAt high = .settling high 20 := rfl

/-- Settles O51: a FAULTED channel made NORMAL has nothing at the pool, and `Derivations` says what such a channel derives. -/
theorem cfltRestoresTheChannel : Obligations.CfltRestoresTheChannel := by
  rintro s f c x h hc rfl
  have hreads : bodyCflt [f] (begun (text "CFLT") [f] s) = restoreChannel c (begun (text "CFLT") [f] s) := onChannel_reads hc
  refine ⟨fun hn => ?_, fun hf hl hfb => ?_⟩
  · exact congrArg Host.Outcome.next (carryOut_refused h (hreads.trans (restoreChannel_normal hn)))
  · obtain ⟨u, hu⟩ : ∃ u, u = begun (text "CFLT") [f] s := ⟨_, rfl⟩
    obtain ⟨x, hx⟩ : ∃ x, x = { s.channel c with condition := .normal } := ⟨_, rfl⟩
    have hconfig : (u.setChannel c x).config c = s.config c := by subst hu; rfl
    have hchannel : (u.setChannel c x).channel c = x := State.setChannel_channel_same _ _ _
    have hlink : x.link = .none := by subst hx; exact hl
    have hpresent : x.present = (s.channel c).present := by subst hx; rfl
    have hfeedback : x.feedback = .unsupervised := by subst hx; exact hfb
    have hpower : u.mainPower = true := by subst hu; exact lineTaken_mainPower (s := s) h
    have restores : ∀ {t}, deriveDrive c true (u.setChannel c x) = t → exec (.cflt [f]) s = .next { t with port := answered s.port .ok [] } := by
      rintro t rfl
      subst hu hx
      exact congrArg Host.Outcome.next (carryOut_accepted h (bodyCflt_frame _) (hreads.trans (restoreChannel_faulted hf)))
    rw [← hpresent]
    refine ⟨fun hk hn => ?_, fun p g hk hn hlow hg => ?_, fun on hk hn hg hon => ?_, fun hk hp => ?_⟩
    · have e := deriveDrive_plain hconfig hchannel hk hlink true hn
      rw [setChannel_twice, hfeedback, steadyAt_unsupervised] at e
      subst hx hu
      exact restores e
    · have e := deriveDrive_granted hconfig hchannel hk hlink true hn (by subst hu; exact hlow) (by subst hu; exact hg)
      rw [State.setChannel_channels, upd_upd, ← hfeedback] at e
      subst hx hu
      exact restores e
    · have e := deriveDrive_waits hconfig hchannel hk hlink true hn (by subst hu; exact hg)
      rw [setChannel_twice, hfeedback, steadyAt_unsupervised, State.raise_powered _ _ _ (show (u.setChannel c _).mainPower = true from hpower)] at e
      subst hon hx hu
      simp only [decide_eq_true_eq]
      exact restores e
    · have e := deriveDrive_pulse hconfig hchannel hk (by subst hx; exact hp) true
      rw [setChannel_twice] at e
      subst hx hu
      exact restores e

end Sys2Proof.Machine
end

section
/-!
PROOFS. The demands that need a generator (Table 6-3), and a demand published to one channel by a CSET (R78, R127 to R133).
-/

namespace Sys2Proof.Machine

/-! ### Table 6-3 -/

theorem needs_switched (lv : BitVec 8) (b : Option Blink) :
    needs .switched ⟨lv, b⟩ = if lv = 0 then none else b.map fun x => ⟨255, some x⟩ := by
  unfold needs Demand.on
  by_cases h : lv = 0 <;> simp [h]

theorem needs_dimmed (lv : BitVec 8) (b : Option Blink) :
    needs .dimmed ⟨lv, b⟩ = if lv = 0 ∨ (lv = 255 ∧ b = none) then none else some ⟨lv, b⟩ := by
  unfold needs Demand.on
  by_cases h0 : lv = 0#8
  · simp [h0]
  · cases b with
    | some x => simp [h0]
    | none => by_cases h255 : lv = 255#8 <;> simp [h0, h255]

/-! ### A CSET of priority 3 on one channel -/

section

variable {c : Chan} {q : Request} {lv : BitVec 8}

/-- A claim of the highest priority goes to the head of its list (R76). -/
theorem putClaim_highest {cl : Claim} (h : cl.priority = 3) (l : List Claim) :
    putClaim cl l = cl :: l.filter fun x => x.source != cl.source := by
  unfold putClaim
  cases l.filter fun x => x.source != cl.source with
  | nil => rfl
  | cons x xs => exact if_pos (by rw [h]; omega)

theorem toChans_single {n : BitVec 8} (h : n.toNat = c.val) : toChans [n] = [c] := by
  unfold toChans
  simp only [List.filterMap_cons, List.filterMap_nil]
  unfold toChan
  simp [h]

theorem place_one (h : q.targets = [(c, lv)]) (s : State) : place q s = s.setClaimList c (putClaim (q.claim lv) (s.claimList c)) := by
  unfold place
  rw [h]
  rfl

/-- A request on one channel takes an entry unless its source holds a claim there (R80). -/
theorem needed_one (h : q.targets = [(c, lv)]) {s : State} (hroom : (∀ cl ∈ s.claimList c, cl.source ≠ q.source) → freeCount s ≠ 0) :
    needed q s ≤ freeCount s := by
  have hone : needed q s ≤ 1 := by simpa [h] using needed_le q s
  by_cases hs : ∀ cl ∈ s.claimList c, cl.source ≠ q.source
  · have := hroom hs
    omega
  · have hnone : needed q s = 0 := by
      rw [needed_map (chans := [c]) (g := fun _ => lv) h]
      simpa using hs
    omega

/-- A claim at the head of its list makes the demand of its channel (R78), and of no other. -/
theorem demandOf_setClaimList_head (s : State) (cl : Claim) (l : List Claim) (e : Chan) :
    demandOf (s.setClaimList c (cl :: l)) e = if e = c then ⟨cl.level, cl.blink⟩ else demandOf s e := by
  unfold demandOf
  by_cases h : e = c
  · subst h
    simp
  · simp [h]

theorem takeOrder_state (s : State) : ∃ po, (takeOrder s).2 = { s with publishOrders := po } := by
  unfold takeOrder
  split
  · exact ⟨_, rfl⟩
  · exact ⟨_, rfl⟩

/-- A request of priority 3 on one channel, whose demand is the only one to change, is that channel's taking it (R78, R81). -/
theorem publish_place_one (h : q.targets = [(c, lv)]) (hp : q.priority = 3) {s : State} (hpresent : ∀ e, (s.channel e).present = demandOf s e)
    (hne : (s.channel c).present ≠ ⟨lv, q.blink⟩) :
    ∃ cl po, publish (place q s) = takeDemand c ⟨lv, q.blink⟩ { s with claims := cl, publishOrders := po } := by
  have hplace : place q s = s.setClaimList c (q.claim lv :: (s.claimList c).filter fun x => x.source != q.source) := by
    rw [place_one h, putClaim_highest hp]
    rfl
  have hdemand : ∀ e, demandOf (place q s) e = if e = c then ⟨lv, q.blink⟩ else demandOf s e := by
    intro e
    rw [hplace]
    exact demandOf_setClaimList_head s (q.claim lv) _ e
  have hchannel : ∀ e, (place q s).channel e = s.channel e := by
    intro e
    rw [hplace]
    rfl
  obtain ⟨po, hpo⟩ := takeOrder_state (place q s)
  refine ⟨(place q s).claims, po, (publish_one (c := c) (fun e he => ?_) ?_).trans ?_⟩
  · rw [hchannel, hdemand, if_neg he, hpresent]
  · rw [hchannel, hdemand, if_pos rfl]
    exact hne
  · rw [hpo, hdemand, if_pos rfl, hplace]
    rfl

end

/-- Settles O46: Table 6-3 by its kinds; and a CSET whose publication is one channel's taking its demand (`publish_place_one`), which
`takeDemand_effect` describes. -/
theorem demandsThatNeedAGenerator : Obligations.DemandsThatNeedAGenerator := by
  refine ⟨fun lv b => ⟨needs_switched lv b, needs_dimmed lv b, rfl⟩, ?_⟩
  intro s fields n hold c d k x y steady waits h hl hn hroom hpresent hne hk hx hy hs hw
  obtain ⟨-, -, hreads⟩ := bodyCset_cases (lineTaken_fields h rfl) (begun (text "CSET") fields s)
  have hbody := hreads _ _ _ _ _ hl
  rw [toChans_single hn, List.map_singleton] at hbody
  have hfit := needed_one (q := ⟨.port, [(c, d.level)], 3, d.blink, hold⟩) rfl (s := begun (text "CSET") fields s) hroom
  obtain ⟨cl, po, hpub⟩ := publish_place_one (q := ⟨.port, [(c, d.level)], 3, d.blink, hold⟩) rfl rfl (s := begun (text "CSET") fields s) hpresent hne
  refine ⟨_, congrArg Host.Outcome.next (carryOut_accepted h (bodyCset_frame fields) (hbody.trans (portRequest_granted hfit))), ?_⟩
  have heffect := takeDemand_effect { begun (text "CSET") fields s with claims := cl, publishOrders := po } (lineTaken_mainPower (s := s) h) c d k x y
    steady waits hk hx hy hs hw _ hpub
  rw [hpub] at heffect ⊢
  have hoff := fun e (he : e ≠ c) => takeDemand_off he d { begun (text "CSET") fields s with claims := cl, publishOrders := po }
  exact ⟨fun e he => ⟨(hoff e he).1, (hoff e he).2.1⟩, heffect⟩

end Sys2Proof.Machine
end

section
/-!
PROOFS. CCFG (R124, R125): an accepted one step by step, first to the channel as the derivation of its drive finds it (`configureChannel_eq`), then by what
the pool gives back, what is counted, and what the channel derives.
-/

namespace Sys2Proof.Machine

/-! ### What an accepted CCFG makes of its channel before the drive is derived (R125) -/

/-- A channel whose pulse in progress has been cut off (R125 step 1). -/
def Channel.cut (x : Channel) : Channel :=
  match x.pulse with
  | some (.pulsing _) => { x with pulse := some .unknown, pending := none, pulseTimer := none, pulseCounts := false }
  | _ => x

/-- A channel with a configuration just stored and its demand taken, as the derivation of its drive finds it (R125 steps 1 to 5). -/
def Channel.configured (x : Channel) (k : ChannelConfig) (d : Demand) : Channel where
  present := d
  condition := x.condition
  drive := .inactive
  link := .none
  pulse := if k.kind = .pulsed then some .unknown else none
  pending := x.cut.pending
  pulseTimer := x.cut.pulseTimer
  pulseCounts := x.cut.pulseCounts
  feedback := if x.condition = .normal ∧ k.kind ≠ .pulsed then x.feedback.steadyAt k.activeLow else .unsupervised

theorem Channel.cut_keeps (x : Channel) :
    x.cut.present = x.present ∧ x.cut.condition = x.condition ∧ x.cut.link = x.link ∧ x.cut.feedback = x.feedback := by
  unfold Channel.cut
  split <;> exact ⟨rfl, rfl, rfl, rfl⟩

/-- The part once an accepted CCFG has given up what its channel has at the pool and stored its configuration (R125 steps 1 and 2). -/
def ccfgStored (c : Chan) (k : ChannelConfig) (s : State) : State := (leavePool c (cutPulse c s)).setConfig c k

/-- The part as the derivation of the drive finds it: the channel configured, and its demand counted when it rises from 0 (R125, R136). -/
def ccfgUnderived (c : Chan) (k : ChannelConfig) (s : State) : State :=
  countPulse c (countsRise k.kind (s.channel c) (demandOf (s.setConfig c k) c))
    ((ccfgStored c k s).setChannel c ((s.channel c).configured k (demandOf (s.setConfig c k) c)))

section

variable {c : Chan} {k : ChannelConfig} {u : State} {x : Channel}

theorem setChannel_self (s : State) (c : Chan) : s.setChannel c (s.channel c) = s := by
  show { s with channels := upd s.channels c (nth s.channels c) } = s
  rw [upd_self]

theorem cutPulse_eq (c : Chan) (s : State) : cutPulse c s = s.setChannel c (s.channel c).cut := by
  have hself := (setChannel_self s c).symm
  unfold cutPulse Channel.cut
  cases h : (s.channel c).pulse with
  | none => exact hself
  | some p =>
    cases p with
    | unknown => exact hself
    | atOff => exact hself
    | atOn => exact hself
    | pulsing on => rfl

/-- Steps 3 and 4: the pins inactive, and the pulse state of the kind (R125). -/
theorem freshPulse_pinsInactive (hk : u.config c = k) (hx : u.channel c = x) : freshPulse c (pinsInactive c u) = u.setChannel c { x with
    drive := .inactive
    pulse := if k.kind = .pulsed then some .unknown else none
    feedback := if x.condition = .normal ∧ k.kind ≠ .pulsed then x.feedback.steadyAt k.activeLow else .unsupervised } := by
  have fresh : ∀ y, freshPulse c (u.setChannel c y) = u.setChannel c { y with pulse := if k.kind = .pulsed then some .unknown else none } := by
    intro y
    unfold freshPulse
    rw [setChannel_twice, State.setChannel_channel_same, State.setChannel_config, hk]
  unfold pinsInactive
  rw [hk, hx]
  by_cases h : x.condition = .normal ∧ k.kind ≠ .pulsed
  · rw [if_pos h, if_pos h, driveSteady_eq hk hx, fresh]
    simp
  · rw [if_neg h, if_neg h, fresh]

theorem countsRise_iff (k : ChanKind) (x : Channel) (d : Demand) :
    countsRise k x d = true ↔ x.condition = .normal ∧ k ≠ .pulsed ∧ x.present.level = 0 ∧ d.level ≠ 0 := by
  simp [countsRise, Demand.on, and_assoc]

theorem takePresent_eq (hk : u.config c = k) (hx : u.channel c = x) (d : Demand) :
    takePresent c d u = countPulse c (countsRise k.kind x d) (u.setChannel c { x with present := d }) := by
  unfold takePresent countPulse
  rw [hk, hx]

/-- A demand that has not changed is taken without effect, so that a publication to one channel is its taking its demand (R78). -/
theorem republish_eq (c : Chan) (s : State) : republish c s = takePresent c (demandOf s c) s := by
  unfold republish
  split
  · next h =>
    have hnot : countsRise (s.config c).kind (s.channel c) (s.channel c).present = false := by
      rw [Bool.eq_false_iff, Ne, countsRise_iff]
      rintro ⟨-, -, h0, h1⟩
      exact h1 h0
    rw [takePresent_eq rfl rfl, h, hnot]
    exact (setChannel_self s c).symm
  · rfl

/-- Step 5: the channel takes its demand, counted when it rises from 0 (R125, R136). -/
theorem republish_setChannel (hk : u.config c = k) (x : Channel) : republish c (u.setChannel c x) =
    countPulse c (countsRise k.kind x (demandOf u c)) (u.setChannel c { x with present := demandOf u c }) := by
  rw [republish_eq, takePresent_eq (u := u.setChannel c x) hk (State.setChannel_channel_same _ _ _), setChannel_twice]
  rfl

theorem ccfgStored_channel (c : Chan) (k : ChannelConfig) (s : State) : (ccfgStored c k s).channel c = { (s.channel c).cut with link := .none } := by
  unfold ccfgStored
  rw [State.setConfig_channel, (leavePool_effect (cutPulse c s) c).1, cutPulse_eq, State.setChannel_channel_same]

theorem ccfgStored_config (c : Chan) (k : ChannelConfig) (s : State) : (ccfgStored c k s).config c = k := State.setConfig_config_same _ _ _

theorem ccfgStored_demandOf (c : Chan) (k : ChannelConfig) (s : State) : demandOf (ccfgStored c k s) c = demandOf (s.setConfig c k) c := by
  have hframe := (cutPulse_frame c s).trans (leavePool_frame c _)
  unfold demandOf
  rw [ccfgStored_config, show (ccfgStored c k s).claimList c = s.claimList c from hframe.claimList c, State.setConfig_config_same,
    State.setConfig_claimList]

theorem countsRise_congr (k : ChanKind) {x y : Channel} (hc : y.condition = x.condition) (hp : y.present = x.present) (d : Demand) :
    countsRise k y d = countsRise k x d := by
  unfold countsRise
  rw [hc, hp]

/-- An accepted CCFG, step by step (R125). -/
theorem configureChannel_eq (c : Chan) (k : ChannelConfig) (s : State) : configureChannel c k s = deriveNormal c (ccfgUnderived c k s) := by
  obtain ⟨hpresent, hcondition, -, hfeedback⟩ := (s.channel c).cut_keeps
  have hk := ccfgStored_config c k s
  unfold ccfgUnderived Channel.configured
  rw [← ccfgStored_demandOf, ← countsRise_congr k.kind hcondition hpresent, ← hcondition, ← hfeedback]
  refine congrArg (deriveNormal c) ((congrArg (republish c) (freshPulse_pinsInactive hk (ccfgStored_channel c k s))).trans ?_)
  exact republish_setChannel hk _

/-! ### What the pool gives back, and what is counted -/

theorem countPulse_channels (c : Chan) (b : Bool) (s : State) : (countPulse c b s).channels = s.channels := by
  unfold countPulse countSwitch
  split
  · dsimp only
    split <;> simp
  · rfl

theorem countPulse_generators (c : Chan) (b : Bool) (s : State) : (countPulse c b s).generators = s.generators := by
  unfold countPulse countSwitch
  split
  · dsimp only
    split <;> simp
  · rfl

theorem countPulse_switch_other (b : Bool) (s : State) {c e : Chan} (h : e ≠ c) : (countPulse c b s).switch e = s.switch e := by
  unfold countPulse countSwitch
  split
  · dsimp only
    split <;> simp [h]
  · rfl

/-- A count raises SWITCH_WRAP at most (R136). -/
theorem countPulse_quiet (c : Chan) (b : Bool) (s : State) : QuietBut [.switchWrap] s (countPulse c b s) := by
  unfold countPulse countSwitch
  split
  · dsimp only
    split
    · exact QuietBut.trans (t := s.setSwitch c ⟨0, true⟩) (QuietBut.of_notices rfl) (QuietBut.raise _ _ List.mem_cons_self)
    · exact QuietBut.of_notices rfl
  · exact QuietBut.refl s

/-- Cutting off a pulse touches nothing that the pool looks at. -/
theorem cutPulse_pool (c : Chan) (s : State) : waiters (cutPulse c s) = waiters s ∧ (∀ e, ((cutPulse c s).channel e).link = (s.channel e).link)
    ∧ (∀ e, ((cutPulse c s).channel e).present = (s.channel e).present) ∧ (cutPulse c s).generators = s.generators
    ∧ (cutPulse c s).channelConfigs = s.channelConfigs ∧ ∀ e, e ≠ c → (cutPulse c s).channel e = s.channel e := by
  obtain ⟨hpresent, -, hlink, -⟩ := (s.channel c).cut_keeps
  rw [cutPulse_eq]
  have hother : ∀ e, e ≠ c → (s.setChannel c (s.channel c).cut).channel e = s.channel e := fun e he => State.setChannel_channel_other _ _ he
  have hl : ∀ e, ((s.setChannel c (s.channel c).cut).channel e).link = (s.channel e).link := by
    intro e
    by_cases he : e = c
    · rw [he, State.setChannel_channel_same, hlink]
    · rw [hother e he]
  refine ⟨waiters_congr (fun e => by rw [hl]) rfl, hl, fun e => ?_, rfl, rfl, hother⟩
  by_cases he : e = c
  · rw [he, State.setChannel_channel_same, hpresent]
  · rw [hother e he]

/-- The channel that is granted a returned generator is not the one that held it. -/
theorem waiter_ne_holder {s : State} {c w : Chan} {g : GenNo} {others : List Chan} (hl : (s.channel c).link = .holding g)
    (hw : waiters s = w :: others) : w ≠ c := by
  have hwaits : (s.channel w).link = .waiting := mem_waiters.mp (hw ▸ List.mem_cons_self)
  rintro rfl
  rw [hl] at hwaits
  cases hwaits

/-- The generators, the waiter that is granted one, and the other channels, once the channel has left the pool (R148, R153). -/
theorem ccfgStored_pool (c : Chan) (k : ChannelConfig) (s : State) :
    (∀ gs, LeftPool c s gs → (ccfgStored c k s).generators = gs)
    ∧ (∀ g w others, (s.channel c).link = .holding g → waiters s = w :: others → needs (s.config w).kind (s.channel w).present ≠ none →
        (ccfgStored c k s).channel w = { s.channel w with link := .holding g, drive := .generator, feedback := .unsupervised })
    ∧ (∀ e, e ≠ c → ((s.channel c).link = .none ∨ (s.channel c).link = .waiting ∨ (waiters s).head? ≠ some e) →
        (ccfgStored c k s).channel e = s.channel e) := by
  obtain ⟨hwaiters, hlink, hpresent, hgen, hconfigs, hother⟩ := cutPulse_pool c s
  have hconfig : ∀ e, (cutPulse c s).config e = s.config e := fun e => congrArg (nth · e) hconfigs
  obtain ⟨-, hgs, hgranted, hstand⟩ := leavePool_effect (cutPulse c s) c
  unfold LeftPool at hgs
  simp only [hwaiters, hlink, hpresent, hgen, hconfig] at hgs hgranted hstand
  refine ⟨hgs, fun g w others hl hw hn => ?_, fun e he h => (hstand e he h).trans (hother e he)⟩
  exact (hgranted g w others hl hw hn).trans (by rw [hother w (waiter_ne_holder hl hw)])

theorem ccfgStored_counts (c : Chan) (k : ChannelConfig) (s : State) :
    (ccfgStored c k s).switches = s.switches ∧ (ccfgStored c k s).notices = s.notices ∧ (ccfgStored c k s).mainPower = s.mainPower := by
  obtain ⟨hswitches, hnotices⟩ := leavePool_counts c (cutPulse c s)
  have hpower := ((cutPulse_frame c s).trans (leavePool_frame c _)).mainPower
  rw [cutPulse_eq] at hswitches hnotices
  unfold ccfgStored
  rw [cutPulse_eq] at hpower ⊢
  exact ⟨hswitches, hnotices, hpower⟩

theorem ccfgUnderived_channel (c : Chan) (k : ChannelConfig) (s : State) :
    (ccfgUnderived c k s).channel c = (s.channel c).configured k (demandOf (s.setConfig c k) c) :=
  (congrArg (nth · c) (countPulse_channels _ _ _)).trans (State.setChannel_channel_same _ _ _)

theorem ccfgUnderived_config (c : Chan) (k : ChannelConfig) (s : State) : (ccfgUnderived c k s).config c = k :=
  ((countPulse_frame _ _ _).config c).trans (ccfgStored_config c k s)

theorem ccfgUnderived_generators (c : Chan) (k : ChannelConfig) (s : State) : (ccfgUnderived c k s).generators = (ccfgStored c k s).generators :=
  countPulse_generators _ _ _

theorem ccfgUnderived_channel_other (k : ChannelConfig) (s : State) {c e : Chan} (h : e ≠ c) :
    (ccfgUnderived c k s).channel e = (ccfgStored c k s).channel e :=
  (congrArg (nth · e) (countPulse_channels _ _ _)).trans (State.setChannel_channel_other _ _ h)

theorem ccfgUnderived_mainPower (c : Chan) (k : ChannelConfig) (s : State) : (ccfgUnderived c k s).mainPower = s.mainPower :=
  (countPulse_frame _ _ _).mainPower.trans (ccfgStored_counts c k s).2.2

theorem ccfgUnderived_quiet (c : Chan) (k : ChannelConfig) (s : State) : QuietBut [.switchWrap] s (ccfgUnderived c k s) :=
  QuietBut.trans (t := (ccfgStored c k s).setChannel c _) (QuietBut.of_notices (ccfgStored_counts c k s).2.1) (countPulse_quiet _ _ _)

theorem ccfgUnderived_switch_other (k : ChannelConfig) (s : State) {c e : Chan} (h : e ≠ c) : (ccfgUnderived c k s).switch e = s.switch e :=
  (countPulse_switch_other _ _ h).trans (congrArg (nth · e) (ccfgStored_counts c k s).1)

/-! ### The drive derived -/

theorem deriveNormal_counts (c : Chan) (s : State) : QuietBut [.genShort] s (deriveNormal c s) ∧ (deriveNormal c s).switches = s.switches := by
  unfold deriveNormal
  split
  · exact deriveDrive_counts c true s
  · exact ⟨QuietBut.refl s, rfl⟩

theorem deriveNormal_off {c e : Chan} (h : e ≠ c) (s : State) : Off e s (deriveNormal c s) := by
  unfold deriveNormal
  split
  · exact deriveDrive_off h true s
  · exact Off.refl s

end

/-- A channel with nothing at the pool, SWITCHED or DIMMED, keeps its pulse state when it derives its drive. -/
theorem deriveSteady_pulse {c : Chan} {s : State} (hl : (s.channel c).link = .none) : ((deriveSteady c s).channel c).pulse = (s.channel c).pulse := by
  unfold deriveSteady
  cases hn : needs (s.config c).kind (s.channel c).present with
  | none =>
    simp only [hl, hn]
    unfold driveSteady
    simp
  | some p =>
    simp only [hl, hn]
    unfold requestGenerator
    split
    · unfold startGenerator
      simp
    · unfold driveSteady setLink
      simp

section

variable {c : Chan} {k : ChannelConfig} {s t : State} {y : Channel}

theorem configured_feedback {x : Channel} (hn : x.condition = .normal) (hk : k.kind ≠ .pulsed) (d : Demand) :
    (x.configured k d).feedback = x.feedback.steadyAt k.activeLow := if_pos ⟨hn, hk⟩

variable (ht : t = configureChannel c k s)

include ht

theorem configureChannel_demandOf : demandOf t c = demandOf (s.setConfig c k) c := by
  rw [ht]
  exact demandOf_of_frame (configureChannel_frame c k s) c

/-- The present demand that the derivation of the drive finds, and leaves (R125 steps 5 and 6). -/
theorem configureChannel_underived_present : (t.channel c).present = demandOf (s.setConfig c k) c := by
  have hsame : SamePresent (ccfgUnderived c k s) (deriveNormal c (ccfgUnderived c k s)) := by
    unfold deriveNormal
    split
    · exact deriveDrive_present c true _
    · exact SamePresent.refl _
  rw [ht, configureChannel_eq, hsame c, ccfgUnderived_channel]
  rfl

theorem configureChannel_present : (t.channel c).present = demandOf t c :=
  (configureChannel_underived_present ht).trans (configureChannel_demandOf ht).symm

theorem configureChannel_condition : (t.channel c).condition = (s.channel c).condition := by
  have hsame : SameCondition (ccfgUnderived c k s) (deriveNormal c (ccfgUnderived c k s)) := by
    unfold deriveNormal
    split
    · exact deriveDrive_condition c true _
    · exact fun _ => rfl
  rw [ht, configureChannel_eq, hsame c, ccfgUnderived_channel]
  rfl

/-- A channel other than the configured one is as the pool leaves it. -/
theorem configureChannel_channel_other {e : Chan} (h : e ≠ c) : t.channel e = (ccfgStored c k s).channel e := by
  rw [ht, configureChannel_eq, (deriveNormal_off h _).1, ccfgUnderived_channel_other k s h]

/-! #### The switch counter (R136) -/

theorem configureChannel_switch_other {e : Chan} (h : e ≠ c) : t.switch e = s.switch e := by
  rw [ht, configureChannel_eq, (deriveNormal_off h _).2.1, ccfgUnderived_switch_other k s h]

/-- The derivation of the drive counts nothing. -/
theorem configureChannel_switch :
    t.switch c = (ccfgUnderived c k s).switch c ∧ t.notice .switchWrap = (ccfgUnderived c k s).notice .switchWrap := by
  obtain ⟨hquiet, hswitches⟩ := deriveNormal_counts c (ccfgUnderived c k s)
  rw [ht, configureChannel_eq]
  exact ⟨congrArg (nth · c) hswitches, hquiet _ (by decide)⟩

theorem configureChannel_counted (hp : s.mainPower = true)
    (h : (s.channel c).condition = .normal ∧ k.kind ≠ .pulsed ∧ (s.channel c).present.level = 0 ∧ (demandOf t c).level ≠ 0) :
    ((s.switch c).count ≠ 9999 → t.switch c = { s.switch c with count := (s.switch c).count + 1 })
    ∧ ((s.switch c).count = 9999 → t.switch c = ⟨0, true⟩ ∧ t.notice .switchWrap = (s.notice .switchWrap).raised c.val) := by
  obtain ⟨hswitch, hwrap⟩ := configureChannel_switch ht
  obtain ⟨hswitches, hnotices, hpower⟩ := ccfgStored_counts c k s
  have hs : (ccfgStored c k s).switch c = s.switch c := congrArg (nth · c) hswitches
  rw [configureChannel_demandOf ht] at h
  rw [hswitch, hwrap]
  unfold ccfgUnderived
  rw [(countsRise_iff _ _ _).mpr h]
  refine ⟨fun hn => ?_, fun hn => ?_⟩
  · rw [countPulse_below (by rw [hs]; exact hn), hs]
    exact nth_upd_same _ _ _
  · rw [countPulse_rolls (by rw [hs]; exact hn) (hpower.trans hp)]
    exact ⟨nth_upd_same _ _ _, (nth_upd_same _ _ _).trans (congrArg (Notice.raised · c.val) (congrArg (nth · _) hnotices))⟩

theorem configureChannel_uncounted
    (h : ¬ ((s.channel c).condition = .normal ∧ k.kind ≠ .pulsed ∧ (s.channel c).present.level = 0 ∧ (demandOf t c).level ≠ 0)) :
    t.switch c = s.switch c := by
  rw [configureChannel_demandOf ht, ← countsRise_iff, Bool.not_eq_true] at h
  rw [(configureChannel_switch ht).1]
  unfold ccfgUnderived
  rw [h]
  exact congrArg (nth · c) (ccfgStored_counts c k s).1

/-! #### The drive (R125 step 6) -/

/-- A FAULTED channel derives nothing (R125, R167). -/
theorem configureChannel_faulted (h : (s.channel c).condition = .faulted) : t = ccfgUnderived c k s := by
  have hf : ((ccfgUnderived c k s).channel c).condition = .faulted := by rw [ccfgUnderived_channel]; exact h
  rw [ht, configureChannel_eq]
  exact if_neg (by rw [hf]; nofun)

theorem configureChannel_normal (h : (s.channel c).condition = .normal) : t = deriveDrive c true (ccfgUnderived c k s) := by
  rw [ht, configureChannel_eq]
  exact if_pos (by rw [ccfgUnderived_channel]; exact h)

/-- A NORMAL PULSED channel starts a pulse that does not count (R125, R132, R136). -/
theorem configureChannel_pulsed (hn : (s.channel c).condition = .normal) (hk : k.kind = .pulsed) :
    ∃ z : Channel, t = (ccfgUnderived c k s).setChannel c z ∧ z.pulse = some (.pulsing z.present.on) ∧ z.pulseCounts = false := by
  rw [configureChannel_normal ht hn, deriveDrive_pulse (ccfgUnderived_config c k s) (ccfgUnderived_channel c k s) hk (if_pos hk) true]
  exact ⟨_, rfl, rfl, rfl⟩

theorem configureChannel_pulse (hn : (s.channel c).condition = .normal) (hk : k.kind ≠ .pulsed) : (t.channel c).pulse = none := by
  rw [configureChannel_normal ht hn, deriveDrive_steady (ccfgUnderived_config c k s) hk, deriveSteady_pulse (by rw [ccfgUnderived_channel]; rfl),
    ccfgUnderived_channel]
  exact if_neg hk

/-- A demand that needs no generator is driven steadily (R128, R129). -/
theorem configureChannel_plain (hn : (s.channel c).condition = .normal) (hk : k.kind ≠ .pulsed) (hy : y = t.channel c)
    (hneed : needs k.kind y.present = none) :
    y.link = .none ∧ y.drive = (if y.present.level = 0 then .inactive else .active)
    ∧ y.feedback = ((s.channel c).feedback.steadyAt k.activeLow).steadyAt ((y.present.level != 0) != k.activeLow)
    ∧ t.generators = (ccfgStored c k s).generators ∧ t.notice .genShort = s.notice .genShort := by
  rw [hy, configureChannel_underived_present ht] at hneed
  have e := (configureChannel_normal ht hn).trans
    (deriveDrive_plain (ccfgUnderived_config c k s) (ccfgUnderived_channel c k s) hk rfl true hneed)
  rw [configured_feedback hn hk] at e
  rw [e, State.setChannel_channel_same] at hy
  subst hy
  rw [e]
  exact ⟨rfl, rfl, rfl, ccfgUnderived_generators c k s, ccfgUnderived_quiet c k s _ (by decide)⟩

/-- The lowest FREE generator is granted (R146). -/
theorem configureChannel_granted (hn : (s.channel c).condition = .normal) (hk : k.kind ≠ .pulsed) (hy : y = t.channel c)
    {p : Params} (hneed : needs k.kind y.present = some p) {g : GenNo} (hlow : ∀ j : GenNo, j < g → nth (ccfgStored c k s).generators j ≠ .free)
    (hg : nth (ccfgStored c k s).generators g = .free) :
    y.link = .holding g ∧ y.drive = .generator ∧ y.feedback = .unsupervised
    ∧ t.generators = upd (ccfgStored c k s).generators g (.busy ⟨false, c, p, none, 0, p.blink.map fun _ => 0⟩)
    ∧ t.notice .genShort = s.notice .genShort := by
  rw [hy, configureChannel_underived_present ht] at hneed
  rw [← ccfgUnderived_generators] at hlow hg ⊢
  have e := (configureChannel_normal ht hn).trans
    (deriveDrive_granted (ccfgUnderived_config c k s) (ccfgUnderived_channel c k s) hk rfl true hneed hlow hg)
  have hc : t.channel c = _ := (congrArg (State.channel · c) e).trans (nth_upd_same _ _ _)
  rw [hc] at hy
  subst hy
  rw [e]
  exact ⟨rfl, rfl, rfl, rfl, ccfgUnderived_quiet c k s _ (by decide)⟩

/-- With no generator FREE the channel waits at its degraded level, with one GEN_SHORT (R130, R146; log 32). -/
theorem configureChannel_waits (hm : s.mainPower = true) (hn : (s.channel c).condition = .normal) (hk : k.kind ≠ .pulsed)
    (hy : y = t.channel c) (hneed : needs k.kind y.present ≠ none) (hg : ∀ g, nth (ccfgStored c k s).generators g ≠ .free) :
    y.link = .waiting ∧ y.drive = (if k.kind = .switched ∨ 128 ≤ y.present.level.toNat then .active else .inactive)
    ∧ y.feedback = ((s.channel c).feedback.steadyAt k.activeLow).steadyAt
        (decide (k.kind = .switched ∨ 128 ≤ y.present.level.toNat) != k.activeLow)
    ∧ t.generators = (ccfgStored c k s).generators ∧ t.notice .genShort = (s.notice .genShort).raised c.val := by
  rw [hy, configureChannel_underived_present ht] at hneed
  rw [← ccfgUnderived_generators] at hg ⊢
  have e := (configureChannel_normal ht hn).trans
    (deriveDrive_waits (ccfgUnderived_config c k s) (ccfgUnderived_channel c k s) hk rfl true hneed hg)
  rw [configured_feedback hn hk] at e
  rw [e, State.raise_channel, State.setChannel_channel_same] at hy
  subst hy
  have hpower : ∀ z, ((ccfgUnderived c k s).setChannel c z).mainPower = true := fun _ => (ccfgUnderived_mainPower c k s).trans hm
  rw [e, State.raise_generators, raise_notice_same (hpower _)]
  exact ⟨rfl, rfl, rfl, rfl, congrArg (Notice.raised · c.val) (ccfgUnderived_quiet c k s _ (by decide))⟩

/-- A channel that is FAULTED or PULSED asks the pool for nothing (R127, R167). -/
theorem configureChannel_asks_nothing (h : (s.channel c).condition = .faulted ∨ k.kind = .pulsed) :
    t.generators = (ccfgStored c k s).generators ∧ t.notice .genShort = s.notice .genShort := by
  have kept : t.generators = (ccfgUnderived c k s).generators ∧ t.notice .genShort = (ccfgUnderived c k s).notice .genShort := by
    cases hc : (s.channel c).condition with
    | faulted =>
      rw [configureChannel_faulted ht hc]
      exact ⟨rfl, rfl⟩
    | normal =>
      obtain ⟨z, hz, -⟩ := configureChannel_pulsed ht hc (h.resolve_left (by rw [hc]; nofun))
      rw [hz]
      exact ⟨rfl, rfl⟩
  exact ⟨kept.1.trans (ccfgUnderived_generators c k s), kept.2.trans (ccfgUnderived_quiet c k s _ (by decide))⟩

end

/-! ### CCFG -/

theorem tryConfigure_frozen {c : Chan} {k : ChannelConfig} {s : State} (h : s.frozen c = true) : tryConfigure c k s = refuse .frozen s := if_pos h

theorem tryConfigure_pinInUse {c : Chan} {k : ChannelConfig} {s : State} (hf : s.frozen c = false) (h : pinInUse s c k = true) :
    tryConfigure c k s = refuse .pinInUse s := (if_neg (Bool.eq_false_iff.mp hf)).trans (if_pos h)

theorem tryConfigure_accepted {c : Chan} {k : ChannelConfig} {s : State} (hf : s.frozen c = false) (h : pinInUse s c k = false) :
    tryConfigure c k s = accept [] (configureChannel c k (dropFault c s)) :=
  (if_neg (Bool.eq_false_iff.mp hf)).trans (if_neg (Bool.eq_false_iff.mp h))

theorem ChannelFrame.faultsDue {s t : State} (h : ChannelFrame s t) : t.faultsDue = s.faultsDue := by obtain ⟨_, _, _, _, _, rfl⟩ := h; rfl

/-- Settles O47: the checks of the line (`bodyCcfg_cases`) and of the state (`tryConfigure_…`); an accepted one by what it touches
(`configureChannel_frame`), what the pool gives back (`ccfgStored_pool`), what is counted, and what the channel then derives. -/
theorem ccfgWritesTheConfiguration : Obligations.CcfgWritesTheConfiguration := by
  intro s fields h
  obtain ⟨hbad, hgood, hreads⟩ := bodyCcfg_cases (lineTaken_fields h rfl) (begun (text "CCFG") fields s)
  refine ⟨fun hb => ?_, fun hb => ⟨fun hn => ?_, fun hn hno => ?_⟩, fun c k hl => ⟨fun hf => ?_, fun hf hu => ?_, fun hf hu => ?_⟩⟩
  · exact congrArg Host.Outcome.next (carryOut_refused h (hbad hb))
  · exact congrArg Host.Outcome.next (carryOut_refused h ((hgood hb).1 hn))
  · exact congrArg Host.Outcome.next (carryOut_refused h ((hgood hb).2 hn hno))
  · exact congrArg Host.Outcome.next (carryOut_refused h ((hreads c k hl).trans (tryConfigure_frozen hf)))
  · exact congrArg Host.Outcome.next (carryOut_refused h ((hreads c k hl).trans (tryConfigure_pinInUse hf hu)))
  · obtain ⟨v, hv⟩ : ∃ v, v = configureChannel c k (dropFault c (begun (text "CCFG") fields s)) := ⟨_, rfl⟩
    have hbody := (hreads c k hl).trans (tryConfigure_accepted hf hu)
    have hframe := configureChannel_frame c k (dropFault c (begun (text "CCFG") fields s))
    have hpower : (dropFault c (begun (text "CCFG") fields s)).mainPower = true := lineTaken_mainPower (s := s) h
    obtain ⟨hgens, hgranted, hstand⟩ := ccfgStored_pool c k (dropFault c (begun (text "CCFG") fields s))
    rw [← hv] at hbody hframe
    have hcondition := configureChannel_condition hv
    have hpresent := configureChannel_present hv
    have hcounted := configureChannel_counted hv hpower
    have huncounted := configureChannel_uncounted hv
    refine ⟨_, congrArg Host.Outcome.next (carryOut_accepted h (bodyCcfg_frame fields) hbody),
      (hframe.config c).trans (State.setConfig_config_same _ _ _), fun d hd => (hframe.config d).trans (State.setConfig_config_other _ _ hd),
      hframe.claims, hframe.records, hframe.waiting, rfl, hframe.calendar, hframe.table.freezeMask,
      fun e => (congrArg (nth · e) hframe.faultsDue).trans (nth_upd _ _ _ _), hcondition, hpresent, fun hfault => ?_, fun hn hk => ?_,
      fun e he => (configureChannel_switch_other hv he).trans rfl, hcounted, huncounted, fun gs hgs => ?_⟩
    · have hc := (congrArg (State.channel · c) (configureChannel_faulted hv hfault)).trans (ccfgUnderived_channel _ _ _)
      refine ⟨congrArg Channel.drive hc, congrArg Channel.link hc, (congrArg Channel.feedback hc).trans (if_neg ?_), congrArg Channel.pulse hc⟩
      rintro ⟨hn, -⟩
      exact Condition.noConfusion (hfault.symm.trans hn)
    · obtain ⟨z, hz, hpulse, hcounts⟩ := configureChannel_pulsed hv hn hk
      have hc : v.channel c = z := by rw [hz, State.setChannel_channel_same]
      rw [← hc] at hpulse hcounts
      exact ⟨hpulse, hcounts⟩
    · obtain rfl := hgens gs hgs
      have hnothing := configureChannel_asks_nothing hv
      refine ⟨fun g w others hl hw hneed => (configureChannel_channel_other hv (waiter_ne_holder hl hw)).trans (hgranted g w others hl hw hneed),
        fun e he hout => (configureChannel_channel_other hv he).trans (hstand e he hout), hnothing, ?_⟩
      rintro x y rfl rfl hn hk
      have hpulse := configureChannel_pulse hv hn hk
      have hplain := configureChannel_plain hv hn hk rfl
      have hgrant := fun p => configureChannel_granted hv hn hk rfl (p := p)
      have hwaits := configureChannel_waits hv hpower hn hk rfl
      exact ⟨hpulse, hplain, fun p hneed => ⟨fun g => hgrant p hneed, hwaits (Option.ne_none_iff_exists'.mpr ⟨p, hneed⟩)⟩⟩

end Sys2Proof.Machine
end

section
/-!
PROOFS. The generator pool's invariant (R143, R147): every command is made of operations that keep it (`Sys2Proof/Laws/Generators.lean`), leaves
channels, generators and configurations alone, or resets the main domain, which empties the pool.
-/

namespace Sys2Proof.Machine

/-! ### Lines -/

/-- A line command keeps the pool's invariant when its body does. -/
theorem carryOut_linked {body : State → Reply} (hb : ∀ u, Linked [] [] u → Linked [] [] (body u).state) (word : Text) (fields : List Text)
    {s : State} (h : Linked [] [] s) : Linked [] [] (carryOut word fields body s) := by
  unfold carryOut
  split
  · split
    · exact h
    · rename_i s1 hs
      have h1 : Linked [] [] (endSequence s1) := by
        rw [takeLine_some hs]
        exact h
      exact hb _ h1
  · exact h

theorem answerLine_linked (l : Text) (o : Bool) (st : Status) {s : State} (h : Linked [] [] s) : Linked [] [] (answerLine l o st s) := by
  unfold answerLine
  split
  · exact h
  · rename_i s1 hs
    rw [takeLine_some hs]
    exact h

theorem onRecord_linked (g : Bool) (f : List Text) {act : RecNo → State → Reply} {s : State} (h : Linked [] [] s)
    (ha : ∀ n, Linked [] [] (act n s).state) : Linked [] [] (onRecord g f act s).state := by
  unfold onRecord
  split
  · exact h
  · split
    · split
      · exact h
      · split
        · exact h
        · exact ha _
    · exact h

theorem onChannel_linked (f : List Text) {act : Chan → State → Reply} {s : State} (h : Linked [] [] s)
    (ha : ∀ c, Linked [] [] (act c s).state) : Linked [] [] (onChannel f act s).state := by
  unfold onChannel
  split
  · exact h
  · split
    · split
      · exact ha _
      · exact h
    · exact h

/-! ### The calendar's and the schedule table's commands -/

theorem deliver_linked (e : TimeEvent) {s : State} (h : Linked [] [] s) : Linked [] [] (s.deliver e) := by
  unfold State.deliver
  split <;> exact h

theorem bodyTset_linked (f : List Text) (s : State) (h : Linked [] [] s) : Linked [] [] (bodyTset f s).state := by
  have set : ∀ d m, Linked [] [] (setCalendar d m s) := fun d m =>
    deliver_linked _ (s := { s with calendar := s.calendar.set d (m / 60) (m % 60) }) h
  unfold bodyTset
  split
  · exact h
  · split
    · split
      · exact h
      · split
        · exact set _ _
        · exact h
    · exact h

theorem bodyTadj_linked (f : List Text) (s : State) (h : Linked [] [] s) : Linked [] [] (bodyTadj f s).state := by
  unfold bodyTadj
  repeat' split
  all_goals exact h

theorem bodyTget_linked (f : List Text) (s : State) (h : Linked [] [] s) : Linked [] [] (bodyTget f s).state := by
  unfold bodyTget
  split <;> exact h

theorem writeArmed_linked (n : RecNo) (c : Content) {s : State} (h : Linked [] [] s) : Linked [] [] (writeArmed n c s) :=
  evaluateRecord_linked n (setRecord_linked n _ h)

theorem writeRecord_linked (n : RecNo) (c : Content) (now : Bool) {s : State} (h : Linked [] [] s) : Linked [] [] (writeRecord n c now s).state := by
  unfold writeRecord
  dsimp only
  split
  · split
    · exact writeArmed_linked n c (leaveWindow_linked n h)
    · split
      · exact h
      · exact setRecord_linked n _ h
  · split
    · exact setRecord_linked n _ h
    · exact writeArmed_linked n c h

theorem bodyRwrt_linked (f : List Text) (s : State) (h : Linked [] [] s) : Linked [] [] (bodyRwrt f s).state := by
  unfold bodyRwrt
  split
  · exact h
  · split
    · exact h
    · exact h
    · split
      · exact h
      · exact writeRecord_linked _ _ _ h

theorem bodyRget_linked (f : List Text) (s : State) (h : Linked [] [] s) : Linked [] [] (bodyRget f s).state := by
  refine onRecord_linked _ _ h fun n => ?_
  unfold getRecord
  split
  · exact h
  · exact checkRecord_linked n h

theorem bodyRdrp_linked (f : List Text) (s : State) (h : Linked [] [] s) : Linked [] [] (bodyRdrp f s).state := by
  refine onRecord_linked _ _ h fun n => ?_
  unfold dropDraft
  split
  · exact setRecord_linked n _ h
  · exact h

theorem bodyRsus_linked (f : List Text) (s : State) (h : Linked [] [] s) : Linked [] [] (bodyRsus f s).state := by
  refine onRecord_linked _ _ h fun n => ?_
  unfold suspend
  split
  · exact setRecord_linked n _ (leaveWindow_linked n h)
  · exact h

theorem bodyRres_linked (f : List Text) (s : State) (h : Linked [] [] s) : Linked [] [] (bodyRres f s).state := by
  refine onRecord_linked _ _ h fun n => ?_
  unfold resume
  split
  · exact evaluateRecord_linked n (setRecord_linked n _ h)
  · exact h

theorem bodyRfre_linked (f : List Text) (s : State) (h : Linked [] [] s) : Linked [] [] (bodyRfre f s).state := by
  refine onRecord_linked _ _ h fun n => ?_
  unfold freeRecord
  split
  · exact h
  · exact setRecord_linked n _ (leaveWindow_linked n h)

theorem bodyRclr_linked (f : List Text) (s : State) (h : Linked [] [] s) : Linked [] [] (bodyRclr f s).state :=
  onRecord_linked _ _ h fun n => setRecord_linked n _ h

theorem bodyRprt_linked (f : List Text) (s : State) (h : Linked [] [] s) : Linked [] [] (bodyRprt f s).state := by
  unfold bodyRprt protect
  repeat' split
  all_goals exact h

theorem bodyRfnd_linked (f : List Text) (s : State) (h : Linked [] [] s) : Linked [] [] (bodyRfnd f s).state := by
  unfold bodyRfnd
  repeat' split
  all_goals exact h

theorem bodyRnxt_linked (f : List Text) (s : State) (h : Linked [] [] s) : Linked [] [] (bodyRnxt f s).state := by
  unfold bodyRnxt
  repeat' split
  all_goals exact h

/-! ### The claim arbiter's and the input monitor's commands -/

theorem portRequest_linked (q : Request) {s : State} (h : Linked [] [] s) : Linked [] [] (portRequest q s).state := by
  unfold portRequest
  split
  · exact request_linked h ‹_›
  · exact h

theorem bodyCset_linked (f : List Text) (s : State) (h : Linked [] [] s) : Linked [] [] (bodyCset f s).state := by
  unfold bodyCset
  split
  · exact h
  · split
    · split
      · exact portRequest_linked _ h
      · exact h
    · exact h

theorem releaseClaims_linked (m : BitVec 24) (p : Option (Fin 4)) {s : State} (h : Linked [] [] s) : Linked [] [] (releaseClaims m p s).state := by
  unfold releaseClaims
  dsimp only [accept]
  exact selectiveRemoval_linked _ _ h

theorem bodyCrel_linked (f : List Text) (s : State) (h : Linked [] [] s) : Linked [] [] (bodyCrel f s).state := by
  unfold bodyCrel
  split
  · exact h
  · split
    · split
      · exact releaseClaims_linked _ _ h
      · exact h
    · exact h

theorem bodyGscl_linked (f : List Text) (s : State) (h : Linked [] [] s) : Linked [] [] (bodyGscl f s).state := by
  unfold bodyGscl
  split
  · exact h
  · split
    · split
      · exact portRequest_linked _ h
      · exact h
    · exact h

theorem bodyClst_linked (f : List Text) (s : State) (h : Linked [] [] s) : Linked [] [] (bodyClst f s).state := by
  unfold bodyClst
  repeat' split
  all_goals exact h

theorem bodyIcfg_linked (f : List Text) (s : State) (h : Linked [] [] s) : Linked [] [] (bodyIcfg f s).state := by
  unfold bodyIcfg
  repeat' split
  all_goals exact h

theorem bodyIget_linked (f : List Text) (s : State) (h : Linked [] [] s) : Linked [] [] (bodyIget f s).state := by
  unfold bodyIget
  repeat' split
  all_goals exact h

theorem bodyTrwr_linked (f : List Text) (s : State) (h : Linked [] [] s) : Linked [] [] (bodyTrwr f s).state := by
  unfold bodyTrwr
  repeat' split
  all_goals exact h

theorem bodyTrgt_linked (f : List Text) (s : State) (h : Linked [] [] s) : Linked [] [] (bodyTrgt f s).state := by
  unfold bodyTrgt
  repeat' split
  all_goals exact h

/-! ### The channels', generators' and notice table's commands -/

theorem tryConfigure_linked (c : Chan) (k : ChannelConfig) {s : State} (h : Linked [] [] s) : Linked [] [] (tryConfigure c k s).state := by
  unfold tryConfigure
  split
  · exact h
  · split
    · exact h
    · dsimp only [accept]
      exact configureChannel_linked c k (s := dropFault c s) h

theorem bodyCcfg_linked (f : List Text) (s : State) (h : Linked [] [] s) : Linked [] [] (bodyCcfg f s).state := by
  unfold bodyCcfg
  split
  · exact h
  · split
    · split
      · exact h
      · split
        · exact tryConfigure_linked _ _ h
        · exact h
    · exact h

theorem bodyCget_linked (f : List Text) (s : State) (h : Linked [] [] s) : Linked [] [] (bodyCget f s).state := onChannel_linked _ h fun _ => h

theorem bodyCclr_linked (f : List Text) (s : State) (h : Linked [] [] s) : Linked [] [] (bodyCclr f s).state := by
  refine onChannel_linked _ h fun c => ?_
  unfold clearSwitch
  split <;> exact h

theorem bodyCflt_linked (f : List Text) (s : State) (h : Linked [] [] s) : Linked [] [] (bodyCflt f s).state := by
  refine onChannel_linked _ h fun c => ?_
  cases hc : (s.channel c).condition with
  | normal =>
    rw [restoreChannel_normal hc]
    exact h
  | faulted =>
    rw [restoreChannel_faulted hc]
    dsimp only [accept]
    exact restore_linked c hc h

theorem bodyFrzk_linked (f : List Text) (q : FreezeSeq) (s : State) (h : Linked [] [] s) : Linked [] [] (bodyFrzk f q s).state := by
  unfold bodyFrzk freezeStep
  repeat' split
  all_goals exact h

theorem bodyDfrq_linked (f : List Text) (s : State) (h : Linked [] [] s) : Linked [] [] (bodyDfrq f s).state := by
  unfold bodyDfrq
  repeat' split
  all_goals exact h

theorem bodyGget_linked (f : List Text) (s : State) (h : Linked [] [] s) : Linked [] [] (bodyGget f s).state := by
  unfold bodyGget
  split <;> exact h

theorem bodyNget_linked (f : List Text) (s : State) (h : Linked [] [] s) : Linked [] [] (bodyNget f s).state := by
  unfold bodyNget
  split <;> exact h

theorem bodyNmsk_linked (f : List Text) (s : State) (h : Linked [] [] s) : Linked [] [] (bodyNmsk f s).state := by
  unfold bodyNmsk
  repeat' split
  all_goals exact h

/-! ### Ticks -/

theorem times_linked {f : State → State} (hf : ∀ s, Linked [] [] s → Linked [] [] (f s)) (k : Nat) {s : State} (h : Linked [] [] s) :
    Linked [] [] (times f k s) :=
  times_rel (R := fun s t => Linked [] [] s → Linked [] [] t) (fun _ => id) (fun _ _ _ h1 h2 => h2 ∘ h1) hf k s h

theorem takeHoldTick_linked (s : State) (h : Linked [] [] s) : Linked [] [] (takeHoldTick s) := by
  unfold takeHoldTick
  split
  · exact h
  · exact holdCountdown_linked (s := { s with holdsDue := s.holdsDue - 1 }) h

theorem takeHeldTick_linked (s : State) (h : Linked [] [] s) : Linked [] [] (takeHeldTick s) := by
  rw [(takeHeldTick_only s).1]
  exact h

theorem checkRule_linked (n : RuleNo) {s : State} (h : Linked [] [] s) : Linked [] [] (checkRule n s) := by
  unfold checkRule
  split
  · exact Linked.raise (s := s.setRule n _) _ _ h
  · exact h

theorem takeScrubTick_linked (s : State) (h : Linked [] [] s) : Linked [] [] (takeScrubTick s) := by
  have step : ∀ u, Linked [] [] u → Linked [] [] (scrubStep u) := fun u hu => by
    unfold scrubStep
    split
    · exact checkRecord_linked _ hu
    · exact checkRule_linked _ hu
  unfold takeScrubTick
  split
  · exact h
  · exact step { s with scrubDue := s.scrubDue - 1 } h

theorem takeCompareTick_linked (held : List PinHold) (c : Chan) {s : State} (h : Linked [] [] s) : Linked [] [] (takeCompareTick held c s) := by
  unfold takeCompareTick
  split
  · exact steadyCompare_linked held c (s := { s with compareDue := upd s.compareDue c false }) h
  · exact h

theorem tickWork_linked (held : List PinHold) (w : TickWork) {s : State} (h : Linked [] [] s) : Linked [] [] (tickWork held s w) := by
  cases w with
  | holds => exact times_linked takeHoldTick_linked _ h
  | held => exact times_linked takeHeldTick_linked _ h
  | scrub => exact times_linked takeScrubTick_linked _ h
  | compare c => exact takeCompareTick_linked held c h

/-- The work of a second tick, in any order, keeps the pool's invariant. -/
theorem tickWorks_linked (held : List PinHold) (o : TickOrder) {s : State} (h : Linked [] [] s) : Linked [] [] (tickWorks held o s) := by
  unfold tickWorks
  split
  · exact List.foldlRecOn _ _ h fun _ hu w _ => tickWork_linked held w hu
  · exact h

theorem advance_linked {s : State} (h : Linked [] [] s) : Linked [] [] (advance s) := by
  unfold advance
  dsimp only
  cases s.calendar.tick.2 with
  | none => exact h
  | some e => exact deliver_linked e (s := { s with calendar := { s.calendar.tick.1 with phase := 0 } }) h

theorem deliverTick_linked {s : State} (h : Linked [] [] s) : Linked [] [] (deliverTick s) := by
  unfold deliverTick
  split <;> exact h

theorem secondTick_linked (held : List PinHold) (o : TickOrder) {s : State} (h : Linked [] [] s) : Linked [] [] (secondTick held o s) := by
  unfold secondTick
  split
  · exact tickWorks_linked held o h
  · exact tickWorks_linked held o (deliverTick_linked (advance_linked h))

theorem oscillatorLost_linked {s : State} (h : Linked [] [] s) : Linked [] [] (oscillatorLost s) :=
  Linked.raise (s := { tickWorks [] .plain s with calendar := (tickWorks [] .plain s).calendar.lose }) _ _ (tickWorks_linked [] .plain h)

/-! ### Inputs and their events -/

theorem pinChange_linked (i : InputNo) (high : Bool) {s : State} (h : Linked [] [] s) : Linked [] [] (pinChange i high s) := by
  unfold pinChange
  dsimp only
  repeat' split
  all_goals exact h

theorem firstSample_linked (i : InputNo) (lv : Bool) {s : State} (h : Linked [] [] s) : Linked [] [] (firstSample i lv s) := by
  unfold firstSample
  dsimp only
  split
  · exact h
  · split
    · exact Linked.raise (s := s.setInput i _) _ _ h
    · exact h
  · split <;> exact h

theorem pressTaken_linked (i : InputNo) {s : State} (h : Linked [] [] s) : Linked [] [] (pressTaken i s) := by
  unfold pressTaken
  dsimp only
  split <;> exact h

theorem releaseTaken_linked (i : InputNo) {s : State} (h : Linked [] [] s) : Linked [] [] (releaseTaken i s) := by
  unfold releaseTaken
  dsimp only
  split <;> exact h

theorem takeChange_linked (i : InputNo) {s : State} (h : Linked [] [] s) : Linked [] [] (takeChange i s) := by
  unfold takeChange
  split
  · exact h
  · split
    · exact firstSample_linked i _ h
    · split
      · exact pressTaken_linked i h
      · exact releaseTaken_linked i h

theorem reachThreshold_linked (i : InputNo) {s : State} (h : Linked [] [] s) : Linked [] [] (reachThreshold i s) := by
  unfold reachThreshold
  dsimp only
  split <;> exact h

theorem makeRuleRequest_linked (n : RuleNo) (i : InputNo) (f : RuleFields) (lv : BitVec 8) {s : State} (h : Linked [] [] s) :
    Linked [] [] (makeRuleRequest n i f lv s) := by
  unfold makeRuleRequest
  cases hq : request (ruleRequest i f lv) s with
  | none => exact h.raise _ _
  | some t => exact request_linked h hq

theorem applyAction_linked (a : Applying) (f : RuleFields) {s : State} (h : Linked [] [] s) : Linked [] [] (applyAction a f s) := by
  have goesOn : ∀ {u : State} {b : Option Applying}, Linked [] [] u → Linked [] [] { u with applying := b } := id
  unfold applyAction
  split
  · exact goesOn (makeRuleRequest_linked _ _ _ _ h)
  · split
    · exact goesOn h
    · exact goesOn (selectiveRemoval_linked _ _ h)

theorem applyStep_linked {s : State} (h : Linked [] [] s) : Linked [] [] (applyStep s) := by
  have goesOn : ∀ {u : State} {b : Option Applying}, Linked [] [] u → Linked [] [] { u with applying := b } := id
  unfold applyStep
  split
  · exact h
  · split
    · exact goesOn (makeRuleRequest_linked _ _ _ _ h)
    · split
      · split
        · split
          · exact applyAction_linked _ _ h
          · exact goesOn h
        · exact goesOn (checkRule_linked _ h)
      · exact goesOn h

theorem runApply_linked (k : Nat) {s : State} (h : Linked [] [] s) : Linked [] [] (runApply k s) := by
  induction k generalizing s with
  | zero => exact h
  | succ k ih => exact ih (applyStep_linked h)

theorem takeInputEvent_linked (i : InputNo) {s : State} (h : Linked [] [] s) : Linked [] [] (takeInputEvent i s) := by
  unfold takeInputEvent
  split <;> exact h

/-! ### Passes, resets, storage -/

theorem passCommand_linked (k : PassKind) (v : Nat) {s : State} (h : Linked [] [] s) : Linked [] [] (passCommand k v s) := by
  have take : Linked [] [] (takeEvent k s) := by
    unfold takeEvent
    split <;> exact h
  unfold passCommand
  dsimp only
  split
  · exact runPass_linked v take
  · exact h

/-- An empty pool, to which no channel is linked, meets the invariant. -/
theorem linked_of_empty {s : State} (hg : ∀ g, s.generator g = .free) (hl : ∀ c, (s.channel c).link = .none) : Linked [] [] s := by
  refine ⟨fun c g => ?_, fun c hw => absurd ((hl c).symm.trans hw) nofun, fun c _ _ => hl c⟩
  rw [hl c, hg g]
  exact ⟨nofun, nofun⟩

/-- A main reset begins with an empty pool, and its derivations and its re-evaluation keep the invariant (R66, R156). -/
theorem mainReset_linked (cold : Bool) (v : Nat) (s : State) : Linked [] [] (mainReset cold v s) := by
  have hchannel := resetBegun_channel cold s
  have hderived : Linked [] [] (deriveAll (resetBegun cold s)) :=
    deriveAll_linked (fun c => congrArg Channel.condition (hchannel c))
      (linked_of_empty (resetBegun_generator cold s) fun c => congrArg Channel.link (hchannel c))
  rw [mainReset_eq]
  unfold resetEvaluation
  split
  · exact runPass_linked v (s := beginPass .reevaluation _ (deriveAll (resetBegun cold s))) hderived
  · exact hderived

theorem runRstr_linked (fields : List Text) (v : Nat) {s : State} (h : Linked [] [] s) : Linked [] [] (runRstr fields v s) := by
  unfold runRstr
  split
  · split
    · exact h
    · rename_i s1 hs
      split
      · exact mainReset_linked false v s1
      · rw [takeLine_some hs]
        exact h
  · exact h

/-- Without main power the pool is empty (R156; log 17). -/
theorem powerLost_linked (s : State) : Linked [] [] { clearMain s with mainPower := false } :=
  linked_of_empty (fun _ => Vector.getElem_replicate _) fun c => congrArg Channel.link (nth_tabulate (fun c => Channel.fresh (s.config c)) c)

theorem disturb_linked (d : Disturbance) {s : State} (h : Linked [] [] s) : Linked [] [] (disturb d s) := by
  unfold disturb
  split <;> exact h

/-! ### Every command -/

/-- A command that acts on a condition alone keeps the invariant when what it then does keeps it. -/
theorem ite_linked {p : Prop} [Decidable p] {s t : State} (h1 : Linked [] [] s) (h2 : Linked [] [] t) : Linked [] [] (if p then s else t) := by
  split
  · exact h1
  · exact h2

/-- Every command keeps the pool's invariant. -/
theorem exec_linked (c : Instr) {s t : State} (h : Linked [] [] s) (e : exec c s = .next t) : Linked [] [] t := by
  have line : ∀ (w : Text) (f : List Text) (body : State → Reply), (∀ u, Linked [] [] u → Linked [] [] (body u).state) →
      Linked [] [] (carryOut w f body s) := fun w f _ hb => carryOut_linked hb w f h
  cases c with
  | tset f => cases e; exact line _ f _ (bodyTset_linked f)
  | tadj f => cases e; exact line _ f _ (bodyTadj_linked f)
  | tget f => cases e; exact line _ f _ (bodyTget_linked f)
  | rwrt f => cases e; exact line _ f _ (bodyRwrt_linked f)
  | rget f => cases e; exact line _ f _ (bodyRget_linked f)
  | rdrp f => cases e; exact line _ f _ (bodyRdrp_linked f)
  | rsus f => cases e; exact line _ f _ (bodyRsus_linked f)
  | rres f => cases e; exact line _ f _ (bodyRres_linked f)
  | rfre f => cases e; exact line _ f _ (bodyRfre_linked f)
  | rclr f => cases e; exact line _ f _ (bodyRclr_linked f)
  | rprt f => cases e; exact line _ f _ (bodyRprt_linked f)
  | rfnd f => cases e; exact line _ f _ (bodyRfnd_linked f)
  | rnxt f => cases e; exact line _ f _ (bodyRnxt_linked f)
  | cset f => cases e; exact line _ f _ (bodyCset_linked f)
  | crel f => cases e; exact line _ f _ (bodyCrel_linked f)
  | gscl f => cases e; exact line _ f _ (bodyGscl_linked f)
  | clst f => cases e; exact line _ f _ (bodyClst_linked f)
  | icfg f => cases e; exact line _ f _ (bodyIcfg_linked f)
  | iget f => cases e; exact line _ f _ (bodyIget_linked f)
  | trwr f => cases e; exact line _ f _ (bodyTrwr_linked f)
  | trgt f => cases e; exact line _ f _ (bodyTrgt_linked f)
  | ccfg f => cases e; exact line _ f _ (bodyCcfg_linked f)
  | cget f => cases e; exact line _ f _ (bodyCget_linked f)
  | cclr f => cases e; exact line _ f _ (bodyCclr_linked f)
  | frzk f => cases e; exact line _ f _ (bodyFrzk_linked f _)
  | dfrq f => cases e; exact line _ f _ (bodyDfrq_linked f)
  | gget f => cases e; exact line _ f _ (bodyGget_linked f)
  | cflt f => cases e; exact line _ f _ (bodyCflt_linked f)
  | nget f => cases e; exact line _ f _ (bodyNget_linked f)
  | nmsk f => cases e; exact line _ f _ (bodyNmsk_linked f)
  | rstr f v => cases e; exact runRstr_linked f v h
  | unknownCommand l => cases e; exact ite_linked (answerLine_linked _ _ _ h) h
  | lineTooLong l => cases e; exact answerLine_linked _ _ _ h
  | portWrite sel b => cases e; exact ite_linked h h
  | portRead sel => cases e; exact ite_linked h h
  | gapTimerEnd => cases e; exact ite_linked h h
  | secondTick held o => cases e; exact ite_linked (secondTick_linked held o h) h
  | qualificationComplete => cases e; exact ite_linked h h
  | qualificationRestart => cases e; exact ite_linked h h
  | oscillatorLoss => cases e; exact ite_linked (oscillatorLost_linked h) h
  | boundaryPass v => cases e; exact passCommand_linked _ v h
  | reevaluationPass v => cases e; exact passCommand_linked _ v h
  | holdExpiry => cases e; exact ite_linked (takeHoldTick_linked s h) h
  | inputPinChange i b => cases e; exact pinChange_linked i b h
  | changeTaken i => cases e; exact takeChange_linked i h
  | thresholdReached i => cases e; exact reachThreshold_linked i h
  | inputStuck => cases e; exact ite_linked (takeHeldTick_linked s h) h
  | inputEvent i k => cases e; exact runApply_linked k (takeInputEvent_linked i h)
  | pulseCompletion c => cases e; exact completePulse_linked c h
  | periodEnd g => cases e; exact endPeriod_linked g h
  | settleTimerEnd c r => cases e; exact endSettle_linked c _ _ h
  | resetInput v => cases e; exact ite_linked (mainReset_linked false v s) h
  | mainPowerLoss => cases e; exact ite_linked (powerLost_linked s) h
  | powerReturn v => cases e; exact ite_linked h (mainReset_linked false v _)
  | coldStart => cases e; exact mainReset_linked true 96 _
  | storageDisturbance d => cases e; exact disturb_linked d h

/-- Settles O8: on an empty queue time passes (`idle_linked`), else the front command runs (`exec_linked`). -/
theorem generatorInvIsKept : Obligations.GeneratorInvIsKept := by
  intro s t h e
  rw [generatorInv_iff] at h ⊢
  unfold step at e
  split at e
  · cases e
    exact idle_linked h
  · rename_i c rest _
    exact exec_linked c (s := { s with pending := rest }) h e

end Sys2Proof.Machine
end

section
/-!
PROOFS. The waveform generators (R143 to R156): DFRQ, the end of a generator's period, and the settle comparison with what its fault gives back to
the pool.
-/

namespace Sys2Proof.Machine

/-! ### DFRQ -/

theorem allFree_iff (s : State) : allFree s = true ↔ ∀ g, s.generator g = .free := by
  simp [allFree]

theorem bodyDfrq_fieldCount {fields : List Text} (hh : ∀ f ∈ fields, allHex f) (hl : fields.length ≠ 1) (u : State) :
    bodyDfrq fields u = refuse .fieldCount u := by
  unfold bodyDfrq
  rw [bad_of_allHex _ hh, if_neg Bool.false_ne_true]
  split
  · exact absurd rfl hl
  · rfl

theorem bodyDfrq_range {f : Text} (hh : allHex f) (hn : rangeField 100 1000 f = none) (u : State) : bodyDfrq [f] u = refuse .range u := by
  unfold bodyDfrq
  rw [strict_bad_one hh, if_neg Bool.false_ne_true]
  simp only [hn]

theorem bodyDfrq_reads {f : Text} {n : Nat} (hn : rangeField 100 1000 f = some n) (u : State) :
    bodyDfrq [f] u = if allFree u then accept [] { u with dimFreq := n } else refuse .busy u := by
  unfold bodyDfrq
  rw [strict_bad_one (rangeField_allHex hn), if_neg Bool.false_ne_true]
  simp only [hn]

/-- Settles O50: the checks of the line in their order, then whether a generator is in use. -/
theorem dfrqSetsTheFrequency : Obligations.DfrqSetsTheFrequency := by
  intro s fields h hh
  refine ⟨fun hl => ?_, ?_⟩
  · exact congrArg Host.Outcome.next (carryOut_refused h (bodyDfrq_fieldCount hh hl _))
  · rintro f rfl
    refine ⟨fun hn => ?_, fun n hn => ⟨fun ⟨g, hg⟩ => ?_, fun hfree => ?_⟩⟩
    · exact congrArg Host.Outcome.next (carryOut_refused h (bodyDfrq_range (hh f List.mem_cons_self) hn _))
    · have hbusy : ¬ allFree (begun (text "DFRQ") [f] s) = true := fun hall => hg ((allFree_iff _).mp hall g)
      exact congrArg Host.Outcome.next (carryOut_refused h ((bodyDfrq_reads hn _).trans (if_neg hbusy)))
    · have hall : allFree (begun (text "DFRQ") [f] s) = true := (allFree_iff _).mpr hfree
      exact congrArg Host.Outcome.next (carryOut_accepted h (bodyDfrq_frame _) ((bodyDfrq_reads hn _).trans (if_pos hall)))

/-! ### Granting a generator (R147) -/

section

variable {s : State} {g : GenNo} {w : Chan} {rest : List Chan}

theorem grantNext_nobody (h : waiters s = []) : grantNext g s = s := by
  unfold grantNext
  rw [h]

theorem grantNext_first {p : Params} (h : waiters s = w :: rest) (hn : needs (s.config w).kind (s.channel w).present = some p) :
    grantNext g s = startGenerator g w p s := by
  unfold grantNext
  rw [h]
  simp only [hn]

/-- A grant leaves every channel that does not wait. -/
theorem grantNext_off {c : Chan} (hc : (s.channel c).link ≠ .waiting) : Off c s (grantNext g s) := by
  unfold grantNext
  split
  · exact Off.refl s
  · rename_i w rest hw
    split
    · have hcw : c ≠ w := fun e => hc (mem_waiters.mp (by rw [hw, e]; exact List.mem_cons_self))
      exact startGenerator_off hcw _ _ _
    · exact Off.refl s

theorem startGenerator_generator (g : GenNo) (c : Chan) (p : Params) (s : State) :
    (startGenerator g c p s).generator g = .busy ⟨false, c, p, none, 0, p.blink.map fun _ => 0⟩ :=
  nth_upd_same _ _ _

theorem startGenerator_channel (g : GenNo) (c : Chan) (p : Params) (s : State) :
    (startGenerator g c p s).channel c = { s.channel c with link := .holding g, drive := .generator, feedback := .unsupervised } :=
  nth_upd_same _ _ _

end

/-! ### PERIOD_END -/

section

variable {s : State} {g : GenNo} {r : GenRun}

theorem endPeriod_free (h : s.generator g = .free) : endPeriod g s = s := by
  unfold endPeriod
  rw [h]

theorem endPeriod_running (h : s.generator g = .busy r) (hr : r.releasing = false) :
    endPeriod g s = s.setGenerator g (.busy (r.restart (r.staged.getD r.active))) := by
  unfold endPeriod
  simp [h, hr]

theorem endPeriod_releasing (h : s.generator g = .busy r) (hr : r.releasing = true) : endPeriod g s = endRelease g r.channel s := by
  unfold endPeriod
  simp [h, hr]

end

/-- A channel whose release has ended: it has nothing at the pool and drives the steady level of its present demand (R151). -/
def Channel.released (x : Channel) (k : ChannelConfig) : Channel :=
  { x with
    link := .none
    drive := if x.present.level = 0 then .inactive else .active
    feedback := x.feedback.steadyAt ((x.present.level != 0) != k.activeLow) }

/-- The generator of channel `c` FREE at the end of its release, before it is granted (R151). -/
def releaseEnded (g : GenNo) (c : Chan) (s : State) : State := (s.setGenerator g .free).setChannel c ((s.channel c).released (s.config c))

theorem endRelease_eq (g : GenNo) (c : Chan) (s : State) : endRelease g c s = grantNext g (releaseEnded g c s) := by
  have hlink : (setLink c .none (s.setGenerator g .free)).channel c = { s.channel c with link := .none } := nth_upd_same _ _ _
  unfold endRelease
  dsimp only
  rw [driveSteady_eq rfl hlink, hlink]
  unfold setLink releaseEnded Channel.released Demand.on
  rw [setChannel_twice]
  by_cases h0 : (s.channel c).present.level = 0 <;> simp [h0]

section

variable {s : State} {g : GenNo} {c : Chan}

theorem releaseEnded_channel : (releaseEnded g c s).channel c = (s.channel c).released (s.config c) := nth_upd_same _ _ _

theorem releaseEnded_channel_other {d : Chan} (h : d ≠ c) : (releaseEnded g c s).channel d = s.channel d := nth_upd_other _ _ h

theorem releaseEnded_generator : (releaseEnded g c s).generator g = .free := nth_upd_same _ _ _

/-- A channel that held its generator to the end of the release was not one of those that wait. -/
theorem releaseEnded_waiters (h : (s.channel c).link = .holding g) : waiters (releaseEnded g c s) = waiters s := by
  refine waiters_congr (fun d => ?_) rfl
  by_cases hd : d = c
  · subst hd
    rw [releaseEnded_channel, h]
    exact ⟨nofun, nofun⟩
  · rw [releaseEnded_channel_other hd]

end

/-- Settles O53: a period without a release begins again; the end of a release frees the generator (`endRelease_eq`), and a grant follows. -/
theorem periodEndsTakeUpOrRelease : Obligations.PeriodEndsTakeUpOrRelease := by
  intro s g r
  refine ⟨fun h => ?_, fun p h hr hp => ?_, fun h hr hl => ⟨endPeriod g s, rfl, ?_⟩⟩
  · exact congrArg Host.Outcome.next (endPeriod_free h)
  · rw [hp]
    exact congrArg Host.Outcome.next (endPeriod_running h hr)
  · have hframe := endPeriod_frame g s
    have hwaiters := releaseEnded_waiters hl
    have hoff : ((grantNext g (releaseEnded g r.channel s)).channel r.channel) = (s.channel r.channel).released (s.config r.channel) :=
      (grantNext_off (by rw [releaseEnded_channel]; exact nofun)).1.trans releaseEnded_channel
    rw [endPeriod_releasing h hr, endRelease_eq] at hframe ⊢
    refine ⟨congrArg Channel.link hoff, congrArg Channel.drive hoff, hframe.claims, hframe.records, hframe.channelConfigs,
      fun hnobody => ?_, fun w rest p hw hn => ?_⟩
    · rw [grantNext_nobody (hwaiters.trans hnobody)]
      exact ⟨releaseEnded_generator, fun d hd => releaseEnded_channel_other hd⟩
    · have hneeds : needs ((releaseEnded g r.channel s).config w).kind ((releaseEnded g r.channel s).channel w).present = some p := by
        rw [releaseEnded_channel_other (waiter_ne_holder hl hw)]
        exact hn
      rw [grantNext_first (hwaiters.trans hw) hneeds, startGenerator_channel]
      exact ⟨startGenerator_generator g w p _, rfl, rfl⟩

/-! ### SETTLE_TIMER_END -/

section

variable {s : State} {c : Chan} {high : Bool} {ms : Nat}

theorem endSettle_notDue (h : nth s.faultsDue c = false) (readback late : Bool) : endSettle c readback late s = settleCompare c readback late s := by
  unfold endSettle
  simp [h]

theorem endSettle_due (h : nth s.faultsDue c = true) (readback late : Bool) : endSettle c readback late s = if late then s else takeFault c s := by
  unfold endSettle
  simp [h]

/-- A pin that follows its command is WATCHED (R165). -/
theorem settleCompare_follows (h : (s.channel c).feedback = .settling high ms) (late : Bool) :
    settleCompare c high late s = s.setChannel c { s.channel c with feedback := .watched high } := by
  unfold settleCompare
  simp [h]

/-- A pin that does not follow its command faults its channel (R165). -/
theorem settleCompare_mismatch (h : (s.channel c).feedback = .settling high ms) {readback : Bool} (hne : readback ≠ high) (late : Bool) :
    settleCompare c readback late s = mismatch late c s := by
  unfold settleCompare
  simp [h, hne]

/-- The fault that is due, or that the comparison finds, is taken (R154, R165). -/
theorem endSettle_takes {readback : Bool}
    (h : nth s.faultsDue c = true ∨ ∃ high ms, (s.channel c).feedback = .settling high ms ∧ readback ≠ high) :
    endSettle c readback false s = takeFault c s := by
  cases hd : nth s.faultsDue c with
  | true => exact endSettle_due hd readback false
  | false =>
    obtain ⟨high, ms, hs, hne⟩ := h.resolve_left (by rw [hd]; nofun)
    exact (endSettle_notDue hd readback false).trans (settleCompare_mismatch hs hne false)

end

/-! #### The fault taken (R166) -/

/-- A channel in the condition that its fault brings it to, before it leaves the pool (R166). -/
def Channel.broken (x : Channel) : Channel := { x with condition := .faulted, feedback := .unsupervised, drive := .inactive }

/-- The part with the fault of channel `c` taken by the channel, before it leaves the pool (R154, R166). -/
def faultBegun (c : Chan) (s : State) : State := { s with faultsDue := upd s.faultsDue c false }.setChannel c (s.channel c).broken

theorem takeFault_eq (c : Chan) (s : State) : takeFault c s = (leavePool c (faultBegun c s)).raise .outputFault c.val := rfl

section

variable {s : State} {c : Chan}

theorem faultBegun_channel : (faultBegun c s).channel c = (s.channel c).broken := nth_upd_same _ _ _

theorem faultBegun_channel_other {e : Chan} (h : e ≠ c) : (faultBegun c s).channel e = s.channel e := nth_upd_other _ _ h

theorem faultBegun_link (e : Chan) : ((faultBegun c s).channel e).link = (s.channel e).link := by
  by_cases he : e = c
  · subst he
    rw [faultBegun_channel]
    rfl
  · rw [faultBegun_channel_other he]

theorem faultBegun_waiters : waiters (faultBegun c s) = waiters s := waiters_congr (fun e => by rw [faultBegun_link]) rfl

/-- A fault raises OUTPUT_FAULT and no other notice (R166). -/
theorem takeFault_notices (hp : s.mainPower = true) : (takeFault c s).notices = upd s.notices 7 ((s.notice .outputFault).raised c.val) := by
  have hpower : (leavePool c (faultBegun c s)).mainPower = true := (leavePool_frame c _).mainPower.trans hp
  have hsame : (leavePool c (faultBegun c s)).notices = s.notices := (leavePool_counts c _).2
  rw [takeFault_eq, State.raise_powered _ _ _ hpower]
  dsimp only [State.notice]
  rw [hsame]
  rfl

/-- The pool is left alone by the fault of a channel that holds no generator (R148). -/
theorem takeFault_unheld (h : ∀ g, (s.channel c).link ≠ .holding g) :
    (takeFault c s).generators = s.generators ∧ ∀ e, e ≠ c → (takeFault c s).channel e = s.channel e := by
  obtain ⟨-, hgens, -, hstand⟩ := leavePool_effect (faultBegun c s) c
  have hlink : ((faultBegun c s).channel c).link = .none ∨ ((faultBegun c s).channel c).link = .waiting := by
    rw [faultBegun_link]
    cases hl : (s.channel c).link with
    | none => exact Or.inl rfl
    | waiting => exact Or.inr rfl
    | holding g => exact absurd hl (h g)
  rw [takeFault_eq, State.raise_generators]
  refine ⟨hgens _ ?_, fun e he => ?_⟩
  · exact hlink.elim (fun hn => Or.inl ⟨hn, rfl⟩) fun hw => Or.inr (Or.inl ⟨hw, rfl⟩)
  · rw [State.raise_channel, hstand e he (hlink.imp_right Or.inl), faultBegun_channel_other he]

variable {g : GenNo}

/-- With nobody waiting the generator that a fault returns is FREE (R153). -/
theorem takeFault_frees (hl : (s.channel c).link = .holding g) (hw : waiters s = []) : (takeFault c s).generators = upd s.generators g .free := by
  obtain ⟨-, hgens, -, -⟩ := leavePool_effect (faultBegun c s) c
  rw [takeFault_eq, State.raise_generators]
  exact hgens _ (Or.inr (Or.inr (Or.inl ⟨g, (faultBegun_link c).trans hl, faultBegun_waiters.trans hw, rfl⟩)))

/-- The generator that a fault returns goes at once to the first waiter (R147, R153). -/
theorem takeFault_grants {w : Chan} {others : List Chan} {p : Params} (hl : (s.channel c).link = .holding g) (hw : waiters s = w :: others)
    (hn : needs (s.config w).kind (s.channel w).present = some p) :
    (takeFault c s).generators = upd s.generators g (.busy ⟨false, w, p, none, 0, p.blink.map fun _ => 0⟩)
    ∧ (takeFault c s).channel w = { s.channel w with link := .holding g, drive := .generator, feedback := .unsupervised } := by
  obtain ⟨-, hgens, hgranted, -⟩ := leavePool_effect (faultBegun c s) c
  have hlink : ((faultBegun c s).channel c).link = .holding g := (faultBegun_link c).trans hl
  have hwait : waiters (faultBegun c s) = w :: others := faultBegun_waiters.trans hw
  have hother : (faultBegun c s).channel w = s.channel w := faultBegun_channel_other (waiter_ne_holder hl hw)
  have hneeds : needs ((faultBegun c s).config w).kind ((faultBegun c s).channel w).present = some p := by
    rw [hother]
    exact hn
  rw [takeFault_eq, State.raise_generators, State.raise_channel, hgranted g w others hlink hwait (by rw [hneeds]; nofun), hother]
  exact ⟨hgens _ (Or.inr (Or.inr (Or.inr ⟨g, w, others, p, hlink, hwait, hneeds, rfl⟩))), rfl⟩

end

/-- Settles O54: the comparison, or the fault left due, by `endSettle`'s cases; the fault taken by what it makes of its channel
(`faultChannel_outOfDrive`) and of the pool (`takeFault_…`). -/
theorem settleComparisonsWatchOrFault : Obligations.SettleComparisonsWatchOrFault := by
  intro s c readback
  refine ⟨fun high ms late hd hs hr => ?_, fun high ms hd hs hr => ?_, fun hd => ?_, fun h => ⟨takeFault c s, ?_, ?_⟩⟩
  · subst hr
    exact congrArg Host.Outcome.next ((endSettle_notDue hd readback late).trans (settleCompare_follows hs late))
  · exact congrArg Host.Outcome.next ((endSettle_notDue hd readback true).trans (settleCompare_mismatch hs hr true))
  · exact congrArg Host.Outcome.next (endSettle_due hd readback true)
  · exact congrArg Host.Outcome.next (endSettle_takes h)
  · obtain ⟨hcondition, hdrive, hlink, hfeedback⟩ : OutOfDrive c (takeFault c s) := faultChannel_outOfDrive c _
    have hframe : ChannelFrame { s with faultsDue := upd s.faultsDue c false } (takeFault c s) := faultChannel_frame c _
    have hpresent : SamePresent { s with faultsDue := upd s.faultsDue c false } (takeFault c s) := faultChannel_present c _
    exact ⟨hcondition, hdrive, hfeedback, hlink, hpresent c, hframe.claims, hframe.records, hframe.waiting,
      (congrArg (nth · c) hframe.faultsDue).trans (nth_upd_same _ _ _), takeFault_notices, takeFault_unheld,
      fun g hl => ⟨takeFault_frees hl, fun _ _ _ => takeFault_grants hl⟩⟩

end Sys2Proof.Machine
end


/-!
PROOFS. Storage disturbances (08 section 8.1; R157): what each form changes, and that the rest of the part stands.
-/

namespace Sys2Proof.Machine

/-! ### STORAGE_DISTURBANCE -/

/-- A FREE record's image holds no protected flag, so a disturbance finds none to change (R20, R157). -/
theorem disturbProtected_free {r : Record} (h : r.state = .free) (p : Bool) : disturbProtected p r = r := if_pos h

theorem disturbProtected_stored {r : Record} (h : r.state ≠ .free) (p : Bool) : disturbProtected p r = { r with prot := p } := if_neg h

/-- Whatever the record's state, the protected flag alone is at risk (R157). -/
theorem disturbProtected_eq (p : Bool) (r : Record) :
    disturbProtected p r = { r with prot := if r.state = .free then r.prot else p } := by
  by_cases h : r.state = .free
  · rw [disturbProtected_free h, if_pos h]
  · rw [disturbProtected_stored h, if_neg h]

/-- Settles O13: each form of a disturbance sets one record or one rule; a protected flag is there to change unless the record is FREE
(`disturbProtected_eq`). -/
theorem disturbanceChangesOneImage : Obligations.DisturbanceChangesOneImage := by
  intro s
  refine ⟨fun n c => ?content, fun n c => ?draft, fun n p => ?protectedFlag, fun n v => ?recordCode, fun r f => ?fields, fun r v => ?ruleCode⟩
  case content | draft | recordCode | fields | ruleCode => rfl
  case protectedFlag => exact congrArg (fun x => Host.Outcome.next (s.setRecord n x)) (disturbProtected_eq p (s.record n))

end Sys2Proof.Machine

section
/-!
PROOFS. The command port and the notices (R170 to R182): bytes written and read, the status byte, lines refused for their word, their length or the
number of their fields, NGET and NMSK.
-/

namespace Sys2Proof.Machine

/-! ### The number of fields (R178 order 4) -/

/-- A command that takes lines of digits in these numbers of fields alone: it refuses any other with FIELD_COUNT. -/
def TakesCounts (counts : List Nat) (body : List Text → State → Reply) : Prop :=
  ∀ (fields : List Text) (u : State), (∀ f ∈ fields, allHex f) → fields.length ∉ counts → body fields u = refuse .fieldCount u

/-- The line of a word whose command takes these numbers of fields alone. -/
theorem TakesCounts.refused {counts : List Nat} {body : List Text → State → Reply} (hb : TakesCounts counts body) {word : Text}
    {fields : List Text} {s : State} (h : lineTaken word fields s = true) (hh : ∀ f ∈ fields, allHex f) (hn : fields.length ∉ counts) :
    (.next (carryOut word fields (body fields) s) : Result) = .next (refusedWith .fieldCount s) :=
  congrArg Host.Outcome.next (carryOut_refused h (hb fields _ hh hn))

/-- The digit check stands before the field count, and a line of digits passes it (R178 orders 3 and 4). -/
theorem takesCounts_checked {r : DigitRule} {counts : List Nat} {read : List Text → State → Reply}
    (h : ∀ fields u, fields.length ∉ counts → (∀ f ∈ fields, allHex f) → read fields u = refuse .fieldCount u) :
    TakesCounts counts fun fields u => if r.bad fields then refuse .badDigit u else read fields u :=
  fun fields u hh hn => (if_neg (Bool.eq_false_iff.mp (bad_of_allHex r hh))).trans (h fields u hn hh)

/-! A command without fields. -/

theorem takesCounts_none (out : State → Reply) : TakesCounts [0] fun fields u => if fields = [] then out u else refuse .fieldCount u :=
  fun _ _ _ hn => if_neg fun e => hn (by simp [e])

theorem bodyTget_counts : TakesCounts [0] bodyTget := takesCounts_none _
theorem bodyGget_counts : TakesCounts [0] bodyGget := takesCounts_none _
theorem bodyNget_counts : TakesCounts [0] bodyNget := takesCounts_none _

/-! A command that matches its fields one by one: a line either has the form it matches, or falls to its last arm. -/

theorem takesCounts_form {r : DigitRule} {n : Nat} {read : List Text → State → Reply}
    (h : ∀ fields u, fields.length = n ∨ read fields u = refuse .fieldCount u) :
    TakesCounts [n] fun fields u => if r.bad fields then refuse .badDigit u else read fields u :=
  takesCounts_checked fun fields u hn _ => (h fields u).resolve_left (List.mem_singleton.not.mp hn)

theorem bodyTset_counts : TakesCounts [2] bodyTset := fun _ u hh hn => bodyTset_fieldCount hh (List.mem_singleton.not.mp hn) u
theorem bodyTadj_counts : TakesCounts [2] bodyTadj := fun _ u hh hn => bodyTadj_fieldCount hh (List.mem_singleton.not.mp hn) u
theorem bodyDfrq_counts : TakesCounts [1] bodyDfrq := fun _ u hh hn => bodyDfrq_fieldCount hh (List.mem_singleton.not.mp hn) u

theorem onChannel_counts (act : Chan → State → Reply) : TakesCounts [1] fun fields => onChannel fields act :=
  fun _ u hh hn => onChannel_fieldCount hh (List.mem_singleton.not.mp hn) act u

theorem onRecord_counts (guarded : Bool) (act : RecNo → State → Reply) : TakesCounts [1] fun fields => onRecord guarded fields act :=
  takesCounts_form fun _ _ => by split; exacts [.inl rfl, .inr rfl]
theorem bodyRprt_counts : TakesCounts [2] bodyRprt := takesCounts_form fun _ _ => by split; exacts [.inl rfl, .inr rfl]
theorem bodyRfnd_counts : TakesCounts [3] bodyRfnd := takesCounts_form fun _ _ => by split; exacts [.inl rfl, .inr rfl]
theorem bodyRnxt_counts : TakesCounts [1] bodyRnxt := takesCounts_form fun _ _ => by split; exacts [.inl rfl, .inr rfl]
theorem bodyCset_counts : TakesCounts [5] bodyCset := takesCounts_form fun _ _ => by split; exacts [.inl rfl, .inr rfl]
theorem bodyCrel_counts : TakesCounts [2] bodyCrel := takesCounts_form fun _ _ => by split; exacts [.inl rfl, .inr rfl]
theorem bodyGscl_counts : TakesCounts [4] bodyGscl := takesCounts_form fun _ _ => by split; exacts [.inl rfl, .inr rfl]
theorem bodyClst_counts : TakesCounts [1, 2] bodyClst :=
  takesCounts_checked fun _ _ hn _ => by split; exacts [absurd (by simp) hn, absurd (by simp) hn, rfl]

theorem bodyIcfg_counts : TakesCounts [5] bodyIcfg := takesCounts_form fun _ _ => by split; exacts [.inl rfl, .inr rfl]
theorem bodyIget_counts : TakesCounts [1] bodyIget := takesCounts_form fun _ _ => by split; exacts [.inl rfl, .inr rfl]
theorem bodyTrgt_counts : TakesCounts [1] bodyTrgt := takesCounts_form fun _ _ => by split; exacts [.inl rfl, .inr rfl]
theorem bodyCcfg_counts : TakesCounts [8] bodyCcfg := takesCounts_form fun _ _ => by split; exacts [.inl rfl, .inr rfl]
theorem bodyFrzk_counts (q : FreezeSeq) : TakesCounts [2] fun fields => bodyFrzk fields q :=
  takesCounts_form fun _ _ => by split; exacts [.inl rfl, .inr rfl]
theorem bodyNmsk_counts : TakesCounts [1] bodyNmsk := takesCounts_form fun _ _ => by split; exacts [.inl rfl, .inr rfl]

/-! A command that takes two numbers of fields, or a form of its own beside the number: RWRT's NOW (R28), TRWR's clearing "-" (R116), which a line
of digits does not hold. -/

theorem bodyRwrt_counts : TakesCounts [11, 12] bodyRwrt := takesCounts_checked fun _ _ hn _ => by
  rw [rwrtFields_none.mpr (by simpa using hn)]

theorem dash_not_allHex : ¬ allHex (text "-") := by unfold allHex; decide

theorem bodyTrwr_counts : TakesCounts [9] bodyTrwr := takesCounts_checked fun fields _ hn hh => by
  have hclear : ∀ f, fields ≠ [f, text "-"] := fun f e => dash_not_allHex (hh _ (by simp [e]))
  rw [trwrFields_none.mpr ⟨List.mem_singleton.not.mp hn, hclear⟩]

/-- RSTR with fields is refused as any line is (R182). -/
theorem runRstr_fields {fields : List Text} (h : fields ≠ []) (visits : Nat) (s : State) :
    runRstr fields visits s = carryOut (text "RSTR") fields (refuse .fieldCount) s := by
  unfold runRstr carryOut
  simp only [if_neg h]

/-- Settles O58: each command word with the numbers of fields its body takes; RSTR, which answers only a line that it refuses, is the last. -/
theorem wrongFieldCountsAreRefused : Obligations.WrongFieldCountsAreRefused := by
  intro s fields v
  simp only [List.forall_mem_cons]
  refine ⟨bodyTset_counts.refused, bodyTadj_counts.refused, bodyTget_counts.refused, bodyRwrt_counts.refused,
    (onRecord_counts _ _).refused, (onRecord_counts _ _).refused, (onRecord_counts _ _).refused, (onRecord_counts _ _).refused,
    (onRecord_counts _ _).refused, (onRecord_counts _ _).refused, bodyRprt_counts.refused, bodyRfnd_counts.refused, bodyRnxt_counts.refused,
    bodyCset_counts.refused, bodyCrel_counts.refused, bodyGscl_counts.refused, bodyClst_counts.refused, bodyIcfg_counts.refused,
    bodyIget_counts.refused, bodyTrwr_counts.refused, bodyTrgt_counts.refused, bodyCcfg_counts.refused, (onChannel_counts _).refused,
    (onChannel_counts _).refused, (bodyFrzk_counts s.freezeSeq).refused, bodyDfrq_counts.refused, bodyGget_counts.refused,
    (onChannel_counts _).refused, bodyNget_counts.refused, bodyNmsk_counts.refused, fun h _ hn => ?rstr, nofun⟩
  case rstr =>
    have hf : fields ≠ [] := fun e => hn (by simp [e])
    exact congrArg Host.Outcome.next ((runRstr_fields hf v s).trans (carryOut_refused h rfl))

/-! ### The port status byte (Table 9-1) -/

@[simp] theorem getLsbD_bitOf (b : Bool) (v : BitVec 8) (j : Nat) : (bitOf b v).getLsbD j = (b && v.getLsbD j) := by
  cases b <;> simp [bitOf]

/-- ATN is active exactly while an unmasked kind has a count above 0 (R181). -/
theorem attention_iff (s : State) : s.attention = true ↔ ∃ k : Fin 12, s.mask.getLsbD k.val = true ∧ (nth s.notices k).count ≠ 0 := by
  simp [State.attention]

/-- Each bit of the status byte is that of the flags whose value holds it. -/
theorem statusByte_getLsbD (s : State) (j : Nat) : (statusByte s).getLsbD j =
    ((0x80 : Byte).getLsbD j || ((!s.port.line.isEmpty || s.port.overlength) && (0x20 : Byte).getLsbD j) || (s.attention && (0x10 : Byte).getLsbD j)
      || (s.port.dropped && (0x08 : Byte).getLsbD j) || (s.port.overrun && (0x04 : Byte).getLsbD j)
      || ((s.port.state == .executing) && (0x01 : Byte).getLsbD j)) := by
  simp only [statusByte, BitVec.getLsbD_or, getLsbD_bitOf]

/-- Settles O57: at each bit, `statusByte_getLsbD` leaves the one flag whose value holds it. -/
theorem statusByteBits : Obligations.StatusByteBits := by
  intro s
  simp only [statusByte_getLsbD]
  refine ⟨by simp, by simp, by simp, by simp, ?attention, by simp, by simp, by simp⟩
  case attention => simpa using attention_iff s

/-! ### Bytes written (R170 to R174) -/

section

variable {p : Port} {b : Byte}

theorem Port.write_stored (hr : b ≠ cr) (hf : b ≠ lf) (hl : p.line.length < 79) :
    p.write b = { p with line := p.line ++ [b], gapTimer := some 250 } :=
  (if_neg hr).trans ((if_neg hf).trans (if_pos hl))

theorem Port.write_overlength (hr : b ≠ cr) (hf : b ≠ lf) (hl : 79 ≤ p.line.length) :
    p.write b = { p with overlength := true, gapTimer := some 250 } :=
  (if_neg hr).trans ((if_neg hf).trans (if_neg (Nat.not_lt.mpr hl)))

theorem Port.write_lf (p : Port) :
    p.write lf = if p.line = [] ∧ p.overlength = false then p else { p with gapTimer := some 250 } := by
  refine (if_neg (by decide)).trans ((if_pos rfl).trans ?_)
  simp [Port.feed, Config.gapMs]

theorem Port.write_cr (p : Port) : p.write cr = p.endLine := if_pos rfl

theorem Port.strobeIn_reinit {k : Nat} (h : p.reinit = k + 1) (b : Byte) : p.strobeIn b = { p with reinit := k } := by
  simp [Port.strobeIn, Port.reinitPassed, h]

theorem Port.strobeIn_accepting (h0 : p.reinit = 0) (h : p.state = .accepting) (b : Byte) : p.strobeIn b = p.write b := by
  simp [Port.strobeIn, h0, h]

theorem Port.strobeIn_executing (h0 : p.reinit = 0) (h : p.state = .executing) (b : Byte) : p.strobeIn b = { p with overrun := true } := by
  simp [Port.strobeIn, h0, h]

theorem Port.strobeIn_answering (h0 : p.reinit = 0) (h : p.state = .answering) (b : Byte) : p.strobeIn b = p.abandon.strobeIn b := by
  simp [Port.strobeIn, Port.abandon, h0, h]

end

/-- A strobe with SEL asserted on a powered part reaches the port. -/
theorem exec_portWrite {s : State} {b : Byte} {p : Port} (hp : s.mainPower = true) (h : s.port.strobeIn b = p) :
    exec (.portWrite true b) s = .next { s with port := p } := by
  rw [← h]
  exact congrArg Host.Outcome.next (if_pos hp)

/-- Settles O55: the port's own step (`strobeIn_…`, `write_…`) in each state, set back into the part. -/
theorem writtenBytesReachTheLine : Obligations.WrittenBytesReachTheLine := by
  intro s b
  refine ⟨rfl, fun ha hg => ?gap, fun k hp hk => exec_portWrite hp (Port.strobeIn_reinit hk b), fun hp h0 =>
    ⟨fun he => exec_portWrite hp (Port.strobeIn_executing h0 he b), fun ha => ?answering,
      fun ha hr hf => ⟨fun hl => ?stored, fun hl => ?overlength⟩, fun ha => ?feed,
      fun ha => exec_portWrite hp ((Port.strobeIn_accepting h0 ha cr).trans s.port.write_cr)⟩⟩
  case gap => exact congrArg Host.Outcome.next (if_pos ⟨ha, Option.isSome_iff_ne_none.mpr hg⟩)
  case answering =>
    have habandoned : exec (.portWrite true b) { s with port := s.port.abandon } = .next { s with port := s.port.abandon.strobeIn b } :=
      exec_portWrite (s := { s with port := s.port.abandon }) hp rfl
    exact (exec_portWrite hp (Port.strobeIn_answering h0 ha b)).trans habandoned.symm
  case stored => exact exec_portWrite hp ((Port.strobeIn_accepting h0 ha b).trans (Port.write_stored hr hf hl))
  case overlength => exact exec_portWrite hp ((Port.strobeIn_accepting h0 ha b).trans (Port.write_overlength hr hf hl))
  case feed =>
    rw [exec_portWrite hp ((Port.strobeIn_accepting h0 ha lf).trans s.port.write_lf)]
    split <;> rfl

/-! ### Bytes read (R170, R174 to R176) -/

theorem Port.readChar_more {p : Port} (h : p.readPos + 1 < p.response.length) (b : Byte) :
    p.readChar b = { p with readPos := p.readPos + 1, busOut := some b } := if_pos h

/-- The last character ends the answer (R174). -/
theorem Port.readChar_last {p : Port} (h : p.readPos + 1 = p.response.length) (b : Byte) :
    p.readChar b = { p with state := .accepting, response := [], readPos := 0, busOut := some b } := if_neg h.not_lt

theorem exec_portRead {s : State} {p : Port} (hp : s.mainPower = true) (h : strobeOut s = p) :
    exec (.portRead true) s = .next { s with port := p } := by
  rw [← h]
  exact congrArg Host.Outcome.next (if_pos hp)

theorem strobeOut_reinit {s : State} {k : Nat} (h : s.port.reinit = k + 1) :
    strobeOut s = { s.port with reinit := k, busOut := some (statusByte s ||| 0x01) } := by
  simp [strobeOut, Port.reinitPassed, h]

theorem strobeOut_status {s : State} (h0 : s.port.reinit = 0) (h : s.port.state ≠ .answering) :
    strobeOut s = s.port.readStatus (statusByte s) := by
  unfold strobeOut
  rw [if_neg (not_not.mpr h0)]
  split
  · exact absurd ‹_› h
  · rfl

theorem strobeOut_char {s : State} {b : Byte} (h0 : s.port.reinit = 0) (h : s.port.state = .answering)
    (hb : s.port.response[s.port.readPos]? = some b) : strobeOut s = s.port.readChar b := by
  simp [strobeOut, h0, h, hb]

/-- The executing bit of a status byte, set: the other bits stay (R182). -/
theorem getLsbD_or_one (v : Byte) : (v ||| 0x01).getLsbD 0 = true ∧ ∀ j : Nat, j ≠ 0 → (v ||| 0x01).getLsbD j = v.getLsbD j := by
  refine ⟨by simp, fun j hj => ?_⟩
  have hone : (0x01 : Byte).getLsbD j = false := by simp [hj]
  rw [BitVec.getLsbD_or, hone, Bool.or_false]

/-- Settles O56: what the port strobes out in each state (`strobeOut_…`), set back into the part. -/
theorem readsReturnAnswersOrStatus : Obligations.ReadsReturnAnswersOrStatus := by
  intro s
  refine ⟨rfl, fun k hp hk => ?reinit, fun hp h0 => ⟨fun ha => exec_portRead hp (strobeOut_status h0 ha), fun b ha hb => ?answering⟩⟩
  case reinit =>
    exact ⟨statusByte s ||| 0x01, exec_portRead hp (strobeOut_reinit hk), getLsbD_or_one (statusByte s)⟩
  case answering =>
    have hchar := strobeOut_char h0 ha hb
    exact ⟨fun hmore => exec_portRead hp (hchar.trans (Port.readChar_more hmore b)),
      fun hlast => exec_portRead hp (hchar.trans (Port.readChar_last hlast b))⟩

/-! ### Lines answered with a status alone (R171, R178) -/

/-- A line is its word and its fields, each behind a space (R177). -/
theorem intercalate_lineText (word : Text) (fields : List Text) : List.intercalate [sp] (word :: fields) = lineText word fields := by
  induction fields generalizing word with
  | nil => simp [List.intercalate, lineText, Text.fieldsText]
  | cons f fields ih => rw [intercalate_cons _ _ _ (by simp), ih]; simp [lineText, Text.fieldsText]

/-- A line is written back from what the port splits it into. -/
theorem lineText_splitLine (line : Text) : lineText (splitLine line).1 (splitLine line).2 = line := by
  have hjoin := splitAt_join sp line
  unfold splitLine
  cases hs : splitAt sp line with
  | nil => exact absurd hs (splitAt_ne_nil sp line)
  | cons w fields => rw [← intercalate_lineText, ← hs, hjoin]

theorem splitsTo_splitLine (line : Text) : splitsTo (splitLine line).1 (splitLine line).2 = true := by
  simp [splitsTo, lineText_splitLine]

/-- A status alone is the answer of a command that always refuses. -/
theorem answerLine_eq_carryOut (line : Text) (st : Status) (s : State) :
    answerLine line false st s = carryOut (splitLine line).1 (splitLine line).2 (refuse st) s := by
  unfold answerLine carryOut
  rw [if_pos (splitsTo_splitLine line), lineText_splitLine]

theorem answerLine_ready {s : State} {line : Text} (hp : s.mainPower = true) (hpl : Text.plain line = true) (hl : line.length ≤ 79)
    (hready : portReady line s.port = true) (st : Status) : answerLine line false st s = refusedWith st s := by
  have h : lineTaken (splitLine line).1 (splitLine line).2 s = true := by
    simpa [lineTaken, splitsTo_splitLine, lineText_splitLine, hp, hpl, hready, Config.lineMax] using hl
  rw [answerLine_eq_carryOut, carryOut_refused h rfl]

theorem takeLine_overlong_idle {s : State} {line : Text} (hp : s.mainPower = true) (h0 : s.port.reinit = 0) (hpl : Text.plain line = true)
    (hl : 79 < line.length) (hs : s.port.state ≠ .executing) (he : s.port.line = []) (ho : s.port.overlength = false) :
    takeLine line true s = some { s with port := s.port.takes ⟨line.take 79, true, s.port.overrun⟩ } := by
  have hidle : s.port.idle = true := by simp [Port.idle, hs, he, ho]
  unfold takeLine
  rw [if_pos ⟨hp, h0⟩]
  split
  · exact absurd ‹_› hs
  · simp [hidle, hpl, Config.lineMax, hl]

theorem takeLine_overlong_executing {s : State} {line : Text} {mark : Bool} (hp : s.mainPower = true) (h0 : s.port.reinit = 0)
    (hs : s.port.state = .executing) (hk : s.port.taken = some ⟨line.take 79, true, mark⟩) : takeLine line true s = some s := by
  simp [takeLine, hp, h0, hs, hk, Config.lineMax]

theorem markNow_idle {p : Port} (h : p.state ≠ .executing) : markNow p = p.overrun := by
  unfold markNow
  split
  · exact absurd ‹_› h
  · rfl
  · rfl

/-- A line too long that the host writes whole. -/
theorem lineTooLong_idle {s : State} {line : Text} (hp : s.mainPower = true) (h0 : s.port.reinit = 0) (hpl : Text.plain line = true)
    (hl : 79 < line.length) (hs : s.port.state ≠ .executing) (he : s.port.line = []) (ho : s.port.overlength = false) :
    answerLine line true .lineTooLong s = refusedWith .lineTooLong s := by
  unfold answerLine
  rw [takeLine_overlong_idle hp h0 hpl hl hs he ho]
  unfold refusedWith answered
  rw [markNow_idle hs]
  rfl

/-- A line too long that the port has taken. -/
theorem lineTooLong_executing {s : State} {line : Text} {mark : Bool} (hp : s.mainPower = true) (h0 : s.port.reinit = 0)
    (hs : s.port.state = .executing) (hg : s.port.gapTimer = none) (hk : s.port.taken = some ⟨line.take 79, true, mark⟩) :
    answerLine line true .lineTooLong s = refusedWith .lineTooLong s := by
  have hmark : markNow s.port = takenMark s := by
    unfold markNow
    rw [hs]
    rfl
  unfold answerLine
  rw [takeLine_overlong_executing hp h0 hs hk]
  unfold refusedWith answered
  rw [hmark, ← hg]
  rfl

/-- Settles O59: an unknown word's line is the line of its own word and fields; one too long is taken with its mark. -/
theorem linesThatAreNoCommand : Obligations.LinesThatAreNoCommand := by
  intro s line hp hpl
  refine ⟨fun hl hready hword => ?unknown, fun hl => ⟨fun hs he ho h0 => ?idle, fun mark hs hg h0 hk => ?executing⟩⟩
  case unknown =>
    have hunknown : unknownWord line = true := by simpa [unknownWord] using hword
    exact congrArg Host.Outcome.next ((if_pos hunknown).trans (answerLine_ready hp hpl hl hready _))
  case idle => exact congrArg Host.Outcome.next (lineTooLong_idle hp h0 hpl hl hs he ho)
  case executing => exact congrArg Host.Outcome.next (lineTooLong_executing hp h0 hs hg hk)

/-! ### NGET, NMSK (R180, R181) -/

theorem raisedKinds_eq_nil_iff (s : State) : raisedKinds s = [] ↔ ∀ k, (nth s.notices k).count = 0 := by
  simp [raisedKinds]

/-- NGET's fields: "-" alone, or the group of each kind raised (R180). -/
theorem noticeFields_eq (s : State) :
    noticeFields s = if ∀ k, (nth s.notices k).count = 0 then [text "-"] else (raisedKinds s).flatMap (noticeText s) := by
  unfold noticeFields
  split
  · rw [if_pos ((raisedKinds_eq_nil_iff s).mp ‹_›)]
    rfl
  · rename_i hne
    rw [if_neg fun hall => hne ((raisedKinds_eq_nil_iff s).mpr hall)]

/-- NMSK's reading of a field of digits or "-" (R181). -/
theorem bodyNmsk_one {f : Text} (h : f = dash ∨ allHex f) (u : State) :
    bodyNmsk [f] u = (maskField f).elim (refuse .range u) fun m => accept [] { u with mask := m } := by
  have hdigits : (DigitRule.dashes none 1).bad [f] = false := by
    simp [bad_false_iff, fieldOk_hexOrDash (.dashes none 1) (i := 0) (by decide) h]
  unfold bodyNmsk
  rw [hdigits, if_neg Bool.false_ne_true]
  dsimp only
  cases maskField f with
  | none => rfl
  | some m => rfl

theorem bodyNmsk_mask {f : Text} {m : BitVec 12} (hm : maskField f = some m) (u : State) :
    bodyNmsk [f] u = accept [] { u with mask := m } := by
  rw [bodyNmsk_one (.inr (maskField_allHex hm)), hm]
  rfl

theorem bodyNmsk_range {f : Text} (h : f = dash ∨ allHex f) (hm : maskField f = none) (u : State) : bodyNmsk [f] u = refuse .range u := by
  rw [bodyNmsk_one h, hm]
  rfl

theorem maskField_dash : maskField dash = none := by decide

/-- Settles O60: NGET's fields by `noticeFields_eq`; NMSK's line by what its field reads as. -/
theorem ngetAndNmskWorkOnTheNotices : Obligations.NgetAndNmskWorkOnTheNotices := by
  intro s
  refine ⟨fun h => ?nget, fun f h => ⟨fun m hm => ?mask, ?absent, fun hh hm => ?range⟩⟩
  case nget =>
    have hbody : bodyNget [] (begun (text "NGET") [] s) = accept (noticeFields s)
        { begun (text "NGET") [] s with notices := Vector.replicate 12 .blank } := rfl
    refine congrArg Host.Outcome.next ((carryOut_accepted h (bodyNget_frame _) hbody).trans ?_)
    rw [noticeFields_eq]
    rfl
  case mask => exact congrArg Host.Outcome.next (carryOut_accepted h (bodyNmsk_frame _) (bodyNmsk_mask hm _))
  case absent =>
    rintro rfl
    exact congrArg Host.Outcome.next (carryOut_refused h (bodyNmsk_range (.inl rfl) maskField_dash _))
  case range => exact congrArg Host.Outcome.next (carryOut_refused h (bodyNmsk_range (.inr hh) hm _))

end Sys2Proof.Machine
end
